-- ==== Sys2Proof/Word.lean ====
section
/-!
DEFINITION. The plain value types that commands carry: bytes, addresses, identifiers, beats.
Rules: 00_scope.md (Conventions), R44, R47, R118, R119.
-/

namespace Sys2Proof

/-- One byte; a component value is a byte read as 0 to 255. -/
abbrev Byte := BitVec 8

/-- A 36-bit byte address (00_scope.md, Addresses). -/
abbrev Addr := BitVec 36

/-- A generation number, 0 to 255, wrapping (R22). -/
abbrev Gen := BitVec 8

/-- An upstream ID, 0 to 63 (R44). -/
abbrev UpId := Fin 64

/-- A downstream tag, 0 to 15 (R119). -/
abbrev Tag := Fin 16

/-- The number of one of the sixteen Transaction Table entries (R47). -/
abbrev EntryNo := Fin 16

/-- A window slot, 0 to 7 (R1). -/
abbrev SlotNo := Fin 8

/-- A merge slot, 0 to 3 (R85). -/
abbrev MergeNo := Fin 4

/-- The direction of a request, and the kind of a downstream transaction. -/
inductive Dir where
  | read
  | write
  deriving DecidableEq, Repr

/-- The status a downstream response carries (R118). -/
inductive DownStatus where
  | ok
  | error
  deriving DecidableEq, Repr

/-- One byte of a write beat with its strobe; a set strobe means the byte is written. -/
structure Lane where
  val : Byte
  strobe : Bool
  deriving DecidableEq, Repr

/-- A write beat: eight lanes, lowest address first. -/
abbrev WBeat := List Lane

/-- A read beat: eight bytes, lowest address first. -/
abbrev RBeat := List Byte

/-- What happens on the RESET_N pin: the whole pulse of POWER_ON_RESET, or one of its two edges
(R24 tells what holds while the pin is asserted). -/
inductive ResetPin where
  | pulse
  | asserted
  | released
  deriving DecidableEq, Repr

/-- An event on RESET_N: what the pin does, and whether a link frame is in progress at that moment (R184; log
entry 19). -/
structure ResetEvent where
  pin : ResetPin
  midFrame : Bool
  deriving DecidableEq, Repr

end Sys2Proof
end

