-- ==== Sys2Proof/Config.lean ====
section
/-!
DEFINITION. What the part fixes: its sizes and power-on values. The spec leaves no value open that
a command computes, so there is no free value here.
-/

namespace Sys2Proof.Config

/-- The Fault Queue holds at most 8 records (R153). -/
def faultCapacity : Nat := 8

/-- The summary queue holds at most 4 summaries (R147). -/
def summaryCapacity : Nat := 4

/-- The power-on response timeout (R171). -/
def defaultTimeout : BitVec 16 := 2000

/-- The largest value of a statistics counter (R143). -/
def counterMax : Nat := 4294967295

/-- The largest argument length of a command frame (R166). -/
def maxArgs : Nat := 60

/-- One past the largest address (00_scope.md, Addresses). -/
def addressSpace : Nat := 68719476736

/-- The largest window length that can be stored, 4 GiB (R4). -/
def maxLength : Nat := 4294967296

/-- All entry numbers and all tags, in ascending order. -/
def sixteen : List (Fin 16) := [0, 1, 2, 3, 4, 5, 6, 7, 8, 9, 10, 11, 12, 13, 14, 15]

/-- All window slots, in ascending order. -/
def eightSlots : List SlotNo := [0, 1, 2, 3, 4, 5, 6, 7]

/-- All merge slots, in ascending order. -/
def fourMergeSlots : List MergeNo := [0, 1, 2, 3]

end Sys2Proof.Config
end

