-- ==== Sys2Proof/Syntax.lean ====
section
/-!
DEFINITION. The commands of the block: one constructor per row of spec/opcode_table.json, with the
operands the spec's text gives it. The rule that heads each row is named at its constructor.
-/

namespace Sys2Proof

/-- A command. The constructors of the management link that carry `args` stand for a command frame
of that code whose length byte and CRC are good; `args` are its argument bytes, whatever they are. Bits of
an incomplete last byte belong to no frame's bytes (R164), so such a command stands for the frame with any
of them and with none. -/
inductive Instr where
  /-- READ_REQUEST (R44, R49). -/
  | readRequest (id : UpId) (addr : Addr) (beats : Nat)
  /-- WRITE_REQUEST (R44, R49). -/
  | writeRequest (id : UpId) (addr : Addr) (beats : Nat) (data : List WBeat)
  /-- RETIREMENT (R62): the master takes the response on offer. -/
  | retirement
  /-- DOWN_REQUEST_ACCEPTED (R121): the memory side accepts the presented request. -/
  | downRequestAccepted
  /-- DOWN_READ_RETURN (R118, R128). -/
  | downReadReturn (tag : Tag) (status : DownStatus) (data : List RBeat)
  /-- DOWN_WRITE_RETURN (R118, R128). -/
  | downWriteReturn (tag : Tag) (status : DownStatus)
  /-- DEADLINE_EXPIRY (R127, R129). -/
  | deadlineExpiry (tag : Tag)
  /-- POWER_ON_RESET (R24, R184). -/
  | powerOnReset (event : ResetEvent)
  /-- QUERY, code 0x01 (R172). -/
  | query (args : List Byte)
  /-- STAGE_WRITE, code 0x10 (R173). -/
  | stageWrite (args : List Byte)
  /-- STAGE_READ, code 0x11 (R174). -/
  | stageRead (args : List Byte)
  /-- ACTIVE_READ, code 0x12 (R174). -/
  | activeRead (args : List Byte)
  /-- STAGE_CLEAR, code 0x13 (R175). -/
  | stageClear (args : List Byte)
  /-- STAGE_COPY, code 0x14 (R176). -/
  | stageCopy (args : List Byte)
  /-- COMMIT, code 0x15 (R177). -/
  | commit (args : List Byte)
  /-- STATS_READ, code 0x20 (R178). -/
  | statsRead (args : List Byte)
  /-- SUMMARY_POP, code 0x21 (R179). -/
  | summaryPop (args : List Byte)
  /-- FAULT_POP, code 0x22 (R180). -/
  | faultPop (args : List Byte)
  /-- SET_PARAM, code 0x30, with parameter byte 0x00; `value` is what follows it (R181). -/
  | setParamTimeout (value : List Byte)
  /-- SET_PARAM, code 0x30, with parameter byte 0x01; `value` is what follows it (R181). -/
  | setParamAlertMask (value : List Byte)
  /-- PURGE, code 0x31 (R182). -/
  | purge (args : List Byte)
  /-- SOFT_RESET, code 0x3E (R183). -/
  | softReset (args : List Byte)
  /-- FETCH (R169): the code byte 0x80 and `clocked` further whole bytes. -/
  | fetch (clocked : Nat)
  /-- REJECTED_FRAME (R164, R166): the bits of a frame that is not carried out, as SPI_MOSI carries them. -/
  | rejectedFrame (bits : List Bool)
  deriving DecidableEq, Repr

end Sys2Proof
end

