-- ==== Sys2Proof/Decode.lean ====
section
/-!
DEFINITION. The table gives no command any bits, so `decodeTableWord` answers none. What the spec does
lay out is the management-link frame (R164 to R166, R185): `wholeBytes` assembles its bytes from the bits shifted
in, `decodeFrame` says which command a frame is, and `encodeFrame` writes the frame of a command.
-/

namespace Sys2Proof

/-- No row of spec/opcode_table.json has bits, so no word spells a command. -/
def decodeTableWord (_nbits _w : Nat) : Option Instr := none

/-! ## Bits (R164) -/

/-- A bit shifted into a byte below the bits before it: most significant bit first (R164). -/
def shiftIn (b : Byte) (bit : Bool) : Byte := (b <<< 1) ||| (if bit then 1 else 0)

/-- The whole bytes of the bits shifted in since the assertion of SPI_CS_N; the bits of an incomplete last
byte are discarded (R164). -/
def wholeBytes : List Bool → List Byte
  | b7 :: b6 :: b5 :: b4 :: b3 :: b2 :: b1 :: b0 :: rest =>
    [b7, b6, b5, b4, b3, b2, b1, b0].foldl shiftIn 0 :: wholeBytes rest
  | _ => []

/-- The bits of a byte in the order in which they are shifted (R164). -/
def byteBits (b : Byte) : List Bool := [7, 6, 5, 4, 3, 2, 1, 0].map b.getLsbD

/-- The bits of a frame's bytes, first byte first (R164). -/
def frameBits (frame : List Byte) : List Bool := frame.flatMap byteBits

/-! ## Checks (R165, R166) -/

/-- One shift of the CRC register (R165). -/
def crcShift (r : Byte) : Byte := if r.msb then (r <<< 1) ^^^ 0x07 else r <<< 1

/-- One byte into the CRC register: exclusive-or, then eight shifts (R165). -/
def crcByte (r b : Byte) : Byte :=
  crcShift (crcShift (crcShift (crcShift (crcShift (crcShift (crcShift (crcShift (r ^^^ b))))))))

/-- The CRC-8 of a sequence of bytes (R165). -/
def crc8 (bytes : List Byte) : Byte := bytes.foldl crcByte 0

/-- The checks 1 to 3 of R166 that a command frame can fail. -/
inductive FrameError where
  | framing
  | badCrc
  | unknownCommand
  deriving DecidableEq, Repr

/-- The command codes of R185. -/
def knownCode (code : Byte) : Bool :=
  [0x01, 0x10, 0x11, 0x12, 0x13, 0x14, 0x15, 0x20, 0x21, 0x22, 0x30, 0x31, 0x3E].contains code

/-- Check 1 of R166: at least 3 bytes, argument length at most 60, and exactly 3 + n bytes. -/
def frameLengthOk (frame : List Byte) : Bool :=
  match frame with
  | _ :: n :: _ :: _ => decide (n.toNat ≤ Config.maxArgs) && decide (frame.length = 3 + n.toNat)
  | _ => false

/-- The first of checks 1 to 3 of R166 that a command frame fails, or none. -/
def frameError (frame : List Byte) : Option FrameError :=
  if !frameLengthOk frame then some .framing
  else if frame.getLastD 0 ≠ crc8 frame.dropLast then some .badCrc
  else if !knownCode (frame.headD 0) then some .unknownCommand
  else none

/-- The command of a code and its argument bytes (R185); SET_PARAM's parameter byte picks its row.
None for an undefined code or an undefined or missing parameter byte. -/
def commandOf (code : Byte) (args : List Byte) : Option Instr :=
  match code.toNat with
  | 0x01 => some (.query args)
  | 0x10 => some (.stageWrite args)
  | 0x11 => some (.stageRead args)
  | 0x12 => some (.activeRead args)
  | 0x13 => some (.stageClear args)
  | 0x14 => some (.stageCopy args)
  | 0x15 => some (.commit args)
  | 0x20 => some (.statsRead args)
  | 0x21 => some (.summaryPop args)
  | 0x22 => some (.faultPop args)
  | 0x30 =>
    match args with
    | [] => none
    | p :: value =>
      match p.toNat with
      | 0x00 => some (.setParamTimeout value)
      | 0x01 => some (.setParamAlertMask value)
      | _ => none
  | 0x31 => some (.purge args)
  | 0x3E => some (.softReset args)
  | _ => none

/-- The FETCH code (R169). -/
def fetchCode : Byte := 0x80

/-- Which command a frame is, by its whole bytes alone (R164, R166): none for a frame of zero whole bytes,
FETCH by its first byte, and otherwise a command frame, which is rejected when it fails check 1, 2 or 3
or is a SET_PARAM whose parameter byte picks no parameter (log entry 9). -/
def decodeFrame (bits : List Bool) : Option Instr :=
  match wholeBytes bits with
  | [] => none
  | code :: rest =>
    if code = fetchCode then some (.fetch rest.length)
    else
      match frameError (code :: rest) with
      | some _ => some (.rejectedFrame bits)
      | none =>
        match commandOf code (rest.tail.dropLast) with
        | some c => some c
        | none => some (.rejectedFrame bits)

/-- A command frame: code, argument length, arguments, CRC-8 (R185). -/
def commandFrame (code : Byte) (args : List Byte) : List Byte :=
  let covered := code :: BitVec.ofNat 8 args.length :: args
  covered ++ [crc8 covered]

/-- The bits of a management-link command's frame; none for the commands that are not frames. -/
def encodeFrame : Instr → Option (List Bool)
  | .readRequest _ _ _ => none
  | .writeRequest _ _ _ _ => none
  | .retirement => none
  | .downRequestAccepted => none
  | .downReadReturn _ _ _ => none
  | .downWriteReturn _ _ => none
  | .deadlineExpiry _ => none
  | .powerOnReset _ => none
  | .query args => some (frameBits (commandFrame 0x01 args))
  | .stageWrite args => some (frameBits (commandFrame 0x10 args))
  | .stageRead args => some (frameBits (commandFrame 0x11 args))
  | .activeRead args => some (frameBits (commandFrame 0x12 args))
  | .stageClear args => some (frameBits (commandFrame 0x13 args))
  | .stageCopy args => some (frameBits (commandFrame 0x14 args))
  | .commit args => some (frameBits (commandFrame 0x15 args))
  | .statsRead args => some (frameBits (commandFrame 0x20 args))
  | .summaryPop args => some (frameBits (commandFrame 0x21 args))
  | .faultPop args => some (frameBits (commandFrame 0x22 args))
  | .setParamTimeout value => some (frameBits (commandFrame 0x30 (0x00 :: value)))
  | .setParamAlertMask value => some (frameBits (commandFrame 0x30 (0x01 :: value)))
  | .purge args => some (frameBits (commandFrame 0x31 args))
  | .softReset args => some (frameBits (commandFrame 0x3E args))
  | .fetch clocked => some (frameBits (fetchCode :: List.replicate clocked 0))
  | .rejectedFrame bits => some bits

end Sys2Proof
end

