-- ==== Sys2Proof/Machine/State.lean ====
section
/-!
DEFINITION. The state of the part as plain data, the reasons a step can stop, and the state right after
power-on reset. Every type is named as the spec names the thing; INVENTORY.md lists every field.
-/

namespace Sys2Proof.Machine

/-! ## Window tables (chapter 1) -/

/-- A window's treatment (R4). -/
inductive Mode where
  | condition
  | blend
  | pattern
  | fence
  deriving DecidableEq, Repr

/-- How a window's bytes group into samples (R4). -/
inductive Format where
  | s16
  | s32
  deriving DecidableEq, Repr

/-- PLACE (R4). -/
structure Place where
  mode : Mode
  format : Format
  checksum : Bool
  base : Addr
  length : Nat
  deriving DecidableEq, Repr

/-- One value for each of components 0 to 3. -/
structure Quad (α : Type) where
  c0 : α
  c1 : α
  c2 : α
  c3 : α
  deriving DecidableEq, Repr

/-- The source a MAP entry names (R7). -/
inductive Source where
  | comp (j : Fin 4)
  | zero
  | full
  deriving DecidableEq, Repr

/-- A knot of a tone curve (R8). -/
structure Knot where
  input : Byte
  output : Byte
  deriving DecidableEq, Repr

/-- CURVE (R8). -/
structure Curve where
  mask : Quad Bool
  knots : List Knot
  deriving DecidableEq, Repr

/-- The clamp bounds of one component (R9). -/
structure Bounds where
  lower : Byte
  upper : Byte
  deriving DecidableEq, Repr

/-- Where a blending sample's alpha comes from (R10). -/
inductive AlphaSource where
  | sample
  | plane
  | product
  deriving DecidableEq, Repr

/-- What the alpha component of a blended sample becomes (R10). -/
inductive AlphaPolicy where
  | keepOld
  | takeNew
  deriving DecidableEq, Repr

/-- BLEND (R10). -/
structure Blend where
  source : AlphaSource
  plane : Byte
  component : Fin 4
  policy : AlphaPolicy
  deriving DecidableEq, Repr

/-- The kinds of test pattern (R11). -/
inductive PatternKind where
  | bars
  | border
  | noise
  | solid
  deriving DecidableEq, Repr

/-- PATTERN (R11). -/
structure Pattern where
  kind : PatternKind
  row : BitVec 16
  border : Byte
  seed : BitVec 16
  solid : Quad Byte
  deriving DecidableEq, Repr

/-- A window record: PLACE and the five groups, each present or ABSENT (R1). -/
structure Window where
  place : Place
  map : Option (Quad Source)
  curve : Option Curve
  clamp : Option (Quad Bounds)
  blend : Option Blend
  pattern : Option Pattern
  deriving DecidableEq, Repr

/-- The background action (R12). -/
inductive Background where
  | pass
  | fence
  deriving DecidableEq, Repr

/-- A window table: eight slots, each EMPTY (none) or a window record, and the global record (R1, R12). -/
structure WindowTable where
  slots : Vector (Option Window) 8
  layers : List (Fin 16)
  background : Background
  deriving DecidableEq, Repr

/-- The empty table (R3). -/
def WindowTable.empty : WindowTable :=
  { slots := Vector.replicate 8 none, layers := [], background := .pass }

/-! ## The Transaction Table (chapter 3) -/

/-- A request on the upstream request channel (R44); `data` is empty for a READ REQUEST. -/
structure Request where
  dir : Dir
  id : UpId
  addr : Addr
  beats : Nat
  data : List WBeat
  deriving DecidableEq, Repr

/-- The claim of one beat (R14). -/
inductive Claim where
  | slot (n : SlotNo)
  | backgroundPass
  | backgroundFence
  deriving DecidableEq, Repr

/-- A memory run: its first and last beat, inclusive (R17). -/
structure Run where
  first : Nat
  last : Nat
  deriving DecidableEq, Repr

/-- A line span: its first and last line number, inclusive (R20). -/
structure Span where
  first : Nat
  last : Nat
  deriving DecidableEq, Repr

/-- The states of a live entry (R47). -/
inductive EntryState where
  | held
  | waiting
  | issuing
  | outstanding
  | merging
  | complete
  deriving DecidableEq, Repr

/-- The status of a transaction (R46). -/
inductive TxStatus where
  | done
  | refused
  | fault
  deriving DecidableEq, Repr

/-- A live entry of the Transaction Table (R47). Its acceptance order is its place in the table's list. -/
structure Entry where
  no : EntryNo
  id : UpId
  dir : Dir
  addr : Addr
  beats : Nat
  wdata : List WBeat
  bound : Option Gen
  claims : Option (List Claim)
  merge : Bool
  run : Option Run
  span : Option Span
  blockers : List EntryNo
  state : EntryState
  tag : Option Tag
  slot : Option MergeNo
  status : TxStatus
  rdata : List RBeat
  deriving DecidableEq, Repr

/-- A response on the upstream return channel (R45); `data` is empty for a WRITE RETURN. -/
structure Response where
  dir : Dir
  id : UpId
  status : TxStatus
  data : List RBeat
  deriving DecidableEq, Repr

/-- An offer on the return channel: the entry it answers and the response (R61). -/
structure Offer where
  entry : EntryNo
  response : Response
  deriving DecidableEq, Repr

/-- The Transaction Table: live entries oldest first, the counts of R63 and the return channel. -/
structure TransactionTable where
  entries : List Entry
  activeCount : Nat
  retiringCount : Nat
  offer : Option Offer
  deriving DecidableEq, Repr

/-! ## Generations and statistics (chapters 2 and 8) -/

/-- An occupied bank: a window table under its generation number (R22). -/
structure Bank where
  number : Gen
  table : WindowTable
  deriving DecidableEq, Repr

/-- The Generation Controller's three banks (R22). -/
structure GenerationController where
  staging : WindowTable
  active : Bank
  retiring : Option Bank
  deriving DecidableEq, Repr

/-- The part of a statistics record for one listed slot (R141). -/
structure SlotPart where
  slot : SlotNo
  mode : Mode
  issued : BitVec 32
  absorbed : BitVec 32
  fenced : BitVec 32
  clamped : BitVec 32
  checksum : BitVec 16
  deriving DecidableEq, Repr

/-- The background's part of a statistics record (R141). -/
structure BackgroundPart where
  issued : BitVec 32
  fenced : BitVec 32
  checksum : BitVec 16
  deriving DecidableEq, Repr

/-- A statistics record (R141); a closed summary holds the same fields (R146). -/
structure StatsRecord where
  gen : Gen
  action : Background
  background : BackgroundPart
  parts : List SlotPart
  deriving DecidableEq, Repr

/-- The Summary Unit: the open records and the queue of closed summaries, oldest first (R141, R147). -/
structure SummaryUnit where
  active : StatsRecord
  retiring : Option StatsRecord
  queue : List StatsRecord
  deriving DecidableEq, Repr

/-! ## The Merge Engine (chapter 5) -/

/-- The phases of a busy merge slot (R85). -/
inductive MergePhase where
  | readWait
  | readOut
  | writeWait
  | writeOut
  deriving DecidableEq, Repr

/-- A beat built for a downstream write, with its clamped count (R78, R85). -/
structure BuiltBeat where
  beat : WBeat
  clamped : Nat
  deriving DecidableEq, Repr

/-- What a busy merge slot holds (R85). The old-data buffer is filled and cleared in one step (R88). -/
structure MergeWork where
  entry : EntryNo
  phase : MergePhase
  oldData : List RBeat
  merged : List BuiltBeat
  deriving DecidableEq, Repr

/-! ## The Memory Port (chapter 7) -/

/-- A transaction in flight on a tag: its kind, and the REF_1MHZ edges left to its deadline (none: it
has no deadline) (R125 to R127). -/
structure Flight where
  kind : Dir
  deadline : Option Nat
  deriving DecidableEq, Repr

/-- Which of a merge entry's two transactions a record speaks of (R101). -/
inductive Phase where
  | oldRead
  | mergedWrite
  deriving DecidableEq, Repr

/-- The orphan record of an ORPHANED tag (R131), with the run's beat count that R99 adds to it (log entry
20). -/
structure Orphan where
  dir : Dir
  addr : Addr
  beats : Nat
  gen : Option Gen
  phase : Option Phase
  deriving DecidableEq, Repr

/-- The state of a tag (R119). -/
inductive TagState where
  | free
  | bound (entry : EntryNo) (flight : Option Flight)
  | orphaned (record : Orphan)
  deriving DecidableEq, Repr

/-- A request presented on the memory request bundle (R118); `data` is empty for a DOWN READ. -/
structure DownRequest where
  kind : Dir
  tag : Tag
  addr : Addr
  beats : Nat
  data : List WBeat
  deriving DecidableEq, Repr

/-- The two sides of the request arbiter (R124). -/
inductive Side where
  | forward
  | merge
  deriving DecidableEq, Repr

/-- The Memory Port (R119, R121, R124). -/
structure MemoryPort where
  tags : Vector TagState 16
  channel : Option DownRequest
  lastServed : Side
  deriving DecidableEq, Repr

/-! ## The Fault Queue (chapter 9) -/

/-- The kinds of fault record (R153). -/
inductive FaultKind where
  | malformed
  | fenced
  | downstreamFault
  | timeout
  | orphanLate
  | stray
  | purged
  deriving DecidableEq, Repr

/-- A fault record (R153). -/
structure FaultRecord where
  kind : FaultKind
  dir : Dir
  lost : Bool
  id : Option UpId
  addr : Option Addr
  gen : Option Gen
  slot : Option SlotNo
  tag : Option Tag
  phase : Option Phase
  deriving DecidableEq, Repr

/-! ## The Management Link (chapter 10) -/

/-- The status codes of link responses (R168). -/
inductive LinkStatus where
  | ok
  | accepted
  | busy
  | invalid
  | badArgument
  | empty
  | notListed
  | badCrc
  | framing
  | unknownCommand
  | noResponse
  deriving DecidableEq, Repr

/-- A response in the response buffer (R168); its length byte and CRC follow from these. -/
structure LinkResponse where
  status : LinkStatus
  priorDiscarded : Bool
  payload : List Byte
  deriving DecidableEq, Repr

/-- The alert mask; true means MASKED (R160). -/
structure AlertMask where
  fault : Bool
  summary : Bool
  orphan : Bool
  deriving DecidableEq, Repr

/-- The Management Link (R167, R170, R171, R184). The link is IDLE when `response` is none. `cut` says that the
frame in progress was in progress while RESET_N was asserted, so that it is discarded whole (R184). `miso` is
what SPI_MISO carried during the last frame (log entry 11). -/
structure Link where
  response : Option LinkResponse
  frameError : Bool
  discarded : Bool
  timeout : BitVec 16
  mask : AlertMask
  cut : Bool
  miso : List Byte
  deriving DecidableEq, Repr

/-! ## The whole part -/

/-- The state of the part, with the queue of commands that wait. -/
structure State where
  pending : List Instr
  resetAsserted : Bool
  requests : List Request
  table : TransactionTable
  gens : GenerationController
  stats : SummaryUnit
  merge : Vector (Option MergeWork) 4
  port : MemoryPort
  faults : List FaultRecord
  link : Link
  alertLow : Bool
  deriving DecidableEq, Repr

/-- The machine never stops with a fault: the spec gives every command an effect in every state. -/
inductive Fault where
  deriving DecidableEq, Repr

/-- Why a command is refused. -/
inductive Refusal where
  /-- The command has no meaning in the model; raised by `exec`'s arm for it, and safe. No arm does. -/
  | notModelled (mnemonic : String)
  deriving DecidableEq, Repr

/-- A statistics record with no per-slot parts and every figure zero (R148, R149). -/
def StatsRecord.zero : StatsRecord :=
  { gen := 0, action := .pass, background := { issued := 0, fenced := 0, checksum := 0 }, parts := [] }

/-- The state right after power-on reset (R24, R66, R85, R140, R149, R159, R162, R163, R184); `miso` is
log entry 11. -/
def State.reset : State :=
  { pending := []
    resetAsserted := false
    requests := []
    table := { entries := [], activeCount := 0, retiringCount := 0, offer := none }
    gens := { staging := .empty, active := { number := 0, table := .empty }, retiring := none }
    stats := { active := .zero, retiring := none, queue := [] }
    merge := Vector.replicate 4 none
    port := { tags := Vector.replicate 16 .free, channel := none, lastServed := .merge }
    faults := []
    link :=
      { response := none, frameError := false, discarded := false, timeout := Config.defaultTimeout
        mask := { fault := false, summary := false, orphan := true }, cut := false, miso := [] }
    alertLow := false }

end Sys2Proof.Machine
end

