-- ==== Sys2Proof/Machine/Flags.lean ====
section
/-!
DEFINITION. The computed levels and flags: the rank of statuses (R46), the saturating and wrapping
figures (R143), the alert line (R160), the link flags (R170).
-/

namespace Sys2Proof.Machine

/-- The rank of a status: FAULT above REFUSED above DONE (R46). -/
def TxStatus.rank : TxStatus → Nat
  | .done => 0
  | .refused => 1
  | .fault => 2

/-- A status raised to at least another; it never falls (R46). -/
def TxStatus.raise (old new : TxStatus) : TxStatus := if old.rank < new.rank then new else old

/-- A saturating addition to a statistics counter (R143). -/
def saturatingAdd (c : BitVec 32) (n : Nat) : BitVec 32 :=
  BitVec.ofNat 32 (min (c.toNat + n) Config.counterMax)

/-- Whether a tag is FREE. -/
def TagState.isFree : TagState → Bool
  | .free => true
  | .bound _ _ => false
  | .orphaned _ => false

/-- Whether a tag is BOUND. -/
def TagState.isBound : TagState → Bool
  | .free => false
  | .bound _ _ => true
  | .orphaned _ => false

/-- Whether a tag is ORPHANED. -/
def TagState.isOrphaned : TagState → Bool
  | .free => false
  | .bound _ _ => false
  | .orphaned _ => true

/-- The number of ORPHANED tags (R119). -/
def State.orphanCount (s : State) : Nat := s.port.tags.toList.countP TagState.isOrphaned

/-- The number of BOUND tags (R119). -/
def State.boundCount (s : State) : Nat := s.port.tags.toList.countP TagState.isBound

/-- The number of busy merge slots (R85). -/
def State.busyMergeSlots (s : State) : Nat := s.merge.toList.countP Option.isSome

/-- The fault source of the alert line is active (R160). -/
def State.faultSource (s : State) : Bool := !s.faults.isEmpty

/-- The summary source of the alert line is active (R160). -/
def State.summarySource (s : State) : Bool := !s.stats.queue.isEmpty

/-- The orphan source of the alert line is active (R160). -/
def State.orphanSource (s : State) : Bool := s.port.tags.toList.any TagState.isOrphaned

/-- Whether ALERT_N is asserted: some source is active and UNMASKED (R160); released while RESET_N is
asserted (R163). -/
def State.alertLevel (s : State) : Bool :=
  !s.resetAsserted &&
    ((s.faultSource && !s.link.mask.fault) || (s.summarySource && !s.link.mask.summary) ||
      (s.orphanSource && !s.link.mask.orphan))

/-- Recompute ALERT_N, in the step of every event that changes a source or the mask (R160). -/
def State.refreshAlert (s : State) : State := { s with alertLow := s.alertLevel }

/-- The frame-error flag, set by a frame answered FRAMING, BAD_CRC or UNKNOWN_COMMAND (R170). -/
def State.setFrameError (s : State) : State := { s with link := { s.link with frameError := true } }

/-- QUERY clears both link flags (R170). -/
def State.clearLinkFlags (s : State) : State :=
  { s with link := { s.link with frameError := false, discarded := false } }

end Sys2Proof.Machine
end

