-- ==== Sys2Proof/Machine/Ops.lean ====
section
/-!
DEFINITION. The named operations over the part's registers, queues, tags and slots: finding and changing
one entry, tag or merge slot, posting a fault record, filing a summary, looking up the bank and the
statistics record of a bound generation, and placing a link response.
-/

namespace Sys2Proof.Machine

/-! ## Fixed-length stores -/

/-- A function on every element of a fixed-length store. -/
def mapStore {α β : Type} {n : Nat} (f : α → β) (v : Vector α n) : Vector β n :=
  ⟨⟨v.toArray.toList.map f⟩, by simp⟩

/-! ## Entries -/

/-- The live entry with a number, or none. -/
def State.entry? (s : State) (n : EntryNo) : Option Entry := s.table.entries.find? (fun e => decide (e.no = n))

/-- The state with its list of live entries changed. -/
def State.setEntries (s : State) (es : List Entry) : State := { s with table := { s.table with entries := es } }

/-- The state with the live entry of the same number replaced. -/
def State.setEntry (s : State) (e : Entry) : State :=
  s.setEntries (s.table.entries.map (fun x => if x.no = e.no then e else x))

/-- The state with its return-channel offer changed. -/
def State.setOffer (s : State) (o : Option Offer) : State := { s with table := { s.table with offer := o } }

/-- The lowest-numbered free entry, if any of the sixteen is free (R47; log entry 6). -/
def State.freeEntry (s : State) : Option EntryNo := Config.sixteen.find? (fun n => (s.entry? n).isNone)

/-- The number of beats of a memory run (R17). -/
def Run.count (r : Run) : Nat := r.last - r.first + 1

/-- The downstream address of an entry's memory run: A + 8 × f (R17). -/
def Entry.runAddr (e : Entry) (r : Run) : Addr := e.addr + BitVec.ofNat 36 (8 * r.first)

/-- The response an entry gives: its ID, direction and status, and for a READ its data (R45). -/
def Entry.response (e : Entry) : Response :=
  { dir := e.dir, id := e.id, status := e.status, data := if e.dir = .read then e.rdata else [] }

/-- The entry's beat claims; a malformed request has none (R50). -/
def Entry.claimList (e : Entry) : List Claim := e.claims.getD []

/-- An entry gone to COMPLETE: its status raised, its tag and merge slot ABSENT (R56 to R58). -/
def Entry.completed (e : Entry) (st : TxStatus) : Entry :=
  { e with state := .complete, tag := none, slot := none, status := e.status.raise st }

/-! ## Tags and merge slots -/

/-- The state with one tag changed. -/
def State.setTag (s : State) (t : Tag) (ts : TagState) : State :=
  { s with port := { s.port with tags := s.port.tags.set t ts } }

/-- The state with one merge slot changed. -/
def State.setMerge (s : State) (m : MergeNo) (w : Option MergeWork) : State := { s with merge := s.merge.set m w }

/-- The lowest-numbered FREE tag (R54). -/
def State.freeTag (s : State) : Option Tag := Config.sixteen.find? (fun t => (s.port.tags[t]).isFree)

/-- The lowest-numbered FREE merge slot (R54). -/
def State.freeMergeSlot (s : State) : Option MergeNo := Config.fourMergeSlots.find? (fun m => (s.merge[m]).isNone)

/-- A deadline with some REF_1MHZ edges gone by; it stops at 0, when it is due (R127). -/
def TagState.elapse (edges : Nat) : TagState → TagState
  | .free => .free
  | .bound n none => .bound n none
  | .bound n (some fl) => .bound n (some { fl with deadline := fl.deadline.map (· - edges) })
  | .orphaned o => .orphaned o

/-- REF_1MHZ edges go by: every running deadline counts them, each tag on its own (R127). -/
def State.elapse (s : State) (edges : Nat) : State :=
  { s with port := { s.port with tags := mapStore (TagState.elapse edges) s.port.tags } }

/-! ## Banks and statistics records -/

/-- The window table an entry's claims refer to: the bank that holds its bound generation (R37, R68). An
entry bound to none uses no table; the empty table stands there (log entry 17). -/
def State.tableOf (s : State) (bound : Option Gen) : WindowTable :=
  if bound = some s.gens.active.number then s.gens.active.table
  else
    match s.gens.retiring with
    | none => .empty
    | some b => if bound = some b.number then b.table else .empty

/-- The state with its Summary Unit changed. -/
def State.setStats (s : State) (u : SummaryUnit) : State := { s with stats := u }

/-- An addition to the record whose generation number is the bound generation (R142). -/
def SummaryUnit.addTo (u : SummaryUnit) (bound : Option Gen) (f : StatsRecord → StatsRecord) : SummaryUnit :=
  if bound = some u.active.gen then { u with active := f u.active }
  else { u with retiring := u.retiring.map (fun r => if bound = some r.gen then f r else r) }

/-- A summary filed at the tail; a full queue loses its head first (R147). -/
def fileSummary (q : List StatsRecord) (r : StatsRecord) : List StatsRecord :=
  if q.length < Config.summaryCapacity then q ++ [r] else q.tail ++ [r]

/-- The retiring generation closes: its record is filed and the bank goes vacant (R41, R146). -/
def State.closeRetiring (s : State) : State :=
  { s with
    gens := { s.gens with retiring := none }
    stats :=
      { s.stats with
        retiring := none
        queue :=
          match s.stats.retiring with
          | none => s.stats.queue
          | some r => fileSummary s.stats.queue r } }

/-! ## The Fault Queue -/

/-- The queue with the later-records-lost flag of its newest record set (R156). -/
def markNewest : List FaultRecord → List FaultRecord
  | [] => []
  | [r] => [{ r with lost := true }]
  | r :: q => r :: markNewest q

/-- A record posted: stored at the tail with its flag clear, or dropped from a full queue with the
newest record flagged (R155, R156). -/
def postRecord (q : List FaultRecord) (r : FaultRecord) : List FaultRecord :=
  if q.length < Config.faultCapacity then q ++ [{ r with lost := false }] else markNewest q

/-- The state with a fault record posted. -/
def State.post (s : State) (r : FaultRecord) : State := { s with faults := postRecord s.faults r }

/-! ## The response buffer -/

/-- A command frame's response placed in the buffer: a pending one is discarded, which sets
PRIOR_DISCARDED in the new one and the discard flag (R167, R170). -/
def State.respond (s : State) (status : LinkStatus) (payload : List Byte) : State :=
  { s with
    link :=
      { s.link with
        response := some { status := status, priorDiscarded := s.link.response.isSome, payload := payload }
        discarded := s.link.discarded || s.link.response.isSome } }

/-- The frame that was cut by a reset has ended (R184). -/
def State.endCut (s : State) : State := { s with link := { s.link with cut := false } }

/-- The bytes SPI_MISO carried during a frame. -/
def State.setMiso (s : State) (bytes : List Byte) : State := { s with link := { s.link with miso := bytes } }

/-- The link takes no frame: RESET_N is asserted, or the frame was in progress while it was (R184). -/
def State.ignoresFrame (s : State) : Bool := s.resetAsserted || s.link.cut

/-- A frame of `bytes` whole bytes is discarded, and SPI_MISO carries 0xFF (R184; log entry 19). -/
def State.discardFrame (s : State) (bytes : Nat) : State := (s.setMiso (List.replicate bytes 0xFF)).endCut

end Sys2Proof.Machine
end

