-- ==== Sys2Proof/Machine/Operands.lean ====
section
/-!
DEFINITION. The byte layouts of the management link (R185): numbers, codes, the value bytes of each field
group read and written, read-back of slots, statistics, summaries, fault records and responses.
-/

namespace Sys2Proof.Machine

/-! ## Numbers -/

/-- A number in `k` bytes, most significant first (R185). -/
def bytesBE : Nat → Nat → List Byte
  | 0, _ => []
  | k + 1, n => BitVec.ofNat 8 (n / 256 ^ k) :: bytesBE k n

/-- The number that bytes spell, most significant first (R185). -/
def numberBE (bytes : List Byte) : Nat := bytes.foldl (fun acc b => 256 * acc + b.toNat) 0

/-- One bit as a byte value. -/
def bitByte (b : Bool) (k : Nat) : Byte := if b then BitVec.ofNat 8 (2 ^ k) else 0

/-! ## Codes (R185) -/

def Mode.code : Mode → Byte
  | .condition => 0
  | .blend => 1
  | .pattern => 2
  | .fence => 3

def modeOf (b : Byte) : Option Mode :=
  match b.toNat with
  | 0 => some .condition
  | 1 => some .blend
  | 2 => some .pattern
  | 3 => some .fence
  | _ => none

def Format.code : Format → Byte
  | .s16 => 0
  | .s32 => 1

def formatOf (b : Byte) : Option Format :=
  match b.toNat with
  | 0 => some .s16
  | 1 => some .s32
  | _ => none

def yesNoCode (b : Bool) : Byte := if b then 1 else 0

def yesNoOf (b : Byte) : Option Bool :=
  match b.toNat with
  | 0 => some false
  | 1 => some true
  | _ => none

def Source.code : Source → Byte
  | .comp j => BitVec.ofNat 8 j.val
  | .zero => 4
  | .full => 5

def sourceOf (b : Byte) : Option Source :=
  match b.toNat with
  | 0 => some (.comp 0)
  | 1 => some (.comp 1)
  | 2 => some (.comp 2)
  | 3 => some (.comp 3)
  | 4 => some .zero
  | 5 => some .full
  | _ => none

def AlphaSource.code : AlphaSource → Byte
  | .sample => 0
  | .plane => 1
  | .product => 2

def alphaSourceOf (b : Byte) : Option AlphaSource :=
  match b.toNat with
  | 0 => some .sample
  | 1 => some .plane
  | 2 => some .product
  | _ => none

def AlphaPolicy.code : AlphaPolicy → Byte
  | .keepOld => 0
  | .takeNew => 1

def alphaPolicyOf (b : Byte) : Option AlphaPolicy :=
  match b.toNat with
  | 0 => some .keepOld
  | 1 => some .takeNew
  | _ => none

def componentOf (b : Byte) : Option (Fin 4) :=
  match b.toNat with
  | 0 => some 0
  | 1 => some 1
  | 2 => some 2
  | 3 => some 3
  | _ => none

def PatternKind.code : PatternKind → Byte
  | .bars => 0
  | .border => 1
  | .noise => 2
  | .solid => 3

def patternKindOf (b : Byte) : Option PatternKind :=
  match b.toNat with
  | 0 => some .bars
  | 1 => some .border
  | 2 => some .noise
  | 3 => some .solid
  | _ => none

def Background.code : Background → Byte
  | .pass => 0
  | .fence => 1

def backgroundOf (b : Byte) : Option Background :=
  match b.toNat with
  | 0 => some .pass
  | 1 => some .fence
  | _ => none

def dirCode : Dir → Byte
  | .read => 0
  | .write => 1

def Phase.code : Phase → Byte
  | .oldRead => 0
  | .mergedWrite => 1

def FaultKind.code : FaultKind → Byte
  | .malformed => 1
  | .fenced => 2
  | .downstreamFault => 3
  | .timeout => 4
  | .orphanLate => 5
  | .stray => 6
  | .purged => 7

/-- The status codes of R168. -/
def LinkStatus.code : LinkStatus → Byte
  | .ok => 0x00
  | .accepted => 0x01
  | .busy => 0x02
  | .invalid => 0x03
  | .badArgument => 0x04
  | .empty => 0x05
  | .notListed => 0x06
  | .badCrc => 0x07
  | .framing => 0x08
  | .unknownCommand => 0x09
  | .noResponse => 0x0A

/-- A slot argument 0 to 7. -/
def slotOf (b : Byte) : Option SlotNo := if h : b.toNat < 8 then some ⟨b.toNat, h⟩ else none

/-! ## Group value bytes, read (R173, R185) -/

/-- The stored PLACE that 13 value bytes spell, or none when one of them cannot be stored (R4, R173). -/
def parsePlace (v : List Byte) : Option Place :=
  match v with
  | m :: f :: c :: rest =>
    if rest.length = 10 then
      match modeOf m, formatOf f, yesNoOf c with
      | some mode, some format, some checksum =>
        let base := numberBE (rest.take 5)
        let length := numberBE (rest.drop 5)
        if base < Config.addressSpace ∧ length ≤ Config.maxLength then
          some { mode := mode, format := format, checksum := checksum, base := BitVec.ofNat 36 base, length := length }
        else none
      | _, _, _ => none
    else none
  | _ => none

/-- The stored MAP that four value bytes spell (R7). -/
def parseMap (v : List Byte) : Option (Quad Source) :=
  match v with
  | [a, b, c, d] =>
    match sourceOf a, sourceOf b, sourceOf c, sourceOf d with
    | some sa, some sb, some sc, some sd => some ⟨sa, sb, sc, sd⟩
    | _, _, _, _ => none
  | _ => none

/-- Knots from pairs of bytes. -/
def parseKnots : List Byte → List Knot
  | x :: y :: rest => ⟨x, y⟩ :: parseKnots rest
  | _ => []

/-- The stored CURVE that value bytes spell: a mask of four bits, 2 to 8 knots (R8, R173). -/
def parseCurve (v : List Byte) : Option Curve :=
  match v with
  | mask :: k :: rest =>
    if mask.toNat < 16 ∧ 2 ≤ k.toNat ∧ k.toNat ≤ 8 ∧ rest.length = 2 * k.toNat then
      some
        { mask := ⟨mask.getLsbD 0, mask.getLsbD 1, mask.getLsbD 2, mask.getLsbD 3⟩
          knots := parseKnots rest }
    else none
  | _ => none

/-- The stored CLAMP that eight value bytes spell (R9). -/
def parseClamp (v : List Byte) : Option (Quad Bounds) :=
  match v with
  | [l0, u0, l1, u1, l2, u2, l3, u3] => some ⟨⟨l0, u0⟩, ⟨l1, u1⟩, ⟨l2, u2⟩, ⟨l3, u3⟩⟩
  | _ => none

/-- The stored BLEND that four value bytes spell (R10). -/
def parseBlend (v : List Byte) : Option Blend :=
  match v with
  | [a, p, c, w] =>
    match alphaSourceOf a, componentOf c, alphaPolicyOf w with
    | some source, some component, some policy =>
      some { source := source, plane := p, component := component, policy := policy }
    | _, _, _ => none
  | _ => none

/-- The stored PATTERN that ten value bytes spell (R11). -/
def parsePattern (v : List Byte) : Option Pattern :=
  match v with
  | [k, r1, r0, b, s1, s0, v0, v1, v2, v3] =>
    match patternKindOf k with
    | some kind =>
      some
        { kind := kind, row := r1 ++ r0, border := b, seed := s1 ++ s0, solid := ⟨v0, v1, v2, v3⟩ }
    | none => none
  | _ => none

/-- Layer-list entries from bytes, each 0 to 15; none when one is above 15 (R12, R173). -/
def parseLayers : List Byte → Option (List (Fin 16))
  | [] => some []
  | b :: rest =>
    if h : b.toNat < 16 then (parseLayers rest).map (fun l => ⟨b.toNat, h⟩ :: l) else none

/-- The global record that value bytes spell: background, list length at most 8, list (R12, R173). -/
def parseGlobal (v : List Byte) : Option (Background × List (Fin 16)) :=
  match v with
  | bg :: len :: rest =>
    if len.toNat ≤ 8 ∧ rest.length = len.toNat then
      match backgroundOf bg, parseLayers rest with
      | some action, some layers => some (action, layers)
      | _, _ => none
    else none
  | _ => none

/-- A staging edit of one group of a slot: the group's values, or none for ABSENT (R2). -/
inductive GroupEdit where
  | place (v : Option Place)
  | map (v : Option (Quad Source))
  | curve (v : Option Curve)
  | clamp (v : Option (Quad Bounds))
  | blend (v : Option Blend)
  | pattern (v : Option Pattern)
  deriving DecidableEq, Repr

/-- What a STAGE_WRITE asks for (R26). -/
inductive StageEdit where
  | slot (n : SlotNo) (g : GroupEdit)
  | global (background : Background) (layers : List (Fin 16))
  deriving DecidableEq, Repr

/-- Value bytes of a group: none of them for ABSENT, or values that can be stored (R173). -/
def parseValues {α : Type} (parse : List Byte → Option α) (v : List Byte) : Option (Option α) :=
  if v.isEmpty then some none else (parse v).map some

/-- The edit of a slot's group that a group code and value bytes ask for (R173, R185). -/
def parseGroup (group : Byte) (v : List Byte) : Option GroupEdit :=
  match group.toNat with
  | 0 => (parseValues parsePlace v).map .place
  | 1 => (parseValues parseMap v).map .map
  | 2 => (parseValues parseCurve v).map .curve
  | 3 => (parseValues parseClamp v).map .clamp
  | 4 => (parseValues parseBlend v).map .blend
  | 5 => (parseValues parsePattern v).map .pattern
  | _ => none

/-- The edit that STAGE_WRITE's arguments ask for, or none for BAD_ARGUMENT (R173). -/
def parseStageWrite (args : List Byte) : Option StageEdit :=
  match args with
  | target :: group :: v =>
    if target.toNat = 0xFF then
      if group.toNat = 6 then (parseGlobal v).map (fun p => .global p.1 p.2) else none
    else
      match slotOf target with
      | some n => (parseGroup group v).map (.slot n)
      | none => none
  | _ => none

/-! ## Group value bytes, written (R174, R185) -/

def Place.bytes (p : Place) : List Byte :=
  [p.mode.code, p.format.code, yesNoCode p.checksum] ++ bytesBE 5 p.base.toNat ++ bytesBE 5 p.length

def mapBytes (q : Quad Source) : List Byte := [q.c0.code, q.c1.code, q.c2.code, q.c3.code]

def Curve.bytes (c : Curve) : List Byte :=
  (bitByte c.mask.c0 0 ||| bitByte c.mask.c1 1 ||| bitByte c.mask.c2 2 ||| bitByte c.mask.c3 3) ::
    BitVec.ofNat 8 c.knots.length :: c.knots.flatMap (fun k => [k.input, k.output])

def clampBytes (q : Quad Bounds) : List Byte :=
  [q.c0.lower, q.c0.upper, q.c1.lower, q.c1.upper, q.c2.lower, q.c2.upper, q.c3.lower, q.c3.upper]

def Blend.bytes (b : Blend) : List Byte :=
  [b.source.code, b.plane, BitVec.ofNat 8 b.component.val, b.policy.code]

def Pattern.bytes (p : Pattern) : List Byte :=
  [p.kind.code] ++ bytesBE 2 p.row.toNat ++ [p.border] ++ bytesBE 2 p.seed.toNat ++
    [p.solid.c0, p.solid.c1, p.solid.c2, p.solid.c3]

/-- The GLOBAL value bytes of a table (R185). -/
def WindowTable.globalBytes (t : WindowTable) : List Byte :=
  t.background.code :: BitVec.ofNat 8 t.layers.length :: t.layers.map (fun e => BitVec.ofNat 8 e.val)

/-- A group in a read-back slot: a presence byte and, when present, its value bytes (R174). -/
def presentBytes {α : Type} (bytes : α → List Byte) : Option α → List Byte
  | none => [0]
  | some v => 1 :: bytes v

/-- A slot read back: a state byte, then the six groups of a non-empty slot (R174). -/
def slotBytes : Option Window → List Byte
  | none => [0]
  | some w =>
    [1] ++ presentBytes Place.bytes (some w.place) ++ presentBytes mapBytes w.map ++
      presentBytes Curve.bytes w.curve ++ presentBytes clampBytes w.clamp ++
      presentBytes Blend.bytes w.blend ++ presentBytes Pattern.bytes w.pattern

/-- What a read-back of a target returns, or none when the target is 8 to 0xFE (R174). -/
def readBack (t : WindowTable) (target : Byte) : Option (List Byte) :=
  if target.toNat = 0xFF then some t.globalBytes else (slotOf target).map (fun n => slotBytes t.slots[n])

/-! ## Statistics, summaries, fault records (R178 to R180, R185) -/

/-- A counter's four bytes. -/
def counterBytes (c : BitVec 32) : List Byte := bytesBE 4 c.toNat

/-- A checksum's two bytes. -/
def checksumBytes (c : BitVec 16) : List Byte := bytesBE 2 c.toNat

/-- A per-slot element: 20 bytes. -/
def SlotPart.bytes (p : SlotPart) : List Byte :=
  [BitVec.ofNat 8 p.slot.val, p.mode.code] ++ counterBytes p.issued ++ counterBytes p.absorbed ++
    counterBytes p.fenced ++ counterBytes p.clamped ++ checksumBytes p.checksum

/-- The background figures behind the generation number and the background action: 12 bytes. -/
def StatsRecord.backgroundBytes (r : StatsRecord) : List Byte :=
  [r.gen, r.action.code] ++ counterBytes r.background.issued ++ counterBytes r.background.fenced ++
    checksumBytes r.background.checksum

/-- A closed summary: the 13-byte header and its elements (R179). -/
def StatsRecord.summaryBytes (r : StatsRecord) : List Byte :=
  r.backgroundBytes ++ [BitVec.ofNat 8 r.parts.length] ++ r.parts.flatMap SlotPart.bytes

/-- The flags byte of a fault record: presence bits 0 to 5, later records lost in bit 7. -/
def FaultRecord.flags (r : FaultRecord) : Byte :=
  bitByte r.id.isSome 0 ||| bitByte r.addr.isSome 1 ||| bitByte r.gen.isSome 2 |||
    bitByte r.slot.isSome 3 ||| bitByte r.tag.isSome 4 ||| bitByte r.phase.isSome 5 ||| bitByte r.lost 7

/-- A fault record: 13 bytes; an ABSENT field is zero (R180). -/
def FaultRecord.bytes (r : FaultRecord) : List Byte :=
  [r.kind.code, dirCode r.dir, r.flags, BitVec.ofNat 8 ((r.id.map Fin.val).getD 0)] ++
    bytesBE 5 ((r.addr.map BitVec.toNat).getD 0) ++
    [r.gen.getD 0, BitVec.ofNat 8 ((r.slot.map Fin.val).getD 0), BitVec.ofNat 8 ((r.tag.map Fin.val).getD 0),
      (r.phase.map Phase.code).getD 0]

/-! ## QUERY and responses (R168, R172, R185) -/

/-- The alert mask as QUERY reports it: bits 0, 1, 2, set means MASKED. -/
def AlertMask.byte (m : AlertMask) : Byte := bitByte m.fault 0 ||| bitByte m.summary 1 ||| bitByte m.orphan 2

/-- The link flags as QUERY reports them. -/
def Link.flagsByte (l : Link) : Byte := bitByte l.frameError 0 ||| bitByte l.discarded 1

/-- QUERY's snapshot: 14 bytes (R172). -/
def State.snapshot (s : State) : List Byte :=
  [s.gens.active.number, (s.gens.retiring.map Bank.number).getD 0, bitByte s.gens.retiring.isSome 0,
    BitVec.ofNat 8 s.table.entries.length,
    BitVec.ofNat 8 (if s.gens.retiring.isSome then s.table.retiringCount else 0),
    BitVec.ofNat 8 s.boundCount, BitVec.ofNat 8 s.orphanCount, BitVec.ofNat 8 s.busyMergeSlots,
    BitVec.ofNat 8 s.faults.length, BitVec.ofNat 8 s.stats.queue.length, s.link.mask.byte, s.link.flagsByte] ++
    bytesBE 2 s.link.timeout.toNat

/-- A response as SPI_MISO carries it: status with PRIOR_DISCARDED on top, length, payload, CRC (R168). -/
def LinkResponse.bytes (r : LinkResponse) : List Byte :=
  let covered := (r.status.code ||| bitByte r.priorDiscarded 7) :: BitVec.ofNat 8 r.payload.length :: r.payload
  covered ++ [crc8 covered]

/-- What FETCH carries with nothing pending (R169). -/
def noResponse : LinkResponse := { status := .noResponse, priorDiscarded := false, payload := [] }

end Sys2Proof.Machine
end

