-- ==== Sys2Proof/Machine/Window.lean ====
section
/-!
DEFINITION. The staged table: editing it (R2, R26 to R28) and validating it (R31 to R33).
-/

namespace Sys2Proof.Machine

/-! ## Reading a table -/

/-- The window record of a slot number, or none when the slot is EMPTY. -/
def WindowTable.window (t : WindowTable) (n : SlotNo) : Option Window := t.slots[n]

/-- The table with one slot changed. -/
def WindowTable.setSlot (t : WindowTable) (n : SlotNo) (w : Option Window) : WindowTable :=
  { t with slots := t.slots.set n w }

/-- The bytes of one sample (R4). -/
def Format.size : Format → Nat
  | .s16 => 2
  | .s32 => 4

/-! ## Edits -/

/-- One edit of one slot, case by case as R2's table; none is BAD_ARGUMENT. -/
def editSlot (g : GroupEdit) (slot : Option Window) : Option (Option Window) :=
  match slot with
  | none =>
    match g with
    | .place (some p) =>
      some (some { place := p, map := none, curve := none, clamp := none, blend := none, pattern := none })
    | .place none => none
    | .map _ => none
    | .curve _ => none
    | .clamp _ => none
    | .blend _ => none
    | .pattern _ => none
  | some w =>
    match g with
    | .place (some p) => some (some { w with place := p })
    | .place none => some none
    | .map v => some (some { w with map := v })
    | .curve v => some (some { w with curve := v })
    | .clamp v => some (some { w with clamp := v })
    | .blend v => some (some { w with blend := v })
    | .pattern v => some (some { w with pattern := v })

/-- A staging edit of the whole table; none is BAD_ARGUMENT and the table stays as it was (R26). -/
def WindowTable.edit (t : WindowTable) : StageEdit → Option WindowTable
  | .slot n g => (editSlot g (t.window n)).map (t.setSlot n)
  | .global background layers => some { t with background := background, layers := layers }

/-! ## Validation -/

/-- The reason codes of COMMIT, in the order validation meets them (table after R33). -/
inductive Reason where
  | listRange
  | listDuplicate
  | listEmptySlot
  | placeAlign
  | placeRange
  | groupNotUsed
  | groupMissing
  | mapComponent
  | curveEnds
  | curveOrder
  | curveMask
  | clampOrder
  | blendComponent
  | blendPlane
  | patternRow
  | patternBorder
  deriving DecidableEq, Repr

/-- The number of a reason code (R177). -/
def Reason.code : Reason → Byte
  | .listRange => 0x01
  | .listDuplicate => 0x02
  | .listEmptySlot => 0x03
  | .placeAlign => 0x04
  | .placeRange => 0x05
  | .groupNotUsed => 0x06
  | .groupMissing => 0x07
  | .mapComponent => 0x08
  | .curveEnds => 0x09
  | .curveOrder => 0x0A
  | .curveMask => 0x0B
  | .clampOrder => 0x0C
  | .blendComponent => 0x0D
  | .blendPlane => 0x0E
  | .patternRow => 0x0F
  | .patternBorder => 0x10

/-- Whether a layer-list entry names an EMPTY slot. -/
def WindowTable.namesEmpty (t : WindowTable) (e : Fin 16) : Bool :=
  if h : e.val < 8 then (t.window ⟨e.val, h⟩).isNone else true

/-- The checks of the layer list, entry by entry; `seen` are the entries before (R12). -/
def checkLayers (t : WindowTable) (seen : List (Fin 16)) : List (Fin 16) → Option Reason
  | [] => none
  | e :: rest =>
    if 7 < e.val then some .listRange
    else if seen.contains e then some .listDuplicate
    else if t.namesEmpty e then some .listEmptySlot
    else checkLayers t (e :: seen) rest

/-- PLACE_ALIGN, then PLACE_RANGE (R4). -/
def checkPlace (p : Place) : Option Reason :=
  if p.base.toNat % 256 ≠ 0 ∨ p.length % 256 ≠ 0 then some .placeAlign
  else if p.length = 0 ∨ Config.addressSpace < p.base.toNat + p.length then some .placeRange
  else none

/-- What a mode says of a group (R5). -/
inductive Need where
  | optional
  | required
  | notUsed
  deriving DecidableEq, Repr

/-- MAP, CURVE and CLAMP in R5's table. -/
def needTransform : Mode → Need
  | .condition => .optional
  | .blend => .optional
  | .pattern => .notUsed
  | .fence => .notUsed

/-- BLEND in R5's table. -/
def needBlend : Mode → Need
  | .condition => .notUsed
  | .blend => .required
  | .pattern => .notUsed
  | .fence => .notUsed

/-- PATTERN in R5's table. -/
def needPattern : Mode → Need
  | .condition => .notUsed
  | .blend => .notUsed
  | .pattern => .required
  | .fence => .notUsed

/-- One group against its need (R33). -/
def checkNeed (need : Need) (present : Bool) : Option Reason :=
  match need, present with
  | .notUsed, true => some .groupNotUsed
  | .required, false => some .groupMissing
  | .notUsed, false => none
  | .required, true => none
  | .optional, _ => none

/-- The mode and group fit check, in the order MAP, CURVE, CLAMP, BLEND, PATTERN (R33). -/
def checkFit (w : Window) : Option Reason :=
  (checkNeed (needTransform w.place.mode) w.map.isSome).or <|
  (checkNeed (needTransform w.place.mode) w.curve.isSome).or <|
  (checkNeed (needTransform w.place.mode) w.clamp.isSome).or <|
  (checkNeed (needBlend w.place.mode) w.blend.isSome).or <|
  checkNeed (needPattern w.place.mode) w.pattern.isSome

/-- A source an S16 window's MAP entry 0 or 1 may not name (R7). -/
def Source.beyondS16 : Source → Bool
  | .comp j => decide (2 ≤ j.val)
  | .zero => false
  | .full => false

/-- MAP_COMPONENT (R7). -/
def checkMap (f : Format) (q : Quad Source) : Option Reason :=
  match f with
  | .s16 => if q.c0.beyondS16 || q.c1.beyondS16 then some .mapComponent else none
  | .s32 => none

/-- Each knot's input is strictly above the one before (R8). -/
def knotsRise : List Knot → Bool
  | a :: b :: rest => decide (a.input.toNat < b.input.toNat) && knotsRise (b :: rest)
  | _ => true

/-- The first knot's input is 0 and the last one's is 255 (R8). -/
def knotEndsOk (knots : List Knot) : Bool :=
  match knots.head?, knots.getLast? with
  | some a, some b => decide (a.input = 0) && decide (b.input = 255)
  | _, _ => false

/-- The mask selects a component, and none of 2 and 3 in S16 (R8). -/
def maskOk (f : Format) (m : Quad Bool) : Bool :=
  (m.c0 || m.c1 || m.c2 || m.c3) &&
    match f with
    | .s16 => !m.c2 && !m.c3
    | .s32 => true

/-- CURVE_ENDS, CURVE_ORDER, CURVE_MASK (R8). -/
def checkCurve (f : Format) (c : Curve) : Option Reason :=
  if !knotEndsOk c.knots then some .curveEnds
  else if !knotsRise c.knots then some .curveOrder
  else if !maskOk f c.mask then some .curveMask
  else none

/-- Bounds in order (R9). -/
def Bounds.ordered (b : Bounds) : Bool := decide (b.lower.toNat ≤ b.upper.toNat)

/-- CLAMP_ORDER, for the components the format uses (R9). -/
def checkClamp (f : Format) (q : Quad Bounds) : Option Reason :=
  let low := q.c0.ordered && q.c1.ordered
  let ok :=
    match f with
    | .s16 => low
    | .s32 => low && q.c2.ordered && q.c3.ordered
  if ok then none else some .clampOrder

/-- BLEND_COMPONENT, then BLEND_PLANE (R10). -/
def checkBlend (f : Format) (b : Blend) : Option Reason :=
  if f = .s16 ∧ 2 ≤ b.component.val then some .blendComponent
  else if 64 < b.plane.toNat then some .blendPlane
  else none

/-- PATTERN_ROW, then PATTERN_BORDER (R11). -/
def checkPattern (p : Place) (g : Pattern) : Option Reason :=
  if g.row.toNat = 0 ∨ 8192 < g.row.toNat ∨ p.length < g.row.toNat * p.format.size then some .patternRow
  else if g.border.toNat = 0 ∨ 64 < g.border.toNat then some .patternBorder
  else none

/-- The checks of one non-EMPTY slot, in order (R32). -/
def checkWindow (w : Window) : Option Reason :=
  (checkPlace w.place).or <|
  (checkFit w).or <|
  (w.map.bind (checkMap w.place.format)).or <|
  (w.curve.bind (checkCurve w.place.format)).or <|
  (w.clamp.bind (checkClamp w.place.format)).or <|
  (w.blend.bind (checkBlend w.place.format)).or <|
  w.pattern.bind (checkPattern w.place)

/-- The first failure of validation: its place (none is "global") and reason; none for a valid table
(R31). -/
def WindowTable.firstFailure (t : WindowTable) : Option (Option SlotNo × Reason) :=
  match checkLayers t [] t.layers with
  | some r => some (none, r)
  | none =>
    Config.eightSlots.findSome? (fun n => ((t.window n).bind checkWindow).map (fun r => (some n, r)))

/-- The location byte of COMMIT's INVALID (R177). -/
def locationByte : Option SlotNo → Byte
  | none => 0xFF
  | some n => BitVec.ofNat 8 n.val

end Sys2Proof.Machine
end

