-- ==== Sys2Proof/Machine/Resolve.lean ====
section
/-!
DEFINITION. The Layer Resolver (R13 to R21): well-formedness of a request, the claim of each beat, the
memory run, the line span, and what each claim means for a beat.
-/

namespace Sys2Proof.Machine

/-- Beat count 1 to 16, address a multiple of 8, first and last byte in one 4 KiB block (R50). -/
def Request.wellFormed (r : Request) : Bool :=
  decide (1 ≤ r.beats) && decide (r.beats ≤ 16) && decide (r.addr.toNat % 8 = 0) &&
    decide (r.addr.toNat / 4096 = (r.addr.toNat + 8 * r.beats - 1) / 4096)

/-- A window contains an address: the byte range [base, base + length) (R4). -/
def Window.contains (w : Window) (a : Nat) : Bool :=
  decide (w.place.base.toNat ≤ a) && decide (a < w.place.base.toNat + w.place.length)

/-- The claim a layer-list entry makes on an address, if it makes one (R14). -/
def WindowTable.claimOfEntry (t : WindowTable) (a : Nat) (e : Fin 16) : Option Claim :=
  if h : e.val < 8 then
    match t.window ⟨e.val, h⟩ with
    | none => none
    | some w => if w.contains a then some (.slot ⟨e.val, h⟩) else none
  else none

/-- The background's claim (R14). -/
def Background.claim : Background → Claim
  | .pass => .backgroundPass
  | .fence => .backgroundFence

/-- The claim of a beat at an address: the first listed window that contains it, else the background
(R14). -/
def WindowTable.claimAt (t : WindowTable) (a : Nat) : Claim :=
  (t.layers.findSome? (t.claimOfEntry a)).getD t.background.claim

/-- The beat-claim list of a request (R16). -/
def WindowTable.claimsOf (t : WindowTable) (r : Request) : List Claim :=
  (List.range r.beats).map (fun i => t.claimAt (r.addr.toNat + 8 * i))

/-- What a claim means for a beat, with the claiming slot's record (R21). -/
inductive Treatment where
  | forward
  | condition (w : Window)
  | blend (w : Window)
  | pattern (w : Window)
  | fenced
  deriving DecidableEq, Repr

/-- The treatment of a claim under the table it was resolved against (R21). A claim never names an EMPTY
slot; the fenced treatment that stands there lets nothing out of the part (log entry 17). -/
def WindowTable.treatment (t : WindowTable) : Claim → Treatment
  | .backgroundPass => .forward
  | .backgroundFence => .fenced
  | .slot n =>
    match t.window n with
    | none => .fenced
    | some w =>
      match w.place.mode with
      | .condition => .condition w
      | .blend => .blend w
      | .pattern => .pattern w
      | .fence => .fenced

/-- A beat goes to memory for BACKGROUND_PASS, CONDITION and BLEND claims (R17). -/
def Treatment.toMemory : Treatment → Bool
  | .forward => true
  | .condition _ => true
  | .blend _ => true
  | .pattern _ => false
  | .fenced => false

/-- A beat is fenced (R112). -/
def Treatment.isFenced : Treatment → Bool
  | .forward => false
  | .condition _ => false
  | .blend _ => false
  | .pattern _ => false
  | .fenced => true

/-- A beat claimed by a PATTERN slot (R110). -/
def Treatment.isPattern : Treatment → Bool
  | .forward => false
  | .condition _ => false
  | .blend _ => false
  | .pattern _ => true
  | .fenced => false

/-- A beat claimed by a BLEND slot (R16). -/
def Treatment.isBlend : Treatment → Bool
  | .forward => false
  | .condition _ => false
  | .blend _ => true
  | .pattern _ => false
  | .fenced => false

/-- The slot of a claim; ABSENT for the background (R114, R134). -/
def Claim.slot? : Claim → Option SlotNo
  | .slot n => some n
  | .backgroundPass => none
  | .backgroundFence => none

/-- The memory run of a claim list: from the first beat that goes to memory to the last (R17). -/
def WindowTable.runOf (t : WindowTable) (claims : List Claim) : Option Run :=
  let goes := claims.map (fun c => (t.treatment c).toMemory)
  match goes.findIdx? id with
  | none => none
  | some first => some { first := first, last := goes.length - 1 - goes.reverse.findIdx id }

/-- The lines of a run of a request at an address (R20). -/
def spanOf (addr : Addr) (r : Run) : Span :=
  { first := (addr.toNat + 8 * r.first) / 64, last := (addr.toNat + 8 * r.last + 7) / 64 }

/-- Two line spans share a line. -/
def Span.meets (a b : Span) : Bool := decide (a.first ≤ b.last) && decide (b.first ≤ a.last)

/-- Two entries conflict: their spans share a line and one of them is a WRITE (R52). -/
def Entry.conflicts (a b : Entry) : Bool :=
  match a.span, b.span with
  | some x, some y => x.meets y && (decide (a.dir = .write) || decide (b.dir = .write))
  | _, _ => false

/-- The claims of the beats of a run, in run order (R17). -/
def Entry.runClaims (e : Entry) (r : Run) : List Claim := (e.claimList.drop r.first).take r.count

end Sys2Proof.Machine
end

