-- ==== Sys2Proof/Machine/Condition.lean ====
section
/-!
DEFINITION. The Conditioning Pipe (R67 to R79): component map, tone curve and clamp, sample by sample.
-/

namespace Sys2Proof.Machine

/-- The value for a component number (0 to 3). -/
def Quad.get {α : Type} (q : Quad α) : Nat → α
  | 0 => q.c0
  | 1 => q.c1
  | 2 => q.c2
  | _ => q.c3

/-- The first `n` samples of `size` lanes or bytes each (R70). -/
def samplesOf {α : Type} (size : Nat) : Nat → List α → List (List α)
  | 0, _ => []
  | n + 1, l => l.take size :: samplesOf size n (l.drop size)

/-- The samples of a beat: two S32 or four S16 (R70). -/
def beatSamples {α : Type} (f : Format) (beat : List α) : List (List α) := samplesOf f.size (8 / f.size) beat

/-- A lane with its strobe clear and value zero (R73). -/
def clearLane : Lane := { val := 0, strobe := false }

/-- A lane as the pipe carries it: an unstrobed one has value zero (R73). -/
def maskLane (l : Lane) : Lane := if l.strobe then l else clearLane

/-- A constant source: strobed when some input of the sample is (R72). -/
def constantLane (sample : List Lane) (v : Byte) : Lane :=
  if sample.any Lane.strobe then { val := v, strobe := true } else clearLane

/-- Output component `k` of the map (R71, R72); with MAP ABSENT it is input component `k`. -/
def mapLane (m : Option (Quad Source)) (sample : List Lane) (k : Nat) : Lane :=
  match m with
  | none => maskLane (sample.getD k clearLane)
  | some q =>
    match q.get k with
    | .comp j => maskLane (sample.getD j.val clearLane)
    | .zero => constantLane sample 0
    | .full => constantLane sample 255

/-- The map of a sample: every output from the inputs as they were (R71). -/
def mapSample (m : Option (Quad Source)) (sample : List Lane) : List Lane :=
  (List.range sample.length).map (mapLane m sample)

/-- The value between two knots, rounded to nearest, halves to the larger integer (R75). -/
def interpolate (a b : Knot) (x : Nat) : Byte :=
  let d : Int := (b.input.toNat : Int) - a.input.toNat
  let n : Int := ((x : Int) - a.input.toNat) * ((b.output.toNat : Int) - a.output.toNat)
  BitVec.ofInt 8 ((a.output.toNat : Int) + (2 * n + d) / (2 * d))

/-- The curve's result for a value (R75). -/
def curveAt : List Knot → Byte → Byte
  | [], x => x
  | [k], _ => k.output
  | a :: b :: rest, x =>
    if x = a.input then a.output
    else if x.toNat < b.input.toNat then interpolate a b x.toNat
    else curveAt (b :: rest) x

/-- The curve on output component `k`: where the mask selects it and it is strobed (R74). -/
def curveLane (c : Option Curve) (k : Nat) (l : Lane) : Lane :=
  match c with
  | none => l
  | some cv => if cv.mask.get k && l.strobe then { l with val := curveAt cv.knots l.val } else l

/-- The curve on a sample (R74). -/
def curveSample (c : Option Curve) (sample : List Lane) : List Lane :=
  sample.zipIdx.map (fun p => curveLane c p.2 p.1)

/-- A value brought within bounds (R77). -/
def clampValue (b : Bounds) (v : Byte) : Byte :=
  if v.toNat < b.lower.toNat then b.lower else if b.upper.toNat < v.toNat then b.upper else v

/-- The clamp on output component `k`, where it is strobed (R77). -/
def clampLane (q : Option (Quad Bounds)) (k : Nat) (l : Lane) : Lane :=
  match q with
  | none => l
  | some b => if l.strobe then { l with val := clampValue (b.get k) l.val } else l

/-- The clamp on a sample (R77). -/
def clampSample (q : Option (Quad Bounds)) (sample : List Lane) : List Lane :=
  sample.zipIdx.map (fun p => clampLane q p.2 p.1)

/-- The number of components of a sample that the clamp changed (R78). -/
def clampedIn (q : Option (Quad Bounds)) (sample : List Lane) : Nat :=
  sample.zipIdx.countP (fun p => decide (clampLane q p.2 p.1 ≠ p.1))

/-- A sample through map and curve: the new components of R91 and the clamp's input of R70. -/
def shapeSample (w : Window) (sample : List Lane) : List Lane := curveSample w.curve (mapSample w.map sample)

/-- A CONDITION beat conditioned, with its clamped count (R70, R78, R79). -/
def conditionBeat (w : Window) (beat : WBeat) : BuiltBeat :=
  let shaped := (beatSamples w.place.format beat).map (shapeSample w)
  { beat := shaped.flatMap (clampSample w.clamp)
    clamped := (shaped.map (clampedIn w.clamp)).sum }

/-- A gap beat: all strobes clear, all data zero (R18). -/
def gapBeat : BuiltBeat := { beat := List.replicate 8 clearLane, clamped := 0 }

/-- The write data of one beat of an entry. -/
def Entry.wbeat (e : Entry) (i : Nat) : WBeat := e.wdata.getD i (List.replicate 8 clearLane)

/-- A plain write's beat by its treatment (R69); a plain run holds no BLEND beat (R16). -/
def plainBeat (tr : Treatment) (beat : WBeat) : BuiltBeat :=
  match tr with
  | .forward => { beat := beat, clamped := 0 }
  | .condition w => conditionBeat w beat
  | .blend _ => gapBeat
  | .pattern _ => gapBeat
  | .fenced => gapBeat

/-- The beats of a plain write's DOWN WRITE, in run order (R67, R69). -/
def conditionRun (t : WindowTable) (e : Entry) (r : Run) : List BuiltBeat :=
  (List.range r.count).map (fun i =>
    plainBeat (t.treatment (e.claimList.getD (r.first + i) .backgroundFence)) (e.wbeat (r.first + i)))

end Sys2Proof.Machine
end

