-- ==== Sys2Proof/Machine/Blending.lean ====
section
/-!
DEFINITION. The Merge Engine's combination (R90 to R96): new samples blended over old ones by alpha.
-/

namespace Sys2Proof.Machine

/-- The sample alpha of the alpha component after map and curve; 64 when it is unstrobed (R92). -/
def sampleAlpha (l : Lane) : Nat :=
  let v := if l.strobe then l.val.toNat else 255
  (v + 2) / 4

/-- The effective alpha by the alpha source (R93). -/
def effectiveAlpha (b : Blend) (alphaLane : Lane) : Nat :=
  match b.source with
  | .sample => sampleAlpha alphaLane
  | .plane => b.plane.toNat
  | .product => (sampleAlpha alphaLane * b.plane.toNat + 32) / 64

/-- A new value over an old one by alpha (R94). -/
def mix (a : Nat) (new old : Byte) : Byte := BitVec.ofNat 8 ((a * new.toNat + (64 - a) * old.toNat + 32) / 64)

/-- Component `k` of a blended sample (R94, R95): the alpha component by the policy, others mixed,
unstrobed ones left clear. -/
def blendLane (b : Blend) (a : Nat) (k : Nat) (new : Lane) (old : Byte) : Lane :=
  if !new.strobe then clearLane
  else if k = b.component.val then
    match b.policy with
    | .keepOld => { new with val := old }
    | .takeNew => new
  else { new with val := mix a new.val old }

/-- A sample blended, before the clamp (R92 to R95); `sample` has been through map and curve. -/
def blendSample (b : Blend) (sample : List Lane) (old : RBeat) : List Lane :=
  let a := effectiveAlpha b (sample.getD b.component.val clearLane)
  sample.zipIdx.map (fun p => blendLane b a p.2 p.1 (old.getD p.2 0))

/-- A BLEND beat combined with its old data, with its clamped count (R91, R96). -/
def blendBeat (w : Window) (b : Blend) (beat : WBeat) (old : RBeat) : BuiltBeat :=
  let news := (beatSamples w.place.format beat).map (shapeSample w)
  let olds := beatSamples w.place.format old
  let blended := news.zipIdx.map (fun p => blendSample b p.1 (olds.getD p.2 []))
  { beat := blended.flatMap (clampSample w.clamp)
    clamped := (blended.map (clampedIn w.clamp)).sum }

/-- A beat of the merged write by its treatment (R90). A BLEND slot of a committed table has its BLEND
group (R6); a gap beat stands where it would not (log entry 17). -/
def mergedBeat (tr : Treatment) (beat : WBeat) (old : RBeat) : BuiltBeat :=
  match tr with
  | .forward => { beat := beat, clamped := 0 }
  | .condition w => conditionBeat w beat
  | .blend w =>
    match w.blend with
    | some b => blendBeat w b beat old
    | none => gapBeat
  | .pattern _ => gapBeat
  | .fenced => gapBeat

/-- The merged write of a merge entry, in run order (R88, R90). -/
def mergeRun (t : WindowTable) (e : Entry) (r : Run) (old : List RBeat) : List BuiltBeat :=
  (List.range r.count).map (fun i =>
    mergedBeat (t.treatment (e.claimList.getD (r.first + i) .backgroundFence)) (e.wbeat (r.first + i))
      (old.getD i []))

end Sys2Proof.Machine
end

