-- ==== Sys2Proof/Machine/Patterns.lean ====
section
/-!
DEFINITION. The Pattern Generator (R104 to R109) and the assembly of a READ's data (R59).
-/

namespace Sys2Proof.Machine

/-- The bar number of a column (R107). -/
def barOf (row : Nat) (column : Nat) : Nat := column * 8 / row

/-- BARS: component `j` of a sample in a column (R107). -/
def barsComponent (g : Pattern) (s j : Nat) : Byte :=
  let k := barOf g.row.toNat (s % g.row.toNat)
  if j < 3 then (if (7 - k).testBit j then 255 else 0) else 255

/-- The whole rows of a window (R105). -/
def wholeRows (p : Place) (g : Pattern) : Nat := p.length / (g.row.toNat * p.format.size)

/-- Whether a sample is a border sample (R108); W − b and rows − b may be negative. -/
def isBorder (p : Place) (g : Pattern) (s : Nat) : Bool :=
  let column := s % g.row.toNat
  let row := s / g.row.toNat
  decide (column < g.border.toNat) || decide (g.row.toNat ≤ column + g.border.toNat) ||
    decide (row < g.border.toNat) || decide (wholeRows p g ≤ row + g.border.toNat)

/-- NOISE: component `j` of sample `s` (R109). -/
def noiseComponent (g : Pattern) (s j : Nat) : Byte :=
  let x := (s % 65536 * 40503 + g.seed.toNat * 7 + j * 97) % 65536
  BitVec.ofNat 8 (x * x % 65536 / 256)

/-- Component `j` of sample `s` of a PATTERN window (R106 to R109). -/
def patternComponent (p : Place) (g : Pattern) (s j : Nat) : Byte :=
  match g.kind with
  | .solid => g.solid.get j
  | .bars => barsComponent g s j
  | .border => if isBorder p g s then g.solid.get j else if j = 3 then 255 else 0
  | .noise => noiseComponent g s j

/-- The sample index of the `i`-th sample of a beat at an address (R105). -/
def sampleIndex (p : Place) (a i : Nat) : Nat := (a + p.format.size * i - p.base.toNat) / p.format.size

/-- A PATTERN beat at an address (R105). -/
def patternBeat (p : Place) (g : Pattern) (a : Nat) : RBeat :=
  (List.range (8 / p.format.size)).flatMap (fun i =>
    (List.range p.format.size).map (patternComponent p g (sampleIndex p a i)))

/-- A beat of zeros. -/
def zeroBeat : RBeat := List.replicate 8 0

/-- One beat of a READ's buffer by its treatment (R59): `returned` is the memory's answer for that beat,
none when the run was not answered OK. A PATTERN slot of a committed table has its PATTERN group (R6). -/
def readBeat (tr : Treatment) (a : Nat) (returned : Option RBeat) : RBeat :=
  match tr with
  | .forward => returned.getD zeroBeat
  | .condition _ => returned.getD zeroBeat
  | .blend _ => returned.getD zeroBeat
  | .pattern w =>
    match w.pattern with
    | some g => patternBeat w.place g a
    | none => zeroBeat
  | .fenced => zeroBeat

/-- The read data buffer of a READ entry that goes to COMPLETE (R59, R104); `returned` is the run's data,
none when there is no run or it was answered ERROR or expired. -/
def readBuffer (t : WindowTable) (e : Entry) (returned : Option (List RBeat)) : List RBeat :=
  let first := (e.run.map Run.first).getD 0
  (List.range e.beats).map (fun i =>
    readBeat (t.treatment (e.claimList.getD i .backgroundFence)) (e.addr.toNat + 8 * i)
      (returned.map (fun d => d.getD (i - first) zeroBeat)))

/-- The all-zero data of a READ RETURN for a malformed request or after a soft reset: as many beats as
requested when that lies in 1 to 16, else none (R45, R64). -/
def zeroData (e : Entry) : List RBeat :=
  match e.dir with
  | .read => if 1 ≤ e.beats ∧ e.beats ≤ 16 then List.replicate e.beats zeroBeat else []
  | .write => []

/-- The data of a READ entry that goes to COMPLETE; a WRITE entry has no buffer to fill (R59). -/
def completionData (t : WindowTable) (e : Entry) (returned : Option (List RBeat)) : List RBeat :=
  match e.dir with
  | .read => readBuffer t e returned
  | .write => e.rdata

end Sys2Proof.Machine
end

