-- ==== Sys2Proof/Machine/Records.lean ====
section
/-!
DEFINITION. The fault records and orphan records the part makes, field by field (R101, R131 to R135, R154).
-/

namespace Sys2Proof.Machine

/-- MALFORMED, at the acceptance of a malformed request (R50). -/
def malformedRecord (r : Request) (g : Gen) : FaultRecord :=
  { kind := .malformed, dir := r.dir, lost := false, id := some r.id, addr := some r.addr, gen := some g
    slot := none, tag := none, phase := none }

/-- FENCED, at the acceptance of a request whose first fenced beat is beat `i` claimed by `c` (R114). -/
def fencedRecord (r : Request) (g : Gen) (i : Nat) (c : Claim) : FaultRecord :=
  { kind := .fenced, dir := r.dir, lost := false, id := some r.id
    addr := some (r.addr + BitVec.ofNat 36 (8 * i)), gen := some g, slot := c.slot?, tag := none, phase := none }

/-- The phase a record of an entry's transaction carries: ABSENT for a plain entry (R101, R131). -/
def Entry.phaseOf (e : Entry) (kind : Dir) : Option Phase :=
  if e.merge then
    match kind with
    | .read => some .oldRead
    | .write => some .mergedWrite
  else none

/-- The claiming slot a record of an entry's transaction carries: for a plain entry the slot that claims
the run's first beat (R134), for a merge entry the slot of the run's first BLEND beat (R101). -/
def Entry.recordSlot (t : WindowTable) (e : Entry) (r : Run) : Option SlotNo :=
  if e.merge then
    (e.runClaims r).findSome? (fun c => if (t.treatment c).isBlend then c.slot? else none)
  else ((e.runClaims r).head?).bind Claim.slot?

/-- DOWNSTREAM_FAULT or TIMEOUT of an entry's transaction (R101, R134). -/
def transactionRecord (k : FaultKind) (t : WindowTable) (e : Entry) (r : Run) (tag : Tag) (kind : Dir) :
    FaultRecord :=
  { kind := k, dir := e.dir, lost := false, id := some e.id, addr := some (e.runAddr r), gen := e.bound
    slot := e.recordSlot t r, tag := some tag, phase := e.phaseOf kind }

/-- The orphan record of an entry's transaction (R99, R131; log entry 20). -/
def orphanOf (e : Entry) (r : Run) (kind : Dir) : Orphan :=
  { dir := e.dir, addr := e.runAddr r, beats := r.count, gen := e.bound, phase := e.phaseOf kind }

/-- ORPHAN_LATE or PURGED: an orphan's record on its way to the Fault Queue (R132, R135). -/
def orphanRecord (k : FaultKind) (o : Orphan) (tag : Tag) : FaultRecord :=
  { kind := k, dir := o.dir, lost := false, id := none, addr := some o.addr, gen := o.gen, slot := none
    tag := some tag, phase := o.phase }

/-- STRAY: a response on a tag that does not await it (R133). -/
def strayRecord (kind : Dir) (tag : Tag) : FaultRecord :=
  { kind := .stray, dir := kind, lost := false, id := none, addr := none, gen := none, slot := none
    tag := some tag, phase := none }

end Sys2Proof.Machine
end

