-- ==== Sys2Proof/Machine/Stats.lean ====
section
/-!
DEFINITION. The additions to statistics records (R80 to R83, R97, R111, R113, R143), opening a record (R145).
-/

namespace Sys2Proof.Machine

/-- The value a byte adds to a checksum: zero when its strobe is clear (R81). -/
def summedByte (l : Lane) : Nat := if l.strobe then l.val.toNat else 0

/-- The sum of a beat's little-endian halves, before the modulus (R81). -/
def halvesSum : List Lane → Nat
  | lo :: hi :: rest => summedByte lo + 256 * summedByte hi + halvesSum rest
  | _ => 0

/-- The checksum of a downstream beat (R81). -/
def beatChecksum (b : WBeat) : BitVec 16 := BitVec.ofNat 16 (halvesSum b)

/-- A change to the part of one slot; a record without that slot is unchanged. -/
def StatsRecord.onSlot (r : StatsRecord) (n : SlotNo) (f : SlotPart → SlotPart) : StatsRecord :=
  { r with parts := r.parts.map (fun p => if p.slot = n then f p else p) }

/-- A change to the background part. -/
def StatsRecord.onBackground (r : StatsRecord) (f : BackgroundPart → BackgroundPart) : StatsRecord :=
  { r with background := f r.background }

/-- One issued beat of a slot: one beat, its clamped count, and its checksum where enabled (R80 to R83). -/
def SlotPart.issue (p : SlotPart) (checksum : Bool) (b : BuiltBeat) : SlotPart :=
  { p with
    issued := saturatingAdd p.issued 1
    clamped := saturatingAdd p.clamped b.clamped
    checksum := if checksum then p.checksum + beatChecksum b.beat else p.checksum }

/-- One issued beat of the background (R80, R82). -/
def BackgroundPart.issue (p : BackgroundPart) (b : BuiltBeat) : BackgroundPart :=
  { p with issued := saturatingAdd p.issued 1, checksum := p.checksum + beatChecksum b.beat }

/-- The additions for one beat of a taken write, by its claim (R80 to R83); a gap beat adds nothing. -/
def issueBeat (t : WindowTable) (r : StatsRecord) (cb : Claim × BuiltBeat) : StatsRecord :=
  if (t.treatment cb.1).toMemory then
    match cb.1 with
    | .slot n => r.onSlot n (fun p => p.issue (((t.window n).map (fun w => w.place.checksum)).getD false) cb.2)
    | .backgroundPass => r.onBackground (fun p => p.issue cb.2)
    | .backgroundFence => r
  else r

/-- The additions of one taken write, all its beats together (R83, R97). -/
def issueBeats (t : WindowTable) (claims : List Claim) (beats : List BuiltBeat) (r : StatsRecord) : StatsRecord :=
  (claims.zip beats).foldl (issueBeat t) r

/-- The addition for one beat at acceptance: fenced beats in either direction, absorbed beats of a WRITE
(R111, R113). -/
def acceptBeat (t : WindowTable) (dir : Dir) (r : StatsRecord) (c : Claim) : StatsRecord :=
  match c with
  | .backgroundFence => r.onBackground (fun p => { p with fenced := saturatingAdd p.fenced 1 })
  | .backgroundPass => r
  | .slot n =>
    match t.treatment c with
    | .fenced => r.onSlot n (fun p => { p with fenced := saturatingAdd p.fenced 1 })
    | .pattern _ =>
      match dir with
      | .write => r.onSlot n (fun p => { p with absorbed := saturatingAdd p.absorbed 1 })
      | .read => r
    | .forward => r
    | .condition _ => r
    | .blend _ => r

/-- The additions of one acceptance (R51). -/
def acceptBeats (t : WindowTable) (dir : Dir) (claims : List Claim) (r : StatsRecord) : StatsRecord :=
  claims.foldl (acceptBeat t dir) r

/-- The empty part of a listed slot (R145). -/
def openPart (n : SlotNo) (m : Mode) : SlotPart :=
  { slot := n, mode := m, issued := 0, absorbed := 0, fenced := 0, clamped := 0, checksum := 0 }

/-- The part a layer-list entry opens: its slot number and mode (R145). -/
def WindowTable.openEntry (t : WindowTable) (e : Fin 16) : Option SlotPart :=
  if h : e.val < 8 then (t.window ⟨e.val, h⟩).map (fun w => openPart ⟨e.val, h⟩ w.place.mode) else none

/-- An empty statistics record for a generation under a table (R145). -/
def openRecord (g : Gen) (t : WindowTable) : StatsRecord :=
  { gen := g
    action := t.background
    background := { issued := 0, fenced := 0, checksum := 0 }
    parts := t.layers.filterMap t.openEntry }

end Sys2Proof.Machine
end

