-- ==== Sys2Proof/Machine/Schedule.lean ====
section
/-!
DEFINITION. What happens inside a step whatever started it: takes by the arbiter (R121 to R125), grants
(R54), offers on the return channel (R61), and acceptance of the waiting request (R49 to R51, R62).
-/

namespace Sys2Proof.Machine

/-! ## The request arbiter -/

/-- The deadline of a transaction taken now: the response timeout in force, none when it is 0 (R126). -/
def State.newDeadline (s : State) : Option Nat :=
  if s.link.timeout.toNat = 0 then none else some s.link.timeout.toNat

/-- The forward side's candidate: the oldest entry in ISSUING (R122). -/
def State.forwardCandidate (s : State) : Option Entry :=
  s.table.entries.find? (fun e => decide (e.state = .issuing))

/-- The merge slot in READ_WAIT or WRITE_WAIT that an entry holds, with what it holds (R123). -/
def State.waitingMerge (s : State) (e : Entry) : Option (MergeNo × MergeWork) :=
  match e.slot with
  | none => none
  | some m =>
    match s.merge[m] with
    | none => none
    | some w =>
      match w.phase with
      | .readWait => some (m, w)
      | .writeWait => some (m, w)
      | .readOut => none
      | .writeOut => none

/-- The merge side's candidate: the waiting merge slot whose entry is oldest (R123). -/
def State.mergeCandidate (s : State) : Option (Entry × MergeNo × MergeWork) :=
  s.table.entries.findSome? (fun e => (s.waitingMerge e).map (fun p => (e, p.1, p.2)))

/-- A request presented and its tag in flight, under the deadline in force (R125, steps 1, 2 and 5). -/
def State.present (s : State) (e : Entry) (r : Run) (t : Tag) (kind : Dir) (data : List WBeat) (side : Side) :
    State :=
  { s with
    port :=
      { tags := s.port.tags.set t (.bound e.no (some { kind := kind, deadline := s.newDeadline }))
        channel := some { kind := kind, tag := t, addr := e.runAddr r, beats := r.count, data := data }
        lastServed := side } }

/-- A taken write's statistics, added to the record of the entry's bound generation (R80 to R83, R97). -/
def State.countIssued (s : State) (e : Entry) (r : Run) (beats : List BuiltBeat) : State :=
  s.setStats (s.stats.addTo e.bound (issueBeats (s.tableOf e.bound) (e.runClaims r) beats))

/-- The take of a plain entry's request (R125): a READ sends its run, a WRITE its conditioned beats. -/
def takePlain (s : State) (e : Entry) : State :=
  match e.tag, e.run with
  | some t, some r =>
    match e.dir with
    | .read => (s.present e r t .read [] .forward).setEntry { e with state := .outstanding }
    | .write =>
      let beats := conditionRun (s.tableOf e.bound) e r
      ((s.present e r t .write (beats.map BuiltBeat.beat) .forward).setEntry { e with state := .outstanding }).countIssued
        e r beats
  | none, _ => s
  | some _, none => s

/-- The take of a merge slot's request: the old-data read (R87) or the merged write (R97). -/
def takeMerge (s : State) (e : Entry) (m : MergeNo) (w : MergeWork) : State :=
  match e.tag, e.run with
  | some t, some r =>
    match w.phase with
    | .readWait => (s.present e r t .read [] .merge).setMerge m (some { w with phase := .readOut })
    | .writeWait =>
      ((s.present e r t .write (w.merged.map BuiltBeat.beat) .merge).setMerge m
        (some { w with phase := .writeOut, merged := [] })).countIssued e r w.merged
    | .readOut => s
    | .writeOut => s
  | none, _ => s
  | some _, none => s

/-- The arbiter: when the channel is free it takes one waiting request, the side not served last when
both sides wait (R121, R124). -/
def arbitrate (s : State) : State :=
  match s.port.channel with
  | some _ => s
  | none =>
    match s.forwardCandidate, s.mergeCandidate with
    | none, none => s
    | some e, none => takePlain s e
    | none, some (e, m, w) => takeMerge s e m w
    | some f, some (e, m, w) =>
      match s.port.lastServed with
      | .merge => takePlain s f
      | .forward => takeMerge s e m w

/-! ## Grants -/

/-- A WAITING entry can proceed, when a tag is FREE: a merge entry needs a FREE merge slot too (R54). -/
def State.canProceed (s : State) (e : Entry) : Bool :=
  decide (e.state = .waiting) && (!e.merge || s.freeMergeSlot.isSome)

/-- A grant of a tag, and to a merge entry of a merge slot with it (R54, R86). -/
def grantTo (s : State) (e : Entry) (t : Tag) : State :=
  if e.merge then
    match s.freeMergeSlot with
    | none => s
    | some m =>
      ((s.setEntry { e with state := .merging, tag := some t, slot := some m }).setTag t (.bound e.no none)).setMerge m
        (some { entry := e.no, phase := .readWait, oldData := [], merged := [] })
  else (s.setEntry { e with state := .issuing, tag := some t }).setTag t (.bound e.no none)

/-- One grant, to the oldest WAITING entry that can proceed, of the lowest FREE tag (R54), or none. -/
def grantOne (s : State) : Option State :=
  match s.freeTag, s.table.entries.find? s.canProceed with
  | some t, some e => some (grantTo s e t)
  | none, _ => none
  | some _, none => none

/-- Grants while one can be made, each followed by the take it allows (R54, R121; log entry 7). -/
def grants : Nat → State → State
  | 0, s => s
  | n + 1, s =>
    match grantOne s with
    | none => s
    | some s' => grants n (arbitrate s')

/-! ## The return channel -/

/-- An entry's response can be delivered: it is COMPLETE and no older entry has its upstream ID (R60). -/
def deliverable (older : List Entry) (e : Entry) : Bool :=
  decide (e.state = .complete) && older.all (fun o => decide (o.id ≠ e.id))

/-- The oldest deliverable entry; `older` are the entries before, in any order (R61). -/
def oldestDeliverable (older : List Entry) : List Entry → Option Entry
  | [] => none
  | e :: rest => if deliverable older e then some e else oldestDeliverable (e :: older) rest

/-- A free return channel offers the response of the oldest deliverable entry (R61). -/
def offerNext (s : State) : State :=
  match s.table.offer with
  | some _ => s
  | none => s.setOffer ((oldestDeliverable [] s.table.entries).map (fun e => { entry := e.no, response := e.response }))

/-- What follows inside a step once its own change is made: takes, grants, the next offer. Sixteen grants
are enough, since each uses up a FREE tag. -/
def settle (s : State) : State := offerNext (grants 16 (arbitrate s))

/-! ## Acceptance -/

/-- The entry a malformed request takes: COMPLETE, REFUSED, with no claims and no run (R50). -/
def malformedEntry (n : EntryNo) (r : Request) (g : Gen) : Entry :=
  let e : Entry :=
    { no := n, id := r.id, dir := r.dir, addr := r.addr, beats := r.beats, wdata := [], bound := some g
      claims := none, merge := false, run := none, span := none, blockers := [], state := .complete
      tag := none, slot := none, status := .refused, rdata := [] }
  { e with rdata := zeroData e }

/-- The resolved entry of a well-formed request, before its blockers are known (R51, step 1). -/
def resolvedEntry (n : EntryNo) (r : Request) (g : Gen) (t : WindowTable) : Entry :=
  let claims := t.claimsOf r
  let run := t.runOf claims
  { no := n, id := r.id, dir := r.dir, addr := r.addr, beats := r.beats, wdata := r.data, bound := some g
    claims := some claims
    merge := decide (r.dir = .write) && claims.any (fun c => (t.treatment c).isBlend)
    run := run, span := run.map (spanOf r.addr), blockers := [], state := .waiting, tag := none, slot := none
    status := if claims.any (fun c => (t.treatment c).isFenced) then .refused else .done
    rdata := [] }

/-- A resolved entry in its first state (R51, step 4; R52); with no run its response is made at once. -/
def placedEntry (t : WindowTable) (live : List Entry) (e : Entry) : Entry :=
  let blockers := (live.filter (Entry.conflicts e)).map Entry.no
  match e.run with
  | none => { e with state := .complete, rdata := completionData t e none }
  | some _ => { e with blockers := blockers, state := if blockers.isEmpty then .waiting else .held }

/-- A new live entry, the youngest, bound to ACTIVE (R48, R63). -/
def State.addEntry (s : State) (e : Entry) : State :=
  { s with table := { s.table with entries := s.table.entries ++ [e], activeCount := s.table.activeCount + 1 } }

/-- The FENCED record of a request's claims, posted when some beat is fenced (R51, R114). -/
def State.postFenced (s : State) (r : Request) (t : WindowTable) (claims : List Claim) : State :=
  match claims.findIdx? (fun c => (t.treatment c).isFenced) with
  | none => s
  | some i => s.post (fencedRecord r s.gens.active.number i (claims.getD i .backgroundFence))

/-- The acceptance of a request into a free entry, one event (R49 to R51). -/
def accept (s : State) (n : EntryNo) (r : Request) : State :=
  let g := s.gens.active.number
  let t := s.gens.active.table
  if r.wellFormed then
    let e := placedEntry t s.table.entries (resolvedEntry n r g t)
    ((s.addEntry e).postFenced r t (t.claimsOf r)).setStats (s.stats.addTo (some g) (acceptBeats t r.dir (t.claimsOf r)))
  else (s.addEntry (malformedEntry n r g)).post (malformedRecord r g)

/-- The requests at the head of the upstream channel are accepted while an entry is free and RESET_N is
released, each with what follows it (R44, R62 step 6). -/
def drainRequests : Nat → State → State
  | 0, s => s
  | k + 1, s =>
    match s.requests with
    | [] => s
    | r :: rest =>
      if s.resetAsserted then s
      else
        match s.freeEntry with
        | none => s
        | some n => drainRequests k (settle (accept { s with requests := rest } n r))

end Sys2Proof.Machine
end

