-- ==== Sys2Proof/Machine/Downstream.lean ====
section
/-!
DEFINITION. The commands of the memory port DOWN_REQUEST_ACCEPTED, DOWN_READ_RETURN and DOWN_WRITE_RETURN, and
the end of a transaction whose deadline expires.
-/

namespace Sys2Proof.Machine

/-- DOWN_REQUEST_ACCEPTED (R121): the channel is free and the arbiter makes its next choice; with nothing
presented there is nothing to accept (log entry 4). -/
def execDownRequestAccepted (s : State) : Host.Outcome State Fault Refusal :=
  match s.port.channel with
  | none => .next s
  | some _ => .next (settle { s with port := { s.port with channel := none } }).refreshAlert

/-- An entry completes: its data made, its merge slot FREE, its tag in the given state (R56 to R58). -/
def State.endEntry (s : State) (e : Entry) (tag : Tag) (after : TagState) (st : TxStatus)
    (returned : Option (List RBeat)) : State :=
  let s' := (s.setEntry { e.completed st with rdata := completionData (s.tableOf e.bound) e returned }).setTag tag after
  match e.slot with
  | none => s'
  | some m => s'.setMerge m none

/-- The transaction ends in an ERROR: status FAULT, tag FREE, a DOWNSTREAM_FAULT record (R56, R57, R89,
R98, R134). -/
def State.endInError (s : State) (e : Entry) (r : Run) (tag : Tag) (kind : Dir) : State :=
  (s.endEntry e tag .free .fault none).post
    (transactionRecord .downstreamFault (s.tableOf e.bound) e r tag kind)

/-- The old data of a merge entry has come: the merged write is built, the slot goes to WRITE_WAIT and the
tag stays BOUND with nothing in flight (R88). -/
def State.mergeOldData (s : State) (e : Entry) (r : Run) (tag : Tag) (data : List RBeat) : State :=
  match e.slot with
  | none => s
  | some m =>
    match s.merge[m] with
    | none => s
    | some w =>
      let filled : MergeWork := { w with oldData := data }
      (s.setMerge m
        (some
          { filled with
            phase := .writeWait
            oldData := []
            merged := mergeRun (s.tableOf e.bound) e r filled.oldData })).setTag tag (.bound e.no none)

/-- A response taken by the transaction that awaits it (R128); an OK read with the wrong beat count counts
as ERROR (R130). -/
def State.takeResponse (s : State) (e : Entry) (tag : Tag) (kind : Dir) (status : DownStatus)
    (data : List RBeat) : State :=
  match e.run with
  | none => s
  | some r =>
    match kind, status with
    | .read, .ok =>
      if data.length = r.count then
        if e.merge then s.mergeOldData e r tag data else s.endEntry e tag .free .done (some data)
      else s.endInError e r tag .read
    | .read, .error => s.endInError e r tag .read
    | .write, .ok => s.endEntry e tag .free .done none
    | .write, .error => s.endInError e r tag .write

/-- A stray response: a record, and nothing else (R133). -/
def State.stray (s : State) (kind : Dir) (tag : Tag) : State := (s.post (strayRecord kind tag)).refreshAlert

/-- A response by the state of its tag: taken, late, or stray (R128, R132, R133); while RESET_N is asserted
it is discarded (R140). -/
def State.respondDown (s : State) (kind : Dir) (tag : Tag) (status : DownStatus) (data : List RBeat) : State :=
  if s.resetAsserted then s
  else
    match s.port.tags[tag] with
    | .free => s.stray kind tag
    | .orphaned o => (settle ((s.setTag tag .free).post (orphanRecord .orphanLate o tag))).refreshAlert
    | .bound _ none => s.stray kind tag
    | .bound n (some fl) =>
      if fl.kind = kind then
        match s.entry? n with
        | none => s
        | some e => (settle (s.takeResponse e tag kind status data)).refreshAlert
      else s.stray kind tag

/-- DOWN_READ_RETURN (R128). -/
def execDownReadReturn (tag : Tag) (status : DownStatus) (data : List RBeat) (s : State) :
    Host.Outcome State Fault Refusal :=
  .next (s.respondDown .read tag status data)

/-- DOWN_WRITE_RETURN (R128). -/
def execDownWriteReturn (tag : Tag) (status : DownStatus) (s : State) : Host.Outcome State Fault Refusal :=
  .next (s.respondDown .write tag status [])

/-- A transaction is given up at its deadline (R129): status FAULT, tag ORPHANED, a TIMEOUT record. -/
def State.expire (s : State) (e : Entry) (r : Run) (tag : Tag) (kind : Dir) : State :=
  (s.endEntry e tag (.orphaned (orphanOf e r kind)) .fault none).post
    (transactionRecord .timeout (s.tableOf e.bound) e r tag kind)

/-- The expiry of a deadline is taken for its own tag, with what it allows (R127, R129). With no transaction in
flight on the tag there is none to give up. -/
def State.expireTag (s : State) (tag : Tag) : State :=
  match s.port.tags[tag] with
  | .free => s
  | .orphaned _ => s
  | .bound _ none => s
  | .bound n (some fl) =>
    match s.entry? n with
    | none => s
    | some e =>
      match e.run with
      | none => s
      | some r => (settle (s.expire e r tag fl.kind)).refreshAlert

end Sys2Proof.Machine
end

