-- ==== Sys2Proof/Machine/Clock.lean ====
section
/-!
DEFINITION. The reference clock: what the part does at a rising edge of REF_1MHZ, and DEADLINE_EXPIRY (R127).
-/

namespace Sys2Proof.Machine

/-- The tag's deadline has counted its last edge (R127). -/
def TagState.due : TagState → Bool
  | .free => false
  | .bound _ none => false
  | .bound _ (some fl) => decide (fl.deadline = some 0)
  | .orphaned _ => false

/-- The tags whose deadlines are due, in ascending order. -/
def State.dueTags (s : State) : List Tag := Config.sixteen.filter (fun k => (s.port.tags[k]).due)

/-- Every deadline that is due expires, the lowest tag first (R127; log entry 2). -/
def State.expireDue (s : State) : State := s.dueTags.foldl State.expireTag s

/-- One rising edge of REF_1MHZ: every running deadline counts it, and each that has counted its last edge
expires (R127; log entry 2). -/
def State.tick (s : State) : State := (s.elapse 1).expireDue

/-- The expiry of a tag's deadline: the reference edges before the deadline's last one go by, each with the
expiries it brings; at the last edge this tag is taken first and then every other that is due (R127; log entry
3). With no deadline running on the tag none expires. -/
def State.takeExpiry (s : State) (tag : Tag) : State :=
  match s.port.tags[tag] with
  | .free => s
  | .orphaned _ => s
  | .bound _ none => s
  | .bound _ (some fl) =>
    match fl.deadline with
    | none => s
    | some edges => (((State.tick^[edges - 1] s).elapse 1).expireTag tag).expireDue

/-- DEADLINE_EXPIRY (R127, R129). -/
def execDeadlineExpiry (tag : Tag) (s : State) : Host.Outcome State Fault Refusal := .next (s.takeExpiry tag)

end Sys2Proof.Machine
end

