-- ==== Sys2Proof/Machine/Generation.lean ====
section
/-!
DEFINITION. The Generation Controller at a COMMIT (R30 to R36).
-/

namespace Sys2Proof.Machine

/-- The bank transfer: ACTIVE to RETIRING, STAGING copied to ACTIVE as G + 1, a new record, the retiring
count (R35). -/
def State.transferBanks (s : State) : State :=
  let g := s.gens.active.number + 1
  { s with
    gens :=
      { staging := s.gens.staging
        active := { number := g, table := s.gens.staging }
        retiring := some s.gens.active }
    stats :=
      { active := openRecord g s.gens.staging, retiring := some s.stats.active, queue := s.stats.queue }
    table := { s.table with activeCount := 0, retiringCount := s.table.activeCount } }

/-- The transfer, and the close at once of a generation no live entry is bound to (R35, R36). -/
def State.advanceGeneration (s : State) : State :=
  if s.table.activeCount = 0 then s.transferBanks.closeRetiring else s.transferBanks

end Sys2Proof.Machine
end

