-- ==== Sys2Proof/Machine/Reset.lean ====
section
/-!
DEFINITION. POWER_ON_RESET (R24, R66, R140, R149, R159, R163, R184) and what a soft reset does to each block
(R25, R64, R102, R138, R139, R148, R159).
-/

namespace Sys2Proof.Machine

/-- A frame in progress at an edge of RESET_N is cut: it is discarded whole, whenever it ends (R184). -/
def State.cutFrame (s : State) (midFrame : Bool) : State :=
  { s with link := { s.link with cut := s.link.cut || midFrame } }

/-- RESET_N asserted: every block at its power-on state. The requests the master presents stay on its
channel (R44; log entry 1), and a frame in progress is cut (R184; log entry 19). -/
def State.assertReset (s : State) (midFrame : Bool) : State :=
  { State.reset with
    pending := s.pending
    requests := s.requests
    resetAsserted := true
    link := { State.reset.link with cut := s.link.cut || midFrame } }

/-- RESET_N released: the requests that wait are offered in arrival order (R44), and a frame in progress is
cut, since bytes are counted from the first assertion of SPI_CS_N after the release (R184). -/
def State.releaseReset (s : State) (midFrame : Bool) : State :=
  if s.resetAsserted then
    (drainRequests 16 { s.cutFrame midFrame with resetAsserted := false }).refreshAlert
  else s

/-- POWER_ON_RESET: the pulse of the row, or one edge of it (R24). -/
def execPowerOnReset (event : ResetEvent) (s : State) : Host.Outcome State Fault Refusal :=
  match event.pin with
  | .pulse => .next ((s.assertReset event.midFrame).releaseReset event.midFrame)
  | .asserted => .next (s.assertReset event.midFrame)
  | .released => .next (s.releaseReset event.midFrame)

/-- An entry answered by a soft reset (R64). Its line span is empty, so that it holds no line from the reset on
(R52, R64, R65). A sentence of R188 says instead that a write orphaned by soft reset stops holding its line when
its entry retires. No sentence of the spec rules between them, and the model follows R52, R64 and R65 (DESIGN
CHOICE, log entry 21). -/
def Entry.answered (e : Entry) : Entry :=
  { e with
    status := .fault, bound := none, run := none, span := none, blockers := [], tag := none, slot := none
    rdata := zeroData e, state := .complete }

/-- The offer replaced by the same entry's response as the reset leaves it (R65). -/
def State.answeredOffer (s : State) (o : Offer) : Offer :=
  match s.entry? o.entry with
  | none => o
  | some e => { o with response := e.answered.response }

/-- A tag at a soft reset (R138). -/
def State.resetTag (s : State) : TagState → TagState
  | .free => .free
  | .orphaned o => .orphaned o
  | .bound _ none => .free
  | .bound n (some fl) =>
    match s.entry? n with
    | none => .free
    | some e =>
      match e.run with
      | none => .free
      | some r => .orphaned (orphanOf e r fl.kind)

/-- The soft reset of every block but the link (R183): the presented downstream request stays presented
(R138), the requests on the upstream channel stay (R65). -/
def State.softResetBlocks (s : State) : State :=
  { s with
    table :=
      { entries := s.table.entries.map Entry.answered, activeCount := 0, retiringCount := 0
        offer := s.table.offer.map s.answeredOffer }
    gens := State.reset.gens
    stats := State.reset.stats
    merge := State.reset.merge
    port := { tags := mapStore s.resetTag s.port.tags, channel := s.port.channel, lastServed := .merge }
    faults := [] }

end Sys2Proof.Machine
end

