-- ==== Sys2Proof/Machine/LinkCommands.lean ====
section
/-!
DEFINITION. The command frames of the management link that pass checks 1 to 3 of R166 (R172 to R183).
-/

namespace Sys2Proof.Machine

/-- A frame answered FRAMING, BAD_CRC or UNKNOWN_COMMAND: its response and the frame-error flag (R166). -/
def State.rejectFrame (s : State) (status : LinkStatus) : State := (s.respond status []).setFrameError

/-- A command frame with `n` argument bytes is taken: SPI_MISO carries 0xFF in each of its 3 + n bytes
(R164). A frame that a reset cuts is discarded (R184). More than 60 argument bytes fail check 1 of R166 (log
entry 8). -/
def State.takeFrame (s : State) (n : Nat) (carryOut : State → State) : State :=
  let s' := s.setMiso (List.replicate (3 + n) 0xFF)
  if s.ignoresFrame then s.discardFrame (3 + n)
  else if Config.maxArgs < n then s'.rejectFrame .framing
  else carryOut s'

/-- A command that takes no arguments answers BAD_ARGUMENT when it has some (R166, check 4). -/
def noArguments (args : List Byte) (carryOut : State → State) (s : State) : State :=
  if args.isEmpty then carryOut s else s.respond .badArgument []

/-- A command that takes one byte answers BAD_ARGUMENT when it has none or more (R166, check 4). -/
def oneArgument (args : List Byte) (carryOut : Byte → State → State) (s : State) : State :=
  match args with
  | [b] => carryOut b s
  | [] => s.respond .badArgument []
  | _ :: _ :: _ => s.respond .badArgument []

/-- QUERY's effect: the snapshot with the link flags as before this frame, then both flags clear (R172). -/
def State.query (s : State) : State := (s.respond .ok s.snapshot).clearLinkFlags

/-- QUERY (R172). -/
def execQuery (args : List Byte) (s : State) : Host.Outcome State Fault Refusal :=
  .next (s.takeFrame args.length (noArguments args State.query))

/-- The state with its STAGING bank changed. -/
def State.setStaging (s : State) (t : WindowTable) : State := { s with gens := { s.gens with staging := t } }

/-- STAGE_WRITE's effect: the edit, or BAD_ARGUMENT with STAGING as it was (R173). -/
def State.stageWrite (s : State) (args : List Byte) : State :=
  match (parseStageWrite args).bind s.gens.staging.edit with
  | none => s.respond .badArgument []
  | some t => (s.setStaging t).respond .ok []

/-- STAGE_WRITE (R173). -/
def execStageWrite (args : List Byte) (s : State) : Host.Outcome State Fault Refusal :=
  .next (s.takeFrame args.length (fun s' => s'.stageWrite args))

/-- STAGE_READ's effect (R174). -/
def State.stageRead (b : Byte) (s : State) : State :=
  match readBack s.gens.staging b with
  | none => s.respond .badArgument []
  | some content => s.respond .ok content

/-- STAGE_READ (R174). -/
def execStageRead (args : List Byte) (s : State) : Host.Outcome State Fault Refusal :=
  .next (s.takeFrame args.length (oneArgument args State.stageRead))

/-- ACTIVE_READ's effect: the generation number, then the content (R174). -/
def State.activeRead (b : Byte) (s : State) : State :=
  match readBack s.gens.active.table b with
  | none => s.respond .badArgument []
  | some content => s.respond .ok (s.gens.active.number :: content)

/-- ACTIVE_READ (R174). -/
def execActiveRead (args : List Byte) (s : State) : Host.Outcome State Fault Refusal :=
  .next (s.takeFrame args.length (oneArgument args State.activeRead))

/-- STAGE_CLEAR's effect: one slot EMPTY, or the empty table for ALL (R27, R175). -/
def State.stageClear (b : Byte) (s : State) : State :=
  if b.toNat = 0xFF then (s.setStaging .empty).respond .ok []
  else
    match slotOf b with
    | none => s.respond .badArgument []
    | some n => (s.setStaging (s.gens.staging.setSlot n none)).respond .ok []

/-- STAGE_CLEAR (R175). -/
def execStageClear (args : List Byte) (s : State) : Host.Outcome State Fault Refusal :=
  .next (s.takeFrame args.length (oneArgument args State.stageClear))

/-- STAGE_COPY's effect (R28). -/
def State.stageCopy (s : State) : State := (s.setStaging s.gens.active.table).respond .ok []

/-- STAGE_COPY (R176). -/
def execStageCopy (args : List Byte) (s : State) : Host.Outcome State Fault Refusal :=
  .next (s.takeFrame args.length (noArguments args State.stageCopy))

/-- COMMIT's effect: BUSY while DRAINING, INVALID with the first failure, or ACCEPTED with a new
generation (R30, R31, R35, R177). -/
def State.commit (s : State) : State :=
  match s.gens.retiring with
  | some _ => s.respond .busy []
  | none =>
    match s.gens.staging.firstFailure with
    | some (place, reason) => s.respond .invalid [locationByte place, reason.code]
    | none => (s.advanceGeneration.respond .accepted [s.gens.active.number + 1]).refreshAlert

/-- COMMIT (R177). -/
def execCommit (args : List Byte) (s : State) : Host.Outcome State Fault Refusal :=
  .next (s.takeFrame args.length (noArguments args State.commit))

/-- STATS_READ's effect on the ACTIVE generation's record (R151, R178). -/
def State.statsRead (b : Byte) (s : State) : State :=
  let g := s.gens.active.number
  let r := s.stats.active
  if b.toNat = 0xFF then s.respond .ok r.backgroundBytes
  else
    match slotOf b with
    | none => s.respond .badArgument []
    | some n =>
      match r.parts.find? (fun p => decide (p.slot = n)) with
      | none => s.respond .notListed [g]
      | some p => s.respond .ok (g :: p.bytes)

/-- STATS_READ (R178). -/
def execStatsRead (args : List Byte) (s : State) : Host.Outcome State Fault Refusal :=
  .next (s.takeFrame args.length (oneArgument args State.statsRead))

/-- SUMMARY_POP's effect: the head of the summary queue, or EMPTY (R150). -/
def State.summaryPop (s : State) : State :=
  match s.stats.queue with
  | [] => s.respond .empty []
  | r :: q => ((s.setStats { s.stats with queue := q }).respond .ok r.summaryBytes).refreshAlert

/-- SUMMARY_POP (R179). -/
def execSummaryPop (args : List Byte) (s : State) : Host.Outcome State Fault Refusal :=
  .next (s.takeFrame args.length (noArguments args State.summaryPop))

/-- FAULT_POP's effect: the head of the Fault Queue, or EMPTY (R157). -/
def State.faultPop (s : State) : State :=
  match s.faults with
  | [] => s.respond .empty []
  | r :: q => (({ s with faults := q } : State).respond .ok r.bytes).refreshAlert

/-- FAULT_POP (R180). -/
def execFaultPop (args : List Byte) (s : State) : Host.Outcome State Fault Refusal :=
  .next (s.takeFrame args.length (noArguments args State.faultPop))

/-- The response timeout set from two value bytes, else BAD_ARGUMENT (R181). -/
def State.setTimeout (value : List Byte) (s : State) : State :=
  match value with
  | [hi, lo] => ({ s with link := { s.link with timeout := hi ++ lo } } : State).respond .ok []
  | [] => s.respond .badArgument []
  | [_] => s.respond .badArgument []
  | _ :: _ :: _ :: _ => s.respond .badArgument []

/-- SET_PARAM of the response timeout: the frame's arguments are 0x00 and the value (R181). -/
def execSetParamTimeout (value : List Byte) (s : State) : Host.Outcome State Fault Refusal :=
  .next (s.takeFrame (value.length + 1) (State.setTimeout value))

/-- The mask that a mask byte spells: bits 0, 1, 2, set means MASKED (R181). -/
def maskOf (b : Byte) : AlertMask := { fault := b.getLsbD 0, summary := b.getLsbD 1, orphan := b.getLsbD 2 }

/-- The alert mask set from one byte with no bit above bit 2, else BAD_ARGUMENT; ALERT_N is recomputed at
once (R162, R181). -/
def State.setMask (b : Byte) (s : State) : State :=
  if b.toNat < 8 then
    (({ s with link := { s.link with mask := maskOf b } } : State).respond .ok []).refreshAlert
  else s.respond .badArgument []

/-- SET_PARAM of the alert mask: the frame's arguments are 0x01 and the value (R181). -/
def execSetParamAlertMask (value : List Byte) (s : State) : Host.Outcome State Fault Refusal :=
  .next (s.takeFrame (value.length + 1) (oneArgument value State.setMask))

/-- One tag at a PURGE: an ORPHANED tag goes FREE with a PURGED record (R135). -/
def purgeTag (s : State) (t : Tag) : State :=
  match s.port.tags[t] with
  | .free => s
  | .bound _ _ => s
  | .orphaned o => (s.setTag t .free).post (orphanRecord .purged o t)

/-- PURGE's effect: every ORPHANED tag in ascending order, then the grants this allows (R135). -/
def State.purge (s : State) : State :=
  ((settle (Config.sixteen.foldl purgeTag s)).respond .ok [BitVec.ofNat 8 s.orphanCount]).refreshAlert

/-- PURGE (R182). -/
def execPurge (args : List Byte) (s : State) : Host.Outcome State Fault Refusal :=
  .next (s.takeFrame args.length (noArguments args State.purge))

/-- SOFT_RESET's effect: the blocks reset, the next offer, ALERT_N, and the response after them (R183). -/
def State.softReset (s : State) : State := ((offerNext s.softResetBlocks).respond .ok []).refreshAlert

/-- SOFT_RESET (R183). -/
def execSoftReset (args : List Byte) (s : State) : Host.Outcome State Fault Refusal :=
  .next (s.takeFrame args.length (noArguments args State.softReset))

end Sys2Proof.Machine
end

