-- ==== Sys2Proof/Machine/Frames.lean ====
section
/-!
DEFINITION. FETCH (R169) and the raw frame of REJECTED_FRAME (R164, R166).
-/

namespace Sys2Proof.Machine

/-- FETCH (R169): 0xFF during the code byte, then the response's bytes, then 0xFF; a frame of at least
5 + m bytes empties the buffer. A frame that a reset cuts is discarded (R184). -/
def execFetch (clocked : Nat) (s : State) : Host.Outcome State Fault Refusal :=
  if s.ignoresFrame then .next (s.discardFrame (1 + clocked))
  else
    let r := s.link.response.getD noResponse
    let carried := (r.bytes ++ List.replicate clocked 0xFF).take clocked
    let s' := s.setMiso (0xFF :: carried)
    if 5 + r.payload.length ≤ 1 + clocked then .next { s' with link := { s'.link with response := none } }
    else .next s'

/-- The status that answers a failed check (R166). -/
def FrameError.status : FrameError → LinkStatus
  | .framing => .framing
  | .badCrc => .badCrc
  | .unknownCommand => .unknownCommand

/-- A frame that is not carried out: the status of its first failed check; a frame that passes checks 1 to
3 and picks no command is a SET_PARAM with no defined parameter, BAD_ARGUMENT (R166, R181; log entry 9). -/
def State.rejectRaw (s : State) (frame : List Byte) : State :=
  let s' := s.setMiso (List.replicate frame.length 0xFF)
  if s.ignoresFrame then s.discardFrame frame.length
  else
    match frameError frame with
    | some e => s'.rejectFrame (FrameError.status e)
    | none => s'.respond .badArgument []

/-- REJECTED_FRAME (R164, R166), from the frame's bits: it is judged on its whole bytes alone. A frame of zero
whole bytes is ignored. A frame that is not rejected is taken as the command it is (log entry 9). -/
def execRejectedFrame (bits : List Bool) (s : State) : Host.Outcome State Fault Refusal :=
  match decodeFrame bits with
  | none => .next s.endCut
  | some (.rejectedFrame _) => .next (s.rejectRaw (wholeBytes bits))
  | some (.fetch clocked) => execFetch clocked s
  | some (.query args) => execQuery args s
  | some (.stageWrite args) => execStageWrite args s
  | some (.stageRead args) => execStageRead args s
  | some (.activeRead args) => execActiveRead args s
  | some (.stageClear args) => execStageClear args s
  | some (.stageCopy args) => execStageCopy args s
  | some (.commit args) => execCommit args s
  | some (.statsRead args) => execStatsRead args s
  | some (.summaryPop args) => execSummaryPop args s
  | some (.faultPop args) => execFaultPop args s
  | some (.setParamTimeout value) => execSetParamTimeout value s
  | some (.setParamAlertMask value) => execSetParamAlertMask value s
  | some (.purge args) => execPurge args s
  | some (.softReset args) => execSoftReset args s
  | some (.readRequest _ _ _) => .next s
  | some (.writeRequest _ _ _ _) => .next s
  | some .retirement => .next s
  | some .downRequestAccepted => .next s
  | some (.downReadReturn _ _ _) => .next s
  | some (.downWriteReturn _ _) => .next s
  | some (.deadlineExpiry _) => .next s
  | some (.powerOnReset _) => .next s

end Sys2Proof.Machine
end

