-- ==== Sys2Proof/Machine/Upstream.lean ====
section
/-!
DEFINITION. The commands of the upstream port: READ_REQUEST, WRITE_REQUEST, RETIREMENT.
-/

namespace Sys2Proof.Machine

/-- A request joins the upstream channel; it is accepted in this step when an entry is free, and waits
on the channel otherwise (R44, R49; log entry 5). -/
def State.arrive (s : State) (r : Request) : State :=
  (drainRequests 16 { s with requests := s.requests ++ [r] }).refreshAlert

/-- READ_REQUEST (R49). -/
def execReadRequest (id : UpId) (addr : Addr) (beats : Nat) (s : State) : Host.Outcome State Fault Refusal :=
  .next (s.arrive { dir := .read, id := id, addr := addr, beats := beats, data := [] })

/-- WRITE_REQUEST (R49). -/
def execWriteRequest (id : UpId) (addr : Addr) (beats : Nat) (data : List WBeat) (s : State) :
    Host.Outcome State Fault Refusal :=
  .next (s.arrive { dir := .write, id := id, addr := addr, beats := beats, data := data })

/-- An entry without a retired blocker; the last blocker gone, it leaves HELD for WAITING (R53). -/
def Entry.unblock (n : EntryNo) (e : Entry) : Entry :=
  let left := e.blockers.filter (fun b => decide (b ≠ n))
  { e with blockers := left, state := if e.state = .held ∧ left = [] then .waiting else e.state }

/-- The entry is freed and leaves every blocker set (R62, steps 1 and 2). -/
def State.release (s : State) (n : EntryNo) : State :=
  s.setEntries ((s.table.entries.filter (fun e => decide (e.no ≠ n))).map (Entry.unblock n))

/-- The counts of R63 at a retirement; the retiring generation closes when its count falls to zero (R62,
step 4; R41). An entry bound to none changes nothing. -/
def State.countRetired (s : State) (bound : Option Gen) : State :=
  match bound with
  | none => s
  | some g =>
    if g = s.gens.active.number then
      { s with table := { s.table with activeCount := s.table.activeCount - 1 } }
    else
      match s.gens.retiring with
      | none => s
      | some b =>
        if g = b.number then
          let s' : State := { s with table := { s.table with retiringCount := s.table.retiringCount - 1 } }
          if s'.table.retiringCount = 0 then s'.closeRetiring else s'
        else s

/-- The steps of R62 for the entry on offer. -/
def State.retire (s : State) (e : Entry) : State :=
  (drainRequests 16 (settle ((((s.release e.no).countRetired e.bound)).setOffer none))).refreshAlert

/-- RETIREMENT (R62); with no response on offer there is nothing to take (log entry 4). -/
def execRetirement (s : State) : Host.Outcome State Fault Refusal :=
  match s.table.offer with
  | none => .next s
  | some o =>
    match s.entry? o.entry with
    | none => .next s
    | some e => .next (s.retire e)

end Sys2Proof.Machine
end

