-- ==== Sys2Proof/Machine/Dispatch.lean ====
section
/-!
DEFINITION. One arm per command, each one call of its meaning.
-/

namespace Sys2Proof.Machine

def exec (i : Instr) (s : State) : Host.Outcome State Fault Refusal :=
  match i with
  | .readRequest id addr beats => Sys2Proof.Machine.execReadRequest id addr beats s
  | .writeRequest id addr beats data => Sys2Proof.Machine.execWriteRequest id addr beats data s
  | .retirement => Sys2Proof.Machine.execRetirement s
  | .downRequestAccepted => Sys2Proof.Machine.execDownRequestAccepted s
  | .downReadReturn tag status data => Sys2Proof.Machine.execDownReadReturn tag status data s
  | .downWriteReturn tag status => Sys2Proof.Machine.execDownWriteReturn tag status s
  | .deadlineExpiry tag => Sys2Proof.Machine.execDeadlineExpiry tag s
  | .powerOnReset event => Sys2Proof.Machine.execPowerOnReset event s
  | .query args => Sys2Proof.Machine.execQuery args s
  | .stageWrite args => Sys2Proof.Machine.execStageWrite args s
  | .stageRead args => Sys2Proof.Machine.execStageRead args s
  | .activeRead args => Sys2Proof.Machine.execActiveRead args s
  | .stageClear args => Sys2Proof.Machine.execStageClear args s
  | .stageCopy args => Sys2Proof.Machine.execStageCopy args s
  | .commit args => Sys2Proof.Machine.execCommit args s
  | .statsRead args => Sys2Proof.Machine.execStatsRead args s
  | .summaryPop args => Sys2Proof.Machine.execSummaryPop args s
  | .faultPop args => Sys2Proof.Machine.execFaultPop args s
  | .setParamTimeout value => Sys2Proof.Machine.execSetParamTimeout value s
  | .setParamAlertMask value => Sys2Proof.Machine.execSetParamAlertMask value s
  | .purge args => Sys2Proof.Machine.execPurge args s
  | .softReset args => Sys2Proof.Machine.execSoftReset args s
  | .fetch clocked => Sys2Proof.Machine.execFetch clocked s
  | .rejectedFrame bits => Sys2Proof.Machine.execRejectedFrame bits s

end Sys2Proof.Machine
end

