-- ==== Sys2Proof/Machine/Step.lean ====
section
/-!
DEFINITION. One step: the command at the front of the queue, or a reference-clock edge on an empty queue.
-/

namespace Sys2Proof.Machine

/-- Take the command at the front of the queue and run it on the state with the queue's rest. On an empty
queue a step is one edge of REF_1MHZ (log entry 2). -/
def step (s : State) : Host.Outcome State Fault Refusal :=
  match s.pending with
  | [] => .next s.tick
  | c :: rest => exec c { s with pending := rest }

/-- The state with the command that a word spells at the front of its queue; no row has bits, so no word
spells one and the state is unchanged. -/
def State.withFetchWord (s : State) (nbits w : Nat) : State :=
  match decodeTableWord nbits w with
  | none => s
  | some c => { s with pending := c :: s.pending }

end Sys2Proof.Machine
end

