-- ==== Sys2Proof/Safety.lean ====
section
/-!
DEFINITION. What stays true of the part whatever commands come: each predicate is one the spec's rules
promise between two steps, written out field by field and not through the operations that keep it.
-/

namespace Sys2Proof.Machine

/-! ## Queues, alert line, reset -/

/-- The Fault Queue holds at most 8 records and the summary queue at most 4 summaries (R147, R153). -/
def State.Bounded (s : State) : Prop := s.faults.length ≤ 8 ∧ s.stats.queue.length ≤ 4

/-- Some tag is ORPHANED. -/
def State.HasOrphan (s : State) : Prop := ∃ (k : Tag) (o : Orphan), s.port.tags[k] = .orphaned o

/-- ALERT_N is asserted exactly while RESET_N is released and some source is active and UNMASKED (R160,
R163). -/
def State.AlertFollows (s : State) : Prop :=
  s.alertLow = true ↔
    s.resetAsserted = false ∧
      ((s.faults ≠ [] ∧ s.link.mask.fault = false) ∨
        (s.stats.queue ≠ [] ∧ s.link.mask.summary = false) ∨ (s.HasOrphan ∧ s.link.mask.orphan = false))

/-- While RESET_N is asserted every block is at its power-on state; only the commands and requests that
wait, the bytes of the last frame and the mark of a frame in progress are not (R24, R66, R140, R149, R159,
R163, R184). -/
def State.ResetHeld (s : State) : Prop :=
  s.resetAsserted = true →
    s =
      { State.reset with
        pending := s.pending
        requests := s.requests
        resetAsserted := true
        link := { State.reset.link with cut := s.link.cut, miso := s.link.miso } }

/-! ## Generations -/

/-- What a statistics record keeps fixed from its opening: number, background action, slots and modes in
layer-list order (R141, R145). -/
def StatsRecord.shape (r : StatsRecord) : Gen × Background × List (SlotNo × Mode) :=
  (r.gen, r.action, r.parts.map (fun p => (p.slot, p.mode)))

/-- The shape of the record that opens for a bank (R145). -/
def Bank.shape (b : Bank) : Gen × Background × List (SlotNo × Mode) := (openRecord b.number b.table).shape

/-- The banks and the open statistics records belong together (R22, R37, R141). -/
structure State.GenerationsSound (s : State) : Prop where
  activeValid : s.gens.active.table.firstFailure = none
  retiringValid : ∀ b, s.gens.retiring = some b → b.table.firstFailure = none
  retiringNumber : ∀ b, s.gens.retiring = some b → b.number = s.gens.active.number - 1
  activeRecord : s.stats.active.shape = s.gens.active.shape
  retiringRecord : s.stats.retiring.map StatsRecord.shape = s.gens.retiring.map Bank.shape

/-- The number of the oldest live generation (R22). -/
def State.oldestLive (s : State) : Gen :=
  match s.gens.retiring with
  | none => s.gens.active.number
  | some b => b.number

/-- Each number is one more, modulo 256, than the one before. -/
def consecutive : List Gen → Prop
  | a :: b :: rest => b = a + 1 ∧ consecutive (b :: rest)
  | _ => True

/-- The queued summaries carry consecutive generation numbers that lead up to the oldest live generation
(R37, R147). -/
def State.SummariesConsecutive (s : State) : Prop := consecutive (s.stats.queue.map StatsRecord.gen ++ [s.oldestLive])

/-- How many live entries are bound to a generation. -/
def State.boundTo (s : State) (g : Gen) : Nat := s.table.entries.countP (fun e => decide (e.bound = some g))

/-- The counts of R63, and what they and the RETIRING bank say of the live entries (R22, R38, R40). -/
structure State.CountsSound (s : State) : Prop where
  active : s.table.activeCount = s.boundTo s.gens.active.number
  retiring : ∀ b, s.gens.retiring = some b → s.table.retiringCount = s.boundTo b.number ∧ 0 < s.table.retiringCount
  settled : s.gens.retiring = none → s.table.retiringCount = 0
  bound : ∀ e ∈ s.table.entries,
    e.bound = some s.gens.active.number ∨ e.bound = s.gens.retiring.map Bank.number ∨ e.bound = none
  answered : ∀ e ∈ s.table.entries, e.bound = none → e.state = .complete

/-! ## Entries, tags and merge slots -/

/-- The states in which an entry holds a tag (R119). -/
def EntryState.holdsTag : EntryState → Bool
  | .held => false
  | .waiting => false
  | .issuing => true
  | .outstanding => true
  | .merging => true
  | .complete => false

/-- The kind of the transaction in flight in each phase of a merge slot (R102). -/
def MergePhase.inFlight : MergePhase → Option Dir
  | .readWait => none
  | .readOut => some .read
  | .writeWait => none
  | .writeOut => some .write

/-- A merge slot's request waits for the arbiter (R123). -/
def MergePhase.waits : MergePhase → Bool
  | .readWait => true
  | .readOut => false
  | .writeWait => true
  | .writeOut => false

/-- What an entry's state says of its other fields (R17, R20, R47, R51 to R58). -/
structure Entry.Sound (e : Entry) : Prop where
  run : e.state ≠ .complete → e.run ≠ none
  span : e.span = e.run.map (spanOf e.addr)
  tag : e.tag.isSome = e.state.holdsTag
  slot : e.slot.isSome = true ↔ e.state = .merging
  merging : e.state = .merging → e.merge = true
  plain : e.state = .issuing ∨ e.state = .outstanding → e.merge = false
  write : e.merge = true → e.dir = .write
  held : e.state = .held ↔ e.blockers ≠ []

/-- What is in flight on the tag an entry holds (R119, R125). -/
def State.FlightFits (s : State) (e : Entry) (fl : Option Flight) : Prop :=
  match e.state with
  | .issuing => fl = none
  | .outstanding => fl.map Flight.kind = some e.dir
  | .merging => ∃ m w, e.slot = some m ∧ s.merge[m] = some w ∧ w.entry = e.no ∧ fl.map Flight.kind = w.phase.inFlight
  | .held => False
  | .waiting => False
  | .complete => False

/-- Entries, tags and merge slots agree on who holds what (R47, R85, R86, R119). -/
structure State.PathSound (s : State) : Prop where
  distinct : (s.table.entries.map Entry.no).Nodup
  entries : ∀ e ∈ s.table.entries, e.Sound
  tags : ∀ (k : Tag) n fl, s.port.tags[k] = .bound n fl →
    ∃ e ∈ s.table.entries, e.no = n ∧ e.tag = some k ∧ s.FlightFits e fl
  holders : ∀ e ∈ s.table.entries, ∀ k : Tag, e.tag = some k → ∃ fl, s.port.tags[k] = .bound e.no fl
  slots : ∀ (m : MergeNo) w, s.merge[m] = some w → ∃ e ∈ s.table.entries, e.no = w.entry ∧ e.slot = some m

/-! ## Order -/

/-- An entry waits for exactly the older live entries it conflicts with (R52, R53). -/
def State.OrderKept (s : State) : Prop :=
  ∀ older e younger, s.table.entries = older ++ e :: younger →
    e.blockers = (older.filter (Entry.conflicts e)).map Entry.no

/-- What is on offer is the response of a COMPLETE entry, and no older live entry has its upstream ID
(R60, R61). -/
def State.OfferSound (s : State) : Prop :=
  ∀ o, s.table.offer = some o →
    ∃ older e younger, s.table.entries = older ++ e :: younger ∧ o.entry = e.no ∧ e.state = .complete ∧
      o.response = e.response ∧ ∀ x ∈ older, x.id ≠ e.id

/-- Between two steps nothing is left that the part does by itself: no grant, no take, no offer and no
acceptance is open, and no deadline that has counted its last edge still runs (R44, R54, R61, R121, R127). -/
structure State.Settled (s : State) : Prop where
  grant : (∃ k : Tag, s.port.tags[k] = .free) → ∀ e ∈ s.table.entries, e.state = .waiting →
    e.merge = true ∧ ∀ m : MergeNo, s.merge[m] ≠ none
  take : s.port.channel = none →
    (∀ e ∈ s.table.entries, e.state ≠ .issuing) ∧ ∀ (m : MergeNo) w, s.merge[m] = some w → w.phase.waits = false
  offer : s.table.offer = none → ∀ older e younger, s.table.entries = older ++ e :: younger →
    e.state = .complete → ∃ x ∈ older, x.id = e.id
  accept : s.requests ≠ [] → s.resetAsserted = true ∨ ∀ n : EntryNo, ∃ e ∈ s.table.entries, e.no = n
  expiry : ∀ (k : Tag) n fl, s.port.tags[k] = .bound n (some fl) → fl.deadline ≠ some 0

/-- All of the above together. -/
structure State.Sound (s : State) : Prop where
  bounded : s.Bounded
  alert : s.AlertFollows
  reset : s.ResetHeld
  generations : s.GenerationsSound
  summaries : s.SummariesConsecutive
  counts : s.CountsSound
  path : s.PathSound
  order : s.OrderKept
  offer : s.OfferSound
  settled : s.Settled

/-! ## Words for the statements -/

/-- The command that sends a request. -/
def Request.command (q : Request) : Instr :=
  match q.dir with
  | .read => .readRequest q.id q.addr q.beats
  | .write => .writeRequest q.id q.addr q.beats q.data

/-- The well-formedness of a request (R50). -/
def Request.InForm (q : Request) : Prop :=
  1 ≤ q.beats ∧ q.beats ≤ 16 ∧ q.addr.toNat % 8 = 0 ∧
    q.addr.toNat / 4096 = (q.addr.toNat + 8 * q.beats - 1) / 4096

/-- A frame that ends now is taken: RESET_N is released, and was when the frame began (R184). -/
def State.TakesFrames (s : State) : Prop := s.resetAsserted = false ∧ s.link.cut = false

/-- The state after a command frame of `bytes` bytes was answered: the response is in the buffer, a pending
one is discarded and said to be, and SPI_MISO carried 0xFF throughout (R164, R167, R170). -/
def State.afterFrame (s : State) (bytes : Nat) (status : LinkStatus) (payload : List Byte) : State :=
  { s with
    link :=
      { s.link with
        response := some { status := status, priorDiscarded := s.link.response.isSome, payload := payload }
        discarded := s.link.discarded || s.link.response.isSome
        miso := List.replicate bytes 0xFF } }

/-- The groups that a window's mode requires are present and those it does not use are ABSENT (R5, R6). -/
def Window.Fits (w : Window) : Prop :=
  match w.place.mode with
  | .condition => w.blend = none ∧ w.pattern = none
  | .blend => w.blend ≠ none ∧ w.pattern = none
  | .pattern => w.map = none ∧ w.curve = none ∧ w.clamp = none ∧ w.blend = none ∧ w.pattern ≠ none
  | .fence => w.map = none ∧ w.curve = none ∧ w.clamp = none ∧ w.blend = none ∧ w.pattern = none

/-- A source that names component 2 or 3. -/
def Source.High (x : Source) : Prop := x = .comp 2 ∨ x = .comp 3

/-- A valid window record: PLACE (R4), groups by mode (R5), MAP (R7), CURVE (R8), CLAMP (R9), BLEND (R10),
PATTERN (R11). -/
structure Window.Valid (w : Window) : Prop where
  base : w.place.base.toNat % 256 = 0
  length : w.place.length % 256 = 0 ∧ 0 < w.place.length
  inside : w.place.base.toNat + w.place.length ≤ 2 ^ 36
  fits : w.Fits
  map : ∀ q, w.map = some q → w.place.format = .s16 → ¬ q.c0.High ∧ ¬ q.c1.High
  curveEnds : ∀ c, w.curve = some c →
    c.knots.head?.map Knot.input = some 0 ∧ c.knots.getLast?.map Knot.input = some 255
  curveOrder : ∀ c, w.curve = some c → c.knots.Pairwise (fun a b => a.input.toNat < b.input.toNat)
  curveMask : ∀ c, w.curve = some c →
    (c.mask.c0 = true ∨ c.mask.c1 = true ∨ c.mask.c2 = true ∨ c.mask.c3 = true) ∧
      (w.place.format = .s16 → c.mask.c2 = false ∧ c.mask.c3 = false)
  clamp : ∀ q, w.clamp = some q →
    q.c0.lower.toNat ≤ q.c0.upper.toNat ∧ q.c1.lower.toNat ≤ q.c1.upper.toNat ∧
      (w.place.format = .s32 → q.c2.lower.toNat ≤ q.c2.upper.toNat ∧ q.c3.lower.toNat ≤ q.c3.upper.toNat)
  blendComponent : ∀ b, w.blend = some b → w.place.format = .s16 → b.component.val ≤ 1
  blendPlane : ∀ b, w.blend = some b → b.plane.toNat ≤ 64
  patternRow : ∀ g, w.pattern = some g →
    1 ≤ g.row.toNat ∧ g.row.toNat ≤ 8192 ∧ g.row.toNat * w.place.format.size ≤ w.place.length
  patternBorder : ∀ g, w.pattern = some g → 1 ≤ g.border.toNat ∧ g.border.toNat ≤ 64

/-- The checks of one non-EMPTY slot in their order, each with the reason that its failure reports and what
fails it: PLACE, the fit of mode and groups, then the groups that are present (R32, R33). -/
def Window.checksInOrder (w : Window) : List (Reason × Prop) :=
  let f := w.place.format
  [ (.placeAlign, w.place.base.toNat % 256 ≠ 0 ∨ w.place.length % 256 ≠ 0)
  , (.placeRange, w.place.length = 0 ∨ 2 ^ 36 < w.place.base.toNat + w.place.length)
  , (.groupNotUsed, w.map ≠ none ∧ (w.place.mode = .pattern ∨ w.place.mode = .fence))
  , (.groupNotUsed, w.curve ≠ none ∧ (w.place.mode = .pattern ∨ w.place.mode = .fence))
  , (.groupNotUsed, w.clamp ≠ none ∧ (w.place.mode = .pattern ∨ w.place.mode = .fence))
  , (.groupNotUsed, w.blend ≠ none ∧ w.place.mode ≠ .blend)
  , (.groupMissing, w.blend = none ∧ w.place.mode = .blend)
  , (.groupNotUsed, w.pattern ≠ none ∧ w.place.mode ≠ .pattern)
  , (.groupMissing, w.pattern = none ∧ w.place.mode = .pattern)
  , (.mapComponent, ∃ q, w.map = some q ∧ f = .s16 ∧ (q.c0.High ∨ q.c1.High))
  , (.curveEnds, ∃ c, w.curve = some c ∧
      ¬ (c.knots.head?.map Knot.input = some 0 ∧ c.knots.getLast?.map Knot.input = some 255))
  , (.curveOrder, ∃ c, w.curve = some c ∧ ¬ c.knots.Pairwise (fun a b => a.input.toNat < b.input.toNat))
  , (.curveMask, ∃ c, w.curve = some c ∧
      ((c.mask.c0 = false ∧ c.mask.c1 = false ∧ c.mask.c2 = false ∧ c.mask.c3 = false) ∨
        (f = .s16 ∧ (c.mask.c2 = true ∨ c.mask.c3 = true))))
  , (.clampOrder, ∃ q, w.clamp = some q ∧
      (q.c0.upper.toNat < q.c0.lower.toNat ∨ q.c1.upper.toNat < q.c1.lower.toNat ∨
        (f = .s32 ∧ (q.c2.upper.toNat < q.c2.lower.toNat ∨ q.c3.upper.toNat < q.c3.lower.toNat))))
  , (.blendComponent, ∃ b, w.blend = some b ∧ f = .s16 ∧ 2 ≤ b.component.val)
  , (.blendPlane, ∃ b, w.blend = some b ∧ 64 < b.plane.toNat)
  , (.patternRow, ∃ g, w.pattern = some g ∧
      (g.row.toNat = 0 ∨ 8192 < g.row.toNat ∨ w.place.length < g.row.toNat * f.size))
  , (.patternBorder, ∃ g, w.pattern = some g ∧ (g.border.toNat = 0 ∨ 64 < g.border.toNat)) ]

/-- A layer-list entry in range that names a non-EMPTY slot (R12). -/
def WindowTable.Names (t : WindowTable) (e : Fin 16) : Prop :=
  ∃ (n : SlotNo) (w : Window), n.val = e.val ∧ t.slots[n] = some w

/-- A valid window table (R12, R31, R32). -/
structure WindowTable.Valid (t : WindowTable) : Prop where
  listed : ∀ e ∈ t.layers, t.Names e
  distinct : t.layers.Nodup
  windows : ∀ (n : SlotNo) (w : Window), t.slots[n] = some w → w.Valid

end Sys2Proof.Machine
end

