-- ==== Sys2Proof/WellFormed.lean ====
section
/-!
DEFINITION. Which commands the outside world can send: beats of eight bytes, argument lists that fit a
frame, rejected frames that are indeed rejected. Every command has a meaning, well-formed or not.
-/

namespace Sys2Proof

/-- A write beat has eight lanes (00_scope.md, Beats). -/
def wbeatOk (b : WBeat) : Bool := decide (b.length = 8)

/-- A read beat has eight bytes. -/
def rbeatOk (b : RBeat) : Bool := decide (b.length = 8)

/-- Argument bytes fit a frame that passes check 1 of R166. -/
def argsOk (args : List Byte) : Bool := decide (args.length ≤ Config.maxArgs)

/-- The commands the outside world can send. -/
def Instr.wellFormed : Instr → Bool
  | .readRequest _ _ _ => true
  | .writeRequest _ _ beats data => decide (data.length = beats) && data.all wbeatOk
  | .retirement => true
  | .downRequestAccepted => true
  | .downReadReturn _ _ data => data.all rbeatOk
  | .downWriteReturn _ _ => true
  | .deadlineExpiry _ => true
  | .powerOnReset _ => true
  | .query args => argsOk args
  | .stageWrite args => argsOk args
  | .stageRead args => argsOk args
  | .activeRead args => argsOk args
  | .stageClear args => argsOk args
  | .stageCopy args => argsOk args
  | .commit args => argsOk args
  | .statsRead args => argsOk args
  | .summaryPop args => argsOk args
  | .faultPop args => argsOk args
  | .setParamTimeout value => argsOk (0x00 :: value)
  | .setParamAlertMask value => argsOk (0x01 :: value)
  | .purge args => argsOk args
  | .softReset args => argsOk args
  | .fetch _ => true
  | .rejectedFrame bits => decide (decodeFrame bits = some (.rejectedFrame bits))

end Sys2Proof
end

