-- ==== Sys2Proof/Certificates/Slice0/Obligations.lean ====
section
/-!
DEFINITION. The statements for the provers, in the order of OBLIGATIONS.json.
-/

open Sys2Proof Sys2Proof.Machine

/-! ## The step -/

/-- A step runs the command at the front of the queue on the state with the queue's rest. -/
def Obligations.StepRunsFrontCommand : Prop :=
  ∀ (c : Instr) (rest : List Instr) (s : State),
    step { s with pending := c :: rest } = exec c { s with pending := rest }

/-- Every command takes every state to a next state and leaves the queue of commands alone. -/
def Obligations.EveryCommandCompletes : Prop :=
  ∀ (c : Instr) (s : State), ∃ t, exec c s = .next t ∧ t.pending = s.pending

/-- On an empty queue a step is one edge of REF_1MHZ: every running deadline counts it, and those that have
then counted their last edge expire one after the other, each as ExpiryOrphansTheTag says of `expireTag`; where
there is none nothing else changes (R127). That an idle step is one edge, and that of several expiries at one
edge the lowest tag is taken first, are the model's choice (log entry 2). -/
def Obligations.IdleStepCountsOneReferenceEdge : Prop :=
  ∀ s : State, s.pending = [] →
    ∃ counted, counted = { s with port := { s.port with tags := counted.port.tags } } ∧
      (∀ k : Tag,
        counted.port.tags[k] =
          match s.port.tags[k] with
          | .bound n (some fl) => .bound n (some { fl with deadline := fl.deadline.map (fun d => d - 1) })
          | other => other) ∧
      let due : List Tag :=
        Config.sixteen.filter (fun k =>
          match s.port.tags[k] with
          | .bound _ (some fl) => decide (fl.deadline = some 0 ∨ fl.deadline = some 1)
          | .bound _ none => false
          | .orphaned _ => false
          | .free => false)
      s.tick = due.foldl State.expireTag counted ∧ step s = .next s.tick ∧ (due = [] → step s = .next counted)

/-! ## Resets -/

/-- Every block at power-on (R24, R66, R85, R140, R149, R159, R162, R163, R184). -/
def Obligations.ResetStateHoldsPowerOnValues : Prop :=
  let s := State.reset
  let emptyTable : WindowTable := { slots := Vector.replicate 8 none, layers := [], background := .pass }
  s.resetAsserted = false ∧ s.table.entries = [] ∧ s.table.activeCount = 0 ∧ s.table.retiringCount = 0 ∧
    s.table.offer = none ∧ s.gens.staging = emptyTable ∧ s.gens.active = { number := 0, table := emptyTable } ∧
    s.gens.retiring = none ∧
    s.stats.active =
      { gen := 0, action := .pass, background := { issued := 0, fenced := 0, checksum := 0 }, parts := [] } ∧
    s.stats.retiring = none ∧ s.stats.queue = [] ∧ (∀ m : MergeNo, s.merge[m] = none) ∧
    (∀ k : Tag, s.port.tags[k] = .free) ∧ s.port.channel = none ∧ s.port.lastServed = .merge ∧ s.faults = [] ∧
    s.link.response = none ∧ s.link.frameError = false ∧ s.link.discarded = false ∧ s.link.cut = false ∧
    s.link.timeout.toNat = 2000 ∧ s.link.mask = { fault := false, summary := false, orphan := true } ∧
    s.alertLow = false

/-- POWER_ON_RESET: the pin asserted, released, and the whole pulse; commands and requests that wait
survive (log entry 1), the requests that wait are accepted after the release in arrival order, as many as there
are entries, bound to generation 0 (R44, R66), one that waits alone is taken as one that arrives after the release,
and a link frame in progress at either edge is marked to be discarded whole (R184; log entry 19). Where the whole
state is named, that no bytes of SPI_MISO are kept right after the reset is the model's choice (log entry 11). -/
def Obligations.PowerOnResetPutsEveryBlockBack : Prop :=
  ∀ (s : State) (midFrame : Bool),
    let linkAfter := { State.reset.link with cut := s.link.cut || midFrame }
    exec (.powerOnReset ⟨.asserted, midFrame⟩) s =
        .next
          { State.reset with pending := s.pending, requests := s.requests, resetAsserted := true, link := linkAfter } ∧
      (s.resetAsserted = false → exec (.powerOnReset ⟨.released, midFrame⟩) s = .next s) ∧
      (s.resetAsserted = true → s.requests = [] →
        exec (.powerOnReset ⟨.released, midFrame⟩) s =
          .next
            ({ s with
                resetAsserted := false
                link := { s.link with cut := s.link.cut || midFrame } } : State).refreshAlert) ∧
      (s.requests = [] →
        exec (.powerOnReset ⟨.pulse, midFrame⟩) s = .next { State.reset with pending := s.pending, link := linkAfter }) ∧
      (∀ q : Request, s.requests = [q] → (q.dir = .read → q.data = []) →
        exec (.powerOnReset ⟨.pulse, midFrame⟩) s =
          exec q.command { State.reset with pending := s.pending, link := linkAfter }) ∧
      let acceptedInOrder := fun (t : State) =>
        t.pending = s.pending ∧ t.resetAsserted = false ∧ t.link.cut = (s.link.cut || midFrame) ∧
          t.gens = State.reset.gens ∧ t.requests = s.requests.drop 16 ∧
          t.table.entries.map (fun e => (e.dir, e.id, e.addr, e.beats, e.bound)) =
            (s.requests.take 16).map (fun q => (q.dir, q.id, q.addr, q.beats, some 0))
      (∃ t, exec (.powerOnReset ⟨.pulse, midFrame⟩) s = .next t ∧ acceptedInOrder t) ∧
        (s.resetAsserted = true → s.ResetHeld →
          ∃ t, exec (.powerOnReset ⟨.released, midFrame⟩) s = .next t ∧ acceptedInOrder t)

/-- SOFT_RESET: every live entry answered FAULT, the banks, records, queues and merge slots reset, the link
parameters and flags kept, the OK placed after it (R25, R64, R65, R102, R148, R159, R183). That the line span of
an answered entry is empty from the reset on, as R52, R64 and R65 say, and not only from its retirement, as a
sentence of R188 says of an orphaned write, is the model's choice (log entry 21). -/
def Obligations.SoftResetAnswersEveryEntry : Prop :=
  ∀ s : State, s.TakesFrames →
    ∃ t, exec (.softReset []) s = .next t ∧
      t.table.entries =
        s.table.entries.map (fun e =>
          { e with
            status := .fault
            bound := none
            run := none
            span := none
            blockers := []
            tag := none
            slot := none
            state := .complete
            rdata :=
              if e.dir = .read ∧ 1 ≤ e.beats ∧ e.beats ≤ 16 then
                List.replicate e.beats (List.replicate 8 0)
              else [] }) ∧
      t.table.activeCount = 0 ∧ t.table.retiringCount = 0 ∧
      (∀ o e, s.table.offer = some o → s.entry? o.entry = some e →
        t.table.offer =
          some
            { entry := o.entry
              response :=
                { dir := e.dir
                  id := e.id
                  status := .fault
                  data :=
                    if e.dir = .read ∧ 1 ≤ e.beats ∧ e.beats ≤ 16 then
                      List.replicate e.beats (List.replicate 8 0)
                    else [] } }) ∧
      (s.table.offer = none →
        t.table.offer = t.table.entries.head?.map (fun e => { entry := e.no, response := e.response })) ∧
      t.gens = State.reset.gens ∧ t.stats = State.reset.stats ∧ (∀ m : MergeNo, t.merge[m] = none) ∧
      t.faults = [] ∧ t.requests = s.requests ∧ t.resetAsserted = false ∧ t.pending = s.pending ∧
      t.link = (s.afterFrame 3 .ok []).link ∧ t.AlertFollows

/-- What a soft reset does to each tag, to the request on the downstream channel and to the arbiter (R138,
R139). That a record made by a soft reset holds the run's beat count is the model's choice (log entry 20). -/
def Obligations.SoftResetTagsByState : Prop :=
  ∀ s : State, s.TakesFrames → s.PathSound →
    ∃ t, exec (.softReset []) s = .next t ∧ t.port.channel = s.port.channel ∧ t.port.lastServed = .merge ∧
      t.faults = [] ∧ (∀ e ∈ t.table.entries, e.state = .complete ∧ e.tag = none ∧ e.slot = none) ∧
      (∀ m : MergeNo, t.merge[m] = none) ∧ t.link.timeout = s.link.timeout ∧
      ∀ k : Tag,
        match s.port.tags[k] with
        | .free => t.port.tags[k] = .free
        | .orphaned o => t.port.tags[k] = .orphaned o
        | .bound _ none => t.port.tags[k] = .free
        | .bound n (some fl) =>
          ∃ e r, s.entry? n = some e ∧ e.run = some r ∧
            t.port.tags[k] =
              .orphaned
                { dir := e.dir
                  addr := e.addr + BitVec.ofNat 36 (8 * r.first)
                  beats := r.last - r.first + 1
                  gen := e.bound
                  phase :=
                    if e.merge then (if fl.kind = .read then some .oldRead else some .mergedWrite) else none }

/-! ## Requests -/

/-- A request waits on the upstream channel, behind those before it, while RESET_N is asserted and while all
sixteen entries are live (R44). -/
def Obligations.RequestWaitsOnTheChannel : Prop :=
  ∀ (s : State) (q : Request), s.AlertFollows → (q.dir = .read → q.data = []) →
    (s.resetAsserted = true ∨ ∀ n : EntryNo, ∃ e ∈ s.table.entries, e.no = n) →
    exec q.command s = .next { s with requests := s.requests ++ [q] }

/-- A malformed request takes an entry, is answered REFUSED at acceptance, posts one MALFORMED record and
adds nothing to any statistics record (R50). -/
def Obligations.MalformedRequestIsRefused : Prop :=
  ∀ (s : State) (q : Request) (n : EntryNo), s.resetAsserted = false → s.requests = [] →
    s.freeEntry = some n → (q.dir = .read → q.data = []) → ¬ q.InForm →
    let entry : Entry :=
      { no := n, id := q.id, dir := q.dir, addr := q.addr, beats := q.beats, wdata := []
        bound := some s.gens.active.number, claims := none, merge := false, run := none, span := none
        blockers := [], state := .complete, tag := none, slot := none, status := .refused
        rdata :=
          if q.dir = .read ∧ 1 ≤ q.beats ∧ q.beats ≤ 16 then List.replicate q.beats (List.replicate 8 0)
          else [] }
    let accepted : State :=
      { s with
        table :=
          { s.table with
            entries := s.table.entries ++ [entry]
            activeCount := s.table.activeCount + 1 }
        faults :=
          postRecord s.faults
            { kind := .malformed, dir := q.dir, lost := false, id := some q.id, addr := some q.addr
              gen := some s.gens.active.number, slot := none, tag := none, phase := none } }
    exec q.command s = .next (settle accepted).refreshAlert

/-- The state right after the acceptance of a well-formed request, with its entry: counted, its fenced
and absorbed beats added to the ACTIVE record, one FENCED record posted for its first fenced beat. -/
def Obligations.WellFormedRequestTakesItsFirstState : Prop :=
  ∀ (s : State) (q : Request) (n : EntryNo), s.resetAsserted = false → s.requests = [] →
    s.freeEntry = some n → (q.dir = .read → q.data = []) → q.InForm →
    let table := s.gens.active.table
    let claims := (List.range q.beats).map (fun i => table.claimAt (q.addr.toNat + 8 * i))
    let fenced := fun c => (table.treatment c).isFenced
    let run := table.runOf claims
    let plain : Entry :=
      { no := n, id := q.id, dir := q.dir, addr := q.addr, beats := q.beats, wdata := q.data
        bound := some s.gens.active.number, claims := some claims
        merge := decide (q.dir = .write ∧ ∃ c ∈ claims, (table.treatment c).isBlend = true)
        run := run, span := run.map (spanOf q.addr), blockers := [], state := .waiting, tag := none
        slot := none, status := if ∃ c ∈ claims, fenced c = true then .refused else .done, rdata := [] }
    let blockers := (s.table.entries.filter (Entry.conflicts plain)).map Entry.no
    let entry : Entry :=
      if run = none then
        { plain with
          state := .complete
          rdata := if q.dir = .read then readBuffer table plain none else [] }
      else { plain with blockers := blockers, state := if blockers = [] then .waiting else .held }
    let accepted : State :=
      { s with
        table :=
          { s.table with
            entries := s.table.entries ++ [entry]
            activeCount := s.table.activeCount + 1 }
        stats := s.stats.addTo (some s.gens.active.number) (acceptBeats table q.dir claims)
        faults :=
          match claims.findIdx? fenced with
          | none => s.faults
          | some i =>
            postRecord s.faults
              { kind := .fenced, dir := q.dir, lost := false, id := some q.id
                addr := some (q.addr + BitVec.ofNat 36 (8 * i)), gen := some s.gens.active.number
                slot := (claims[i]?).bind Claim.slot?, tag := none, phase := none } }
    exec q.command s = .next (settle accepted).refreshAlert

/-- On a quiet path an accepted request that conflicts with no live entry is granted the lowest FREE tag and
taken at once: a READ, a plain WRITE with its conditioned beats counted, and the old-data read of a merge
entry on the lowest FREE merge slot (R54, R66, R86, R121, R125). -/
def Obligations.AcceptedRequestIsTakenAtOnce : Prop :=
  ∀ (s : State) (q : Request) (n : EntryNo) (k : Tag) (m : MergeNo) (run : Run), s.PathSound →
    s.resetAsserted = false → s.requests = [] → s.freeEntry = some n → s.freeTag = some k → s.freeMergeSlot = some m →
    s.port.channel = none → (∀ e ∈ s.table.entries, e.state ≠ .waiting ∧ e.state ≠ .issuing) →
    (∀ (j : MergeNo) w, s.merge[j] = some w → w.phase.waits = false) →
    (q.dir = .read → q.data = []) → q.InForm →
    let table := s.gens.active.table
    let claims := (List.range q.beats).map (fun i => table.claimAt (q.addr.toNat + 8 * i))
    let blends := ∃ c ∈ claims, (table.treatment c).isBlend = true
    let flight := fun kind : Dir =>
      TagState.bound n
        (some { kind := kind, deadline := if s.link.timeout = 0 then none else some s.link.timeout.toNat })
    let presented := fun (kind : Dir) (data : List WBeat) =>
      some
        { kind := kind, tag := k, addr := q.addr + BitVec.ofNat 36 (8 * run.first)
          beats := run.last - run.first + 1, data := data }
    table.runOf claims = some run →
    (∀ e ∈ s.table.entries, ∀ span, e.span = some span →
      span.meets (spanOf q.addr run) = true → e.dir = .read ∧ q.dir = .read) →
    ∃ t entry, exec q.command s = .next t ∧ t.table.entries = s.table.entries ++ [entry] ∧ entry.no = n ∧
      entry.id = q.id ∧ entry.addr = q.addr ∧ entry.wdata = q.data ∧ entry.claims = some claims ∧
      entry.bound = some s.gens.active.number ∧ entry.tag = some k ∧
      (q.dir = .read →
        entry.state = .outstanding ∧ t.merge = s.merge ∧ t.port.lastServed = .forward ∧
          t.port.tags = s.port.tags.set k (flight .read) ∧ t.port.channel = presented .read []) ∧
      (q.dir = .write → ¬ blends →
        let beats := conditionRun table entry run
        entry.state = .outstanding ∧ t.merge = s.merge ∧ t.port.lastServed = .forward ∧
          t.port.tags = s.port.tags.set k (flight .write) ∧
          t.port.channel = presented .write (beats.map BuiltBeat.beat) ∧
          t.stats =
            (s.stats.addTo entry.bound (acceptBeats table .write claims)).addTo entry.bound
              (issueBeats table ((claims.drop run.first).take run.count) beats)) ∧
      (q.dir = .write → blends →
        entry.state = .merging ∧ entry.slot = some m ∧ t.port.lastServed = .merge ∧
          t.merge = s.merge.set m (some { entry := n, phase := .readOut, oldData := [], merged := [] }) ∧
          t.port.tags = s.port.tags.set k (flight .read) ∧ t.port.channel = presented .read [])

/-- The claim of a beat (R14). -/
def Obligations.BeatClaimIsTopmostListedWindow : Prop :=
  (∀ (t : WindowTable) (q : Request) (i : Nat), i < q.beats →
      (t.claimsOf q)[i]? = some (t.claimAt (q.addr.toNat + 8 * i))) ∧
    (∀ (t : WindowTable) (a : Nat) (above below : List (Fin 16)) (e : Fin 16) (n : SlotNo) (w : Window),
      t.layers = above ++ e :: below → n.val = e.val → t.slots[n] = some w →
      (w.place.base.toNat ≤ a ∧ a < w.place.base.toNat + w.place.length) →
      (∀ x ∈ above, ∀ (m : SlotNo) (v : Window), m.val = x.val → t.slots[m] = some v →
        ¬ (v.place.base.toNat ≤ a ∧ a < v.place.base.toNat + v.place.length)) →
      t.claimAt a = .slot n) ∧
    (∀ (t : WindowTable) (a : Nat),
      (∀ x ∈ t.layers, ∀ (m : SlotNo) (v : Window), m.val = x.val → t.slots[m] = some v →
        ¬ (v.place.base.toNat ≤ a ∧ a < v.place.base.toNat + v.place.length)) →
      t.claimAt a = if t.background = .pass then .backgroundPass else .backgroundFence) ∧
    (∀ (t : WindowTable) (q q' : Request) (i j : Nat), i < q.beats → j < q'.beats →
      q.addr.toNat + 8 * i = q'.addr.toNat + 8 * j → (t.claimsOf q)[i]? = (t.claimsOf q')[j]?) ∧
    ∀ t : WindowTable, (t = .empty ∨ t.firstFailure = none) → (∀ e ∈ t.layers, t.Names e) ∧ t.layers.Nodup

/-- The memory run: from the first beat that goes to memory to the last, inclusive (R17). Under a valid table
the claims of one request change at most once, so that every beat of its run goes to memory, and its run lies
on at most three lines (note after R19, R20). -/
def Obligations.MemoryRunSpansTheMemoryBeats : Prop :=
  (∀ (t : WindowTable) (claims : List Claim),
    (t.runOf claims = none ↔ ∀ c ∈ claims, (t.treatment c).toMemory = false) ∧
      ∀ r, t.runOf claims = some r →
        r.first ≤ r.last ∧ (∃ c, claims[r.first]? = some c ∧ (t.treatment c).toMemory = true) ∧
          (∃ c, claims[r.last]? = some c ∧ (t.treatment c).toMemory = true) ∧
          (∀ i c, claims[i]? = some c → (t.treatment c).toMemory = true → r.first ≤ i ∧ i ≤ r.last) ∧
          r.count = r.last - r.first + 1) ∧
    ∀ (t : WindowTable) (q : Request), t.firstFailure = none → q.InForm →
      (∃ i a b, t.claimsOf q = List.replicate i a ++ List.replicate (q.beats - i) b) ∧
        ∀ r, t.runOf (t.claimsOf q) = some r →
          (∀ i c, r.first ≤ i → i ≤ r.last → (t.claimsOf q)[i]? = some c → (t.treatment c).toMemory = true) ∧
            (spanOf q.addr r).first = (q.addr.toNat + 8 * r.first) / 64 ∧
            (spanOf q.addr r).last = (q.addr.toNat + 8 * r.last + 7) / 64 ∧
            (spanOf q.addr r).last ≤ (spanOf q.addr r).first + 2

/-! ## Retirement -/

/-- RETIREMENT that closes no generation: the entry is freed and leaves every blocker set, HELD entries
whose sets become empty go to WAITING, the count of its generation falls, the channel is free (R62, R63).
With no response on offer nothing changes: the model's choice (log entry 4). -/
def Obligations.RetirementFreesTheEntry : Prop :=
  (∀ s : State, s.table.offer = none → exec .retirement s = .next s) ∧
    ∀ (s : State) (o : Offer) (e : Entry), s.table.offer = some o → s.entry? o.entry = some e →
    s.requests = [] →
    (e.bound = some s.gens.active.number ∨ e.bound = none ∨
      ((∃ b, s.gens.retiring = some b ∧ e.bound = some b.number) ∧ 2 ≤ s.table.retiringCount)) →
    let left := fun x : Entry => x.blockers.filter (fun b => decide (b ≠ e.no))
    let freed : State :=
      { s with
        table :=
          { entries :=
              (s.table.entries.filter (fun x => decide (x.no ≠ e.no))).map (fun x =>
                { x with
                  blockers := left x
                  state := if x.state = .held ∧ left x = [] then .waiting else x.state })
            activeCount :=
              if e.bound = some s.gens.active.number then s.table.activeCount - 1 else s.table.activeCount
            retiringCount :=
              if e.bound = some s.gens.active.number ∨ e.bound = none then s.table.retiringCount
              else s.table.retiringCount - 1
            offer := none } }
    exec .retirement s = .next (settle freed).refreshAlert

/-- RETIREMENT of the last entry bound to the RETIRING generation closes it in the same step: the bank goes
vacant and its record is filed (R41, R62). -/
def Obligations.LastRetirementClosesTheGeneration : Prop :=
  ∀ (s : State) (o : Offer) (e : Entry) (b : Bank) (record : StatsRecord), s.table.offer = some o →
    s.entry? o.entry = some e → s.requests = [] → s.gens.retiring = some b →
    e.bound = some b.number → b.number ≠ s.gens.active.number → s.table.retiringCount = 1 →
    s.stats.retiring = some record →
    let left := fun x : Entry => x.blockers.filter (fun n => decide (n ≠ e.no))
    let closed : State :=
      { s with
        table :=
          { entries :=
              (s.table.entries.filter (fun x => decide (x.no ≠ e.no))).map (fun x =>
                { x with
                  blockers := left x
                  state := if x.state = .held ∧ left x = [] then .waiting else x.state })
            activeCount := s.table.activeCount
            retiringCount := 0
            offer := none }
        gens := { s.gens with retiring := none }
        stats :=
          { active := s.stats.active
            retiring := none
            queue :=
              if s.stats.queue.length < 4 then s.stats.queue ++ [record]
              else s.stats.queue.tail ++ [record] } }
    exec .retirement s = .next (settle closed).refreshAlert

/-- The request that waits at the head is accepted by the retirement that frees an entry: it takes the freed
entry, is the youngest, and is bound to the ACTIVE generation (R44, R62 step 6). -/
def Obligations.RetirementAcceptsTheWaitingRequest : Prop :=
  ∀ (s : State) (o : Offer) (e : Entry) (q : Request) (rest : List Request), s.Sound →
    s.table.offer = some o → s.entry? o.entry = some e → s.requests = q :: rest →
    ∃ t older entry, exec .retirement s = .next t ∧ t.requests = rest ∧ t.table.entries = older ++ [entry] ∧
      entry.no = e.no ∧ entry.id = q.id ∧ entry.dir = q.dir ∧ entry.addr = q.addr ∧ entry.beats = q.beats ∧
      entry.bound = some s.gens.active.number ∧ t.gens.active = s.gens.active ∧
      older.map Entry.no = (s.table.entries.filter (fun x => decide (x.no ≠ e.no))).map Entry.no

/-! ## What follows inside a step -/

/-- The arbiter's choice between its two sides (R124), each with its oldest waiting entry as candidate (R122,
R123). -/
def Obligations.ArbiterAlternatesBetweenItsSides : Prop :=
  (∀ s : State, s.port.channel ≠ none → arbitrate s = s) ∧
    (∀ s : State, s.port.channel = none → s.forwardCandidate = none → s.mergeCandidate = none →
      arbitrate s = s) ∧
    (∀ (s : State) (f : Entry), s.port.channel = none → s.forwardCandidate = some f →
      s.mergeCandidate = none → arbitrate s = takePlain s f) ∧
    (∀ (s : State) (e : Entry) (m : MergeNo) (w : MergeWork), s.port.channel = none →
      s.forwardCandidate = none → s.mergeCandidate = some (e, m, w) → arbitrate s = takeMerge s e m w) ∧
    (∀ (s : State) (f e : Entry) (m : MergeNo) (w : MergeWork), s.port.channel = none →
      s.forwardCandidate = some f → s.mergeCandidate = some (e, m, w) →
      arbitrate s = if s.port.lastServed = .merge then takePlain s f else takeMerge s e m w) ∧
    (∀ (s : State) (f : Entry) (k : Tag) (r : Run), f.tag = some k → f.run = some r →
      (takePlain s f).port.lastServed = .forward) ∧
    (∀ (s : State) (e : Entry) (k : Tag) (r : Run) (m : MergeNo) (w : MergeWork), e.tag = some k →
      e.run = some r → w.phase.waits = true → (takeMerge s e m w).port.lastServed = .merge) ∧
    State.reset.port.lastServed = .merge ∧
    (∀ s : State, s.TakesFrames → ∀ t, exec (.softReset []) s = .next t →
      t.port.lastServed = .merge) ∧
    ∀ s : State,
      (∀ f, s.forwardCandidate = some f ↔
        ∃ older younger, s.table.entries = older ++ f :: younger ∧ f.state = .issuing ∧
          ∀ x ∈ older, x.state ≠ .issuing) ∧
        ∀ e m w, s.mergeCandidate = some (e, m, w) ↔
          ∃ older younger, s.table.entries = older ++ e :: younger ∧ e.slot = some m ∧
            s.merge[m] = some w ∧ w.phase.waits = true ∧
            ∀ x ∈ older, ∀ (j : MergeNo) v, x.slot = some j → s.merge[j] = some v → v.phase.waits = false

/-- The take of a request (R125): presented with its tag, the tag in flight under the timeout in force, the
entry or slot advanced, a write's beats counted, the side remembered, nothing else changed. -/
def Obligations.TakePresentsTheRequest : Prop :=
  ∀ (s : State) (e : Entry) (k : Tag) (r : Run), e.tag = some k → e.run = some r →
    let deadline := if s.link.timeout = 0 then none else some s.link.timeout.toNat
    let presented := fun (kind : Dir) (data : List WBeat) (side : Side) =>
      { s.port with
        tags := s.port.tags.set k (.bound e.no (some { kind := kind, deadline := deadline }))
        channel :=
          some
            { kind := kind, tag := k, addr := e.addr + BitVec.ofNat 36 (8 * r.first)
              beats := r.last - r.first + 1, data := data }
        lastServed := side }
    let outstanding :=
      { s.table with
        entries := s.table.entries.map (fun x => if x.no = e.no then { e with state := .outstanding } else x) }
    let table := s.tableOf e.bound
    let claims := ((e.claims.getD []).drop r.first).take r.count
    let built := conditionRun table e r
    (e.dir = .read →
        takePlain s e = { s with port := presented .read [] .forward, table := outstanding }) ∧
      (e.dir = .write →
        takePlain s e =
          { s with
            port := presented .write (built.map BuiltBeat.beat) .forward
            table := outstanding
            stats := s.stats.addTo e.bound (issueBeats table claims built) }) ∧
      (∀ (m : MergeNo) (w : MergeWork), w.phase = .readWait →
        takeMerge s e m w =
          { s with
            port := presented .read [] .merge
            merge := s.merge.set m (some { w with phase := .readOut }) }) ∧
      ∀ (m : MergeNo) (w : MergeWork), w.phase = .writeWait →
        takeMerge s e m w =
          { s with
            port := presented .write (w.merged.map BuiltBeat.beat) .merge
            merge := s.merge.set m (some { w with phase := .writeOut, merged := [] })
            stats := s.stats.addTo e.bound (issueBeats table claims w.merged) }

/-- A grant: to the oldest WAITING entry that can proceed, of the lowest FREE tag, and to a merge entry of
the lowest FREE merge slot with it; one is made whenever one can be (R54, R86). -/
def Obligations.GrantGoesToTheOldestThatCanProceed : Prop :=
  ∀ s : State,
    let canProceed := fun e : Entry =>
      e.state = .waiting ∧ (e.merge = true → ∃ m : MergeNo, s.merge[m] = none)
    (grantOne s = none ↔
        (∀ k : Tag, s.port.tags[k] ≠ .free) ∨ ∀ e ∈ s.table.entries, ¬ canProceed e) ∧
      ∀ t, grantOne s = some t →
        ∃ older e younger, ∃ k : Tag, s.table.entries = older ++ e :: younger ∧ canProceed e ∧
          (∀ x ∈ older, ¬ canProceed x) ∧ s.port.tags[k] = .free ∧
          (∀ j : Tag, j < k → s.port.tags[j] ≠ .free) ∧
          let port := { s.port with tags := s.port.tags.set k (.bound e.no none) }
          let granted := fun e' : Entry =>
            { s.table with entries := s.table.entries.map (fun x => if x.no = e.no then e' else x) }
          (e.merge = false →
            t = { s with port := port, table := granted { e with state := .issuing, tag := some k } }) ∧
            (e.merge = true →
              ∃ m : MergeNo, s.merge[m] = none ∧ (∀ j : MergeNo, j < m → s.merge[j] ≠ none) ∧
                t =
                  { s with
                    port := port
                    table := granted { e with state := .merging, tag := some k, slot := some m }
                    merge :=
                      s.merge.set m
                        (some { entry := e.no, phase := .readWait, oldData := [], merged := [] }) })

/-- What follows inside a step is a take, then grants while one can be made, each with the take it allows, then
the offer of a free return channel: this order is the model's reading of R54, R61, R62 and R121, which do not
state it (log entry 7). The offer goes to the oldest deliverable entry (R61). What they leave as it is: the banks,
the link, the Fault Queue, the summary queue, the counts, the requests, a presented request, an offer, tags in
flight and ORPHANED tags, and of every entry all but its state, tag and merge slot, and those too where it was
neither WAITING nor ISSUING. -/
def Obligations.SettlingLeavesTheRest : Prop :=
  (∀ s : State,
      settle s = offerNext (grants 16 (arbitrate s)) ∧
        (∀ n, grantOne s = none → grants n s = s) ∧
        (∀ n u, grantOne s = some u → grants (n + 1) s = grants n (arbitrate u)) ∧
        (s.PathSound → grantOne (settle s) = none) ∧ (s.table.offer ≠ none → offerNext s = s) ∧
        let deliverable := fun (older : List Entry) (e : Entry) => e.state = .complete ∧ ∀ x ∈ older, x.id ≠ e.id
        (s.table.offer = none →
          (∀ older e younger, s.table.entries = older ++ e :: younger → deliverable older e →
            (∀ first x between, older = first ++ x :: between → ¬ deliverable first x) →
            offerNext s =
              { s with
                table :=
                  { s.table with
                    offer :=
                      some
                        { entry := e.no
                          response :=
                            { dir := e.dir, id := e.id, status := e.status
                              data := if e.dir = .read then e.rdata else [] } } } }) ∧
            ((∀ older e younger, s.table.entries = older ++ e :: younger → ¬ deliverable older e) →
              offerNext s = s))) ∧
  ∀ s : State,
    let t := settle s
    t.pending = s.pending ∧ t.resetAsserted = s.resetAsserted ∧ t.requests = s.requests ∧ t.gens = s.gens ∧
      t.faults = s.faults ∧ t.link = s.link ∧ t.alertLow = s.alertLow ∧ t.stats.queue = s.stats.queue ∧
      t.stats.active.shape = s.stats.active.shape ∧
      t.stats.retiring.map StatsRecord.shape = s.stats.retiring.map StatsRecord.shape ∧
      t.table.activeCount = s.table.activeCount ∧ t.table.retiringCount = s.table.retiringCount ∧
      (s.port.channel ≠ none → t.port.channel = s.port.channel) ∧
      (s.table.offer ≠ none → t.table.offer = s.table.offer) ∧
      (s.PathSound →
        (∀ k : Tag, s.port.tags[k] ≠ .free → (∀ n, s.port.tags[k] ≠ .bound n none) →
          t.port.tags[k] = s.port.tags[k]) ∧
          List.Forall₂
            (fun x y : Entry =>
              y = { x with state := y.state, tag := y.tag, slot := y.slot } ∧
                (x.state ≠ .waiting ∧ x.state ≠ .issuing → y = x))
            s.table.entries t.table.entries)

/-! ## The memory port -/

/-- DOWN_REQUEST_ACCEPTED: the channel is free, and the arbiter makes its next choice at once (R121).
With nothing presented nothing changes: the model's choice (log entry 4). -/
def Obligations.AcceptedDownRequestFreesTheChannel : Prop :=
  (∀ s : State, s.port.channel = none → exec .downRequestAccepted s = .next s) ∧
    ∀ (s : State) (d : DownRequest), s.port.channel = some d →
    let freed : State := { s with port := { s.port with channel := none } }
    exec .downRequestAccepted s = .next (settle freed).refreshAlert ∧
      (freed.forwardCandidate = none → freed.mergeCandidate = none → grantOne freed = none →
        s.table.offer ≠ none → exec .downRequestAccepted s = .next freed.refreshAlert)

/-- The response to the transaction of a plain entry (R56, R57, R128, R130, R134): the entry completes, the
tag goes FREE; an ERROR or a wrong beat count makes it FAULT with one DOWNSTREAM_FAULT record. -/
def Obligations.ResponseCompletesAPlainEntry : Prop :=
  ∀ (s : State) (k : Tag) (n : EntryNo) (deadline : Option Nat) (e : Entry) (r : Run) (data : List RBeat),
    s.resetAsserted = false →
    s.port.tags[k] = .bound n (some { kind := e.dir, deadline := deadline }) → s.entry? n = some e →
    e.run = some r → e.merge = false → e.slot = none →
    let table := s.tableOf e.bound
    let ended := fun (status : TxStatus) (rdata : List RBeat) =>
      { s with
        table :=
          { s.table with
            entries :=
              s.table.entries.map (fun x =>
                if x.no = e.no then
                  { e with state := .complete, tag := none, slot := none, status := status, rdata := rdata }
                else x) }
        port := { s.port with tags := s.port.tags.set k .free } }
    let record : FaultRecord :=
      { kind := .downstreamFault, dir := e.dir, lost := false, id := some e.id
        addr := some (e.addr + BitVec.ofNat 36 (8 * r.first)), gen := e.bound
        slot := ((e.claims.getD [])[r.first]?).bind Claim.slot?, tag := some k, phase := none }
    let failed := fun u : State => { u with faults := postRecord s.faults record }
    (e.dir = .read →
        (data.length = r.count →
          exec (.downReadReturn k .ok data) s =
            .next (settle (ended e.status (readBuffer table e (some data)))).refreshAlert) ∧
          (data.length ≠ r.count →
            exec (.downReadReturn k .ok data) s =
              .next (settle (failed (ended .fault (readBuffer table e none)))).refreshAlert) ∧
          exec (.downReadReturn k .error data) s =
            .next (settle (failed (ended .fault (readBuffer table e none)))).refreshAlert) ∧
      (e.dir = .write →
        exec (.downWriteReturn k .ok) s = .next (settle (ended e.status e.rdata)).refreshAlert ∧
          exec (.downWriteReturn k .error) s = .next (settle (failed (ended .fault e.rdata))).refreshAlert)

/-- The responses to the two transactions of a merge entry (R88, R89, R98, R101, R130): an OK old-data read
builds the merged write; every other response ends the merge. -/
def Obligations.ResponseMovesAMergeOn : Prop :=
  ∀ (s : State) (k : Tag) (n : EntryNo) (deadline : Option Nat) (e : Entry) (r : Run) (m : MergeNo)
    (w : MergeWork) (data : List RBeat),
    s.resetAsserted = false → s.entry? n = some e → e.run = some r → e.merge = true → e.dir = .write →
    e.slot = some m → s.merge[m] = some w →
    let table := s.tableOf e.bound
    let inFlight := fun kind : Dir => s.port.tags[k] = .bound n (some { kind := kind, deadline := deadline })
    let built : State :=
      { s with
        merge :=
          s.merge.set m
            (some { entry := w.entry, phase := .writeWait, oldData := [], merged := mergeRun table e r data })
        port := { s.port with tags := s.port.tags.set k (.bound e.no none) } }
    let ended := fun status : TxStatus =>
      { s with
        table :=
          { s.table with
            entries :=
              s.table.entries.map (fun x =>
                if x.no = e.no then
                  { e with state := .complete, tag := none, slot := none, status := status }
                else x) }
        port := { s.port with tags := s.port.tags.set k .free }
        merge := s.merge.set m none }
    let failed := fun phase : Phase =>
      { ended .fault with
        faults :=
          postRecord s.faults
            { kind := .downstreamFault, dir := .write, lost := false, id := some e.id
              addr := some (e.addr + BitVec.ofNat 36 (8 * r.first)), gen := e.bound
              slot :=
                (e.runClaims r).findSome? (fun c =>
                  if (table.treatment c).isBlend = true then c.slot? else none)
              tag := some k, phase := some phase } }
    (inFlight .read →
        (data.length = r.count →
          exec (.downReadReturn k .ok data) s = .next (settle built).refreshAlert) ∧
          (data.length ≠ r.count →
            exec (.downReadReturn k .ok data) s = .next (settle (failed .oldRead)).refreshAlert) ∧
          exec (.downReadReturn k .error data) s = .next (settle (failed .oldRead)).refreshAlert) ∧
      (inFlight .write →
        exec (.downWriteReturn k .ok) s = .next (settle (ended e.status)).refreshAlert ∧
          exec (.downWriteReturn k .error) s = .next (settle (failed .mergedWrite)).refreshAlert)

/-- A response on a tag that does not await it posts one STRAY record and changes nothing else but the alert
line (R133). -/
def Obligations.StrayResponseOnlyPostsARecord : Prop :=
  ∀ (s : State) (k : Tag) (kind : Dir) (status : DownStatus) (data : List RBeat), s.resetAsserted = false →
    (s.port.tags[k] = .free ∨ (∃ n, s.port.tags[k] = .bound n none) ∨
      ∃ n other deadline, other ≠ kind ∧
        s.port.tags[k] = .bound n (some { kind := other, deadline := deadline })) →
    let response : Instr :=
      match kind with
      | .read => .downReadReturn k status data
      | .write => .downWriteReturn k status
    exec response s =
      .next
        ({ s with
            faults :=
              postRecord s.faults
                { kind := .stray, dir := kind, lost := false, id := none, addr := none, gen := none
                  slot := none, tag := some k, phase := none } } : State).refreshAlert

/-- A response of either kind on an ORPHANED tag frees the tag and posts one ORPHAN_LATE record with the
orphan's fields; its status and data are discarded (R132). While RESET_N is asserted a response is discarded
without a record (R140). -/
def Obligations.LateResponseFreesTheOrphan : Prop :=
  ∀ (s : State) (k : Tag) (status : DownStatus) (data : List RBeat),
    (s.resetAsserted = true →
        exec (.downReadReturn k status data) s = .next s ∧ exec (.downWriteReturn k status) s = .next s) ∧
      ∀ o : Orphan, s.resetAsserted = false → s.port.tags[k] = .orphaned o →
        let freed : State :=
          { s with
            port := { s.port with tags := s.port.tags.set k .free }
            faults :=
              postRecord s.faults
                { kind := .orphanLate, dir := o.dir, lost := false, id := none, addr := some o.addr
                  gen := o.gen, slot := none, tag := some k, phase := o.phase } }
        exec (.downReadReturn k status data) s = .next (settle freed).refreshAlert ∧
          exec (.downWriteReturn k status) s = .next (settle freed).refreshAlert

/-- DEADLINE_EXPIRY: the holder completes FAULT, its merge slot goes FREE, the tag is ORPHANED with its
record, and one TIMEOUT record is posted (R56, R57, R99, R100, R129, R131, R134). The reference edges the
deadline still needs go by first, each with the expiries it brings, so that no deadline passes its last edge in
flight; at the last one this tag is taken first and then every other that is due, lowest first (R127). That the
command lets those edges go by, that order, and that nothing changes where no deadline runs are the model's
choice (log entry 3), as is the beat count in the orphan record of a plain entry (log entry 20). -/
def Obligations.ExpiryOrphansTheTag : Prop :=
  (∀ (s : State) (k : Tag),
      (∀ n kind edges, s.port.tags[k] ≠ .bound n (some { kind := kind, deadline := some edges })) →
      exec (.deadlineExpiry k) s = .next s) ∧
    (∀ (s : State) (k : Tag) (n : EntryNo) (fl : Flight) (e : Entry) (r : Run),
      s.port.tags[k] = .bound n (some fl) → s.entry? n = some e → e.run = some r →
      let table := s.tableOf e.bound
      let phase :=
        if e.merge = true then (if fl.kind = .read then some Phase.oldRead else some Phase.mergedWrite) else none
      let expired : State :=
        { s with
          table :=
            { s.table with
              entries :=
                s.table.entries.map (fun x =>
                  if x.no = e.no then
                    { e with
                      state := .complete
                      tag := none
                      slot := none
                      status := .fault
                      rdata := if e.dir = .read then readBuffer table e none else e.rdata }
                  else x) }
          port :=
            { s.port with
              tags :=
                s.port.tags.set k
                  (.orphaned
                    { dir := e.dir, addr := e.addr + BitVec.ofNat 36 (8 * r.first)
                      beats := r.last - r.first + 1, gen := e.bound, phase := phase }) }
          merge :=
            match e.slot with
            | none => s.merge
            | some m => s.merge.set m none
          faults :=
            postRecord s.faults
              { kind := .timeout, dir := e.dir, lost := false, id := some e.id
                addr := some (e.addr + BitVec.ofNat 36 (8 * r.first)), gen := e.bound
                slot :=
                  if e.merge = true then
                    (e.runClaims r).findSome? (fun c =>
                      if (table.treatment c).isBlend = true then c.slot? else none)
                  else ((e.claims.getD [])[r.first]?).bind Claim.slot?
                tag := some k, phase := phase } }
      s.expireTag k = (settle expired).refreshAlert) ∧
    (∀ (s : State) (k : Tag) (n : EntryNo) (kind : Dir) (edges : Nat),
      s.port.tags[k] = .bound n (some { kind := kind, deadline := some edges }) →
      let lastEdge := (State.tick^[edges - 1] s).elapse 1
      let due := fun u : State =>
        Config.sixteen.filter (fun j =>
          match u.port.tags[j] with
          | .bound _ (some fl) => decide (fl.deadline = some 0)
          | .bound _ none => false
          | .orphaned _ => false
          | .free => false)
      let taken := lastEdge.expireTag k
      exec (.deadlineExpiry k) s = .next ((due taken).foldl State.expireTag taken)) ∧
    (∀ (s : State) (k : Tag) (n : EntryNo) (kind : Dir) (edges : Nat), 1 ≤ edges →
      s.port.tags[k] = .bound n (some { kind := kind, deadline := some edges }) →
      (∀ (j : Tag) m fl d, j ≠ k → s.port.tags[j] = .bound m (some fl) → fl.deadline = some d → edges < d) →
      exec (.deadlineExpiry k) s = .next ((s.elapse edges).expireTag k)) ∧
    ∀ (s : State) (edges : Nat),
      s.elapse edges = { s with port := { s.port with tags := (s.elapse edges).port.tags } } ∧
        ∀ j : Tag,
          (s.elapse edges).port.tags[j] =
            match s.port.tags[j] with
            | .bound n (some fl) => .bound n (some { fl with deadline := fl.deadline.map (fun d => d - edges) })
            | other => other

/-- PURGE frees every ORPHANED tag with one PURGED record each, in ascending tag order, makes the grants
this allows, and answers with the number of tags freed (R135, R182). -/
def Obligations.PurgeFreesEveryOrphan : Prop :=
  ∀ s : State, s.TakesFrames →
    let records : List FaultRecord :=
      Config.sixteen.filterMap (fun k =>
        match s.port.tags[k] with
        | .orphaned o =>
          some
            { kind := .purged, dir := o.dir, lost := false, id := none, addr := some o.addr, gen := o.gen
              slot := none, tag := some k, phase := o.phase }
        | .bound _ _ => none
        | .free => none)
    ∃ tags : Vector TagState 16,
      (∀ k : Tag,
        tags[k] =
          match s.port.tags[k] with
          | .orphaned _ => .free
          | other => other) ∧
        let purged : State :=
          { s with
            port := { s.port with tags := tags }
            faults := records.foldl postRecord s.faults
            link := { s.link with miso := List.replicate 3 0xFF } }
        exec (.purge []) s =
          .next ((settle purged).respond .ok [BitVec.ofNat 8 records.length]).refreshAlert

/-! ## Staging and generations -/

/-- A COMMIT while DRAINING answers BUSY, and one of an invalid staged table answers INVALID with the place
and reason of the first failure; neither changes anything but the link (R30, R31, R34, R177). -/
def Obligations.CommitIsRefusedUnchanged : Prop :=
  ∀ s : State, s.TakesFrames →
    (s.gens.retiring ≠ none → exec (.commit []) s = .next (s.afterFrame 3 .busy [])) ∧
      (s.gens.retiring = none →
        (∀ reason, s.gens.staging.firstFailure = some (none, reason) →
          exec (.commit []) s = .next (s.afterFrame 3 .invalid [0xFF, reason.code])) ∧
          ∀ (n : SlotNo) (reason : Reason), s.gens.staging.firstFailure = some (some n, reason) →
            exec (.commit []) s = .next (s.afterFrame 3 .invalid [BitVec.ofNat 8 n.val, reason.code]))

/-- A COMMIT of a valid staged table while SETTLED makes generation G + 1: the bank transfer as one step, and
the close at once of a generation no live entry is bound to (R35, R36, R145, R177). -/
def Obligations.CommitMakesANewGeneration : Prop :=
  ∀ s : State, s.TakesFrames → s.gens.retiring = none → s.gens.staging.firstFailure = none →
    let g := s.gens.active.number + 1
    let active : Bank := { number := g, table := s.gens.staging }
    let record : StatsRecord :=
      { gen := g
        action := s.gens.staging.background
        background := { issued := 0, fenced := 0, checksum := 0 }
        parts := s.gens.staging.layers.filterMap s.gens.staging.openEntry }
    let draining : State :=
      { s with
        gens := { staging := s.gens.staging, active := active, retiring := some s.gens.active }
        stats := { active := record, retiring := some s.stats.active, queue := s.stats.queue }
        table := { s.table with activeCount := 0, retiringCount := s.table.activeCount } }
    let closed : State :=
      { s with
        gens := { staging := s.gens.staging, active := active, retiring := none }
        stats :=
          { active := record
            retiring := none
            queue :=
              if s.stats.queue.length < 4 then s.stats.queue ++ [s.stats.active]
              else s.stats.queue.tail ++ [s.stats.active] }
        table := { s.table with activeCount := 0, retiringCount := 0 } }
    (s.table.activeCount ≠ 0 →
        exec (.commit []) s = .next (draining.afterFrame 3 .accepted [g]).refreshAlert) ∧
      (s.table.activeCount = 0 →
        exec (.commit []) s = .next (closed.afterFrame 3 .accepted [g]).refreshAlert) ∧
      ∀ (e : Fin 16) (n : SlotNo) (w : Window), n.val = e.val → s.gens.staging.slots[n] = some w →
        s.gens.staging.openEntry e =
          some
            { slot := n, mode := w.place.mode, issued := 0, absorbed := 0, fenced := 0, clamped := 0
              checksum := 0 }

/-- Validation: a table has no failure exactly when it is valid; a failure of the layer list is reported
before any slot's, at the first bad entry; of the slots the lowest-numbered bad one is reported, and within it
the first of its checks that fails, in the order PLACE, fit of mode and groups from MAP to PATTERN, MAP, CURVE,
CLAMP, BLEND, PATTERN (R4 to R12, R31, R32, R33). -/
def Obligations.ValidationFindsTheFirstFailure : Prop :=
  ∀ t : WindowTable,
    (t.firstFailure = none ↔ t.Valid) ∧
      (∀ reason, t.firstFailure = some (none, reason) →
        ∃ before e after, t.layers = before ++ e :: after ∧ (∀ x ∈ before, t.Names x) ∧ before.Nodup ∧
          ((reason = .listRange ∧ 7 < e.val) ∨ (reason = .listDuplicate ∧ e.val ≤ 7 ∧ e ∈ before) ∨
            (reason = .listEmptySlot ∧ e.val ≤ 7 ∧ e ∉ before ∧ ¬ t.Names e))) ∧
      ∀ (n : SlotNo) (reason : Reason), t.firstFailure = some (some n, reason) →
        (∀ e ∈ t.layers, t.Names e) ∧ t.layers.Nodup ∧
          (∀ (m : SlotNo) (w : Window), m < n → t.slots[m] = some w → w.Valid) ∧
          ∃ w, t.slots[n] = some w ∧ ¬ w.Valid ∧
            (∃ before failing after, w.checksInOrder = before ++ (reason, failing) :: after ∧ failing ∧
              ∀ check ∈ before, ¬ check.2) ∧
            (reason = .placeAlign ↔ w.place.base.toNat % 256 ≠ 0 ∨ w.place.length % 256 ≠ 0) ∧
            (reason = .placeRange ↔
              w.place.base.toNat % 256 = 0 ∧ w.place.length % 256 = 0 ∧
                (w.place.length = 0 ∨ 2 ^ 36 < w.place.base.toNat + w.place.length))

/-- STAGE_WRITE: an edit of STAGING alone, case by case as the table of R2 gives, answered OK, or BAD_ARGUMENT
with STAGING as it was (R2, R26, R173). -/
def Obligations.StageWriteEditsStagingAlone : Prop :=
  (∀ p : Place,
      editSlot (.place (some p)) none =
        some (some { place := p, map := none, curve := none, clamp := none, blend := none, pattern := none })) ∧
    (∀ (p : Place) (w : Window), editSlot (.place (some p)) (some w) = some (some { w with place := p })) ∧
    editSlot (.place none) none = none ∧ (∀ w : Window, editSlot (.place none) (some w) = some none) ∧
    (∀ v, editSlot (.map v) none = none ∧ ∀ w, editSlot (.map v) (some w) = some (some { w with map := v })) ∧
    (∀ v,
      editSlot (.curve v) none = none ∧ ∀ w, editSlot (.curve v) (some w) = some (some { w with curve := v })) ∧
    (∀ v,
      editSlot (.clamp v) none = none ∧ ∀ w, editSlot (.clamp v) (some w) = some (some { w with clamp := v })) ∧
    (∀ v,
      editSlot (.blend v) none = none ∧ ∀ w, editSlot (.blend v) (some w) = some (some { w with blend := v })) ∧
    (∀ v,
      editSlot (.pattern v) none = none ∧
        ∀ w, editSlot (.pattern v) (some w) = some (some { w with pattern := v })) ∧
    ∀ (s : State) (args : List Byte), s.TakesFrames → args.length ≤ 60 →
      (parseStageWrite args = none →
          exec (.stageWrite args) s = .next (s.afterFrame (3 + args.length) .badArgument [])) ∧
        (∀ (n : SlotNo) (g : GroupEdit), parseStageWrite args = some (.slot n g) →
          (editSlot g s.gens.staging.slots[n] = none →
            exec (.stageWrite args) s = .next (s.afterFrame (3 + args.length) .badArgument [])) ∧
            ∀ w, editSlot g s.gens.staging.slots[n] = some w →
              exec (.stageWrite args) s =
                .next
                  (({ s with
                      gens :=
                        { s.gens with
                          staging :=
                            { s.gens.staging with slots := s.gens.staging.slots.set n w } } } : State).afterFrame
                    (3 + args.length) .ok [])) ∧
        ∀ (background : Background) (layers : List (Fin 16)),
          parseStageWrite args = some (.global background layers) →
          exec (.stageWrite args) s =
            .next
              (({ s with
                  gens :=
                    { s.gens with
                      staging :=
                        { s.gens.staging with
                          background := background
                          layers := layers } } } : State).afterFrame (3 + args.length) .ok [])

/-- The value bytes that can be stored are exactly the bytes that reading a group back returns; which edit the
arguments of STAGE_WRITE spell by target and group code, with no value bytes for ABSENT; and what cannot be
stored or has a wrong target or group code spells no edit (R4, R7 to R12, R173, R174, R185). -/
def Obligations.GroupBytesReadBackAsWritten : Prop :=
  (∀ v p, parsePlace v = some p ↔ v = p.bytes ∧ p.length ≤ 2 ^ 32) ∧
    (∀ v q, parseMap v = some q ↔ v = mapBytes q) ∧
    (∀ v c, parseCurve v = some c ↔ v = c.bytes ∧ 2 ≤ c.knots.length ∧ c.knots.length ≤ 8) ∧
    (∀ v q, parseClamp v = some q ↔ v = clampBytes q) ∧ (∀ v b, parseBlend v = some b ↔ v = b.bytes) ∧
    (∀ v g, parsePattern v = some g ↔ v = g.bytes) ∧
    (∀ v (t : WindowTable),
      parseGlobal v = some (t.background, t.layers) ↔ v = t.globalBytes ∧ t.layers.length ≤ 8) ∧
    (∀ (target : Byte) (n : SlotNo), target.toNat = n.val →
      (parseStageWrite [target, 0] = some (.slot n (.place none)) ∧
          parseStageWrite [target, 1] = some (.slot n (.map none)) ∧
          parseStageWrite [target, 2] = some (.slot n (.curve none)) ∧
          parseStageWrite [target, 3] = some (.slot n (.clamp none)) ∧
          parseStageWrite [target, 4] = some (.slot n (.blend none)) ∧
          parseStageWrite [target, 5] = some (.slot n (.pattern none))) ∧
        ∀ v : List Byte, v ≠ [] →
          parseStageWrite (target :: 0 :: v) = (parsePlace v).map (fun p => .slot n (.place (some p))) ∧
            parseStageWrite (target :: 1 :: v) = (parseMap v).map (fun q => .slot n (.map (some q))) ∧
            parseStageWrite (target :: 2 :: v) = (parseCurve v).map (fun c => .slot n (.curve (some c))) ∧
            parseStageWrite (target :: 3 :: v) = (parseClamp v).map (fun q => .slot n (.clamp (some q))) ∧
            parseStageWrite (target :: 4 :: v) = (parseBlend v).map (fun b => .slot n (.blend (some b))) ∧
            parseStageWrite (target :: 5 :: v) = (parsePattern v).map (fun g => .slot n (.pattern (some g)))) ∧
    (∀ v : List Byte, parseStageWrite (0xFF :: 6 :: v) = (parseGlobal v).map (fun p => .global p.1 p.2)) ∧
    ∀ (target group : Byte) (v : List Byte),
      (8 ≤ target.toNat → target ≠ 0xFF → parseStageWrite (target :: group :: v) = none) ∧
        (target ≠ 0xFF → 6 ≤ group.toNat → parseStageWrite (target :: group :: v) = none) ∧
        (group.toNat ≠ 6 → parseStageWrite (0xFF :: group :: v) = none) ∧
        parseStageWrite [0xFF, group] = none ∧ parseStageWrite [] = none ∧ parseStageWrite [target] = none

/-- STAGE_CLEAR empties one slot and leaves the global record, or makes STAGING the empty table; STAGE_COPY
replaces STAGING by a copy of ACTIVE; any other form answers BAD_ARGUMENT (R27, R28, R175, R176). -/
def Obligations.StageClearAndCopyReplaceStaging : Prop :=
  ∀ s : State, s.TakesFrames →
    (∀ (b : Byte) (n : SlotNo), b.toNat = n.val →
        exec (.stageClear [b]) s =
          .next
            (({ s with
                gens :=
                  { s.gens with
                    staging :=
                      { s.gens.staging with slots := s.gens.staging.slots.set n none } } } : State).afterFrame
              4 .ok [])) ∧
      exec (.stageClear [0xFF]) s =
        .next
          (({ s with
              gens :=
                { s.gens with
                  staging :=
                    { slots := Vector.replicate 8 none, layers := [], background := .pass } } } : State).afterFrame
            4 .ok []) ∧
      (∀ b : Byte, 8 ≤ b.toNat → b ≠ 0xFF →
        exec (.stageClear [b]) s = .next (s.afterFrame 4 .badArgument [])) ∧
      (∀ args : List Byte, args.length ≠ 1 → args.length ≤ 60 →
        exec (.stageClear args) s = .next (s.afterFrame (3 + args.length) .badArgument [])) ∧
      exec (.stageCopy []) s =
        .next
          (({ s with gens := { s.gens with staging := s.gens.active.table } } : State).afterFrame 3 .ok []) ∧
      ∀ args : List Byte, args ≠ [] → args.length ≤ 60 →
        exec (.stageCopy args) s = .next (s.afterFrame (3 + args.length) .badArgument [])

/-- STAGE_READ and ACTIVE_READ return a slot's or the global record's content and change nothing but the
link (R29, R174, R185). -/
def Obligations.ReadBackReturnsTheBank : Prop :=
  let group := fun (bytes : Option (List Byte)) =>
    match bytes with
    | none => ([0] : List Byte)
    | some v => 1 :: v
  let content := fun (slot : Option Window) =>
    match slot with
    | none => ([0] : List Byte)
    | some w =>
      1 :: (1 :: w.place.bytes ++ group (w.map.map mapBytes) ++ group (w.curve.map Curve.bytes) ++
        group (w.clamp.map clampBytes) ++ group (w.blend.map Blend.bytes) ++
        group (w.pattern.map Pattern.bytes))
  ∀ s : State, s.TakesFrames →
    (∀ (b : Byte) (n : SlotNo), b.toNat = n.val →
        exec (.stageRead [b]) s = .next (s.afterFrame 4 .ok (content s.gens.staging.slots[n])) ∧
          exec (.activeRead [b]) s =
            .next (s.afterFrame 4 .ok (s.gens.active.number :: content s.gens.active.table.slots[n]))) ∧
      exec (.stageRead [0xFF]) s = .next (s.afterFrame 4 .ok s.gens.staging.globalBytes) ∧
      exec (.activeRead [0xFF]) s =
        .next (s.afterFrame 4 .ok (s.gens.active.number :: s.gens.active.table.globalBytes)) ∧
      ∀ b : Byte, 8 ≤ b.toNat → b ≠ 0xFF →
        exec (.stageRead [b]) s = .next (s.afterFrame 4 .badArgument []) ∧
          exec (.activeRead [b]) s = .next (s.afterFrame 4 .badArgument [])

/-! ## The management link -/

/-- QUERY answers with its 14-byte snapshot, the flags as before its frame, and clears both flags (R170,
R172, R185). -/
def Obligations.QueryReportsTheSnapshot : Prop :=
  ∀ s : State, s.TakesFrames →
    let bit := fun (b : Bool) (value : Nat) => if b then value else 0
    let snapshot : List Byte :=
      [ s.gens.active.number
      , match s.gens.retiring with
        | none => 0
        | some b => b.number
      , if s.gens.retiring = none then 0 else 1
      , BitVec.ofNat 8 s.table.entries.length
      , BitVec.ofNat 8 (if s.gens.retiring = none then 0 else s.table.retiringCount)
      , BitVec.ofNat 8 (s.port.tags.toList.countP TagState.isBound)
      , BitVec.ofNat 8 (s.port.tags.toList.countP TagState.isOrphaned)
      , BitVec.ofNat 8 (s.merge.toList.countP Option.isSome)
      , BitVec.ofNat 8 s.faults.length
      , BitVec.ofNat 8 s.stats.queue.length
      , BitVec.ofNat 8 (bit s.link.mask.fault 1 + bit s.link.mask.summary 2 + bit s.link.mask.orphan 4)
      , BitVec.ofNat 8 (bit s.link.frameError 1 + bit s.link.discarded 2)
      , BitVec.ofNat 8 (s.link.timeout.toNat / 256)
      , BitVec.ofNat 8 s.link.timeout.toNat ]
    let answered := s.afterFrame 3 .ok snapshot
    exec (.query []) s =
      .next { answered with link := { answered.link with frameError := false, discarded := false } }

/-- STATS_READ reads the ACTIVE generation's record and changes nothing but the link (R151, R178). -/
def Obligations.StatsReadShowsTheLiveFigures : Prop :=
  let be := fun (n k : Nat) => (BitVec.ofNat 8 (n / 256 ^ k) : Byte)
  let four := fun c : BitVec 32 => [be c.toNat 3, be c.toNat 2, be c.toNat 1, be c.toNat 0]
  let two := fun c : BitVec 16 => [be c.toNat 1, be c.toNat 0]
  ∀ s : State, s.TakesFrames →
    let g := s.gens.active.number
    let r := s.stats.active
    (∀ (b : Byte) (n : SlotNo), b.toNat = n.val →
        (∀ before p after, r.parts = before ++ p :: after → p.slot = n → (∀ x ∈ before, x.slot ≠ n) →
          exec (.statsRead [b]) s =
            .next
              (s.afterFrame 4 .ok
                ([g, BitVec.ofNat 8 n.val, p.mode.code] ++ four p.issued ++ four p.absorbed ++ four p.fenced ++
                  four p.clamped ++ two p.checksum))) ∧
          ((∀ p ∈ r.parts, p.slot ≠ n) → exec (.statsRead [b]) s = .next (s.afterFrame 4 .notListed [g]))) ∧
      (r.gen = g →
        exec (.statsRead [0xFF]) s =
          .next
            (s.afterFrame 4 .ok
              ([g, r.action.code] ++ four r.background.issued ++ four r.background.fenced ++
                two r.background.checksum))) ∧
      ∀ b : Byte, 8 ≤ b.toNat → b ≠ 0xFF →
        exec (.statsRead [b]) s = .next (s.afterFrame 4 .badArgument [])

/-- SUMMARY_POP takes the oldest closed summary from the queue, or answers EMPTY (R146, R150, R179, R185). -/
def Obligations.SummaryPopTakesTheOldest : Prop :=
  let be := fun (n k : Nat) => (BitVec.ofNat 8 (n / 256 ^ k) : Byte)
  let four := fun c : BitVec 32 => [be c.toNat 3, be c.toNat 2, be c.toNat 1, be c.toNat 0]
  let two := fun c : BitVec 16 => [be c.toNat 1, be c.toNat 0]
  ∀ s : State, s.TakesFrames →
    (s.stats.queue = [] → exec (.summaryPop []) s = .next (s.afterFrame 3 .empty [])) ∧
      ∀ r rest, s.stats.queue = r :: rest →
        exec (.summaryPop []) s =
          .next
            (({ s with stats := { s.stats with queue := rest } } : State).afterFrame 3 .ok
              ([r.gen, r.action.code] ++ four r.background.issued ++ four r.background.fenced ++
                two r.background.checksum ++ [BitVec.ofNat 8 r.parts.length] ++
                r.parts.flatMap (fun p =>
                  [BitVec.ofNat 8 p.slot.val, p.mode.code] ++ four p.issued ++ four p.absorbed ++
                    four p.fenced ++ four p.clamped ++ two p.checksum))).refreshAlert

/-- FAULT_POP takes the oldest fault record from the queue, or answers EMPTY (R157, R180, R185). -/
def Obligations.FaultPopTakesTheOldest : Prop :=
  let be := fun (n k : Nat) => (BitVec.ofNat 8 (n / 256 ^ k) : Byte)
  let bit := fun (b : Bool) (value : Nat) => if b then value else 0
  ∀ s : State, s.TakesFrames →
    (s.faults = [] → exec (.faultPop []) s = .next (s.afterFrame 3 .empty [])) ∧
      ∀ r rest, s.faults = r :: rest →
        let address := (r.addr.getD 0).toNat
        exec (.faultPop []) s =
          .next
            (({ s with faults := rest } : State).afterFrame 3 .ok
              [ r.kind.code
              , if r.dir = .read then 0 else 1
              , BitVec.ofNat 8
                  (bit r.id.isSome 1 + bit r.addr.isSome 2 + bit r.gen.isSome 4 + bit r.slot.isSome 8 +
                    bit r.tag.isSome 16 + bit r.phase.isSome 32 + bit r.lost 128)
              , BitVec.ofNat 8 ((r.id.map Fin.val).getD 0)
              , be address 4, be address 3, be address 2, be address 1, be address 0
              , r.gen.getD 0
              , BitVec.ofNat 8 ((r.slot.map Fin.val).getD 0)
              , BitVec.ofNat 8 ((r.tag.map Fin.val).getD 0)
              , if r.phase = some .mergedWrite then 1 else 0 ]).refreshAlert

/-- SET_PARAM writes one parameter: the response timeout from two bytes, or the alert mask from one byte with
no bit above bit 2, which acts on ALERT_N at once; any other value answers BAD_ARGUMENT (R162, R171, R181). -/
def Obligations.SetParamWritesOneParameter : Prop :=
  ∀ s : State, s.TakesFrames →
    (∀ hi lo : Byte, ∃ timeout : BitVec 16, timeout.toNat = 256 * hi.toNat + lo.toNat ∧
        exec (.setParamTimeout [hi, lo]) s =
          .next (({ s with link := { s.link with timeout := timeout } } : State).afterFrame 6 .ok [])) ∧
      (∀ value : List Byte, value.length ≠ 2 → value.length ≤ 59 →
        exec (.setParamTimeout value) s = .next (s.afterFrame (4 + value.length) .badArgument [])) ∧
      (∀ fault summary orphan : Bool,
        exec
            (.setParamAlertMask
              [BitVec.ofNat 8
                ((if fault then 1 else 0) + (if summary then 2 else 0) + (if orphan then 4 else 0))]) s =
          .next
            (({ s with
                link :=
                  { s.link with
                    mask := { fault := fault, summary := summary, orphan := orphan } } } : State).afterFrame
              5 .ok []).refreshAlert) ∧
      (∀ b : Byte, 8 ≤ b.toNat →
        exec (.setParamAlertMask [b]) s = .next (s.afterFrame 5 .badArgument [])) ∧
      ∀ value : List Byte, value.length ≠ 1 → value.length ≤ 59 →
        exec (.setParamAlertMask value) s = .next (s.afterFrame (4 + value.length) .badArgument [])

/-- FETCH shifts out 0xFF, then the pending response, or NO_RESPONSE, byte by byte, then 0xFF; a complete one
empties the buffer, a short one leaves it (R167, R168, R169). -/
def Obligations.FetchShiftsOutTheResponse : Prop :=
  ∀ (s : State) (clocked : Nat), s.TakesFrames →
    let carry := fun bytes : List Byte => 0xFF :: (bytes ++ List.replicate clocked 0xFF).take clocked
    (s.link.response = none →
        exec (.fetch clocked) s =
          .next { s with link := { s.link with miso := carry [0x0A, 0x00, 0x82] } }) ∧
      ∀ r, s.link.response = some r →
        let head : List Byte :=
          [ BitVec.ofNat 8 (r.status.code.toNat + if r.priorDiscarded then 128 else 0)
          , BitVec.ofNat 8 r.payload.length ]
        let bytes := head ++ r.payload ++ [crc8 (head ++ r.payload)]
        (5 + r.payload.length ≤ 1 + clocked →
            exec (.fetch clocked) s =
              .next { s with link := { s.link with response := none, miso := carry bytes } }) ∧
          (1 + clocked < 5 + r.payload.length →
            exec (.fetch clocked) s = .next { s with link := { s.link with miso := carry bytes } })

/-- REJECTED_FRAME, from the bits of its frame: the whole bytes alone are judged, and bits of an incomplete last
byte change nothing (R164). Checks 1 to 3 of R166 in order, the first that fails decides the status and sets
the frame-error flag; a frame of no whole bytes is ignored (R164, R166, R170); a SET_PARAM with no defined
parameter byte answers BAD_ARGUMENT without the flag (R181). Bits that spell the frame of another command are
that command: the model's choice (log entry 9). -/
def Obligations.RejectedFrameAnswersItsFirstFailedCheck : Prop :=
  let lengthOk := fun frame : List Byte =>
    ∃ code n rest, frame = code :: n :: rest ∧ rest ≠ [] ∧ n.toNat ≤ 60 ∧ frame.length = 3 + n.toNat
  let codes : List Byte :=
    [0x01, 0x10, 0x11, 0x12, 0x13, 0x14, 0x15, 0x20, 0x21, 0x22, 0x30, 0x31, 0x3E]
  let shifted := fun (frame : List Byte) (incomplete : List Bool) =>
    frame.flatMap (fun b =>
      [b.getLsbD 7, b.getLsbD 6, b.getLsbD 5, b.getLsbD 4, b.getLsbD 3, b.getLsbD 2, b.getLsbD 1, b.getLsbD 0]) ++
      incomplete
  ∀ (s : State) (incomplete : List Bool), incomplete.length < 8 →
    (s.TakesFrames → exec (.rejectedFrame incomplete) s = .next s) ∧
      (∀ (c : Instr) (bits : List Bool), c.wellFormed = true → encodeFrame c = some bits →
        (∀ raw, c ≠ .rejectedFrame raw) → exec (.rejectedFrame (bits ++ incomplete)) s = exec c s) ∧
      ∀ (code : Byte) (rest : List Byte), s.TakesFrames → code ≠ 0x80 →
        let frame := code :: rest
        let crcOk := frame.getLastD 0 = crc8 frame.dropLast
        let taken := exec (.rejectedFrame (shifted frame incomplete)) s
        let rejected := fun status : LinkStatus =>
          let answered := s.afterFrame frame.length status []
          Host.Outcome.next { answered with link := { answered.link with frameError := true } }
        (¬ lengthOk frame → taken = rejected .framing) ∧ (lengthOk frame → ¬ crcOk → taken = rejected .badCrc) ∧
          (lengthOk frame → crcOk → code ∉ codes → taken = rejected .unknownCommand) ∧
          (lengthOk frame → crcOk → code = 0x30 →
            (∀ p args, rest.tail.dropLast = p :: args → p ≠ 0x00 ∧ p ≠ 0x01) →
            taken = .next (s.afterFrame frame.length .badArgument []))

/-- Check 4 of R166: the commands without arguments answer BAD_ARGUMENT when they carry some, those with one
byte when they carry another number of bytes; nothing changes but the link. More than 60 argument bytes fail
check 1 (log entry 8). -/
def Obligations.WrongArgumentFormsChangeNothing : Prop :=
  ∀ (s : State) (args : List Byte), s.TakesFrames →
    (args.length ≤ 60 →
        let refused := Host.Outcome.next (s.afterFrame (3 + args.length) .badArgument [])
        (args ≠ [] →
            exec (.query args) s = refused ∧ exec (.stageCopy args) s = refused ∧
              exec (.commit args) s = refused ∧ exec (.summaryPop args) s = refused ∧
              exec (.faultPop args) s = refused ∧ exec (.purge args) s = refused ∧
              exec (.softReset args) s = refused) ∧
          (args.length ≠ 1 →
            exec (.stageRead args) s = refused ∧ exec (.activeRead args) s = refused ∧
              exec (.stageClear args) s = refused ∧ exec (.statsRead args) s = refused)) ∧
      (60 < args.length →
        let answered := s.afterFrame (3 + args.length) .framing []
        let framing := Host.Outcome.next { answered with link := { answered.link with frameError := true } }
        exec (.query args) s = framing ∧ exec (.stageWrite args) s = framing ∧
          exec (.stageRead args) s = framing ∧ exec (.activeRead args) s = framing ∧
          exec (.stageClear args) s = framing ∧ exec (.stageCopy args) s = framing ∧
          exec (.commit args) s = framing ∧ exec (.statsRead args) s = framing ∧
          exec (.summaryPop args) s = framing ∧ exec (.faultPop args) s = framing ∧
          exec (.purge args) s = framing ∧ exec (.softReset args) s = framing)

/-- While RESET_N is asserted the link takes no frame, nor one that was in progress while it was: the frame is
discarded whole with its mark, and nothing else changes (R184). That SPI_MISO carries 0xFF in such a frame after
the release too is the model's (log entry 19). -/
def Obligations.NoFrameIsTakenInReset : Prop :=
  ∀ (s : State) (args : List Byte) (clocked : Nat) (bits : List Bool), s.resetAsserted = true ∨ s.link.cut = true →
    let silent := fun bytes : Nat =>
      Host.Outcome.next { s with link := { s.link with cut := false, miso := List.replicate bytes 0xFF } }
    let discarded := silent (3 + args.length)
    exec (.query args) s = discarded ∧ exec (.stageWrite args) s = discarded ∧
      exec (.stageRead args) s = discarded ∧ exec (.activeRead args) s = discarded ∧
      exec (.stageClear args) s = discarded ∧ exec (.stageCopy args) s = discarded ∧
      exec (.commit args) s = discarded ∧ exec (.statsRead args) s = discarded ∧
      exec (.summaryPop args) s = discarded ∧ exec (.faultPop args) s = discarded ∧
      exec (.purge args) s = discarded ∧ exec (.softReset args) s = discarded ∧
      exec (.setParamTimeout args) s = silent (4 + args.length) ∧
      exec (.setParamAlertMask args) s = silent (4 + args.length) ∧
      exec (.fetch clocked) s = silent (1 + clocked) ∧
      (wholeBytes bits ≠ [] → exec (.rejectedFrame bits) s = silent (wholeBytes bits).length) ∧
      (wholeBytes bits = [] → exec (.rejectedFrame bits) s = .next { s with link := { s.link with cut := false } })

/-- The frame of every well-formed link command, shifted bit by bit, is read back as that command, whatever bits
of an incomplete last byte follow it (R164 to R166, R169, R185). -/
def Obligations.FramesReadBackAsTheirCommands : Prop :=
  (∀ (frame : List Byte) (incomplete : List Bool), incomplete.length < 8 →
      wholeBytes (frameBits frame ++ incomplete) = frame) ∧
    ∀ (c : Instr) (bits incomplete : List Bool), c.wellFormed = true → encodeFrame c = some bits →
      incomplete.length < 8 →
      match c with
      | .fetch clocked =>
        (wholeBytes bits).head? = some 0x80 ∧ (wholeBytes bits).length = 1 + clocked ∧
          ∀ filler : List Byte, filler.length = clocked →
            decodeFrame (frameBits (0x80 :: filler) ++ incomplete) = some c
      | .rejectedFrame raw => bits = raw ∧ decodeFrame bits = some c
      | _ => decodeFrame (bits ++ incomplete) = some c ∧ frameError (wholeBytes bits) = none

/-! ## The data path -/

/-- The tone curve: a knot's output at its input, else the segment's value rounded to nearest with halves to
the larger integer; so it lies between the outputs of the segment's knots, does not fall on a rising segment
nor rise on a falling one, and the identity list changes nothing (R75, R76). -/
def Obligations.CurveInterpolatesBetweenItsKnots : Prop :=
  (∀ (knots before after : List Knot) (a b : Knot),
      knots.Pairwise (fun x y => x.input.toNat < y.input.toNat) → knots = before ++ a :: b :: after →
      curveAt knots a.input = a.output ∧ curveAt knots b.input = b.output ∧
        (∀ x : Byte, a.input.toNat < x.toNat → x.toNat < b.input.toNat →
          let d : Int := (b.input.toNat : Int) - a.input.toNat
          let n : Int := ((x.toNat : Int) - a.input.toNat) * ((b.output.toNat : Int) - a.output.toNat)
          ((curveAt knots x).toNat : Int) = a.output.toNat + (2 * n + d).fdiv (2 * d)) ∧
        (∀ x : Byte, a.input.toNat ≤ x.toNat → x.toNat ≤ b.input.toNat →
          min a.output.toNat b.output.toNat ≤ (curveAt knots x).toNat ∧
            (curveAt knots x).toNat ≤ max a.output.toNat b.output.toNat) ∧
        ∀ x y : Byte, a.input.toNat ≤ x.toNat → x.toNat ≤ y.toNat → y.toNat ≤ b.input.toNat →
          (a.output.toNat ≤ b.output.toNat → (curveAt knots x).toNat ≤ (curveAt knots y).toNat) ∧
            (b.output.toNat ≤ a.output.toNat → (curveAt knots y).toNat ≤ (curveAt knots x).toNat)) ∧
    ∀ x : Byte, curveAt [⟨0, 0⟩, ⟨255, 255⟩] x = x

/-- The map's strobes and values (R71, R72, R73), the curve where masked and strobed (R74) and the clamp (R77),
component by component; the conditioned beat puts every component through them in that order and at its own byte
(R70, R79), its clamped count is the number of components the clamp changed (R78); and the beats of a plain
write by their claims (R69). -/
def Obligations.MapAndClampWorkPerComponent : Prop :=
  (∀ (sample : List Lane) (k : Nat) (lane : Lane), sample[k]? = some lane →
      (mapLane none sample k).strobe = lane.strobe ∧
        (lane.strobe = true → (mapLane none sample k).val = lane.val) ∧
        (lane.strobe = false → (mapLane none sample k).val = 0)) ∧
    (∀ (q : Quad Source) (sample : List Lane) (k : Nat) (j : Fin 4) (lane : Lane),
      q.get k = .comp j → sample[j.val]? = some lane →
      (mapLane (some q) sample k).strobe = lane.strobe ∧
        (lane.strobe = true → (mapLane (some q) sample k).val = lane.val) ∧
        (lane.strobe = false → (mapLane (some q) sample k).val = 0)) ∧
    (∀ (q : Quad Source) (sample : List Lane) (k : Nat), q.get k = .zero ∨ q.get k = .full →
      ((mapLane (some q) sample k).strobe = true ↔ ∃ lane ∈ sample, lane.strobe = true) ∧
        ((mapLane (some q) sample k).strobe = true →
          (mapLane (some q) sample k).val = if q.get k = .zero then 0 else 255) ∧
        ((mapLane (some q) sample k).strobe = false → (mapLane (some q) sample k).val = 0)) ∧
    (∀ (q : Quad Bounds) (k : Nat) (lane : Lane),
      (clampLane (some q) k lane).strobe = lane.strobe ∧ (lane.strobe = false → clampLane (some q) k lane = lane) ∧
        (lane.strobe = true →
          (clampLane (some q) k lane).val =
            if lane.val.toNat < (q.get k).lower.toNat then (q.get k).lower
            else if (q.get k).upper.toNat < lane.val.toNat then (q.get k).upper
            else lane.val)) ∧
    (∀ (k : Nat) (lane : Lane), clampLane none k lane = lane) ∧
    (∀ (k : Nat) (lane : Lane), curveLane none k lane = lane) ∧
    (∀ (cv : Curve) (k : Nat) (lane : Lane),
      curveLane (some cv) k lane =
        if cv.mask.get k = true ∧ lane.strobe = true then { lane with val := curveAt cv.knots lane.val } else lane) ∧
    (∀ (w : Window) (beat : WBeat), beat.length = 8 →
      let size := if w.place.format = .s32 then 4 else 2
      let curved := fun p : Nat =>
        curveLane w.curve (p % size) (mapLane w.map ((beat.drop (p - p % size)).take size) (p % size))
      let clamped := fun p : Nat => clampLane w.clamp (p % size) (curved p)
      (conditionBeat w beat).beat = (List.range 8).map clamped ∧
        (conditionBeat w beat).clamped = (List.range 8).countP (fun p => decide (clamped p ≠ curved p)) ∧
        (∀ lane ∈ (conditionBeat w beat).beat, lane.strobe = false → lane.val = 0) ∧
        (conditionBeat w beat).clamped ≤ 8 ∧ (w.clamp = none → (conditionBeat w beat).clamped = 0)) ∧
    ∀ (t : WindowTable) (e : Entry) (r : Run) (claims : List Claim) (i : Nat) (c : Claim) (beat : WBeat),
      e.claims = some claims → i < r.count → claims[r.first + i]? = some c → e.wdata[r.first + i]? = some beat →
      (conditionRun t e r).length = r.count ∧
        (c = .backgroundPass → (conditionRun t e r)[i]? = some { beat := beat, clamped := 0 }) ∧
        ∀ w, t.treatment c = .condition w → (conditionRun t e r)[i]? = some (conditionBeat w beat)

/-- Alpha and blending: the sample alpha (R92), the effective alpha by source (R93), the blended component
between new and old (R94), the alpha component by policy, and unstrobed components left clear (R95). In a
blended beat the alpha is read at the alpha component of the new sample after map and curve, every component of
the sample mixes by it, and the clamp comes after (R91, R96); the other beats of a merged write are as in a
plain one (R90). -/
def Obligations.BlendingMixesByAlpha : Prop :=
  (∀ lane : Lane,
      sampleAlpha lane = ((if lane.strobe = true then lane.val.toNat else 255) + 2) / 4 ∧
        sampleAlpha lane ≤ 64 ∧ (lane.strobe = false → sampleAlpha lane = 64)) ∧
    (∀ (b : Blend) (lane : Lane), b.plane.toNat ≤ 64 →
      effectiveAlpha b lane ≤ 64 ∧ (b.source = .sample → effectiveAlpha b lane = sampleAlpha lane) ∧
        (b.source = .plane → effectiveAlpha b lane = b.plane.toNat) ∧
        (b.source = .product →
          effectiveAlpha b lane = (sampleAlpha lane * b.plane.toNat + 32) / 64 ∧
            (sampleAlpha lane = 64 → effectiveAlpha b lane = b.plane.toNat))) ∧
    (∀ (b : Blend) (a k : Nat) (new : Lane) (old : Byte), a ≤ 64 → new.strobe = true →
      k ≠ b.component.val →
      (blendLane b a k new old).strobe = true ∧
        (blendLane b a k new old).val.toNat = (a * new.val.toNat + (64 - a) * old.toNat + 32) / 64 ∧
        min new.val.toNat old.toNat ≤ (blendLane b a k new old).val.toNat ∧
        (blendLane b a k new old).val.toNat ≤ max new.val.toNat old.toNat ∧
        (a = 64 → (blendLane b a k new old).val = new.val) ∧ (a = 0 → (blendLane b a k new old).val = old)) ∧
    (∀ (b : Blend) (a : Nat) (new : Lane) (old : Byte), new.strobe = true →
      (b.policy = .keepOld → blendLane b a b.component.val new old = { val := old, strobe := true }) ∧
        (b.policy = .takeNew → blendLane b a b.component.val new old = new)) ∧
    (∀ (b : Blend) (a k : Nat) (new : Lane) (old : Byte), new.strobe = false →
      blendLane b a k new old = { val := 0, strobe := false }) ∧
    (∀ (b : Blend) (sample : List Lane) (old : RBeat) (alpha new : Lane) (k : Nat) (o : Byte),
      sample[b.component.val]? = some alpha → sample[k]? = some new → old[k]? = some o →
      (blendSample b sample old).length = sample.length ∧
        (blendSample b sample old)[k]? = some (blendLane b (effectiveAlpha b alpha) k new o)) ∧
    (∀ (w : Window) (b : Blend) (beat : WBeat) (old : RBeat), beat.length = 8 → old.length = 8 →
      let size := if w.place.format = .s32 then 4 else 2
      b.component.val < size →
      let new := fun start k : Nat => curveLane w.curve k (mapLane w.map ((beat.drop start).take size) k)
      let blended := fun p : Nat =>
        let start := p - p % size
        blendLane b (effectiveAlpha b (new start b.component.val)) (p % size) (new start (p % size)) (old.getD p 0)
      let clamped := fun p : Nat => clampLane w.clamp (p % size) (blended p)
      (blendBeat w b beat old).beat = (List.range 8).map clamped ∧
        (blendBeat w b beat old).clamped = (List.range 8).countP (fun p => decide (clamped p ≠ blended p))) ∧
    ∀ (t : WindowTable) (e : Entry) (r : Run) (claims : List Claim) (i : Nat) (c : Claim) (beat : WBeat)
      (old : List RBeat) (o : RBeat),
      e.claims = some claims → i < r.count → claims[r.first + i]? = some c → e.wdata[r.first + i]? = some beat →
      old[i]? = some o →
      (mergeRun t e r old).length = r.count ∧
        (c = .backgroundPass → (mergeRun t e r old)[i]? = some { beat := beat, clamped := 0 }) ∧
        (∀ w, t.treatment c = .condition w → (mergeRun t e r old)[i]? = some (conditionBeat w beat)) ∧
        ∀ w b, t.treatment c = .blend w → w.blend = some b →
          (mergeRun t e r old)[i]? = some (blendBeat w b beat o)

/-- The four patterns by sample index (R106 to R109), and a READ's buffer beat by beat, with a memory run answered
OK or not and with none (R59, R104, R105, R116). -/
def Obligations.ReadBufferIsFilledByClaim : Prop :=
  (∀ (p : Place) (g : Pattern) (s j : Nat), 1 ≤ g.row.toNat → j < 4 →
      let column := s % g.row.toNat
      let row := s / g.row.toNat
      let rows := p.length / (g.row.toNat * p.format.size)
      let border : Prop :=
        (column : Int) < g.border.toNat ∨ (g.row.toNat : Int) - g.border.toNat ≤ column ∨
          (row : Int) < g.border.toNat ∨ (rows : Int) - g.border.toNat ≤ row
      (g.kind = .solid → patternComponent p g s j = g.solid.get j) ∧
        (g.kind = .bars →
          column * 8 / g.row.toNat ≤ 7 ∧
            patternComponent p g s j =
              if j = 3 ∨ (7 - column * 8 / g.row.toNat).testBit j = true then 255 else 0) ∧
        (g.kind = .border →
          (border → patternComponent p g s j = g.solid.get j) ∧
            (¬ border → patternComponent p g s j = if j = 3 then 255 else 0)) ∧
        (g.kind = .noise →
          let x := (s % 65536 * 40503 + g.seed.toNat * 7 + j * 97) % 65536
          (patternComponent p g s j).toNat = x * x % 65536 / 256)) ∧
    ∀ (t : WindowTable) (e : Entry) (returned : Option (List RBeat)) (claims : List Claim) (i : Nat) (c : Claim),
      e.claims = some claims → i < e.beats → claims[i]? = some c →
      let a := e.addr.toNat + 8 * i
      let zero : RBeat := List.replicate 8 0
      (readBuffer t e returned).length = e.beats ∧
        ((t.treatment c).toMemory = true →
          (∀ (r : Run) (data : List RBeat), e.run = some r → returned = some data → r.first ≤ i →
            (h : i - r.first < data.length) → (readBuffer t e returned)[i]? = some data[i - r.first]) ∧
            (returned = none → (readBuffer t e returned)[i]? = some zero)) ∧
        ((t.treatment c).isFenced = true → (readBuffer t e returned)[i]? = some zero) ∧
        ∀ w g, t.treatment c = .pattern w → w.pattern = some g →
          (readBuffer t e returned)[i]? = some (patternBeat w.place g a) ∧
            (w.place.format = .s32 →
              patternBeat w.place g a =
                (List.range 2).flatMap (fun x =>
                  (List.range 4).map (patternComponent w.place g ((a + 4 * x - w.place.base.toNat) / 4)))) ∧
            (w.place.format = .s16 →
              patternBeat w.place g a =
                (List.range 4).flatMap (fun x =>
                  (List.range 2).map (patternComponent w.place g ((a + 2 * x - w.place.base.toNat) / 2))))

/-- No byte of a beat claimed by a FENCE slot, a PATTERN slot or the FENCE background leaves with its strobe
set, in a plain or a merged write, and what is read for such a beat does not come from memory (R115). -/
def Obligations.ProtectedBeatsStayInside : Prop :=
  ∀ (t : WindowTable) (e : Entry) (r : Run) (claims : List Claim) (i : Nat) (c : Claim),
    e.claims = some claims → claims[r.first + i]? = some c → (t.treatment c).toMemory = false →
    (∀ b, (conditionRun t e r)[i]? = some b →
        b.beat = List.replicate 8 { val := 0, strobe := false } ∧ b.clamped = 0) ∧
      (∀ (old : List RBeat) b, (mergeRun t e r old)[i]? = some b →
        b.beat = List.replicate 8 { val := 0, strobe := false } ∧ b.clamped = 0) ∧
      ∀ d d' : Option (List RBeat), (readBuffer t e d)[r.first + i]? = (readBuffer t e d')[r.first + i]?

/-- The additions to a statistics record: at acceptance the fenced and absorbed beats by claimant (R111,
R113), at the take of a write its issued beats, checksums and clamped components by claimant (R80 to R83);
counters saturate and checksums wrap (R143). The checksum of a beat is the sum of its four little-endian halves,
unstrobed bytes counting as zero (R81), and an addition changes only the record of the bound generation
(R142). -/
def Obligations.StatisticsGoToTheClaimant : Prop :=
  (∀ (c : BitVec 32) (n : Nat),
      (saturatingAdd c n).toNat = if c.toNat + n ≤ 4294967295 then c.toNat + n else 4294967295) ∧
    (∀ l0 l1 l2 l3 l4 l5 l6 l7 : Lane,
      let v := fun l : Lane => if l.strobe = true then l.val.toNat else 0
      (beatChecksum [l0, l1, l2, l3, l4, l5, l6, l7]).toNat =
        ((v l0 + 256 * v l1) + (v l2 + 256 * v l3) + (v l4 + 256 * v l5) + (v l6 + 256 * v l7)) % 65536) ∧
    (∀ (u : SummaryUnit) (g : Gen) (f : StatsRecord → StatsRecord),
      (u.active.gen = g → u.addTo (some g) f = { u with active := f u.active }) ∧
        (∀ r, u.retiring = some r → r.gen = g → u.active.gen ≠ g →
          u.addTo (some g) f = { u with retiring := some (f r) }) ∧
        (u.active.gen ≠ g → (∀ r, u.retiring = some r → r.gen ≠ g) → u.addTo (some g) f = u) ∧
        u.addTo none f = u) ∧
    (∀ (t : WindowTable) (dir : Dir) (claims : List Claim) (r : StatsRecord),
      let fenced := fun n : SlotNo => claims.countP (fun c => c == .slot n && (t.treatment c).isFenced)
      let absorbed := fun n : SlotNo =>
        if dir = .write then claims.countP (fun c => c == .slot n && (t.treatment c).isPattern) else 0
      acceptBeats t dir claims r =
        { r with
          background :=
            { r.background with
              fenced := saturatingAdd r.background.fenced (claims.count .backgroundFence) }
          parts :=
            r.parts.map (fun p =>
              { p with
                fenced := saturatingAdd p.fenced (fenced p.slot)
                absorbed := saturatingAdd p.absorbed (absorbed p.slot) }) }) ∧
    ∀ (t : WindowTable) (claims : List Claim) (beats : List BuiltBeat) (r : StatsRecord),
      let sent := fun n : SlotNo =>
        (claims.zip beats).filter (fun p => p.1 == .slot n && (t.treatment p.1).toMemory)
      let passed := (claims.zip beats).filter (fun p => p.1 == .backgroundPass)
      let summed := fun n : SlotNo => ∃ w, t.slots[n] = some w ∧ w.place.checksum = true
      let issued := issueBeats t claims beats r
      issued.gen = r.gen ∧ issued.action = r.action ∧
        issued.background.issued = saturatingAdd r.background.issued passed.length ∧
        issued.background.fenced = r.background.fenced ∧
        issued.background.checksum =
          r.background.checksum + (passed.map (fun p => beatChecksum p.2.beat)).sum ∧
        List.Forall₂
          (fun p p' : SlotPart =>
            p'.slot = p.slot ∧ p'.mode = p.mode ∧ p'.absorbed = p.absorbed ∧ p'.fenced = p.fenced ∧
              p'.issued = saturatingAdd p.issued (sent p.slot).length ∧
              p'.clamped = saturatingAdd p.clamped ((sent p.slot).map (fun x => x.2.clamped)).sum ∧
              (summed p.slot →
                p'.checksum = p.checksum + ((sent p.slot).map (fun x => beatChecksum x.2.beat)).sum) ∧
              (¬ summed p.slot → p'.checksum = p.checksum))
          r.parts issued.parts

/-- The two queues: a fault record joins the tail with its flag clear while fewer than 8 are stored, and is
dropped otherwise with the newest record's flag set (R155, R156); a summary joins the tail, and a full queue
loses its head first (R147). -/
def Obligations.QueuesKeepTheirOrder : Prop :=
  (∀ (queue : List FaultRecord) (r : FaultRecord), queue.length < 8 →
      postRecord queue r = queue ++ [{ r with lost := false }]) ∧
    (∀ (queue : List FaultRecord) (newest r : FaultRecord), queue.length = 7 →
      postRecord (queue ++ [newest]) r = queue ++ [{ newest with lost := true }]) ∧
    (∀ (queue : List StatsRecord) (r : StatsRecord), queue.length < 4 → fileSummary queue r = queue ++ [r]) ∧
    ∀ (head r : StatsRecord) (queue : List StatsRecord), queue.length = 3 →
      fileSummary (head :: queue) r = queue ++ [r]

/-! ## What every step keeps -/

/-- Everything `State.Sound` says holds right after power-on reset. -/
def Obligations.ResetIsSound : Prop := State.reset.Sound

/-- Every step leaves ALERT_N asserted exactly while a source is active and UNMASKED (R160 to R163). -/
def Obligations.StepKeepsTheAlertLine : Prop :=
  ∀ s t : State, s.AlertFollows → step s = .next t → t.AlertFollows

/-- While RESET_N is asserted every step leaves every block at its power-on state (R24, R66, R140, R149,
R159, R184). -/
def Obligations.StepKeepsTheReset : Prop :=
  ∀ s t : State, s.ResetHeld → step s = .next t → t.ResetHeld

/-- Every step keeps the banks valid and numbered, and the open statistics records with them (R22, R37,
R141). -/
def Obligations.StepKeepsTheGenerations : Prop :=
  ∀ s t : State, s.GenerationsSound → step s = .next t → t.GenerationsSound

/-- Every step keeps the Fault Queue within 8 records and the summary queue within 4, consecutive and leading
up to the oldest live generation (R147, R153). -/
def Obligations.StepKeepsTheQueues : Prop :=
  ∀ s t : State, s.GenerationsSound → s.Bounded → s.SummariesConsecutive → step s = .next t →
    t.Bounded ∧ t.SummariesConsecutive

/-- Every step keeps the counts of entries bound to each generation, and RETIRING occupied exactly while an
entry is bound to it (R22, R38, R40, R63). -/
def Obligations.StepKeepsTheCounts : Prop :=
  ∀ s t : State, s.Sound → step s = .next t → t.CountsSound

/-- Every step keeps entries, tags and merge slots in agreement (R47, R85, R86, R119). -/
def Obligations.StepKeepsThePath : Prop :=
  ∀ s t : State, s.Sound → step s = .next t → t.PathSound

/-- In every step's outcome an entry waits for exactly the older live entries it conflicts with, so that no
entry outside HELD conflicts with an older one (R52, R53). -/
def Obligations.StepKeepsTheOrder : Prop :=
  ∀ s t : State, s.Sound → step s = .next t →
    t.OrderKept ∧
      ∀ older e younger, t.table.entries = older ++ e :: younger → e.state ≠ .held →
        ∀ x ∈ older, Entry.conflicts e x = false

/-- Every step leaves no grant, take, offer or acceptance open and no deadline running past its last edge, and
what is on offer is a COMPLETE entry's response with no older live entry of the same upstream ID (R44, R54, R60,
R61, R121, R127). -/
def Obligations.StepLeavesNothingOpen : Prop :=
  ∀ s t : State, s.Sound → step s = .next t → t.Settled ∧ t.OfferSound
end

