-- ==== Sys2Proof/Laws/State.lean ====
section
/-!
SUPPORT. One equation per field for every named update of the state, so that no later proof unfolds one.
-/

namespace Sys2Proof.Machine
namespace State

variable (s : State)

/-! `setEntries` -/

@[simp] theorem setEntries_pending (es : List Entry) : (s.setEntries es).pending = s.pending := rfl
@[simp] theorem setEntries_resetAsserted (es : List Entry) :
    (s.setEntries es).resetAsserted = s.resetAsserted :=
  rfl
@[simp] theorem setEntries_requests (es : List Entry) : (s.setEntries es).requests = s.requests := rfl
@[simp] theorem setEntries_table_entries (es : List Entry) : (s.setEntries es).table.entries = es := rfl
@[simp] theorem setEntries_table_activeCount (es : List Entry) :
    (s.setEntries es).table.activeCount = s.table.activeCount :=
  rfl
@[simp] theorem setEntries_table_retiringCount (es : List Entry) :
    (s.setEntries es).table.retiringCount = s.table.retiringCount :=
  rfl
@[simp] theorem setEntries_table_offer (es : List Entry) :
    (s.setEntries es).table.offer = s.table.offer :=
  rfl
@[simp] theorem setEntries_gens (es : List Entry) : (s.setEntries es).gens = s.gens := rfl
@[simp] theorem setEntries_stats (es : List Entry) : (s.setEntries es).stats = s.stats := rfl
@[simp] theorem setEntries_merge (es : List Entry) : (s.setEntries es).merge = s.merge := rfl
@[simp] theorem setEntries_port (es : List Entry) : (s.setEntries es).port = s.port := rfl
@[simp] theorem setEntries_faults (es : List Entry) : (s.setEntries es).faults = s.faults := rfl
@[simp] theorem setEntries_link (es : List Entry) : (s.setEntries es).link = s.link := rfl
@[simp] theorem setEntries_alertLow (es : List Entry) : (s.setEntries es).alertLow = s.alertLow := rfl

/-! `setEntry` -/

@[simp] theorem setEntry_pending (e : Entry) : (s.setEntry e).pending = s.pending := rfl
@[simp] theorem setEntry_resetAsserted (e : Entry) : (s.setEntry e).resetAsserted = s.resetAsserted := rfl
@[simp] theorem setEntry_requests (e : Entry) : (s.setEntry e).requests = s.requests := rfl
@[simp] theorem setEntry_table_entries (e : Entry) :
    (s.setEntry e).table.entries = s.table.entries.map (fun x => if x.no = e.no then e else x) :=
  rfl
@[simp] theorem setEntry_table_activeCount (e : Entry) :
    (s.setEntry e).table.activeCount = s.table.activeCount :=
  rfl
@[simp] theorem setEntry_table_retiringCount (e : Entry) :
    (s.setEntry e).table.retiringCount = s.table.retiringCount :=
  rfl
@[simp] theorem setEntry_table_offer (e : Entry) : (s.setEntry e).table.offer = s.table.offer := rfl
@[simp] theorem setEntry_gens (e : Entry) : (s.setEntry e).gens = s.gens := rfl
@[simp] theorem setEntry_stats (e : Entry) : (s.setEntry e).stats = s.stats := rfl
@[simp] theorem setEntry_merge (e : Entry) : (s.setEntry e).merge = s.merge := rfl
@[simp] theorem setEntry_port (e : Entry) : (s.setEntry e).port = s.port := rfl
@[simp] theorem setEntry_faults (e : Entry) : (s.setEntry e).faults = s.faults := rfl
@[simp] theorem setEntry_link (e : Entry) : (s.setEntry e).link = s.link := rfl
@[simp] theorem setEntry_alertLow (e : Entry) : (s.setEntry e).alertLow = s.alertLow := rfl

/-! `setOffer` -/

@[simp] theorem setOffer_pending (o : Option Offer) : (s.setOffer o).pending = s.pending := rfl
@[simp] theorem setOffer_resetAsserted (o : Option Offer) :
    (s.setOffer o).resetAsserted = s.resetAsserted :=
  rfl
@[simp] theorem setOffer_requests (o : Option Offer) : (s.setOffer o).requests = s.requests := rfl
@[simp] theorem setOffer_table_entries (o : Option Offer) :
    (s.setOffer o).table.entries = s.table.entries :=
  rfl
@[simp] theorem setOffer_table_activeCount (o : Option Offer) :
    (s.setOffer o).table.activeCount = s.table.activeCount :=
  rfl
@[simp] theorem setOffer_table_retiringCount (o : Option Offer) :
    (s.setOffer o).table.retiringCount = s.table.retiringCount :=
  rfl
@[simp] theorem setOffer_table_offer (o : Option Offer) : (s.setOffer o).table.offer = o := rfl
@[simp] theorem setOffer_gens (o : Option Offer) : (s.setOffer o).gens = s.gens := rfl
@[simp] theorem setOffer_stats (o : Option Offer) : (s.setOffer o).stats = s.stats := rfl
@[simp] theorem setOffer_merge (o : Option Offer) : (s.setOffer o).merge = s.merge := rfl
@[simp] theorem setOffer_port (o : Option Offer) : (s.setOffer o).port = s.port := rfl
@[simp] theorem setOffer_faults (o : Option Offer) : (s.setOffer o).faults = s.faults := rfl
@[simp] theorem setOffer_link (o : Option Offer) : (s.setOffer o).link = s.link := rfl
@[simp] theorem setOffer_alertLow (o : Option Offer) : (s.setOffer o).alertLow = s.alertLow := rfl

/-! `addEntry` -/

@[simp] theorem addEntry_pending (e : Entry) : (s.addEntry e).pending = s.pending := rfl
@[simp] theorem addEntry_resetAsserted (e : Entry) : (s.addEntry e).resetAsserted = s.resetAsserted := rfl
@[simp] theorem addEntry_requests (e : Entry) : (s.addEntry e).requests = s.requests := rfl
@[simp] theorem addEntry_table_entries (e : Entry) :
    (s.addEntry e).table.entries = s.table.entries ++ [e] :=
  rfl
@[simp] theorem addEntry_table_activeCount (e : Entry) :
    (s.addEntry e).table.activeCount = s.table.activeCount + 1 :=
  rfl
@[simp] theorem addEntry_table_retiringCount (e : Entry) :
    (s.addEntry e).table.retiringCount = s.table.retiringCount :=
  rfl
@[simp] theorem addEntry_table_offer (e : Entry) : (s.addEntry e).table.offer = s.table.offer := rfl
@[simp] theorem addEntry_gens (e : Entry) : (s.addEntry e).gens = s.gens := rfl
@[simp] theorem addEntry_stats (e : Entry) : (s.addEntry e).stats = s.stats := rfl
@[simp] theorem addEntry_merge (e : Entry) : (s.addEntry e).merge = s.merge := rfl
@[simp] theorem addEntry_port (e : Entry) : (s.addEntry e).port = s.port := rfl
@[simp] theorem addEntry_faults (e : Entry) : (s.addEntry e).faults = s.faults := rfl
@[simp] theorem addEntry_link (e : Entry) : (s.addEntry e).link = s.link := rfl
@[simp] theorem addEntry_alertLow (e : Entry) : (s.addEntry e).alertLow = s.alertLow := rfl

/-! `setTag` -/

@[simp] theorem setTag_pending (t : Tag) (ts : TagState) : (s.setTag t ts).pending = s.pending := rfl
@[simp] theorem setTag_resetAsserted (t : Tag) (ts : TagState) :
    (s.setTag t ts).resetAsserted = s.resetAsserted :=
  rfl
@[simp] theorem setTag_requests (t : Tag) (ts : TagState) : (s.setTag t ts).requests = s.requests := rfl
@[simp] theorem setTag_table (t : Tag) (ts : TagState) : (s.setTag t ts).table = s.table := rfl
@[simp] theorem setTag_gens (t : Tag) (ts : TagState) : (s.setTag t ts).gens = s.gens := rfl
@[simp] theorem setTag_stats (t : Tag) (ts : TagState) : (s.setTag t ts).stats = s.stats := rfl
@[simp] theorem setTag_merge (t : Tag) (ts : TagState) : (s.setTag t ts).merge = s.merge := rfl
@[simp] theorem setTag_port_tags (t : Tag) (ts : TagState) :
    (s.setTag t ts).port.tags = s.port.tags.set t ts :=
  rfl
@[simp] theorem setTag_port_channel (t : Tag) (ts : TagState) :
    (s.setTag t ts).port.channel = s.port.channel :=
  rfl
@[simp] theorem setTag_port_lastServed (t : Tag) (ts : TagState) :
    (s.setTag t ts).port.lastServed = s.port.lastServed :=
  rfl
@[simp] theorem setTag_faults (t : Tag) (ts : TagState) : (s.setTag t ts).faults = s.faults := rfl
@[simp] theorem setTag_link (t : Tag) (ts : TagState) : (s.setTag t ts).link = s.link := rfl
@[simp] theorem setTag_alertLow (t : Tag) (ts : TagState) : (s.setTag t ts).alertLow = s.alertLow := rfl

/-! `setMerge` -/

@[simp] theorem setMerge_pending (m : MergeNo) (w : Option MergeWork) :
    (s.setMerge m w).pending = s.pending :=
  rfl
@[simp] theorem setMerge_resetAsserted (m : MergeNo) (w : Option MergeWork) :
    (s.setMerge m w).resetAsserted = s.resetAsserted :=
  rfl
@[simp] theorem setMerge_requests (m : MergeNo) (w : Option MergeWork) :
    (s.setMerge m w).requests = s.requests :=
  rfl
@[simp] theorem setMerge_table (m : MergeNo) (w : Option MergeWork) : (s.setMerge m w).table = s.table := rfl
@[simp] theorem setMerge_gens (m : MergeNo) (w : Option MergeWork) : (s.setMerge m w).gens = s.gens := rfl
@[simp] theorem setMerge_stats (m : MergeNo) (w : Option MergeWork) : (s.setMerge m w).stats = s.stats := rfl
@[simp] theorem setMerge_merge (m : MergeNo) (w : Option MergeWork) :
    (s.setMerge m w).merge = s.merge.set m w :=
  rfl
@[simp] theorem setMerge_port (m : MergeNo) (w : Option MergeWork) : (s.setMerge m w).port = s.port := rfl
@[simp] theorem setMerge_faults (m : MergeNo) (w : Option MergeWork) :
    (s.setMerge m w).faults = s.faults :=
  rfl
@[simp] theorem setMerge_link (m : MergeNo) (w : Option MergeWork) : (s.setMerge m w).link = s.link := rfl
@[simp] theorem setMerge_alertLow (m : MergeNo) (w : Option MergeWork) :
    (s.setMerge m w).alertLow = s.alertLow :=
  rfl

/-! `elapse` -/

@[simp] theorem elapse_pending (n : Nat) : (s.elapse n).pending = s.pending := rfl
@[simp] theorem elapse_resetAsserted (n : Nat) : (s.elapse n).resetAsserted = s.resetAsserted := rfl
@[simp] theorem elapse_requests (n : Nat) : (s.elapse n).requests = s.requests := rfl
@[simp] theorem elapse_table (n : Nat) : (s.elapse n).table = s.table := rfl
@[simp] theorem elapse_gens (n : Nat) : (s.elapse n).gens = s.gens := rfl
@[simp] theorem elapse_stats (n : Nat) : (s.elapse n).stats = s.stats := rfl
@[simp] theorem elapse_merge (n : Nat) : (s.elapse n).merge = s.merge := rfl
@[simp] theorem elapse_port_tags (n : Nat) :
    (s.elapse n).port.tags = mapStore (TagState.elapse n) s.port.tags :=
  rfl
@[simp] theorem elapse_port_channel (n : Nat) : (s.elapse n).port.channel = s.port.channel := rfl
@[simp] theorem elapse_port_lastServed (n : Nat) : (s.elapse n).port.lastServed = s.port.lastServed := rfl
@[simp] theorem elapse_faults (n : Nat) : (s.elapse n).faults = s.faults := rfl
@[simp] theorem elapse_link (n : Nat) : (s.elapse n).link = s.link := rfl
@[simp] theorem elapse_alertLow (n : Nat) : (s.elapse n).alertLow = s.alertLow := rfl

/-! `setStats` -/

@[simp] theorem setStats_pending (u : SummaryUnit) : (s.setStats u).pending = s.pending := rfl
@[simp] theorem setStats_resetAsserted (u : SummaryUnit) :
    (s.setStats u).resetAsserted = s.resetAsserted :=
  rfl
@[simp] theorem setStats_requests (u : SummaryUnit) : (s.setStats u).requests = s.requests := rfl
@[simp] theorem setStats_table (u : SummaryUnit) : (s.setStats u).table = s.table := rfl
@[simp] theorem setStats_gens (u : SummaryUnit) : (s.setStats u).gens = s.gens := rfl
@[simp] theorem setStats_stats (u : SummaryUnit) : (s.setStats u).stats = u := rfl
@[simp] theorem setStats_merge (u : SummaryUnit) : (s.setStats u).merge = s.merge := rfl
@[simp] theorem setStats_port (u : SummaryUnit) : (s.setStats u).port = s.port := rfl
@[simp] theorem setStats_faults (u : SummaryUnit) : (s.setStats u).faults = s.faults := rfl
@[simp] theorem setStats_link (u : SummaryUnit) : (s.setStats u).link = s.link := rfl
@[simp] theorem setStats_alertLow (u : SummaryUnit) : (s.setStats u).alertLow = s.alertLow := rfl

/-! `post` -/

@[simp] theorem post_pending (r : FaultRecord) : (s.post r).pending = s.pending := rfl
@[simp] theorem post_resetAsserted (r : FaultRecord) : (s.post r).resetAsserted = s.resetAsserted := rfl
@[simp] theorem post_requests (r : FaultRecord) : (s.post r).requests = s.requests := rfl
@[simp] theorem post_table (r : FaultRecord) : (s.post r).table = s.table := rfl
@[simp] theorem post_gens (r : FaultRecord) : (s.post r).gens = s.gens := rfl
@[simp] theorem post_stats (r : FaultRecord) : (s.post r).stats = s.stats := rfl
@[simp] theorem post_merge (r : FaultRecord) : (s.post r).merge = s.merge := rfl
@[simp] theorem post_port (r : FaultRecord) : (s.post r).port = s.port := rfl
@[simp] theorem post_faults (r : FaultRecord) : (s.post r).faults = postRecord s.faults r := rfl
@[simp] theorem post_link (r : FaultRecord) : (s.post r).link = s.link := rfl
@[simp] theorem post_alertLow (r : FaultRecord) : (s.post r).alertLow = s.alertLow := rfl

/-! `respond` -/

@[simp] theorem respond_pending (st : LinkStatus) (p : List Byte) :
    (s.respond st p).pending = s.pending :=
  rfl
@[simp] theorem respond_resetAsserted (st : LinkStatus) (p : List Byte) :
    (s.respond st p).resetAsserted = s.resetAsserted :=
  rfl
@[simp] theorem respond_requests (st : LinkStatus) (p : List Byte) :
    (s.respond st p).requests = s.requests :=
  rfl
@[simp] theorem respond_table (st : LinkStatus) (p : List Byte) : (s.respond st p).table = s.table := rfl
@[simp] theorem respond_gens (st : LinkStatus) (p : List Byte) : (s.respond st p).gens = s.gens := rfl
@[simp] theorem respond_stats (st : LinkStatus) (p : List Byte) : (s.respond st p).stats = s.stats := rfl
@[simp] theorem respond_merge (st : LinkStatus) (p : List Byte) : (s.respond st p).merge = s.merge := rfl
@[simp] theorem respond_port (st : LinkStatus) (p : List Byte) : (s.respond st p).port = s.port := rfl
@[simp] theorem respond_faults (st : LinkStatus) (p : List Byte) : (s.respond st p).faults = s.faults := rfl
@[simp] theorem respond_link_response (st : LinkStatus) (p : List Byte) :
    (s.respond st p).link.response =
      some { status := st, priorDiscarded := s.link.response.isSome, payload := p } :=
  rfl
@[simp] theorem respond_link_frameError (st : LinkStatus) (p : List Byte) :
    (s.respond st p).link.frameError = s.link.frameError :=
  rfl
@[simp] theorem respond_link_discarded (st : LinkStatus) (p : List Byte) :
    (s.respond st p).link.discarded = (s.link.discarded || s.link.response.isSome) :=
  rfl
@[simp] theorem respond_link_timeout (st : LinkStatus) (p : List Byte) :
    (s.respond st p).link.timeout = s.link.timeout :=
  rfl
@[simp] theorem respond_link_mask (st : LinkStatus) (p : List Byte) :
    (s.respond st p).link.mask = s.link.mask :=
  rfl
@[simp] theorem respond_link_cut (st : LinkStatus) (p : List Byte) :
    (s.respond st p).link.cut = s.link.cut :=
  rfl
@[simp] theorem respond_link_miso (st : LinkStatus) (p : List Byte) :
    (s.respond st p).link.miso = s.link.miso :=
  rfl
@[simp] theorem respond_alertLow (st : LinkStatus) (p : List Byte) :
    (s.respond st p).alertLow = s.alertLow :=
  rfl

/-! `setMiso` -/

@[simp] theorem setMiso_pending (b : List Byte) : (s.setMiso b).pending = s.pending := rfl
@[simp] theorem setMiso_resetAsserted (b : List Byte) : (s.setMiso b).resetAsserted = s.resetAsserted := rfl
@[simp] theorem setMiso_requests (b : List Byte) : (s.setMiso b).requests = s.requests := rfl
@[simp] theorem setMiso_table (b : List Byte) : (s.setMiso b).table = s.table := rfl
@[simp] theorem setMiso_gens (b : List Byte) : (s.setMiso b).gens = s.gens := rfl
@[simp] theorem setMiso_stats (b : List Byte) : (s.setMiso b).stats = s.stats := rfl
@[simp] theorem setMiso_merge (b : List Byte) : (s.setMiso b).merge = s.merge := rfl
@[simp] theorem setMiso_port (b : List Byte) : (s.setMiso b).port = s.port := rfl
@[simp] theorem setMiso_faults (b : List Byte) : (s.setMiso b).faults = s.faults := rfl
@[simp] theorem setMiso_link_response (b : List Byte) : (s.setMiso b).link.response = s.link.response := rfl
@[simp] theorem setMiso_link_frameError (b : List Byte) :
    (s.setMiso b).link.frameError = s.link.frameError :=
  rfl
@[simp] theorem setMiso_link_discarded (b : List Byte) :
    (s.setMiso b).link.discarded = s.link.discarded :=
  rfl
@[simp] theorem setMiso_link_timeout (b : List Byte) : (s.setMiso b).link.timeout = s.link.timeout := rfl
@[simp] theorem setMiso_link_mask (b : List Byte) : (s.setMiso b).link.mask = s.link.mask := rfl
@[simp] theorem setMiso_link_cut (b : List Byte) : (s.setMiso b).link.cut = s.link.cut := rfl
@[simp] theorem setMiso_link_miso (b : List Byte) : (s.setMiso b).link.miso = b := rfl
@[simp] theorem setMiso_alertLow (b : List Byte) : (s.setMiso b).alertLow = s.alertLow := rfl

/-! `endCut` -/

@[simp] theorem endCut_pending : (s.endCut).pending = s.pending := rfl
@[simp] theorem endCut_resetAsserted : (s.endCut).resetAsserted = s.resetAsserted := rfl
@[simp] theorem endCut_requests : (s.endCut).requests = s.requests := rfl
@[simp] theorem endCut_table : (s.endCut).table = s.table := rfl
@[simp] theorem endCut_gens : (s.endCut).gens = s.gens := rfl
@[simp] theorem endCut_stats : (s.endCut).stats = s.stats := rfl
@[simp] theorem endCut_merge : (s.endCut).merge = s.merge := rfl
@[simp] theorem endCut_port : (s.endCut).port = s.port := rfl
@[simp] theorem endCut_faults : (s.endCut).faults = s.faults := rfl
@[simp] theorem endCut_link_response : (s.endCut).link.response = s.link.response := rfl
@[simp] theorem endCut_link_frameError : (s.endCut).link.frameError = s.link.frameError := rfl
@[simp] theorem endCut_link_discarded : (s.endCut).link.discarded = s.link.discarded := rfl
@[simp] theorem endCut_link_timeout : (s.endCut).link.timeout = s.link.timeout := rfl
@[simp] theorem endCut_link_mask : (s.endCut).link.mask = s.link.mask := rfl
@[simp] theorem endCut_link_cut : (s.endCut).link.cut = false := rfl
@[simp] theorem endCut_link_miso : (s.endCut).link.miso = s.link.miso := rfl
@[simp] theorem endCut_alertLow : (s.endCut).alertLow = s.alertLow := rfl

/-! `cutFrame` -/

@[simp] theorem cutFrame_pending (midFrame : Bool) : (s.cutFrame midFrame).pending = s.pending := rfl
@[simp] theorem cutFrame_resetAsserted (midFrame : Bool) :
    (s.cutFrame midFrame).resetAsserted = s.resetAsserted :=
  rfl
@[simp] theorem cutFrame_requests (midFrame : Bool) : (s.cutFrame midFrame).requests = s.requests := rfl
@[simp] theorem cutFrame_table (midFrame : Bool) : (s.cutFrame midFrame).table = s.table := rfl
@[simp] theorem cutFrame_gens (midFrame : Bool) : (s.cutFrame midFrame).gens = s.gens := rfl
@[simp] theorem cutFrame_stats (midFrame : Bool) : (s.cutFrame midFrame).stats = s.stats := rfl
@[simp] theorem cutFrame_merge (midFrame : Bool) : (s.cutFrame midFrame).merge = s.merge := rfl
@[simp] theorem cutFrame_port (midFrame : Bool) : (s.cutFrame midFrame).port = s.port := rfl
@[simp] theorem cutFrame_faults (midFrame : Bool) : (s.cutFrame midFrame).faults = s.faults := rfl
@[simp] theorem cutFrame_link_response (midFrame : Bool) :
    (s.cutFrame midFrame).link.response = s.link.response :=
  rfl
@[simp] theorem cutFrame_link_frameError (midFrame : Bool) :
    (s.cutFrame midFrame).link.frameError = s.link.frameError :=
  rfl
@[simp] theorem cutFrame_link_discarded (midFrame : Bool) :
    (s.cutFrame midFrame).link.discarded = s.link.discarded :=
  rfl
@[simp] theorem cutFrame_link_timeout (midFrame : Bool) :
    (s.cutFrame midFrame).link.timeout = s.link.timeout :=
  rfl
@[simp] theorem cutFrame_link_mask (midFrame : Bool) : (s.cutFrame midFrame).link.mask = s.link.mask := rfl
@[simp] theorem cutFrame_link_cut (midFrame : Bool) :
    (s.cutFrame midFrame).link.cut = (s.link.cut || midFrame) :=
  rfl
@[simp] theorem cutFrame_link_miso (midFrame : Bool) : (s.cutFrame midFrame).link.miso = s.link.miso := rfl
@[simp] theorem cutFrame_alertLow (midFrame : Bool) : (s.cutFrame midFrame).alertLow = s.alertLow := rfl

/-! `refreshAlert` -/

@[simp] theorem refreshAlert_pending : (s.refreshAlert).pending = s.pending := rfl
@[simp] theorem refreshAlert_resetAsserted : (s.refreshAlert).resetAsserted = s.resetAsserted := rfl
@[simp] theorem refreshAlert_requests : (s.refreshAlert).requests = s.requests := rfl
@[simp] theorem refreshAlert_table : (s.refreshAlert).table = s.table := rfl
@[simp] theorem refreshAlert_gens : (s.refreshAlert).gens = s.gens := rfl
@[simp] theorem refreshAlert_stats : (s.refreshAlert).stats = s.stats := rfl
@[simp] theorem refreshAlert_merge : (s.refreshAlert).merge = s.merge := rfl
@[simp] theorem refreshAlert_port : (s.refreshAlert).port = s.port := rfl
@[simp] theorem refreshAlert_faults : (s.refreshAlert).faults = s.faults := rfl
@[simp] theorem refreshAlert_link : (s.refreshAlert).link = s.link := rfl
@[simp] theorem refreshAlert_alertLow : (s.refreshAlert).alertLow = s.alertLevel := rfl

/-! `setFrameError` -/

@[simp] theorem setFrameError_pending : (s.setFrameError).pending = s.pending := rfl
@[simp] theorem setFrameError_resetAsserted : (s.setFrameError).resetAsserted = s.resetAsserted := rfl
@[simp] theorem setFrameError_requests : (s.setFrameError).requests = s.requests := rfl
@[simp] theorem setFrameError_table : (s.setFrameError).table = s.table := rfl
@[simp] theorem setFrameError_gens : (s.setFrameError).gens = s.gens := rfl
@[simp] theorem setFrameError_stats : (s.setFrameError).stats = s.stats := rfl
@[simp] theorem setFrameError_merge : (s.setFrameError).merge = s.merge := rfl
@[simp] theorem setFrameError_port : (s.setFrameError).port = s.port := rfl
@[simp] theorem setFrameError_faults : (s.setFrameError).faults = s.faults := rfl
@[simp] theorem setFrameError_link_response : (s.setFrameError).link.response = s.link.response := rfl
@[simp] theorem setFrameError_link_frameError : (s.setFrameError).link.frameError = true := rfl
@[simp] theorem setFrameError_link_discarded : (s.setFrameError).link.discarded = s.link.discarded := rfl
@[simp] theorem setFrameError_link_timeout : (s.setFrameError).link.timeout = s.link.timeout := rfl
@[simp] theorem setFrameError_link_mask : (s.setFrameError).link.mask = s.link.mask := rfl
@[simp] theorem setFrameError_link_cut : (s.setFrameError).link.cut = s.link.cut := rfl
@[simp] theorem setFrameError_link_miso : (s.setFrameError).link.miso = s.link.miso := rfl
@[simp] theorem setFrameError_alertLow : (s.setFrameError).alertLow = s.alertLow := rfl

/-! `clearLinkFlags` -/

@[simp] theorem clearLinkFlags_pending : (s.clearLinkFlags).pending = s.pending := rfl
@[simp] theorem clearLinkFlags_resetAsserted : (s.clearLinkFlags).resetAsserted = s.resetAsserted := rfl
@[simp] theorem clearLinkFlags_requests : (s.clearLinkFlags).requests = s.requests := rfl
@[simp] theorem clearLinkFlags_table : (s.clearLinkFlags).table = s.table := rfl
@[simp] theorem clearLinkFlags_gens : (s.clearLinkFlags).gens = s.gens := rfl
@[simp] theorem clearLinkFlags_stats : (s.clearLinkFlags).stats = s.stats := rfl
@[simp] theorem clearLinkFlags_merge : (s.clearLinkFlags).merge = s.merge := rfl
@[simp] theorem clearLinkFlags_port : (s.clearLinkFlags).port = s.port := rfl
@[simp] theorem clearLinkFlags_faults : (s.clearLinkFlags).faults = s.faults := rfl
@[simp] theorem clearLinkFlags_link_response : (s.clearLinkFlags).link.response = s.link.response := rfl
@[simp] theorem clearLinkFlags_link_frameError : (s.clearLinkFlags).link.frameError = false := rfl
@[simp] theorem clearLinkFlags_link_discarded : (s.clearLinkFlags).link.discarded = false := rfl
@[simp] theorem clearLinkFlags_link_timeout : (s.clearLinkFlags).link.timeout = s.link.timeout := rfl
@[simp] theorem clearLinkFlags_link_mask : (s.clearLinkFlags).link.mask = s.link.mask := rfl
@[simp] theorem clearLinkFlags_link_cut : (s.clearLinkFlags).link.cut = s.link.cut := rfl
@[simp] theorem clearLinkFlags_link_miso : (s.clearLinkFlags).link.miso = s.link.miso := rfl
@[simp] theorem clearLinkFlags_alertLow : (s.clearLinkFlags).alertLow = s.alertLow := rfl

/-! `setStaging` -/

@[simp] theorem setStaging_pending (t : WindowTable) : (s.setStaging t).pending = s.pending := rfl
@[simp] theorem setStaging_resetAsserted (t : WindowTable) :
    (s.setStaging t).resetAsserted = s.resetAsserted :=
  rfl
@[simp] theorem setStaging_requests (t : WindowTable) : (s.setStaging t).requests = s.requests := rfl
@[simp] theorem setStaging_table (t : WindowTable) : (s.setStaging t).table = s.table := rfl
@[simp] theorem setStaging_gens_staging (t : WindowTable) : (s.setStaging t).gens.staging = t := rfl
@[simp] theorem setStaging_gens_active (t : WindowTable) : (s.setStaging t).gens.active = s.gens.active := rfl
@[simp] theorem setStaging_gens_retiring (t : WindowTable) :
    (s.setStaging t).gens.retiring = s.gens.retiring :=
  rfl
@[simp] theorem setStaging_stats (t : WindowTable) : (s.setStaging t).stats = s.stats := rfl
@[simp] theorem setStaging_merge (t : WindowTable) : (s.setStaging t).merge = s.merge := rfl
@[simp] theorem setStaging_port (t : WindowTable) : (s.setStaging t).port = s.port := rfl
@[simp] theorem setStaging_faults (t : WindowTable) : (s.setStaging t).faults = s.faults := rfl
@[simp] theorem setStaging_link (t : WindowTable) : (s.setStaging t).link = s.link := rfl
@[simp] theorem setStaging_alertLow (t : WindowTable) : (s.setStaging t).alertLow = s.alertLow := rfl

/-! `closeRetiring` -/

@[simp] theorem closeRetiring_pending : (s.closeRetiring).pending = s.pending := rfl
@[simp] theorem closeRetiring_resetAsserted : (s.closeRetiring).resetAsserted = s.resetAsserted := rfl
@[simp] theorem closeRetiring_requests : (s.closeRetiring).requests = s.requests := rfl
@[simp] theorem closeRetiring_table : (s.closeRetiring).table = s.table := rfl
@[simp] theorem closeRetiring_gens_staging : (s.closeRetiring).gens.staging = s.gens.staging := rfl
@[simp] theorem closeRetiring_gens_active : (s.closeRetiring).gens.active = s.gens.active := rfl
@[simp] theorem closeRetiring_gens_retiring : (s.closeRetiring).gens.retiring = none := rfl
@[simp] theorem closeRetiring_stats_active : (s.closeRetiring).stats.active = s.stats.active := rfl
@[simp] theorem closeRetiring_stats_retiring : (s.closeRetiring).stats.retiring = none := rfl
@[simp] theorem closeRetiring_merge : (s.closeRetiring).merge = s.merge := rfl
@[simp] theorem closeRetiring_port : (s.closeRetiring).port = s.port := rfl
@[simp] theorem closeRetiring_faults : (s.closeRetiring).faults = s.faults := rfl
@[simp] theorem closeRetiring_link : (s.closeRetiring).link = s.link := rfl
@[simp] theorem closeRetiring_alertLow : (s.closeRetiring).alertLow = s.alertLow := rfl

/-! `transferBanks` -/

@[simp] theorem transferBanks_pending : (s.transferBanks).pending = s.pending := rfl
@[simp] theorem transferBanks_resetAsserted : (s.transferBanks).resetAsserted = s.resetAsserted := rfl
@[simp] theorem transferBanks_requests : (s.transferBanks).requests = s.requests := rfl
@[simp] theorem transferBanks_table_entries : (s.transferBanks).table.entries = s.table.entries := rfl
@[simp] theorem transferBanks_table_activeCount : (s.transferBanks).table.activeCount = 0 := rfl
@[simp] theorem transferBanks_table_retiringCount :
    (s.transferBanks).table.retiringCount = s.table.activeCount :=
  rfl
@[simp] theorem transferBanks_table_offer : (s.transferBanks).table.offer = s.table.offer := rfl
@[simp] theorem transferBanks_gens_staging : (s.transferBanks).gens.staging = s.gens.staging := rfl
@[simp] theorem transferBanks_gens_active :
    (s.transferBanks).gens.active = { number := s.gens.active.number + 1, table := s.gens.staging } :=
  rfl
@[simp] theorem transferBanks_gens_retiring : (s.transferBanks).gens.retiring = some s.gens.active := rfl
@[simp] theorem transferBanks_stats_active :
    (s.transferBanks).stats.active = openRecord (s.gens.active.number + 1) s.gens.staging :=
  rfl
@[simp] theorem transferBanks_stats_retiring : (s.transferBanks).stats.retiring = some s.stats.active := rfl
@[simp] theorem transferBanks_stats_queue : (s.transferBanks).stats.queue = s.stats.queue := rfl
@[simp] theorem transferBanks_merge : (s.transferBanks).merge = s.merge := rfl
@[simp] theorem transferBanks_port : (s.transferBanks).port = s.port := rfl
@[simp] theorem transferBanks_faults : (s.transferBanks).faults = s.faults := rfl
@[simp] theorem transferBanks_link : (s.transferBanks).link = s.link := rfl
@[simp] theorem transferBanks_alertLow : (s.transferBanks).alertLow = s.alertLow := rfl

/-! `present` -/

@[simp] theorem present_pending (e : Entry) (r : Run) (t : Tag) (kind : Dir) (data : List WBeat) (side : Side) :
    (s.present e r t kind data side).pending = s.pending :=
  rfl
@[simp] theorem present_resetAsserted (e : Entry) (r : Run) (t : Tag) (kind : Dir) (data : List WBeat) (side : Side) :
    (s.present e r t kind data side).resetAsserted = s.resetAsserted :=
  rfl
@[simp] theorem present_requests (e : Entry) (r : Run) (t : Tag) (kind : Dir) (data : List WBeat) (side : Side) :
    (s.present e r t kind data side).requests = s.requests :=
  rfl
@[simp] theorem present_table (e : Entry) (r : Run) (t : Tag) (kind : Dir) (data : List WBeat) (side : Side) :
    (s.present e r t kind data side).table = s.table :=
  rfl
@[simp] theorem present_gens (e : Entry) (r : Run) (t : Tag) (kind : Dir) (data : List WBeat) (side : Side) :
    (s.present e r t kind data side).gens = s.gens :=
  rfl
@[simp] theorem present_stats (e : Entry) (r : Run) (t : Tag) (kind : Dir) (data : List WBeat) (side : Side) :
    (s.present e r t kind data side).stats = s.stats :=
  rfl
@[simp] theorem present_merge (e : Entry) (r : Run) (t : Tag) (kind : Dir) (data : List WBeat) (side : Side) :
    (s.present e r t kind data side).merge = s.merge :=
  rfl
@[simp] theorem present_port_tags (e : Entry) (r : Run) (t : Tag) (kind : Dir) (data : List WBeat) (side : Side) :
    (s.present e r t kind data side).port.tags =
      s.port.tags.set t (.bound e.no (some { kind := kind, deadline := s.newDeadline })) :=
  rfl
@[simp] theorem present_port_channel (e : Entry) (r : Run) (t : Tag) (kind : Dir) (data : List WBeat) (side : Side) :
    (s.present e r t kind data side).port.channel =
      some { kind := kind, tag := t, addr := e.runAddr r, beats := r.count, data := data } :=
  rfl
@[simp] theorem present_port_lastServed (e : Entry) (r : Run) (t : Tag) (kind : Dir) (data : List WBeat) (side : Side) :
    (s.present e r t kind data side).port.lastServed = side :=
  rfl
@[simp] theorem present_faults (e : Entry) (r : Run) (t : Tag) (kind : Dir) (data : List WBeat) (side : Side) :
    (s.present e r t kind data side).faults = s.faults :=
  rfl
@[simp] theorem present_link (e : Entry) (r : Run) (t : Tag) (kind : Dir) (data : List WBeat) (side : Side) :
    (s.present e r t kind data side).link = s.link :=
  rfl
@[simp] theorem present_alertLow (e : Entry) (r : Run) (t : Tag) (kind : Dir) (data : List WBeat) (side : Side) :
    (s.present e r t kind data side).alertLow = s.alertLow :=
  rfl

/-! `countIssued` -/

@[simp] theorem countIssued_pending (e : Entry) (r : Run) (b : List BuiltBeat) :
    (s.countIssued e r b).pending = s.pending :=
  rfl
@[simp] theorem countIssued_resetAsserted (e : Entry) (r : Run) (b : List BuiltBeat) :
    (s.countIssued e r b).resetAsserted = s.resetAsserted :=
  rfl
@[simp] theorem countIssued_requests (e : Entry) (r : Run) (b : List BuiltBeat) :
    (s.countIssued e r b).requests = s.requests :=
  rfl
@[simp] theorem countIssued_table (e : Entry) (r : Run) (b : List BuiltBeat) :
    (s.countIssued e r b).table = s.table :=
  rfl
@[simp] theorem countIssued_gens (e : Entry) (r : Run) (b : List BuiltBeat) :
    (s.countIssued e r b).gens = s.gens :=
  rfl
@[simp] theorem countIssued_stats (e : Entry) (r : Run) (b : List BuiltBeat) :
    (s.countIssued e r b).stats = s.stats.addTo e.bound (issueBeats (s.tableOf e.bound) (e.runClaims r) b) :=
  rfl
@[simp] theorem countIssued_merge (e : Entry) (r : Run) (b : List BuiltBeat) :
    (s.countIssued e r b).merge = s.merge :=
  rfl
@[simp] theorem countIssued_port (e : Entry) (r : Run) (b : List BuiltBeat) :
    (s.countIssued e r b).port = s.port :=
  rfl
@[simp] theorem countIssued_faults (e : Entry) (r : Run) (b : List BuiltBeat) :
    (s.countIssued e r b).faults = s.faults :=
  rfl
@[simp] theorem countIssued_link (e : Entry) (r : Run) (b : List BuiltBeat) :
    (s.countIssued e r b).link = s.link :=
  rfl
@[simp] theorem countIssued_alertLow (e : Entry) (r : Run) (b : List BuiltBeat) :
    (s.countIssued e r b).alertLow = s.alertLow :=
  rfl

/-! `release` -/

@[simp] theorem release_pending (n : EntryNo) : (s.release n).pending = s.pending := rfl
@[simp] theorem release_resetAsserted (n : EntryNo) : (s.release n).resetAsserted = s.resetAsserted := rfl
@[simp] theorem release_requests (n : EntryNo) : (s.release n).requests = s.requests := rfl
@[simp] theorem release_table_entries (n : EntryNo) :
    (s.release n).table.entries =
      (s.table.entries.filter (fun e => decide (e.no ≠ n))).map (Entry.unblock n) :=
  rfl
@[simp] theorem release_table_activeCount (n : EntryNo) :
    (s.release n).table.activeCount = s.table.activeCount :=
  rfl
@[simp] theorem release_table_retiringCount (n : EntryNo) :
    (s.release n).table.retiringCount = s.table.retiringCount :=
  rfl
@[simp] theorem release_table_offer (n : EntryNo) : (s.release n).table.offer = s.table.offer := rfl
@[simp] theorem release_gens (n : EntryNo) : (s.release n).gens = s.gens := rfl
@[simp] theorem release_stats (n : EntryNo) : (s.release n).stats = s.stats := rfl
@[simp] theorem release_merge (n : EntryNo) : (s.release n).merge = s.merge := rfl
@[simp] theorem release_port (n : EntryNo) : (s.release n).port = s.port := rfl
@[simp] theorem release_faults (n : EntryNo) : (s.release n).faults = s.faults := rfl
@[simp] theorem release_link (n : EntryNo) : (s.release n).link = s.link := rfl
@[simp] theorem release_alertLow (n : EntryNo) : (s.release n).alertLow = s.alertLow := rfl

end State
end Sys2Proof.Machine
end

