-- ==== Sys2Proof/Laws/Base.lean ====
section
/-!
SUPPORT. The spec lemmas of the searches and fixed-length stores under every operation: the lowest free
entry, tag and merge slot, a live entry by its number, one element of a mapped store.
-/

namespace Sys2Proof.Machine

/-! ## Fixed-length stores -/

@[simp] theorem mapStore_get {α β : Type} {n : Nat} (f : α → β) (v : Vector α n) (k : Fin n) :
    (mapStore f v)[k] = f v[k] := by
  rcases v with ⟨⟨l⟩, rfl⟩; simp [mapStore]

@[simp] theorem mapStore_getNat {α β : Type} {n : Nat} (f : α → β) (v : Vector α n) (i : Nat) (h : i < n) :
    (mapStore f v)[i] = f v[i] := mapStore_get f v ⟨i, h⟩

theorem store_ext {α : Type} {n : Nat} {v w : Vector α n} (h : ∀ k : Fin n, v[k] = w[k]) : v = w :=
  Vector.ext fun i hi => h ⟨i, hi⟩

theorem store_set_get {α : Type} {n : Nat} (v : Vector α n) (k j : Fin n) (x : α) :
    (v.set k x)[j] = if k = j then x else v[j] := by
  simp [Vector.getElem_set, Fin.ext_iff]

/-! ## First in an ascending list -/

theorem find_first {n : Nat} (l : List (Fin n)) (hs : l.Pairwise (· < ·)) (ha : ∀ k, k ∈ l) (p : Fin n → Bool)
    (k : Fin n) : l.find? p = some k ↔ p k = true ∧ ∀ j < k, p j = false := by
  rw [List.find?_eq_some_iff_append]
  constructor
  · rintro ⟨hk, as, bs, rfl, h⟩
    refine ⟨hk, fun j hj => ?_⟩
    have hmem := ha j
    rw [List.mem_append, List.mem_cons] at hmem
    rcases hmem with hm | rfl | hm
    · simpa using h j hm
    · exact absurd hj (lt_irrefl _)
    · have := (List.pairwise_cons.1 (List.pairwise_append.1 hs).2.1).1 j hm
      exact absurd hj (not_lt.2 this.le)
  · rintro ⟨hk, h⟩
    obtain ⟨as, bs, rfl⟩ := List.append_of_mem (ha k)
    refine ⟨hk, as, bs, rfl, fun a hm => ?_⟩
    simpa using h a ((List.pairwise_append.1 hs).2.2 a hm k (by simp))

theorem find_none {n : Nat} (l : List (Fin n)) (ha : ∀ k, k ∈ l) (p : Fin n → Bool) :
    l.find? p = none ↔ ∀ k, p k = false := by
  simp [List.find?_eq_none, ha]

theorem sixteen_all : ∀ k, k ∈ Config.sixteen := by decide
theorem sixteen_rise : Config.sixteen.Pairwise (· < ·) := by decide
theorem eightSlots_all : ∀ k, k ∈ Config.eightSlots := by decide
theorem eightSlots_rise : Config.eightSlots.Pairwise (· < ·) := by decide
theorem fourMergeSlots_all : ∀ k, k ∈ Config.fourMergeSlots := by decide
theorem fourMergeSlots_rise : Config.fourMergeSlots.Pairwise (· < ·) := by decide

theorem isFree_iff (x : TagState) : x.isFree = true ↔ x = .free := by cases x <;> simp [TagState.isFree]
theorem isFree_eq_false (x : TagState) : x.isFree = false ↔ x ≠ .free := by cases x <;> simp [TagState.isFree]
theorem isOrphaned_iff (x : TagState) : x.isOrphaned = true ↔ ∃ o, x = .orphaned o := by
  cases x <;> simp [TagState.isOrphaned]

namespace State
variable (s : State)

theorem freeTag_eq_some (k : Tag) :
    s.freeTag = some k ↔ s.port.tags[k] = .free ∧ ∀ j < k, s.port.tags[j] ≠ .free := by
  simp only [freeTag, find_first _ sixteen_rise sixteen_all, isFree_iff, isFree_eq_false]

theorem freeTag_eq_none : s.freeTag = none ↔ ∀ k : Tag, s.port.tags[k] ≠ .free := by
  simp only [freeTag, find_none _ sixteen_all, isFree_eq_false]

theorem freeMergeSlot_eq_some (m : MergeNo) :
    s.freeMergeSlot = some m ↔ s.merge[m] = none ∧ ∀ j < m, s.merge[j] ≠ none := by
  simp only [freeMergeSlot, find_first _ fourMergeSlots_rise fourMergeSlots_all, Option.isNone_iff_eq_none,
    Option.isNone_eq_false_iff, Option.isSome_iff_ne_none]

theorem freeMergeSlot_eq_none : s.freeMergeSlot = none ↔ ∀ m : MergeNo, s.merge[m] ≠ none := by
  simp only [freeMergeSlot, find_none _ fourMergeSlots_all, Option.isNone_eq_false_iff,
    Option.isSome_iff_ne_none]

theorem entry?_mem {n : EntryNo} {e : Entry} (h : s.entry? n = some e) : e ∈ s.table.entries ∧ e.no = n :=
  ⟨List.mem_of_find?_eq_some h, by simpa using List.find?_some h⟩

theorem entry?_eq_none (n : EntryNo) : s.entry? n = none ↔ ∀ e ∈ s.table.entries, e.no ≠ n := by
  simp [entry?, List.find?_eq_none]

theorem freeEntry_eq_some (n : EntryNo) :
    s.freeEntry = some n ↔ (∀ e ∈ s.table.entries, e.no ≠ n) ∧ ∀ j < n, ∃ e ∈ s.table.entries, e.no = j := by
  simp only [freeEntry, find_first _ sixteen_rise sixteen_all, Option.isNone_iff_eq_none, entry?_eq_none,
    Option.isNone_eq_false_iff, Option.isSome_iff_ne_none, ne_eq, not_forall, not_not, exists_prop]

theorem freeEntry_eq_none : s.freeEntry = none ↔ ∀ n : EntryNo, ∃ e ∈ s.table.entries, e.no = n := by
  simp only [freeEntry, find_none _ sixteen_all, Option.isNone_eq_false_iff, Option.isSome_iff_ne_none, ne_eq,
    entry?_eq_none, not_forall, not_not, exists_prop]

/-- A live entry is found by its number when numbers are distinct. -/
theorem entry?_of_mem (hd : (s.table.entries.map Entry.no).Nodup) {e : Entry} (he : e ∈ s.table.entries) :
    s.entry? e.no = some e := by
  cases h : s.entry? e.no with
  | none => exact absurd rfl ((s.entry?_eq_none _).1 h e he)
  | some x =>
    obtain ⟨hx, hn⟩ := s.entry?_mem h
    rw [List.inj_on_of_nodup_map hd hx he hn]

theorem alertLevel_iff :
    s.alertLevel = true ↔
      s.resetAsserted = false ∧
        ((s.faults ≠ [] ∧ s.link.mask.fault = false) ∨
          (s.stats.queue ≠ [] ∧ s.link.mask.summary = false) ∨ (s.HasOrphan ∧ s.link.mask.orphan = false)) := by
  have ho : s.orphanSource = true ↔ s.HasOrphan := by
    simp only [orphanSource, HasOrphan, List.any_eq_true, isOrphaned_iff, Vector.mem_toList_iff,
      Vector.mem_iff_getElem]
    constructor
    · rintro ⟨x, ⟨i, hi, rfl⟩, o, hx⟩; exact ⟨⟨i, hi⟩, o, hx⟩
    · rintro ⟨k, o, hx⟩; exact ⟨_, ⟨k.val, k.isLt, rfl⟩, o, hx⟩
  simp only [alertLevel, faultSource, summarySource, Bool.and_eq_true, Bool.or_eq_true, Bool.not_eq_true',
    ho, List.isEmpty_eq_false_iff, or_assoc]

/-- ALERT_N after it was recomputed follows its sources (R160). -/
theorem refreshAlert_follows : s.refreshAlert.AlertFollows := s.alertLevel_iff

/-- Recomputing a line that follows its sources changes nothing. -/
theorem refreshAlert_of_follows (h : s.AlertFollows) : s.refreshAlert = s := by
  have : s.alertLevel = s.alertLow := Bool.eq_iff_iff.2 (s.alertLevel_iff.trans h.symm)
  cases s; simp_all [refreshAlert]

end State

/-! ## Queues and statuses -/

theorem markNewest_length (q : List FaultRecord) : (markNewest q).length = q.length := by
  induction q using markNewest.induct <;> simp_all [markNewest]

theorem postRecord_bounded (q : List FaultRecord) (r : FaultRecord) (h : q.length ≤ 8) :
    (postRecord q r).length ≤ 8 := by
  unfold postRecord
  split
  · rename_i h'; simp only [Config.faultCapacity] at h'; simp; omega
  · rw [markNewest_length]; exact h

theorem postRecord_ne_nil (q : List FaultRecord) (r : FaultRecord) : postRecord q r ≠ [] := by
  unfold postRecord
  split
  · simp
  · rename_i h
    intro h'
    have := markNewest_length q
    simp [h', Config.faultCapacity] at this h
    omega

theorem fileSummary_bounded (q : List StatsRecord) (r : StatsRecord) (h : q.length ≤ 4) :
    (fileSummary q r).length ≤ 4 := by
  unfold fileSummary
  split
  · rename_i h'; simp only [Config.summaryCapacity] at h'; simp; omega
  · rename_i h'; simp only [Config.summaryCapacity] at h'; simp; omega

@[simp] theorem raise_done (st : TxStatus) : st.raise .done = st := by cases st <;> rfl
@[simp] theorem raise_fault (st : TxStatus) : st.raise .fault = .fault := by cases st <;> rfl

/-- The statistics records keep their shape under an addition that keeps it. -/
theorem addTo_shape (u : SummaryUnit) (b : Option Gen) (f : StatsRecord → StatsRecord)
    (hf : ∀ r, (f r).shape = r.shape) :
    (u.addTo b f).active.shape = u.active.shape ∧
      (u.addTo b f).retiring.map StatsRecord.shape = u.retiring.map StatsRecord.shape ∧
      (u.addTo b f).queue = u.queue := by
  unfold SummaryUnit.addTo
  split
  · exact ⟨hf _, rfl, rfl⟩
  · refine ⟨rfl, ?_, rfl⟩
    cases u.retiring with
    | none => rfl
    | some r => by_cases h : b = some r.gen <;> simp [h, hf]

end Sys2Proof.Machine
end

