-- ==== Sys2Proof/Laws/Schedule.lean ====
section
/-!
SUPPORT. What the takes, grants and offers inside a step can do: the candidates, the cases of one arbiter
choice, one grant and one offer, and the principle by which a property that each keeps is kept by `settle`
and by the acceptances that follow.
-/

namespace Sys2Proof.Machine

/-! ## Candidates -/

/-- The oldest element that a search finds, with what stands before and after it. -/
theorem find_split {α : Type} {l : List α} {p : α → Bool} {a : α} :
    l.find? p = some a ↔
      ∃ older younger, l = older ++ a :: younger ∧ p a = true ∧ ∀ x ∈ older, p x = false := by
  rw [List.find?_eq_some_iff_append]
  constructor
  · rintro ⟨h, as, bs, rfl, h'⟩; exact ⟨as, bs, rfl, h, fun x hx => by simpa using h' x hx⟩
  · rintro ⟨as, bs, rfl, h, h'⟩; exact ⟨h, as, bs, rfl, fun x hx => by simpa using h' x hx⟩

namespace State
variable (s : State)

theorem forwardCandidate_iff (f : Entry) :
    s.forwardCandidate = some f ↔
      ∃ older younger, s.table.entries = older ++ f :: younger ∧ f.state = .issuing ∧
        ∀ x ∈ older, x.state ≠ .issuing := by
  simp only [forwardCandidate, find_split, decide_eq_true_eq, decide_eq_false_iff_not, ne_eq]

theorem forwardCandidate_none : s.forwardCandidate = none ↔ ∀ e ∈ s.table.entries, e.state ≠ .issuing := by
  simp [forwardCandidate, List.find?_eq_none]

theorem waitingMerge_iff (e : Entry) (m : MergeNo) (w : MergeWork) :
    s.waitingMerge e = some (m, w) ↔ e.slot = some m ∧ s.merge[m] = some w ∧ w.phase.waits = true := by
  unfold waitingMerge
  cases e.slot with
  | none => simp
  | some j =>
    cases hw : s.merge[j] with
    | none =>
      simp only [hw, Option.some.injEq, reduceCtorEq, false_iff, not_and]
      rintro rfl h; rw [hw] at h; cases h
    | some v =>
      have key : (j = m ∧ v = w ∧ v.phase.waits = true) ↔
          (some j = some m ∧ s.merge[m] = some w ∧ w.phase.waits = true) := by
        constructor
        · rintro ⟨rfl, rfl, h⟩; exact ⟨rfl, hw, h⟩
        · rintro ⟨h, h', h''⟩
          injection h with h; subst h
          rw [hw] at h'; injection h' with h'; subst h'
          exact ⟨rfl, rfl, h''⟩
      rw [← key]
      cases hp : v.phase <;> simp [hp, hw, MergePhase.waits]

theorem waitingMerge_none (e : Entry) :
    s.waitingMerge e = none ↔ ∀ (m : MergeNo) w, e.slot = some m → s.merge[m] = some w → w.phase.waits = false := by
  rw [Option.eq_none_iff_forall_ne_some]
  constructor
  · intro h m w h1 h2
    by_contra h3
    exact h (m, w) ((s.waitingMerge_iff e m w).2 ⟨h1, h2, by simpa using h3⟩)
  · rintro h ⟨m, w⟩ h1
    obtain ⟨h1, h2, h3⟩ := (s.waitingMerge_iff e m w).1 h1
    rw [h m w h1 h2] at h3; cases h3

theorem mergeCandidate_iff (e : Entry) (m : MergeNo) (w : MergeWork) :
    s.mergeCandidate = some (e, m, w) ↔
      ∃ older younger, s.table.entries = older ++ e :: younger ∧ e.slot = some m ∧ s.merge[m] = some w ∧
        w.phase.waits = true ∧
          ∀ x ∈ older, ∀ (j : MergeNo) v, x.slot = some j → s.merge[j] = some v → v.phase.waits = false := by
  simp only [mergeCandidate, List.findSome?_eq_some_iff, Option.map_eq_some_iff, Prod.mk.injEq,
    Option.map_eq_none_iff, waitingMerge_none]
  constructor
  · rintro ⟨as, x, bs, hl, ⟨⟨j, v⟩, hx, rfl, rfl, rfl⟩, hn⟩
    obtain ⟨h1, h2, h3⟩ := (s.waitingMerge_iff _ _ _).1 hx
    exact ⟨as, bs, hl, h1, h2, h3, hn⟩
  · rintro ⟨as, bs, hl, h1, h2, h3, hn⟩
    exact ⟨as, e, bs, hl, ⟨(m, w), (s.waitingMerge_iff _ _ _).2 ⟨h1, h2, h3⟩, rfl, rfl, rfl⟩, hn⟩

theorem mergeCandidate_none :
    s.mergeCandidate = none ↔
      ∀ e ∈ s.table.entries, ∀ (m : MergeNo) w, e.slot = some m → s.merge[m] = some w → w.phase.waits = false := by
  simp only [mergeCandidate, List.findSome?_eq_none_iff, Option.map_eq_none_iff, waitingMerge_none]

end State

/-! ## The four takes -/

theorem newDeadline_eq (s : State) :
    s.newDeadline = if s.link.timeout = 0 then none else some s.link.timeout.toNat := by
  have : s.link.timeout.toNat = 0 ↔ s.link.timeout = 0 :=
    ⟨fun h => BitVec.eq_of_toNat_eq h, fun h => by simp [h]⟩
  simp [State.newDeadline, this]

theorem takePlain_read (s : State) (e : Entry) (k : Tag) (r : Run) (hk : e.tag = some k) (hr : e.run = some r)
    (hd : e.dir = .read) :
    takePlain s e = (s.present e r k .read [] .forward).setEntry { e with state := .outstanding } := by
  simp only [takePlain, hk, hr, hd]

theorem takePlain_write (s : State) (e : Entry) (k : Tag) (r : Run) (hk : e.tag = some k) (hr : e.run = some r)
    (hd : e.dir = .write) :
    takePlain s e =
      ((s.present e r k .write ((conditionRun (s.tableOf e.bound) e r).map BuiltBeat.beat) .forward).setEntry
          { e with state := .outstanding }).countIssued e r (conditionRun (s.tableOf e.bound) e r) := by
  simp only [takePlain, hk, hr, hd]

theorem takeMerge_read (s : State) (e : Entry) (k : Tag) (r : Run) (m : MergeNo) (w : MergeWork)
    (hk : e.tag = some k) (hr : e.run = some r) (hp : w.phase = .readWait) :
    takeMerge s e m w = (s.present e r k .read [] .merge).setMerge m (some { w with phase := .readOut }) := by
  simp only [takeMerge, hk, hr, hp]

theorem takeMerge_write (s : State) (e : Entry) (k : Tag) (r : Run) (m : MergeNo) (w : MergeWork)
    (hk : e.tag = some k) (hr : e.run = some r) (hp : w.phase = .writeWait) :
    takeMerge s e m w =
      ((s.present e r k .write (w.merged.map BuiltBeat.beat) .merge).setMerge m
          (some { w with phase := .writeOut, merged := [] })).countIssued e r w.merged := by
  simp only [takeMerge, hk, hr, hp]

/-! ## One choice, one grant, one offer -/

/-- One choice of the arbiter: nothing, a plain entry's take, or a merge slot's take, each on a free
channel. -/
theorem arbitrate_cases (s : State) :
    arbitrate s = s ∨
      (∃ e, s.port.channel = none ∧ s.forwardCandidate = some e ∧ arbitrate s = takePlain s e) ∨
        ∃ e m w, s.port.channel = none ∧ s.mergeCandidate = some (e, m, w) ∧ arbitrate s = takeMerge s e m w := by
  unfold arbitrate
  cases hc : s.port.channel with
  | some d => exact .inl rfl
  | none =>
    cases hf : s.forwardCandidate with
    | none =>
      rcases hm : s.mergeCandidate with _ | ⟨e, m, w⟩
      · exact .inl rfl
      · exact .inr (.inr ⟨e, m, w, rfl, rfl, rfl⟩)
    | some f =>
      rcases hm : s.mergeCandidate with _ | ⟨e, m, w⟩
      · exact .inr (.inl ⟨f, rfl, rfl, rfl⟩)
      · cases hl : s.port.lastServed with
        | merge => exact .inr (.inl ⟨f, rfl, rfl, by simp⟩)
        | forward => exact .inr (.inr ⟨e, m, w, rfl, rfl, by simp⟩)

theorem arbitrate_busy (s : State) (h : s.port.channel ≠ none) : arbitrate s = s := by
  obtain ⟨d, hd⟩ := Option.ne_none_iff_exists'.1 h
  simp [arbitrate, hd]

theorem arbitrate_idle (s : State) (hf : s.forwardCandidate = none) (hm : s.mergeCandidate = none) :
    arbitrate s = s := by
  unfold arbitrate; rw [hf, hm]; cases s.port.channel <;> rfl

theorem canProceed_iff (s : State) (e : Entry) :
    s.canProceed e = true ↔ e.state = .waiting ∧ (e.merge = true → ∃ m : MergeNo, s.merge[m] = none) := by
  have : s.freeMergeSlot.isSome = true ↔ ∃ m : MergeNo, s.merge[m] = none := by
    rw [Option.isSome_iff_ne_none, ne_eq, s.freeMergeSlot_eq_none]; simp
  simp only [State.canProceed, Bool.and_eq_true, decide_eq_true_eq, Bool.or_eq_true, Bool.not_eq_true', this]
  cases e.merge <;> simp

/-- One grant: the lowest FREE tag, to the oldest entry that can proceed. -/
theorem grantOne_iff (s t : State) :
    grantOne s = some t ↔
      ∃ (k : Tag) (older : List Entry) (e : Entry) (younger : List Entry), s.freeTag = some k ∧
        s.table.entries = older ++ e :: younger ∧ s.canProceed e = true ∧
          (∀ x ∈ older, s.canProceed x = false) ∧ t = grantTo s e k := by
  unfold grantOne
  cases hk : s.freeTag with
  | none => simp
  | some k =>
    cases he : s.table.entries.find? s.canProceed with
    | none =>
      simp only [reduceCtorEq, false_iff, not_exists, not_and]
      rintro k' as e bs _ hl hp
      rw [List.find?_eq_none] at he
      exact absurd hp (he e (by rw [hl]; simp))
    | some e =>
      obtain ⟨as, bs, hl, hp, ho⟩ := find_split.1 he
      constructor
      · rintro h; injection h with h; exact ⟨k, as, e, bs, rfl, hl, hp, ho, h.symm⟩
      · rintro ⟨k', as', e', bs', hk', hl', hp', ho', rfl⟩
        injection hk' with hk'; subst hk'
        have : s.table.entries.find? s.canProceed = some e' := find_split.2 ⟨as', bs', hl', hp', ho'⟩
        rw [he] at this; injection this with this; rw [this]

theorem grantOne_none (s : State) :
    grantOne s = none ↔ s.freeTag = none ∨ ∀ e ∈ s.table.entries, s.canProceed e = false := by
  unfold grantOne
  cases hk : s.freeTag with
  | none => simp
  | some k =>
    cases he : s.table.entries.find? s.canProceed with
    | none => rw [List.find?_eq_none] at he; simpa using he
    | some e =>
      simp only [reduceCtorEq, false_or, false_iff, not_forall]
      exact ⟨e, List.mem_of_find?_eq_some he, by simpa using List.find?_some he⟩

/-- The grant to a plain entry, and to a merge entry with its merge slot. -/
theorem grantTo_plain (s : State) (e : Entry) (k : Tag) (h : e.merge = false) :
    grantTo s e k = (s.setEntry { e with state := .issuing, tag := some k }).setTag k (.bound e.no none) := by
  simp [grantTo, h]

theorem grantTo_merge (s : State) (e : Entry) (k : Tag) (m : MergeNo) (h : e.merge = true)
    (hm : s.freeMergeSlot = some m) :
    grantTo s e k =
      ((s.setEntry { e with state := .merging, tag := some k, slot := some m }).setTag k
          (.bound e.no none)).setMerge m
        (some { entry := e.no, phase := .readWait, oldData := [], merged := [] }) := by
  simp [grantTo, h, hm]

theorem deliverable_iff (older : List Entry) (e : Entry) :
    deliverable older e = true ↔ e.state = .complete ∧ ∀ x ∈ older, x.id ≠ e.id := by
  simp [deliverable]

/-- The oldest entry whose response can be delivered. -/
theorem oldestDeliverable_iff (l : List Entry) (e : Entry) :
    oldestDeliverable [] l = some e ↔
      ∃ older younger, l = older ++ e :: younger ∧ (e.state = .complete ∧ ∀ x ∈ older, x.id ≠ e.id) ∧
        ∀ as x bs, older = as ++ x :: bs → ¬ (x.state = .complete ∧ ∀ y ∈ as, y.id ≠ x.id) := by
  have gen : ∀ (l before : List Entry),
      oldestDeliverable before l = some e ↔
        ∃ older younger, l = older ++ e :: younger ∧
          (e.state = .complete ∧ ∀ x ∈ older.reverse ++ before, x.id ≠ e.id) ∧
            ∀ as x bs, older = as ++ x :: bs →
              ¬ (x.state = .complete ∧ ∀ y ∈ as.reverse ++ before, y.id ≠ x.id) := by
    intro l
    induction l with
    | nil => intro before; simp [oldestDeliverable]
    | cons a l ih =>
      intro before
      unfold oldestDeliverable
      split
      · rename_i hd
        rw [deliverable_iff] at hd
        constructor
        · intro h; injection h with h; subst h
          exact ⟨[], l, rfl, by simpa using hd, by simp⟩
        · rintro ⟨older, younger, hl, he, hn⟩
          rcases older with _ | ⟨b, older⟩
          · simp at hl; rw [hl.1]
          · simp only [List.cons_append, List.cons.injEq] at hl
            exact absurd (by simpa using hl.1 ▸ hd) (hn [] b older rfl)
      · rename_i hd
        rw [deliverable_iff] at hd
        rw [ih]
        constructor
        · rintro ⟨older, younger, rfl, he, hn⟩
          refine ⟨a :: older, younger, rfl, by simpa using he, fun as x bs h => ?_⟩
          rcases as with _ | ⟨c, as⟩
          · simp only [List.nil_append, List.cons.injEq] at h
            rw [← h.1]; simpa using hd
          · simp only [List.cons_append, List.cons.injEq] at h
            rw [← h.1]; simpa using hn as x bs h.2
        · rintro ⟨older, younger, hl, he, hn⟩
          rcases older with _ | ⟨b, older⟩
          · simp only [List.nil_append, List.cons.injEq] at hl
            rw [hl.1] at hd; exact absurd (by simpa using he) hd
          · simp only [List.cons_append, List.cons.injEq] at hl
            refine ⟨older, younger, hl.2, by rw [hl.1]; simpa using he, fun as x bs h => ?_⟩
            have := hn (b :: as) x bs (by rw [h]; rfl)
            rw [hl.1]; simpa using this
  simpa using gen l []

theorem oldestDeliverable_none (l : List Entry) :
    oldestDeliverable [] l = none ↔
      ∀ older e younger, l = older ++ e :: younger → ¬ (e.state = .complete ∧ ∀ x ∈ older, x.id ≠ e.id) := by
  have gen : ∀ (l before : List Entry),
      oldestDeliverable before l = none ↔
        ∀ older e younger, l = older ++ e :: younger →
          ¬ (e.state = .complete ∧ ∀ x ∈ older.reverse ++ before, x.id ≠ e.id) := by
    intro l
    induction l with
    | nil => intro before; simp [oldestDeliverable]
    | cons a l ih =>
      intro before
      unfold oldestDeliverable
      split
      · rename_i hd
        rw [deliverable_iff] at hd
        simp only [reduceCtorEq, false_iff, not_forall]
        exact ⟨[], a, l, rfl, by simpa using hd⟩
      · rename_i hd
        rw [deliverable_iff] at hd
        rw [ih]
        constructor
        · intro h older e younger hl
          rcases older with _ | ⟨b, older⟩
          · simp only [List.nil_append, List.cons.injEq] at hl
            rw [← hl.1]; simpa using hd
          · simp only [List.cons_append, List.cons.injEq] at hl
            rw [← hl.1]; simpa using h older e younger hl.2
        · intro h older e younger hl
          have := h (a :: older) e younger (by rw [hl]; rfl)
          simpa using this
  simpa using gen l []

theorem offerNext_busy (s : State) (h : s.table.offer ≠ none) : offerNext s = s := by
  obtain ⟨o, ho⟩ := Option.ne_none_iff_exists'.1 h
  simp [offerNext, ho]

theorem offerNext_free (s : State) (h : s.table.offer = none) :
    offerNext s =
      s.setOffer
        ((oldestDeliverable [] s.table.entries).map (fun e => { entry := e.no, response := e.response })) := by
  simp [offerNext, h]

/-! ## Properties kept -/

theorem grants_keeps (P : State → Prop) (ha : ∀ s, P s → P (arbitrate s))
    (hg : ∀ s t, P s → grantOne s = some t → P t) (n : Nat) (s : State) (h : P s) : P (grants n s) := by
  induction n generalizing s with
  | zero => exact h
  | succ n ih =>
    unfold grants
    cases hs : grantOne s with
    | none => exact h
    | some t => exact ih _ (ha t (hg s t h hs))

/-- A property that every choice, grant and offer keeps holds after `settle`. -/
theorem settle_keeps (P : State → Prop) (ha : ∀ s, P s → P (arbitrate s))
    (hg : ∀ s t, P s → grantOne s = some t → P t) (ho : ∀ s, P s → P (offerNext s)) (s : State) (h : P s) :
    P (settle s) :=
  ho _ (grants_keeps P ha hg 16 _ (ha s h))

/-- The same from the takes: what a take of a candidate on a free channel, a grant and an offer keep. -/
theorem settle_keeps_of (P : State → Prop)
    (hf : ∀ s e, P s → s.port.channel = none → s.forwardCandidate = some e → P (takePlain s e))
    (hm : ∀ s e m w, P s → s.port.channel = none → s.mergeCandidate = some (e, m, w) → P (takeMerge s e m w))
    (hg : ∀ s t, P s → grantOne s = some t → P t) (ho : ∀ s, P s → P (offerNext s)) (s : State) (h : P s) :
    P (settle s) := by
  refine settle_keeps P (fun s h => ?_) hg ho s h
  rcases arbitrate_cases s with h' | ⟨e, hc, he, h'⟩ | ⟨e, m, w, hc, he, h'⟩
  · rw [h']; exact h
  · rw [h']; exact hf s e h hc he
  · rw [h']; exact hm s e m w h hc he

/-- Nothing to take and nothing to grant: `settle` only makes the next offer. -/
theorem settle_idle (s : State) (hf : s.forwardCandidate = none) (hm : s.mergeCandidate = none)
    (hg : grantOne s = none) : settle s = offerNext s := by
  unfold settle; rw [arbitrate_idle s hf hm]; unfold grants; rw [hg]

/-- A property that every acceptance followed by `settle` keeps holds after the acceptances. -/
theorem drain_keeps (P : State → Prop)
    (hr : ∀ (s : State) (n : EntryNo) (r : Request) (rest : List Request), P s → s.requests = r :: rest →
      s.resetAsserted = false → s.freeEntry = some n → P (settle (accept { s with requests := rest } n r)))
    (k : Nat) (s : State) (h : P s) : P (drainRequests k s) := by
  induction k generalizing s with
  | zero => exact h
  | succ k ih =>
    unfold drainRequests
    split
    · exact h
    · rename_i r rest hq
      split
      · exact h
      · rename_i ha
        split
        · exact h
        · rename_i n hn
          exact ih _ (hr s n r rest h hq (by simpa using ha) hn)

/-- No request is accepted in reset, with no request, or with no entry free. -/
theorem drain_idle (k : Nat) (s : State) (h : s.requests = [] ∨ s.resetAsserted = true ∨ s.freeEntry = none) :
    drainRequests k s = s := by
  cases k with
  | zero => rfl
  | succ k =>
    unfold drainRequests
    split
    · rfl
    · rename_i r rest hq
      rcases h with h | h | h
      · rw [h] at hq; cases hq
      · simp [h]
      · split
        · rfl
        · split
          · rfl
          · rename_i n hn; rw [h] at hn; cases hn

/-! ## What each of them leaves as it is -/

/-- The fields that takes, grants and offers never change. -/
def State.Unmoved (s t : State) : Prop :=
  t.pending = s.pending ∧ t.resetAsserted = s.resetAsserted ∧ t.requests = s.requests ∧ t.gens = s.gens ∧
    t.faults = s.faults ∧ t.link = s.link ∧ t.alertLow = s.alertLow ∧ t.stats.queue = s.stats.queue ∧
    t.stats.active.shape = s.stats.active.shape ∧
    t.stats.retiring.map StatsRecord.shape = s.stats.retiring.map StatsRecord.shape ∧
    t.table.activeCount = s.table.activeCount ∧ t.table.retiringCount = s.table.retiringCount

theorem State.Unmoved.refl (s : State) : s.Unmoved s :=
  ⟨rfl, rfl, rfl, rfl, rfl, rfl, rfl, rfl, rfl, rfl, rfl, rfl⟩

theorem State.Unmoved.trans {s t u : State} (h : s.Unmoved t) (h' : t.Unmoved u) : s.Unmoved u := by
  obtain ⟨a1, a2, a3, a4, a5, a6, a7, a8, a9, a10, a11, a12⟩ := h
  obtain ⟨b1, b2, b3, b4, b5, b6, b7, b8, b9, b10, b11, b12⟩ := h'
  exact ⟨b1.trans a1, b2.trans a2, b3.trans a3, b4.trans a4, b5.trans a5, b6.trans a6, b7.trans a7,
    b8.trans a8, b9.trans a9, b10.trans a10, b11.trans a11, b12.trans a12⟩

/-- The additions of a taken write keep a record's shape. -/
theorem issueBeats_shape (t : WindowTable) (claims : List Claim) (beats : List BuiltBeat) (r : StatsRecord) :
    (issueBeats t claims beats r).shape = r.shape := by
  unfold issueBeats
  generalize claims.zip beats = l
  induction l generalizing r with
  | nil => rfl
  | cons c l ih =>
    rw [List.foldl_cons, ih]
    unfold issueBeat
    split
    · rcases c with ⟨n | _ | _, b⟩
      · simp only [StatsRecord.shape, StatsRecord.onSlot, List.map_map, Prod.mk.injEq, true_and]
        apply List.map_congr_left
        intro p _
        by_cases h : p.slot = n <;> simp [h, SlotPart.issue]
      · rfl
      · rfl
    · rfl

/-- The additions of an acceptance keep a record's shape. -/
theorem acceptBeats_shape (t : WindowTable) (dir : Dir) (claims : List Claim) (r : StatsRecord) :
    (acceptBeats t dir claims r).shape = r.shape := by
  have slot : ∀ (r : StatsRecord) (n : SlotNo) (f : SlotPart → SlotPart),
      (∀ p, (f p).slot = p.slot ∧ (f p).mode = p.mode) → (r.onSlot n f).shape = r.shape := by
    intro r n f hf
    simp only [StatsRecord.shape, StatsRecord.onSlot, List.map_map, Prod.mk.injEq, true_and]
    apply List.map_congr_left
    intro p _
    by_cases h : p.slot = n <;> simp [h, hf p]
  unfold acceptBeats
  induction claims generalizing r with
  | nil => rfl
  | cons c l ih =>
    rw [List.foldl_cons, ih]
    unfold acceptBeat
    split
    · rfl
    · rfl
    · split
      · exact slot _ _ _ fun _ => ⟨rfl, rfl⟩
      · split
        · exact slot _ _ _ fun _ => ⟨rfl, rfl⟩
        · rfl
      all_goals rfl

theorem countIssued_unmoved (s : State) (e : Entry) (r : Run) (beats : List BuiltBeat) :
    s.Unmoved (s.countIssued e r beats) := by
  obtain ⟨h1, h2, h3⟩ := addTo_shape s.stats e.bound _ (issueBeats_shape (s.tableOf e.bound) (e.runClaims r) beats)
  exact ⟨rfl, rfl, rfl, rfl, rfl, rfl, rfl, h3, h1, h2, rfl, rfl⟩

theorem takePlain_unmoved (s : State) (e : Entry) : s.Unmoved (takePlain s e) := by
  unfold takePlain
  split
  · split
    · exact ⟨rfl, rfl, rfl, rfl, rfl, rfl, rfl, rfl, rfl, rfl, rfl, rfl⟩
    · exact State.Unmoved.trans (t := (s.present e _ _ .write _ .forward).setEntry _)
        ⟨rfl, rfl, rfl, rfl, rfl, rfl, rfl, rfl, rfl, rfl, rfl, rfl⟩ (countIssued_unmoved _ _ _ _)
  · exact .refl s
  · exact .refl s

theorem takeMerge_unmoved (s : State) (e : Entry) (m : MergeNo) (w : MergeWork) : s.Unmoved (takeMerge s e m w) := by
  unfold takeMerge
  split
  · split
    · exact ⟨rfl, rfl, rfl, rfl, rfl, rfl, rfl, rfl, rfl, rfl, rfl, rfl⟩
    · exact State.Unmoved.trans (t := (s.present e _ _ .write _ .merge).setMerge _ _)
        ⟨rfl, rfl, rfl, rfl, rfl, rfl, rfl, rfl, rfl, rfl, rfl, rfl⟩ (countIssued_unmoved _ _ _ _)
    · exact .refl s
    · exact .refl s
  · exact .refl s
  · exact .refl s

theorem grantOne_unmoved (s t : State) (h : grantOne s = some t) : s.Unmoved t := by
  obtain ⟨k, as, e, bs, -, -, -, -, rfl⟩ := (grantOne_iff s t).1 h
  unfold grantTo
  split
  · split
    · exact .refl s
    · exact ⟨rfl, rfl, rfl, rfl, rfl, rfl, rfl, rfl, rfl, rfl, rfl, rfl⟩
  · exact ⟨rfl, rfl, rfl, rfl, rfl, rfl, rfl, rfl, rfl, rfl, rfl, rfl⟩

theorem offerNext_unmoved (s : State) : s.Unmoved (offerNext s) := by
  unfold offerNext
  split
  · exact .refl s
  · exact ⟨rfl, rfl, rfl, rfl, rfl, rfl, rfl, rfl, rfl, rfl, rfl, rfl⟩

/-- What follows inside a step leaves the banks, the queues, the link and the counts as they are. -/
theorem settle_unmoved (s : State) : s.Unmoved (settle s) :=
  settle_keeps_of (fun t => s.Unmoved t) (fun _ _ h _ _ => h.trans (takePlain_unmoved _ _))
    (fun _ _ _ _ h _ _ => h.trans (takeMerge_unmoved _ _ _ _))
    (fun _ _ h hg => h.trans (grantOne_unmoved _ _ hg)) (fun _ h => h.trans (offerNext_unmoved _)) s (.refl s)

end Sys2Proof.Machine
end

