-- ==== Sys2Proof/Laws/Path.lean ====
section
/-!
SUPPORT. How the agreement of entries, tags and merge slots survives a change: of one entry with its tag
and merge slot, of tags that are not BOUND, and what it says of the holder of a tag or slot.
-/

namespace Sys2Proof.Machine

/-! ## Entries replaced by number -/

theorem setEntry_mem {s : State} {e e' x : Entry}
    (h : x ∈ s.table.entries.map (fun y => if y.no = e.no then e' else y)) :
    x = e' ∨ (x ∈ s.table.entries ∧ x.no ≠ e.no) := by
  obtain ⟨y, hy, rfl⟩ := List.mem_map.1 h
  by_cases hn : y.no = e.no
  · left; simp [hn]
  · right; simp [hn, hy]

theorem setEntry_nos (l : List Entry) {e e' : Entry} (hno : e'.no = e.no) :
    (l.map (fun y => if y.no = e.no then e' else y)).map Entry.no = l.map Entry.no := by
  rw [List.map_map]
  apply List.map_congr_left
  intro y _
  by_cases h : y.no = e.no <;> simp [h, hno]

namespace State.PathSound
variable {s t : State}

/-- Live entries with one number are one entry. -/
theorem same (h : s.PathSound) {x y : Entry} (hx : x ∈ s.table.entries) (hy : y ∈ s.table.entries)
    (hn : x.no = y.no) : x = y :=
  List.inj_on_of_nodup_map h.distinct hx hy hn

/-- The entry that holds a tag, with what is in flight on it. -/
theorem flight (h : s.PathSound) {e : Entry} (he : e ∈ s.table.entries) {k : Tag} (hk : e.tag = some k) :
    ∃ fl, s.port.tags[k] = .bound e.no fl ∧ s.FlightFits e fl := by
  obtain ⟨fl, hfl⟩ := h.holders e he k hk
  obtain ⟨x, hx, hn, -, hf⟩ := h.tags k _ _ hfl
  obtain rfl := h.same hx he hn
  exact ⟨fl, hfl, hf⟩

/-- The merge slot an entry holds names it. -/
theorem work (h : s.PathSound) {e : Entry} (he : e ∈ s.table.entries) {m : MergeNo} (hm : e.slot = some m) :
    ∃ w k fl, s.merge[m] = some w ∧ w.entry = e.no ∧ e.tag = some k ∧ s.port.tags[k] = .bound e.no fl ∧
      fl.map Flight.kind = w.phase.inFlight := by
  have hs := h.entries e he
  have hst : e.state = .merging := hs.slot.1 (by simp [hm])
  have ht : e.tag.isSome = true := by rw [hs.tag, hst]; rfl
  obtain ⟨k, hk⟩ := Option.isSome_iff_exists.1 ht
  obtain ⟨fl, hb, hf⟩ := h.flight he hk
  simp only [State.FlightFits, hst] at hf
  obtain ⟨j, w, h1, h2, h3, h4⟩ := hf
  rw [hm] at h1; injection h1 with h1; subst h1
  exact ⟨w, k, fl, h2, h3, hk, hb, h4⟩

/-- The holder of a BOUND tag, by its number. -/
theorem holder (h : s.PathSound) {k : Tag} {n : EntryNo} {fl : Option Flight} (hk : s.port.tags[k] = .bound n fl) :
    ∃ e, s.entry? n = some e ∧ e ∈ s.table.entries ∧ e.no = n ∧ e.tag = some k ∧ s.FlightFits e fl ∧
      ∃ r, e.run = some r := by
  obtain ⟨e, he, rfl, ht, hf⟩ := h.tags k n fl hk
  refine ⟨e, s.entry?_of_mem h.distinct he, he, rfl, ht, hf, ?_⟩
  have hs := h.entries e he
  have : e.state ≠ .complete := by
    intro hc
    have := hs.tag
    rw [ht, hc] at this
    cases this
  exact Option.ne_none_iff_exists'.1 (hs.run this)

/-- The agreement survives the change of one entry with the tag and merge slot it holds, takes or gives
up. -/
theorem update (h : s.PathSound) {e e' : Entry} {k : Tag} {ts : TagState} (he : e ∈ s.table.entries)
    (hno : e'.no = e.no)
    (hes : t.table.entries = s.table.entries.map (fun x => if x.no = e.no then e' else x))
    (hts : t.port.tags = s.port.tags.set k ts) (hsound : e'.Sound)
    (hk : e.tag = some k ∨ (e.tag = none ∧ ∀ n fl, s.port.tags[k] ≠ .bound n fl))
    (hk' : (e'.tag = some k ∧ ∃ fl, ts = .bound e.no fl ∧ t.FlightFits e' fl) ∨
      (e'.tag = none ∧ ∀ n fl, ts ≠ .bound n fl))
    (hm : (t.merge = s.merge ∧ e'.slot = e.slot) ∨
      ∃ (m : MergeNo) (wo : Option MergeWork), t.merge = s.merge.set m wo ∧ (e.slot = some m ∨ e.slot = none ∧ s.merge[m] = none) ∧
        ((e'.slot = some m ∧ ∃ w, wo = some w ∧ w.entry = e.no) ∨ e'.slot = none ∧ wo = none)) :
    t.PathSound := by
  have old : ∀ x ∈ s.table.entries, x.no ≠ e.no → x ∈ t.table.entries := by
    intro x hx hn
    rw [hes, List.mem_map]
    exact ⟨x, hx, by simp [hn]⟩
  have new : e' ∈ t.table.entries := by
    rw [hes, List.mem_map]
    exact ⟨e, he, by simp⟩
  have split : ∀ x ∈ t.table.entries, x = e' ∨ (x ∈ s.table.entries ∧ x.no ≠ e.no) := by
    intro x hx
    rw [hes] at hx
    exact setEntry_mem hx
  have other : ∀ x ∈ s.table.entries, x.no ≠ e.no → ∀ fl, s.FlightFits x fl → t.FlightFits x fl := by
    intro x hx hn fl hf
    unfold State.FlightFits at hf ⊢
    cases hst : x.state with
    | merging =>
      simp only [hst] at hf ⊢
      obtain ⟨m, w, h1, h2, h3, h4⟩ := hf
      refine ⟨m, w, h1, ?_, h3, h4⟩
      rcases hm with ⟨hm, -⟩ | ⟨m', wo, hm, hm', -⟩
      · rw [hm]; exact h2
      · rw [hm, store_set_get, if_neg]
        · exact h2
        · rintro rfl
          rcases hm' with hm' | ⟨-, hm'⟩
          · obtain ⟨w', -, -, h5, h6, -⟩ := h.work he hm'
            rw [h2] at h5; injection h5 with h5; subst h5
            exact hn (h3.symm.trans h6)
          · rw [hm'] at h2; cases h2
    | _ => simpa [hst] using hf
  constructor
  · rw [hes, setEntry_nos _ hno]; exact h.distinct
  · intro x hx
    rcases split x hx with rfl | ⟨hx, -⟩
    · exact hsound
    · exact h.entries x hx
  · intro j n fl hj
    rw [hts, store_set_get] at hj
    split at hj
    · rename_i hkj; subst hkj
      rcases hk' with ⟨h1, fl', h2, h3⟩ | ⟨-, h1⟩
      · rw [h2] at hj; injection hj with hn hfl; subst hn; subst hfl
        exact ⟨e', new, hno, h1, h3⟩
      · exact absurd hj (h1 n fl)
    · rename_i hkj
      obtain ⟨x, hx, rfl, hxt, hxf⟩ := h.tags j n fl hj
      have hne : x.no ≠ e.no := by
        intro hn
        obtain rfl := h.same hx he hn
        rcases hk with hk | ⟨hk, -⟩
        · rw [hk] at hxt; injection hxt with hxt; exact hkj hxt
        · rw [hk] at hxt; cases hxt
      exact ⟨x, old x hx hne, rfl, hxt, other x hx hne fl hxf⟩
  · intro x hx j hj
    rw [hts, store_set_get]
    rcases split x hx with rfl | ⟨hx, hn⟩
    · rcases hk' with ⟨h1, fl', h2, -⟩ | ⟨h1, -⟩
      · rw [h1] at hj; injection hj with hj; subst hj
        exact ⟨fl', by simp [h2, hno]⟩
      · rw [h1] at hj; cases hj
    · obtain ⟨fl, hfl⟩ := h.holders x hx j hj
      refine ⟨fl, ?_⟩
      rw [if_neg]
      · exact hfl
      · rintro rfl
        rcases hk with hk | ⟨-, hk⟩
        · obtain ⟨fl', hfl'⟩ := h.holders e he _ hk
          rw [hfl'] at hfl; injection hfl with h1 h2; exact hn h1.symm
        · exact hk _ _ hfl
  · intro m' w hw
    rcases hm with ⟨hm, hsl⟩ | ⟨m, wo, hm, hm', hm''⟩
    · rw [hm] at hw
      obtain ⟨x, hx, hn, hsx⟩ := h.slots m' w hw
      by_cases hxe : x.no = e.no
      · obtain rfl := h.same hx he hxe
        exact ⟨e', new, hno.trans hn, hsl.trans hsx⟩
      · exact ⟨x, old x hx hxe, hn, hsx⟩
    · rw [hm, store_set_get] at hw
      split at hw
      · rename_i hmm; subst hmm
        rcases hm'' with ⟨h1, w', rfl, h3⟩ | ⟨-, rfl⟩
        · injection hw with hw; subst hw
          exact ⟨e', new, hno.trans h3.symm, h1⟩
        · cases hw
      · rename_i hmm
        obtain ⟨x, hx, hn, hsx⟩ := h.slots m' w hw
        refine ⟨x, old x hx ?_, hn, hsx⟩
        intro hxe
        obtain rfl := h.same hx he hxe
        rcases hm' with hm' | ⟨hm', -⟩
        · rw [hm'] at hsx; injection hsx with hsx; exact hmm hsx
        · rw [hm'] at hsx; cases hsx

/-- The agreement does not speak of tags that are not BOUND, nor of deadlines. -/
theorem retag (h : s.PathSound) (hes : t.table.entries = s.table.entries) (hm : t.merge = s.merge)
    (ht : ∀ k : Tag,
      (∀ n fl, t.port.tags[k] = .bound n fl →
          ∃ fl', s.port.tags[k] = .bound n fl' ∧ fl.map Flight.kind = fl'.map Flight.kind) ∧
        ∀ n fl, s.port.tags[k] = .bound n fl → ∃ fl', t.port.tags[k] = .bound n fl') : t.PathSound := by
  have fits : ∀ x fl fl', fl.map Flight.kind = fl'.map Flight.kind → s.FlightFits x fl' → t.FlightFits x fl := by
    intro x fl fl' hfl hf
    unfold State.FlightFits at hf ⊢
    rw [hm, hfl]
    cases hst : x.state with
    | issuing =>
      simp only [hst] at hf ⊢
      subst hf
      cases fl <;> simp_all
    | _ => simpa [hst] using hf
  constructor
  · rw [hes]; exact h.distinct
  · rw [hes]; exact h.entries
  · intro k n fl hk
    obtain ⟨fl', h1, h2⟩ := (ht k).1 n fl hk
    obtain ⟨e, he, hn, hek, hf⟩ := h.tags k n fl' h1
    exact ⟨e, hes ▸ he, hn, hek, fits e fl fl' h2 hf⟩
  · intro e he k hk
    obtain ⟨fl, hfl⟩ := h.holders e (hes ▸ he) k hk
    exact (ht k).2 _ _ hfl
  · rw [hm, hes]; exact h.slots

/-- Nor of anything outside the entries, the tags and the merge slots. -/
theorem congr (h : s.PathSound) (hes : t.table.entries = s.table.entries) (hm : t.merge = s.merge)
    (ht : t.port.tags = s.port.tags) : t.PathSound :=
  h.retag hes hm fun k => by
    rw [ht]; exact ⟨fun n fl h => ⟨fl, h, rfl⟩, fun n fl h => ⟨fl, h⟩⟩

end State.PathSound

/-! ## Takes, grants and offers -/

open State

/-- Replacing an entry by itself changes nothing. -/
theorem setEntry_self (l : List Entry) (e : Entry) (hd : (l.map Entry.no).Nodup) (he : e ∈ l) : l = l.map (fun x => if x.no = e.no then e else x) := by
  conv_lhs => rw [← List.map_id l]
  apply List.map_congr_left
  intro x hx
  by_cases h : x.no = e.no
  · simp [h]; exact List.inj_on_of_nodup_map hd hx he h
  · simp [h]

/-- A plain take keeps the agreement. -/
theorem takePlain_path (s : State) (e : Entry) (h : s.PathSound) (hc : s.forwardCandidate = some e) :
    (takePlain s e).PathSound := by
  obtain ⟨as, bs, hl, hst, -⟩ := (s.forwardCandidate_iff e).1 hc
  have he : e ∈ s.table.entries := by rw [hl]; simp
  have hs := h.entries e he
  have hplain : e.merge = false := hs.plain (.inl hst)
  have htag : e.tag.isSome = true := by rw [hs.tag, hst]; rfl
  obtain ⟨k, hk⟩ := Option.isSome_iff_exists.1 htag
  obtain ⟨r, hr⟩ := Option.ne_none_iff_exists'.1 (hs.run (by rw [hst]; simp))
  have hslot : e.slot = none := by
    have := hs.slot; rw [hst] at this; simpa using this
  have sound' : ({ e with state := .outstanding } : Entry).Sound := by
    refine ⟨fun _ => by simp [hr], hs.span, by simp [hk, EntryState.holdsTag], by simp [hslot], by simp, fun _ => hplain, hs.write, ?_⟩
    have := hs.held; rw [hst] at this; simpa using this
  cases hd : e.dir with
  | read =>
    refine h.update (e := e) (e' := { e with state := .outstanding }) (k := k) (ts := .bound e.no (some { kind := .read, deadline := s.newDeadline }))
        he rfl ?_ ?_ sound' (.inl hk) (.inl ⟨hk, _, rfl, ?_⟩) (.inl ⟨?_, rfl⟩)
    · simp [takePlain, hk, hr, hd]
    · simp [takePlain, hk, hr, hd]
    · simp [FlightFits, hd]
    · simp [takePlain, hk, hr, hd]
  | write =>
    refine h.update (e := e) (e' := { e with state := .outstanding }) (k := k) (ts := .bound e.no (some { kind := .write, deadline := s.newDeadline }))
        he rfl ?_ ?_ sound' (.inl hk) (.inl ⟨hk, _, rfl, ?_⟩) (.inl ⟨?_, rfl⟩)
    · simp [takePlain, hk, hr, hd]
    · simp [takePlain, hk, hr, hd]
    · simp [FlightFits, hd]
    · simp [takePlain, hk, hr, hd]

/-- A merge slot's take keeps it. -/
theorem takeMerge_path (s : State) (e : Entry) (m : MergeNo) (w : MergeWork) (h : s.PathSound) (hc : s.mergeCandidate = some (e, m, w)) :
    (takeMerge s e m w).PathSound := by
  obtain ⟨as, bs, hl, hsl, hw, hwait, -⟩ := (s.mergeCandidate_iff e m w).1 hc
  have he : e ∈ s.table.entries := by rw [hl]; simp
  have hs := h.entries e he
  obtain ⟨w', k, fl, h1, h2, hk, hb, h3⟩ := h.work he hsl
  rw [hw] at h1; injection h1 with h1; subst h1
  have hst : e.state = .merging := hs.slot.1 (by simp [hsl])
  obtain ⟨r, hr⟩ := Option.ne_none_iff_exists'.1 (hs.run (by rw [hst]; simp))
  cases hp : w.phase with
  | readWait =>
    refine h.update (e := e) (e' := e) (k := k) (ts := .bound e.no (some { kind := .read, deadline := s.newDeadline }))
        he rfl ?_ ?_ hs (.inl hk)
        (.inl ⟨hk, _, rfl, ?_⟩) (.inr ⟨m, some { w with phase := .readOut }, ?_, .inl hsl, .inl ⟨hsl, _, rfl, h2⟩⟩)
    · simp [takeMerge, hk, hr, hp]; exact setEntry_self _ _ h.distinct he
    · simp [takeMerge, hk, hr, hp]
    · simp [FlightFits, hst, takeMerge, hk, hr, hp]; exact ⟨m, hsl, by simp [h2, MergePhase.inFlight]⟩
    · simp [takeMerge, hk, hr, hp]
  | writeWait =>
    refine h.update (e := e) (e' := e) (k := k) (ts := .bound e.no (some { kind := .write, deadline := s.newDeadline }))
        he rfl ?_ ?_ hs (.inl hk)
        (.inl ⟨hk, _, rfl, ?_⟩) (.inr ⟨m, some { w with phase := .writeOut, merged := [] }, ?_, .inl hsl, .inl ⟨hsl, _, rfl, h2⟩⟩)
    · simp [takeMerge, hk, hr, hp]; exact setEntry_self _ _ h.distinct he
    · simp [takeMerge, hk, hr, hp]
    · simp [FlightFits, hst, takeMerge, hk, hr, hp]; exact ⟨m, hsl, by simp [h2, MergePhase.inFlight]⟩
    · simp [takeMerge, hk, hr, hp]
  | readOut => rw [hp] at hwait; cases hwait
  | writeOut => rw [hp] at hwait; cases hwait

/-- A grant keeps it. -/
theorem grant_path (s t : State) (h : s.PathSound) (hg : grantOne s = some t) : t.PathSound := by
  obtain ⟨k, as, e, bs, hkf, hl, hp, -, rfl⟩ := (grantOne_iff s t).1 hg
  obtain ⟨hst, hms⟩ := (canProceed_iff s e).1 hp
  have he : e ∈ s.table.entries := by rw [hl]; simp
  have hs := h.entries e he
  have hfree := ((s.freeTag_eq_some k).1 hkf).1
  have htag : e.tag = none := by have := hs.tag; rw [hst] at this; simpa [EntryState.holdsTag] using this
  have hslot : e.slot = none := by have := hs.slot; rw [hst] at this; simpa using this
  have hrun : e.run ≠ none := hs.run (by rw [hst]; simp)
  have hheld : e.blockers = [] := by have := hs.held; rw [hst] at this; simpa using this
  by_cases hm : e.merge = true
  · obtain ⟨m0, hm0⟩ := hms hm
    cases hf : s.freeMergeSlot with
    | none => exact absurd hm0 ((s.freeMergeSlot_eq_none).1 hf m0)
    | some m =>
      have hmf := ((s.freeMergeSlot_eq_some m).1 hf).1
      rw [grantTo_merge s e k m hm hf]
      refine h.update (e := e) (e' := { e with state := .merging, tag := some k, slot := some m }) (k := k) (ts := .bound e.no none)
          he rfl rfl rfl ?_
          (.inr ⟨htag, by simp [hfree]⟩) (.inl ⟨rfl, none, rfl, ?_⟩) (.inr ⟨m, _, rfl, .inr ⟨hslot, hmf⟩, .inl ⟨rfl, _, rfl, rfl⟩⟩)
      · exact ⟨fun _ => hrun, hs.span, rfl, by simp, fun _ => hm, by simp, hs.write, by simp [hheld]⟩
      · exact ⟨m, { entry := e.no, phase := .readWait, oldData := [], merged := [] }, rfl, by simp, rfl, rfl⟩
  · have hm : e.merge = false := by simpa using hm
    rw [grantTo_plain s e k hm]
    refine h.update (e := e) (e' := { e with state := .issuing, tag := some k }) (k := k) (ts := .bound e.no none)
        he rfl rfl rfl ?_ (.inr ⟨htag, by simp [hfree]⟩) (.inl ⟨rfl, none, rfl, rfl⟩) (.inl ⟨rfl, rfl⟩)
    exact ⟨fun _ => hrun, hs.span, rfl, by simp [hslot], by simp, fun _ => hm, hs.write, by simp [hheld]⟩

/-- An offer keeps it. -/
theorem offerNext_path (s : State) (h : s.PathSound) : (offerNext s).PathSound := by
  unfold offerNext; split
  · exact h
  · exact h.congr rfl rfl rfl

/-- What follows inside a step keeps it. -/
theorem settle_path (s : State) (h : s.PathSound) : (settle s).PathSound :=
  settle_keeps_of _ (fun s e h _ hc => takePlain_path s e h hc) (fun s e m w h _ hc => takeMerge_path s e m w h hc) grant_path offerNext_path s h

end Sys2Proof.Machine
end

