-- ==== Sys2Proof/Laws/Follow.lean ====
section
/-!
SUPPORT. What holds after `settle` and after the acceptances of a step: what they keep of entries, tags, the
channel and the offer, that nothing is left to take, grant or offer, and that no request is left that could
be accepted.
-/

namespace Sys2Proof.Machine

/-! ## What is kept -/

/-- An entry before and after takes and grants. -/
def Entry.Advanced (x y : Entry) : Prop :=
  y = { x with state := y.state, tag := y.tag, slot := y.slot } ∧
    (x.state ≠ .waiting ∧ x.state ≠ .issuing → y = x) ∧ (y.state = .complete → y = x) ∧
      (y.state = .held → y = x) ∧ (y.state = .waiting → y = x)

theorem Entry.Advanced.refl (x : Entry) : x.Advanced x := ⟨rfl, fun _ => rfl, fun _ => rfl, fun _ => rfl, fun _ => rfl⟩

theorem Entry.Advanced.trans {x y z : Entry} (h : x.Advanced y) (h' : y.Advanced z) : x.Advanced z := by
  obtain ⟨a1, a2, a3, a4, a5⟩ := h
  obtain ⟨b1, b2, b3, b4, b5⟩ := h'
  refine ⟨by rw [b1, a1], fun hs => ?_, fun hs => ?_, fun hs => ?_, fun hs => ?_⟩
  · have := a2 hs; subst this; exact b2 hs
  · have := b3 hs; subst this; exact a3 hs
  · have := b4 hs; subst this; exact a4 hs
  · have := b5 hs; subst this; exact a5 hs

/-- What takes, grants and offers keep of the channel, the offer, the tags and the entries. -/
structure State.Kept (s t : State) : Prop where
  channel : s.port.channel ≠ none → t.port.channel = s.port.channel
  offer : s.table.offer ≠ none → t.table.offer = s.table.offer
  tags : ∀ k : Tag, s.port.tags[k] ≠ .free → (∀ n, s.port.tags[k] ≠ .bound n none) →
    t.port.tags[k] = s.port.tags[k]
  orphans : ∀ (k : Tag) o, t.port.tags[k] = .orphaned o → s.port.tags[k] = .orphaned o
  entries : List.Forall₂ Entry.Advanced s.table.entries t.table.entries

theorem Advanced_same (l : List Entry) : List.Forall₂ Entry.Advanced l l :=
  List.forall₂_same.2 fun x _ => .refl x

theorem Advanced_trans {l₁ l₂ l₃ : List Entry} (h : List.Forall₂ Entry.Advanced l₁ l₂)
    (h' : List.Forall₂ Entry.Advanced l₂ l₃) : List.Forall₂ Entry.Advanced l₁ l₃ := by
  induction h generalizing l₃ with
  | nil => exact h'
  | cons h1 _ ih => cases h' with | cons h2 h3 => exact .cons (h1.trans h2) (ih h3)

theorem Advanced_set {l : List Entry} (hd : (l.map Entry.no).Nodup) {e e' : Entry} (he : e ∈ l)
    (h : e.Advanced e') :
    List.Forall₂ Entry.Advanced l (l.map (fun x => if x.no = e.no then e' else x)) := by
  rw [List.forall₂_map_right_iff]
  refine List.forall₂_same.2 fun x hx => ?_
  by_cases hn : x.no = e.no
  · obtain rfl := List.inj_on_of_nodup_map hd hx he hn
    simpa using h
  · simpa [hn] using Entry.Advanced.refl x

theorem Advanced_nos {l l' : List Entry} (h : List.Forall₂ Entry.Advanced l l') :
    l'.map Entry.no = l.map Entry.no := by
  induction h with
  | nil => rfl
  | cons h _ ih => rw [List.map_cons, List.map_cons, ih, h.1]

/-- An entry after, with those older than it, comes from one before with its older ones. -/
theorem Advanced_split {l l' older younger : List Entry} {y : Entry} (h : List.Forall₂ Entry.Advanced l l')
    (hl : l' = older ++ y :: younger) :
    ∃ older₀ x younger₀, l = older₀ ++ x :: younger₀ ∧ x.Advanced y ∧ List.Forall₂ Entry.Advanced older₀ older := by
  induction older generalizing l l' with
  | nil =>
    rw [List.nil_append] at hl; subst hl
    cases h with | cons h1 h2 => exact ⟨[], _, _, rfl, h1, .nil⟩
  | cons a older ih =>
    rw [List.cons_append] at hl; subst hl
    cases h with
    | cons h1 h2 =>
      obtain ⟨o, x, yo, rfl, h3, h4⟩ := ih h2 rfl
      exact ⟨_ :: o, x, yo, rfl, h3, .cons h1 h4⟩

/-- An entry before, with those older than it, is found after. -/
theorem Advanced_join {l l' older younger : List Entry} {x : Entry} (h : List.Forall₂ Entry.Advanced l l')
    (hl : l = older ++ x :: younger) :
    ∃ older' y younger', l' = older' ++ y :: younger' ∧ x.Advanced y ∧ List.Forall₂ Entry.Advanced older older' := by
  induction older generalizing l l' with
  | nil =>
    rw [List.nil_append] at hl; subst hl
    cases h with | cons h1 h2 => exact ⟨[], _, _, rfl, h1, .nil⟩
  | cons a older ih =>
    rw [List.cons_append] at hl; subst hl
    cases h with
    | cons h1 h2 =>
      obtain ⟨o, x, yo, rfl, h3, h4⟩ := ih h2 rfl
      exact ⟨_ :: o, x, yo, rfl, h3, .cons h1 h4⟩

theorem Advanced_mem {l l' : List Entry} (h : List.Forall₂ Entry.Advanced l l') {y : Entry} (hy : y ∈ l') :
    ∃ x ∈ l, x.Advanced y := by
  obtain ⟨as, bs, hl⟩ := List.append_of_mem hy
  obtain ⟨o, x, yo, rfl, h1, -⟩ := Advanced_split h hl
  exact ⟨x, by simp, h1⟩

/-- A field that does not change with state, tag and merge slot. -/
theorem Advanced_map {α : Type} {l l' : List Entry} (h : List.Forall₂ Entry.Advanced l l') (f : Entry → α)
    (hf : ∀ (e : Entry) st tag slot, f { e with state := st, tag := tag, slot := slot } = f e) :
    l'.map f = l.map f := by
  induction h with
  | nil => rfl
  | cons h _ ih => rw [List.map_cons, List.map_cons, ih, h.1, hf]

theorem State.Kept.refl (s : State) : s.Kept s :=
  ⟨fun _ => rfl, fun _ => rfl, fun _ _ _ => rfl, fun _ _ h => h, Advanced_same _⟩

theorem State.Kept.trans {s t u : State} (h : s.Kept t) (h' : t.Kept u) : s.Kept u := by
  refine ⟨fun hc => ?_, fun ho => ?_, fun k h1 h2 => ?_, fun k o ho => h.orphans k o (h'.orphans k o ho),
    Advanced_trans h.entries h'.entries⟩
  · rw [h'.channel (by rw [h.channel hc]; exact hc), h.channel hc]
  · rw [h'.offer (by rw [h.offer ho]; exact ho), h.offer ho]
  · have := h.tags k h1 h2
    rw [h'.tags k (by rw [this]; exact h1) (by rw [this]; exact h2), this]

open State

theorem tags_set_kept {s : State} {k : Tag} {ts : TagState}
    (hk : s.port.tags[k] = .free ∨ ∃ n, s.port.tags[k] = .bound n none) (ht : ∀ o, ts ≠ .orphaned o) :
    (∀ j : Tag, s.port.tags[j] ≠ .free → (∀ n, s.port.tags[j] ≠ .bound n none) →
        (s.port.tags.set k ts)[j] = s.port.tags[j]) ∧
      ∀ (j : Tag) o, (s.port.tags.set k ts)[j] = .orphaned o → s.port.tags[j] = .orphaned o := by
  constructor
  · intro j h1 h2
    rw [store_set_get, if_neg]
    rintro rfl
    rcases hk with hk | ⟨n, hk⟩
    · exact h1 hk
    · exact h2 n hk
  · intro j o h
    rw [store_set_get] at h
    split at h
    · exact absurd h (ht o)
    · exact h

theorem takePlain_kept (s : State) (e : Entry) (h : s.PathSound) (hch : s.port.channel = none)
    (hc : s.forwardCandidate = some e) : s.Kept (takePlain s e) := by
  obtain ⟨as, bs, hl, hst, -⟩ := (s.forwardCandidate_iff e).1 hc
  have he : e ∈ s.table.entries := by rw [hl]; simp
  have hs := h.entries e he
  have htag : e.tag.isSome = true := by rw [hs.tag, hst]; rfl
  obtain ⟨k, hk⟩ := Option.isSome_iff_exists.1 htag
  obtain ⟨r, hr⟩ := Option.ne_none_iff_exists'.1 (hs.run (by rw [hst]; simp))
  obtain ⟨fl, hb, hf⟩ := h.flight he hk
  have hfl : fl = none := by simpa [FlightFits, hst] using hf
  subst hfl
  have hadv : e.Advanced { e with state := .outstanding } :=
    ⟨rfl, fun hh => absurd hst hh.2, by simp, by simp, by simp⟩
  cases hd : e.dir with
  | read =>
    rw [takePlain_read s e k r hk hr hd]
    obtain ⟨t1, t2⟩ := tags_set_kept (ts := .bound e.no (some { kind := .read, deadline := s.newDeadline }))
      (.inr ⟨_, hb⟩) (by simp)
    exact ⟨fun h => absurd hch h, fun _ => rfl, t1, t2, Advanced_set (e := e) h.distinct he hadv⟩
  | write =>
    rw [takePlain_write s e k r hk hr hd]
    obtain ⟨t1, t2⟩ := tags_set_kept (ts := .bound e.no (some { kind := .write, deadline := s.newDeadline }))
      (.inr ⟨_, hb⟩) (by simp)
    exact ⟨fun h => absurd hch h, fun _ => rfl, t1, t2, Advanced_set (e := e) h.distinct he hadv⟩

theorem takeMerge_kept (s : State) (e : Entry) (m : MergeNo) (w : MergeWork) (h : s.PathSound)
    (hch : s.port.channel = none) (hc : s.mergeCandidate = some (e, m, w)) : s.Kept (takeMerge s e m w) := by
  obtain ⟨as, bs, hl, hsl, hw, hwait, -⟩ := (s.mergeCandidate_iff e m w).1 hc
  have he : e ∈ s.table.entries := by rw [hl]; simp
  have hs := h.entries e he
  obtain ⟨w', k, fl, h1, h2, hk, hb, h3⟩ := h.work he hsl
  rw [hw] at h1; injection h1 with h1; subst h1
  have hst : e.state = .merging := hs.slot.1 (by simp [hsl])
  obtain ⟨r, hr⟩ := Option.ne_none_iff_exists'.1 (hs.run (by rw [hst]; simp))
  have hfl : fl = none := by
    cases hp : w.phase <;> rw [hp] at hwait h3 <;> simp [MergePhase.waits, MergePhase.inFlight] at hwait h3
    · exact h3
    · exact h3
  subst hfl
  cases hp : w.phase with
  | readWait =>
    rw [takeMerge_read s e k r m w hk hr hp]
    obtain ⟨t1, t2⟩ := tags_set_kept (ts := .bound e.no (some { kind := .read, deadline := s.newDeadline }))
      (.inr ⟨_, hb⟩) (by simp)
    exact ⟨fun h => absurd hch h, fun _ => rfl, t1, t2, Advanced_same _⟩
  | writeWait =>
    rw [takeMerge_write s e k r m w hk hr hp]
    obtain ⟨t1, t2⟩ := tags_set_kept (ts := .bound e.no (some { kind := .write, deadline := s.newDeadline }))
      (.inr ⟨_, hb⟩) (by simp)
    exact ⟨fun h => absurd hch h, fun _ => rfl, t1, t2, Advanced_same _⟩
  | readOut => rw [hp] at hwait; cases hwait
  | writeOut => rw [hp] at hwait; cases hwait

theorem grantOne_kept (s t : State) (h : s.PathSound) (hg : grantOne s = some t) : s.Kept t := by
  obtain ⟨k, as, e, bs, hkf, hl, hp, -, rfl⟩ := (grantOne_iff s t).1 hg
  obtain ⟨hst, hms⟩ := (canProceed_iff s e).1 hp
  have he : e ∈ s.table.entries := by rw [hl]; simp
  obtain ⟨t1, t2⟩ := tags_set_kept (ts := .bound e.no none) (.inl ((s.freeTag_eq_some k).1 hkf).1) (by simp)
  by_cases hm : e.merge = true
  · obtain ⟨m0, hm0⟩ := hms hm
    cases hf : s.freeMergeSlot with
    | none => exact absurd hm0 ((s.freeMergeSlot_eq_none).1 hf m0)
    | some m =>
      rw [grantTo_merge s e k m hm hf]
      exact ⟨fun _ => rfl, fun _ => rfl, t1, t2, Advanced_set (e := e) h.distinct he
        ⟨rfl, fun hh => absurd hst hh.1, by simp, by simp, by simp⟩⟩
  · rw [grantTo_plain s e k (by simpa using hm)]
    exact ⟨fun _ => rfl, fun _ => rfl, t1, t2, Advanced_set (e := e) h.distinct he
      ⟨rfl, fun hh => absurd hst hh.1, by simp, by simp, by simp⟩⟩

theorem offerNext_kept (s : State) : s.Kept (offerNext s) := by
  unfold offerNext; split
  · exact .refl s
  · rename_i h
    exact ⟨fun _ => rfl, fun hh => absurd h hh, fun _ _ _ => rfl, fun _ _ h => h, Advanced_same _⟩

theorem settle_kept (s : State) (h : s.PathSound) : s.Kept (settle s) :=
  (settle_keeps_of (fun t => t.PathSound ∧ s.Kept t)
    (fun u e h hch hc => ⟨takePlain_path u e h.1 hc, h.2.trans (takePlain_kept u e h.1 hch hc)⟩)
    (fun u e m w h hch hc => ⟨takeMerge_path u e m w h.1 hc, h.2.trans (takeMerge_kept u e m w h.1 hch hc)⟩)
    (fun u t h hg => ⟨grant_path u t h.1 hg, h.2.trans (grantOne_kept u t h.1 hg)⟩)
    (fun u h => ⟨offerNext_path u h.1, h.2.trans (offerNext_kept u)⟩) s ⟨h, .refl s⟩).2

/-! ## What is done -/

/-- Nothing is left for the arbiter. -/
def State.NothingToTake (s : State) : Prop :=
  s.port.channel = none → s.forwardCandidate = none ∧ s.mergeCandidate = none

theorem takePlain_channel (s : State) (e : Entry) (h : s.PathSound) (hc : s.forwardCandidate = some e) :
    (takePlain s e).port.channel ≠ none := by
  obtain ⟨as, bs, hl, hst, -⟩ := (s.forwardCandidate_iff e).1 hc
  have he : e ∈ s.table.entries := by rw [hl]; simp
  have hs := h.entries e he
  have htag : e.tag.isSome = true := by rw [hs.tag, hst]; rfl
  obtain ⟨k, hk⟩ := Option.isSome_iff_exists.1 htag
  obtain ⟨r, hr⟩ := Option.ne_none_iff_exists'.1 (hs.run (by rw [hst]; simp))
  cases hd : e.dir with
  | read => rw [takePlain_read s e k r hk hr hd]; simp
  | write => rw [takePlain_write s e k r hk hr hd]; simp

theorem takeMerge_channel (s : State) (e : Entry) (m : MergeNo) (w : MergeWork) (h : s.PathSound)
    (hc : s.mergeCandidate = some (e, m, w)) : (takeMerge s e m w).port.channel ≠ none := by
  obtain ⟨as, bs, hl, hsl, hw, hwait, -⟩ := (s.mergeCandidate_iff e m w).1 hc
  have he : e ∈ s.table.entries := by rw [hl]; simp
  have hs := h.entries e he
  obtain ⟨w', k, fl, h1, h2, hk, hb, h3⟩ := h.work he hsl
  have hst : e.state = .merging := hs.slot.1 (by simp [hsl])
  obtain ⟨r, hr⟩ := Option.ne_none_iff_exists'.1 (hs.run (by rw [hst]; simp))
  cases hp : w.phase with
  | readWait => rw [takeMerge_read s e k r m w hk hr hp]; simp
  | writeWait => rw [takeMerge_write s e k r m w hk hr hp]; simp
  | readOut => rw [hp] at hwait; cases hwait
  | writeOut => rw [hp] at hwait; cases hwait

theorem arbitrate_done (s : State) (h : s.PathSound) : (arbitrate s).NothingToTake := by
  intro hn
  rcases arbitrate_cases s with h' | ⟨e, hc, he, h'⟩ | ⟨e, m, w, hc, he, h'⟩
  · cases hf : s.forwardCandidate with
    | some f =>
      exfalso
      have hc : s.port.channel = none := by rw [h'] at hn; exact hn
      rcases hm : s.mergeCandidate with _ | ⟨e, m, w⟩
      · have : arbitrate s = takePlain s f := by simp [arbitrate, hc, hf, hm]
        rw [this] at hn; exact takePlain_channel s f h hf hn
      · cases hl : s.port.lastServed with
        | merge =>
          have : arbitrate s = takePlain s f := by simp [arbitrate, hc, hf, hm, hl]
          rw [this] at hn; exact takePlain_channel s f h hf hn
        | forward =>
          have : arbitrate s = takeMerge s e m w := by simp [arbitrate, hc, hf, hm, hl]
          rw [this] at hn; exact takeMerge_channel s e m w h hm hn
    | none =>
      rcases hm : s.mergeCandidate with _ | ⟨e, m, w⟩
      · rw [h']; exact ⟨hf, hm⟩
      · exfalso
        have hc : s.port.channel = none := by rw [h'] at hn; exact hn
        have : arbitrate s = takeMerge s e m w := by simp [arbitrate, hc, hf, hm]
        rw [this] at hn; exact takeMerge_channel s e m w h hm hn
  · rw [h'] at hn; exact absurd hn (takePlain_channel s e h he)
  · rw [h'] at hn; exact absurd hn (takeMerge_channel s e m w h he)

theorem arbitrate_path (s : State) (h : s.PathSound) : (arbitrate s).PathSound := by
  rcases arbitrate_cases s with h' | ⟨e, hc, he, h'⟩ | ⟨e, m, w, hc, he, h'⟩
  · rw [h']; exact h
  · rw [h']; exact takePlain_path s e h he
  · rw [h']; exact takeMerge_path s e m w h he

/-- The FREE tags. -/
def State.freeTags (s : State) : Finset Tag := Finset.univ.filter (fun k => s.port.tags[k] = .free)

theorem freeTags_mem (s : State) (k : Tag) : k ∈ s.freeTags ↔ s.port.tags[k] = .free := by simp [State.freeTags]

theorem freeTags_set (s : State) (k : Tag) (ts : TagState) (h : ts ≠ .free) (t : State)
    (ht : t.port.tags = s.port.tags.set k ts) : t.freeTags ⊆ s.freeTags ∧ k ∉ t.freeTags := by
  constructor
  · intro j hj
    rw [freeTags_mem, ht, store_set_get] at hj
    split at hj
    · exact absurd hj h
    · rwa [freeTags_mem]
  · rw [freeTags_mem, ht, store_set_get]; simpa using h

theorem arbitrate_freeTags (s : State) : (arbitrate s).freeTags ⊆ s.freeTags := by
  rcases arbitrate_cases s with h' | ⟨e, hc, he, h'⟩ | ⟨e, m, w, hc, he, h'⟩
  · rw [h']
  · rw [h']
    unfold takePlain
    split
    · rename_i k r hk hr
      split
      · exact (freeTags_set s k _ (by simp) _ rfl).1
      · exact (freeTags_set s k _ (by simp) _ rfl).1
    · exact subset_rfl
    · exact subset_rfl
  · rw [h']
    unfold takeMerge
    split
    · rename_i k r hk hr
      split
      · exact (freeTags_set s k _ (by simp) _ rfl).1
      · exact (freeTags_set s k _ (by simp) _ rfl).1
      · exact subset_rfl
      · exact subset_rfl
    · exact subset_rfl
    · exact subset_rfl

theorem grantOne_freeTags (s t : State) (h : grantOne s = some t) : t.freeTags.card < s.freeTags.card := by
  obtain ⟨k, as, e, bs, hkf, hl, hp, -, rfl⟩ := (grantOne_iff s t).1 h
  obtain ⟨hst, hms⟩ := (canProceed_iff s e).1 hp
  have hk : k ∈ s.freeTags := (freeTags_mem s k).2 ((s.freeTag_eq_some k).1 hkf).1
  have key : (grantTo s e k).freeTags ⊆ s.freeTags ∧ k ∉ (grantTo s e k).freeTags := by
    by_cases hm : e.merge = true
    · obtain ⟨m0, hm0⟩ := hms hm
      cases hf : s.freeMergeSlot with
      | none => exact absurd hm0 ((s.freeMergeSlot_eq_none).1 hf m0)
      | some m => exact freeTags_set s k (.bound e.no none) (by simp) _ (by rw [grantTo_merge s e k m hm hf]; rfl)
    · exact freeTags_set s k (.bound e.no none) (by simp) _
        (by rw [grantTo_plain s e k (by simpa using hm)]; rfl)
  exact Finset.card_lt_card (Finset.ssubset_iff_of_subset key.1 |>.2 ⟨k, hk, key.2⟩)

theorem grants_done (n : Nat) (s : State) (h : s.PathSound) (hn : s.freeTags.card ≤ n) (ht : s.NothingToTake) :
    grantOne (grants n s) = none ∧ (grants n s).NothingToTake ∧ (grants n s).PathSound := by
  induction n generalizing s with
  | zero =>
    refine ⟨?_, ht, h⟩
    rw [grants, grantOne_none, s.freeTag_eq_none]
    left
    intro k hk
    have := (freeTags_mem s k).2 hk
    rw [Finset.card_eq_zero.1 (Nat.le_zero.1 hn)] at this
    simp at this
  | succ n ih =>
    unfold grants
    cases hg : grantOne s with
    | none => exact ⟨hg, ht, h⟩
    | some t =>
      have hp := grant_path s t h hg
      refine ih _ (arbitrate_path t hp) ?_ (arbitrate_done t hp)
      have h1 := Finset.card_le_card (arbitrate_freeTags t)
      have h2 := grantOne_freeTags s t hg
      omega

/-- After `settle` no grant and no take is left, and a free return channel has nothing to offer. -/
theorem settle_done (s : State) (h : s.PathSound) :
    grantOne (settle s) = none ∧ (settle s).NothingToTake ∧
      ((settle s).table.offer = none → oldestDeliverable [] (settle s).table.entries = none) := by
  have h16 : (arbitrate s).freeTags.card ≤ 16 := by
    simpa using Finset.card_le_univ (arbitrate s).freeTags
  obtain ⟨h1, h2, -⟩ := grants_done 16 _ (arbitrate_path s h) h16 (arbitrate_done s h)
  unfold settle
  generalize grants 16 (arbitrate s) = u at h1 h2
  cases ho : u.table.offer with
  | some o => rw [offerNext_busy u (by simp [ho])]; exact ⟨h1, h2, fun hh => by rw [ho] at hh; cases hh⟩
  | none =>
    rw [offerNext_free u ho]
    exact ⟨(grantOne_none _).2 ((grantOne_none u).1 h1), h2, fun hh => by simpa using hh⟩

/-- What `settle_done` says, in the words of `State.Settled`. -/
structure State.Quiet (s : State) : Prop where
  grant : (∃ k : Tag, s.port.tags[k] = .free) → ∀ e ∈ s.table.entries, e.state = .waiting →
    e.merge = true ∧ ∀ m : MergeNo, s.merge[m] ≠ none
  take : s.port.channel = none →
    (∀ e ∈ s.table.entries, e.state ≠ .issuing) ∧ ∀ (m : MergeNo) w, s.merge[m] = some w → w.phase.waits = false
  offer : s.table.offer = none → ∀ older e younger, s.table.entries = older ++ e :: younger →
    e.state = .complete → ∃ x ∈ older, x.id = e.id

theorem settle_quiet (s : State) (h : s.PathSound) : (settle s).Quiet := by
  obtain ⟨h1, h2, h3⟩ := settle_done s h
  have hp := settle_path s h
  refine ⟨fun ⟨k, hk⟩ e he hst => ?_, fun hc => ?_, fun ho older e younger hl hst => ?_⟩
  · rw [grantOne_none, (settle s).freeTag_eq_none] at h1
    rcases h1 with h1 | h1
    · exact absurd hk (h1 k)
    · have := h1 e he
      rw [← Bool.not_eq_true, canProceed_iff] at this
      simp only [hst, true_and, Classical.not_imp, not_exists] at this
      exact this
  · obtain ⟨hf, hm⟩ := h2 hc
    refine ⟨(settle s).forwardCandidate_none.1 hf, fun m w hw => ?_⟩
    obtain ⟨e, he, -, hs⟩ := hp.slots m w hw
    exact (settle s).mergeCandidate_none.1 hm e he m w hs hw
  · by_contra hx
    push Not at hx
    exact (oldestDeliverable_none _).1 (h3 ho) older e younger hl ⟨hst, hx⟩

end Sys2Proof.Machine
end

