-- ==== Sys2Proof/Laws/Accept.lean ====
section
/-!
SUPPORT. The order of conflicting entries and the offer through `settle`; the acceptance of a request, and
that the acceptances of a step leave none that could be accepted.
-/

namespace Sys2Proof.Machine

open State

/-! ## Order and offer through `settle` -/

theorem conflicts_congr {a a' b b' : Entry} (ha : a'.span = a.span ∧ a'.dir = a.dir)
    (hb : b'.span = b.span ∧ b'.dir = b.dir) : Entry.conflicts a' b' = Entry.conflicts a b := by
  simp [Entry.conflicts, ha, hb]

/-- What decides the order of entries: numbers, spans, directions and blockers. -/
def Entry.orderKey (e : Entry) : EntryNo × Option Span × Dir × List EntryNo := (e.no, e.span, e.dir, e.blockers)

/-- The order speaks of numbers, spans, directions and blockers alone. -/
theorem OrderKept_congr {s t : State} (h : s.OrderKept)
    (hk : t.table.entries.map Entry.orderKey = s.table.entries.map Entry.orderKey) : t.OrderKept := by
  intro older e younger hl
  rw [hl, List.map_append, List.map_cons] at hk
  obtain ⟨older₀, rest, hs, h1, h2⟩ := List.map_eq_append_iff.1 hk.symm
  obtain ⟨x, younger₀, rfl, hx, -⟩ := List.map_eq_cons_iff.1 h2
  have hx' := h older₀ x younger₀ hs
  simp only [Entry.orderKey, Prod.mk.injEq] at hx
  rw [← hx.2.2.2, hx']
  clear hx' hs h2 hl hk h
  induction older₀ generalizing older with
  | nil => rw [List.map_nil] at h1; rw [List.map_eq_nil_iff.1 h1.symm]; rfl
  | cons a older₀ ih =>
    obtain ⟨b, older', rfl, hb, h2⟩ := List.map_eq_cons_iff.1 h1.symm
    simp only [Entry.orderKey, Prod.mk.injEq] at hb
    rw [List.filter_cons, List.filter_cons,
      conflicts_congr (a := x) (a' := e) ⟨hx.2.1.symm, hx.2.2.1.symm⟩ ⟨hb.2.1, hb.2.2.1⟩]
    split
    · rw [List.map_cons, List.map_cons, ih _ h2.symm, hb.1]
    · exact ih _ h2.symm

theorem settle_order (s : State) (h : s.PathSound) (ho : s.OrderKept) : (settle s).OrderKept :=
  OrderKept_congr ho (Advanced_map (settle_kept s h).entries Entry.orderKey fun _ _ _ _ => rfl)

theorem Entry.Advanced.id_eq {x y : Entry} (h : x.Advanced y) : y.id = x.id := by rw [h.1]
theorem Entry.Advanced.no_eq {x y : Entry} (h : x.Advanced y) : y.no = x.no := by rw [h.1]

theorem Advanced_ids {l l' : List Entry} (h : List.Forall₂ Entry.Advanced l l') (i : UpId) :
    (∀ x ∈ l', x.id ≠ i) ↔ ∀ x ∈ l, x.id ≠ i := by
  induction h with
  | nil => simp
  | cons h _ ih => simp [ih, h.id_eq]

theorem offerNext_offer (s : State) (h : s.OfferSound) : (offerNext s).OfferSound := by
  cases ho : s.table.offer with
  | some o => rw [offerNext_busy s (by simp [ho])]; exact h
  | none =>
    rw [offerNext_free s ho]
    intro o hh
    simp only [setOffer_table_offer, Option.map_eq_some_iff] at hh
    obtain ⟨e, he, rfl⟩ := hh
    obtain ⟨older, younger, hl, ⟨hst, hid⟩, -⟩ := (oldestDeliverable_iff _ e).1 he
    exact ⟨older, e, younger, hl, rfl, hst, rfl, hid⟩

/-- An offer stands as long as its entry does. -/
theorem OfferSound_advanced {s t : State} (h : s.OfferSound) (ho : t.table.offer = s.table.offer)
    (he : List.Forall₂ Entry.Advanced s.table.entries t.table.entries) : t.OfferSound := by
  intro o hh
  obtain ⟨older, e, younger, hl, h1, h2, h3, h4⟩ := h o (ho ▸ hh)
  obtain ⟨older', y, younger', hl', hy, hol⟩ := Advanced_join he hl
  have : y = e := hy.2.1 (by rw [h2]; simp)
  subst this
  exact ⟨older', y, younger', hl', h1, h2, h3, (Advanced_ids hol _).2 h4⟩

theorem settle_offer (s : State) (h : s.PathSound) (ho : s.OfferSound) : (settle s).OfferSound :=
  (settle_keeps_of (fun t => t.PathSound ∧ t.OfferSound)
    (fun u e h hch hc => by
      refine ⟨takePlain_path u e h.1 hc, OfferSound_advanced h.2 ?_ (takePlain_kept u e h.1 hch hc).entries⟩
      unfold takePlain
      split
      · split <;> rfl
      · rfl
      · rfl)
    (fun u e m w h hch hc => by
      refine ⟨takeMerge_path u e m w h.1 hc, OfferSound_advanced h.2 ?_ (takeMerge_kept u e m w h.1 hch hc).entries⟩
      unfold takeMerge
      split
      · split <;> rfl
      · rfl
      · rfl)
    (fun u t h hg => by
      refine ⟨grant_path u t h.1 hg, OfferSound_advanced h.2 ?_ (grantOne_kept u t h.1 hg).entries⟩
      obtain ⟨k, as, e, bs, -, -, -, -, rfl⟩ := (grantOne_iff u t).1 hg
      unfold grantTo
      split
      · split <;> rfl
      · rfl)
    (fun u h => ⟨offerNext_path u h.1, offerNext_offer u h.2⟩) s ⟨h, ho⟩).2

/-! ## The acceptance of a request -/

/-- The entry an acceptance adds. -/
def acceptedEntry (s : State) (n : EntryNo) (r : Request) : Entry :=
  if r.wellFormed then
    placedEntry s.gens.active.table s.table.entries (resolvedEntry n r s.gens.active.number s.gens.active.table)
  else malformedEntry n r s.gens.active.number

/-- The statistics after an acceptance. -/
def acceptedStats (s : State) (r : Request) : SummaryUnit :=
  if r.wellFormed then
    s.stats.addTo (some s.gens.active.number)
      (acceptBeats s.gens.active.table r.dir (s.gens.active.table.claimsOf r))
  else s.stats

/-- Everything an acceptance changes: one entry, the ACTIVE count, the statistics, the Fault Queue. -/
theorem accept_eq (s : State) (n : EntryNo) (r : Request) :
    ∃ q, (q = s.faults ∨ ∃ record, q = postRecord s.faults record) ∧
      accept s n r =
        { s with
          table :=
            { s.table with
              entries := s.table.entries ++ [acceptedEntry s n r]
              activeCount := s.table.activeCount + 1 }
          stats := acceptedStats s r
          faults := q } := by
  unfold accept acceptedEntry acceptedStats
  split
  · dsimp only
    unfold postFenced
    split
    · exact ⟨s.faults, .inl rfl, rfl⟩
    · exact ⟨_, .inr ⟨_, rfl⟩, rfl⟩
  · exact ⟨_, .inr ⟨_, rfl⟩, rfl⟩

theorem acceptedEntry_fields (s : State) (n : EntryNo) (r : Request) :
    (acceptedEntry s n r).no = n ∧ (acceptedEntry s n r).id = r.id ∧ (acceptedEntry s n r).dir = r.dir ∧
      (acceptedEntry s n r).addr = r.addr ∧ (acceptedEntry s n r).beats = r.beats ∧
        (acceptedEntry s n r).bound = some s.gens.active.number ∧ (acceptedEntry s n r).tag = none ∧
          (acceptedEntry s n r).slot = none ∧
            (acceptedEntry s n r).blockers =
              (s.table.entries.filter (Entry.conflicts (acceptedEntry s n r))).map Entry.no := by
  unfold acceptedEntry
  split
  · unfold placedEntry
    dsimp only
    split
    · rename_i hr
      refine ⟨rfl, rfl, rfl, rfl, rfl, rfl, rfl, rfl, ?_⟩
      have : ∀ x ∈ s.table.entries, ¬ Entry.conflicts
          { resolvedEntry n r s.gens.active.number s.gens.active.table with
            state := .complete
            rdata := completionData s.gens.active.table
              (resolvedEntry n r s.gens.active.number s.gens.active.table) none } x = true := by
        intro x _
        have hs : (resolvedEntry n r s.gens.active.number s.gens.active.table).span = none := by
          have : (resolvedEntry n r s.gens.active.number s.gens.active.table).span =
              (resolvedEntry n r s.gens.active.number s.gens.active.table).run.map (spanOf r.addr) := rfl
          rw [this, hr]; rfl
        simp [Entry.conflicts, hs]
      rw [List.filter_eq_nil_iff.2 this]; rfl
    · exact ⟨rfl, rfl, rfl, rfl, rfl, rfl, rfl, rfl, rfl⟩
  · refine ⟨rfl, rfl, rfl, rfl, rfl, rfl, rfl, rfl, ?_⟩
    have : ∀ x ∈ s.table.entries, ¬ Entry.conflicts (malformedEntry n r s.gens.active.number) x = true := by
      intro x _; simp [Entry.conflicts, malformedEntry]
    rw [List.filter_eq_nil_iff.2 this]; rfl

theorem acceptedEntry_sound (s : State) (n : EntryNo) (r : Request) : (acceptedEntry s n r).Sound := by
  unfold acceptedEntry
  split
  · unfold placedEntry
    dsimp only
    split
    · rename_i hr
      refine ⟨by simp, rfl, rfl, by simp [resolvedEntry], by simp, by simp, ?_, by simp [resolvedEntry]⟩
      simp [resolvedEntry]; exact fun h _ _ _ => h
    · rename_i run hr
      refine ⟨fun _ => by simp [hr], rfl, ?_, ?_, ?_, ?_,
        by simp [resolvedEntry]; exact fun h _ _ _ => h, ?_⟩
      · split <;> rfl
      · split <;> simp [resolvedEntry]
      · split <;> simp
      · split <;> simp
      · simp only [List.isEmpty_iff]
        split
        · rename_i h; simp [h]
        · rename_i h; simp [h]
  · exact ⟨by simp [malformedEntry], rfl, rfl, by simp [malformedEntry], by simp [malformedEntry],
      by simp [malformedEntry], by simp [malformedEntry], by simp [malformedEntry]⟩

/-- An entry with no tag and no merge slot may join. -/
theorem PathSound_add {s t : State} (h : s.PathSound) {e : Entry} (hn : ∀ x ∈ s.table.entries, x.no ≠ e.no)
    (hs : e.Sound) (ht : e.tag = none) (hes : t.table.entries = s.table.entries ++ [e])
    (hm : t.merge = s.merge) (hp : t.port.tags = s.port.tags) : t.PathSound := by
  have fits : ∀ x fl, s.FlightFits x fl → t.FlightFits x fl := by
    intro x fl hf; unfold FlightFits at hf ⊢; rw [hm]; exact hf
  constructor
  · rw [hes, List.map_append, List.nodup_append]
    refine ⟨h.distinct, by simp, ?_⟩
    intro a ha b hb
    obtain ⟨x, hx, rfl⟩ := List.mem_map.1 ha
    simp only [List.map_cons, List.map_nil, List.mem_singleton] at hb
    subst hb; exact hn x hx
  · rw [hes]; intro x hx
    rcases List.mem_append.1 hx with hx | hx
    · exact h.entries x hx
    · rw [List.mem_singleton] at hx; subst hx; exact hs
  · intro k n fl hk
    rw [hp] at hk
    obtain ⟨x, hx, h1, h2, h3⟩ := h.tags k n fl hk
    exact ⟨x, by rw [hes]; simp [hx], h1, h2, fits x fl h3⟩
  · intro x hx k hk
    rw [hes] at hx; rw [hp]
    rcases List.mem_append.1 hx with hx | hx
    · exact h.holders x hx k hk
    · rw [List.mem_singleton] at hx; subst hx; rw [ht] at hk; cases hk
  · intro m w hw
    rw [hm] at hw
    obtain ⟨x, hx, h1, h2⟩ := h.slots m w hw
    exact ⟨x, by rw [hes]; simp [hx], h1, h2⟩

theorem accept_path (s : State) (n : EntryNo) (r : Request) (h : s.PathSound) (hn : s.freeEntry = some n) :
    (accept s n r).PathSound := by
  obtain ⟨q, -, he⟩ := accept_eq s n r
  have hf := acceptedEntry_fields s n r
  rw [he]
  refine PathSound_add h (e := acceptedEntry s n r) ?_ (acceptedEntry_sound s n r) hf.2.2.2.2.2.2.1 rfl rfl rfl
  rw [hf.1]; exact ((s.freeEntry_eq_some n).1 hn).1

theorem accept_order (s : State) (n : EntryNo) (r : Request) (h : s.OrderKept) : (accept s n r).OrderKept := by
  obtain ⟨q, -, he⟩ := accept_eq s n r
  rw [he]
  intro older e younger hl
  rcases List.append_eq_append_iff.1 hl with ⟨as, h1, h2⟩ | ⟨as, h1, h2⟩
  · rcases as with _ | ⟨a, as⟩
    · simp only [List.append_nil, List.nil_append, List.cons.injEq] at h1 h2
      rw [← h2.1, h1]; exact (acceptedEntry_fields s n r).2.2.2.2.2.2.2.2
    · simp at h2
  · rcases as with _ | ⟨a, as⟩
    · simp only [List.append_nil, List.nil_append, List.cons.injEq] at h1 h2
      rw [h2.1, ← h1]; exact (acceptedEntry_fields s n r).2.2.2.2.2.2.2.2
    · simp only [List.cons_append, List.cons.injEq] at h2
      exact h older e as (by rw [h1, h2.1])

theorem accept_offer (s : State) (n : EntryNo) (r : Request) (h : s.OfferSound) : (accept s n r).OfferSound := by
  obtain ⟨q, -, he⟩ := accept_eq s n r
  rw [he]
  intro o ho
  obtain ⟨older, e, younger, hl, h1, h2, h3, h4⟩ := h o ho
  exact ⟨older, e, younger ++ [acceptedEntry s n r], by simp [hl], h1, h2, h3, h4⟩

/-! ## The acceptances of a step -/

/-- The numbers of free entries. -/
def State.freeEntries (s : State) : Finset EntryNo :=
  Finset.univ.filter (fun n => ∀ e ∈ s.table.entries, e.no ≠ n)

theorem freeEntries_card (s : State) : s.freeEntries.card ≤ 16 := by simpa using Finset.card_le_univ s.freeEntries

/-- The step of an acceptance: the request taken, with what follows it. -/
theorem drain_step (s : State) (n : EntryNo) (r : Request) (rest : List Request) (h : s.PathSound)
    (hn : s.freeEntry = some n) :
    (settle (accept { s with requests := rest } n r)).PathSound ∧
      (settle (accept { s with requests := rest } n r)).requests = rest ∧
      (settle (accept { s with requests := rest } n r)).resetAsserted = s.resetAsserted ∧
      (settle (accept { s with requests := rest } n r)).table.entries.map Entry.no =
        s.table.entries.map Entry.no ++ [n] := by
  have hp : (accept { s with requests := rest } n r).PathSound :=
    accept_path _ n r (h.congr rfl rfl rfl) hn
  obtain ⟨q, -, he⟩ := accept_eq { s with requests := rest } n r
  refine ⟨settle_path _ hp, ?_, ?_, ?_⟩
  · rw [(settle_unmoved _).2.2.1, he]
  · rw [(settle_unmoved _).2.1, he]
  · rw [Advanced_nos (settle_kept _ hp).entries, he]
    simp [(acceptedEntry_fields { s with requests := rest } n r).1]

theorem freeEntries_nos {s t : State} {n : EntryNo} (hn : n ∈ s.freeEntries)
    (h : t.table.entries.map Entry.no = s.table.entries.map Entry.no ++ [n]) :
    t.freeEntries.card < s.freeEntries.card := by
  have key : ∀ k, k ∈ t.freeEntries ↔ k ∈ s.freeEntries ∧ k ≠ n := by
    intro k
    have h1 : ∀ (u : State), k ∈ u.freeEntries ↔ k ∉ u.table.entries.map Entry.no := by
      intro u; simp [State.freeEntries]
    rw [h1, h1, h, List.mem_append, List.mem_singleton, not_or]
  refine Finset.card_lt_card (Finset.ssubset_iff_of_subset (fun k hk => ((key k).1 hk).1) |>.2 ⟨n, hn, ?_⟩)
  rw [key]; simp

/-- After the acceptances of a step no waiting request could be accepted. -/
theorem drain_done (k : Nat) (s : State) (h : s.PathSound) (hk : s.freeEntries.card ≤ k) :
    (drainRequests k s).requests = [] ∨ (drainRequests k s).resetAsserted = true ∨
      (drainRequests k s).freeEntry = none := by
  induction k generalizing s with
  | zero =>
    right; right
    rw [drainRequests, freeEntry_eq_none]
    intro n
    by_contra hn
    push Not at hn
    have : n ∈ s.freeEntries := by simpa [State.freeEntries] using hn
    rw [Finset.card_eq_zero.1 (Nat.le_zero.1 hk)] at this
    simp at this
  | succ k ih =>
    unfold drainRequests
    split
    · rename_i hq; exact .inl hq
    · rename_i r rest hq
      split
      · rename_i ha; exact .inr (.inl ha)
      · split
        · rename_i hn; exact .inr (.inr hn)
        · rename_i n hn
          obtain ⟨h1, -, -, h4⟩ := drain_step s n r rest h hn
          refine ih _ h1 ?_
          have : n ∈ s.freeEntries := by
            simpa [State.freeEntries] using ((s.freeEntry_eq_some n).1 hn).1
          have := freeEntries_nos this h4
          omega

/-- What an entry keeps of the request it was accepted from, and the generation it is bound to. -/
def Entry.asked (e : Entry) : Dir × UpId × Addr × Nat × Option Gen := (e.dir, e.id, e.addr, e.beats, e.bound)

/-- What the entry of a request accepted under generation `g` keeps of it. -/
def Request.asked (g : Gen) (r : Request) : Dir × UpId × Addr × Nat × Option Gen :=
  (r.dir, r.id, r.addr, r.beats, some g)

/-- With fewer than sixteen live entries an entry is free. -/
theorem freeEntry_isSome (s : State) (h : s.table.entries.length < 16) : ∃ n, s.freeEntry = some n := by
  rw [← Option.isSome_iff_exists, Option.isSome_iff_ne_none]
  intro hn
  rw [freeEntry_eq_none] at hn
  have hsub : (Finset.univ : Finset EntryNo) ⊆ (s.table.entries.map Entry.no).toFinset := fun n _ => by
    simpa using hn n
  have h1 := Finset.card_le_card hsub
  have h2 := (s.table.entries.map Entry.no).toFinset_card_le
  rw [Finset.card_univ, Fintype.card_fin] at h1
  rw [List.length_map] at h2
  omega

/-- While entries are free the waiting requests are accepted in arrival order, each the youngest live entry. -/
theorem drain_inOrder (k : Nat) (s : State) (h : s.PathSound) (ha : s.resetAsserted = false)
    (hk : s.table.entries.length + k ≤ 16) :
    let t := drainRequests k s
    t.pending = s.pending ∧ t.resetAsserted = false ∧ t.gens = s.gens ∧ t.link = s.link ∧
      t.requests = s.requests.drop k ∧
        t.table.entries.map Entry.asked =
          s.table.entries.map Entry.asked ++ (s.requests.take k).map (Request.asked s.gens.active.number) := by
  induction k generalizing s with
  | zero => exact ⟨rfl, ha, rfl, rfl, rfl, by simp [drainRequests]⟩
  | succ k ih =>
    cases hq : s.requests with
    | nil => rw [drain_idle _ s (.inl hq)]; exact ⟨rfl, ha, rfl, rfl, hq, by simp⟩
    | cons r rest =>
      obtain ⟨n, hn⟩ := freeEntry_isSome s (by omega)
      have hu := settle_unmoved (accept { s with requests := rest } n r)
      have hp : (accept { s with requests := rest } n r).PathSound := accept_path _ n r (h.congr rfl rfl rfl) hn
      have hm := Advanced_map (settle_kept _ hp).entries Entry.asked fun _ _ _ _ => rfl
      have hf := acceptedEntry_fields { s with requests := rest } n r
      obtain ⟨q, -, he⟩ := accept_eq { s with requests := rest } n r
      obtain ⟨h1, h2, h3, h4⟩ := drain_step s n r rest h hn
      have hl := congrArg List.length h4
      have := ih (settle (accept { s with requests := rest } n r)) h1 (h3.trans ha) (by simp at hl; omega)
      have hd : drainRequests (k + 1) s = drainRequests k (settle (accept { s with requests := rest } n r)) := by
        rw [drainRequests]; simp [hq, ha, hn]
      have hg : (settle (accept { s with requests := rest } n r)).gens = s.gens := by rw [hu.2.2.2.1, he]
      rw [hd]
      dsimp only at this ⊢
      rw [h2, hm, hg] at this
      refine ⟨this.1.trans ?_, this.2.1, this.2.2.1, this.2.2.2.1.trans ?_, this.2.2.2.2.1, this.2.2.2.2.2.trans ?_⟩
      · rw [hu.1, he]
      · rw [hu.2.2.2.2.2.1, he]
      · rw [he]; simp [Entry.asked, Request.asked, hf]

theorem drain_accept (s : State) (h : s.PathSound) :
    (drainRequests 16 s).requests ≠ [] → (drainRequests 16 s).resetAsserted = true ∨
      ∀ n : EntryNo, ∃ e ∈ (drainRequests 16 s).table.entries, e.no = n := by
  intro hq
  rcases drain_done 16 s h (freeEntries_card s) with h | h | h
  · exact absurd h hq
  · exact .inl h
  · exact .inr ((freeEntry_eq_none _).1 h)

theorem drain_path (k : Nat) (s : State) (h : s.PathSound) : (drainRequests k s).PathSound :=
  drain_keeps _ (fun u n r rest h _ _ hn => (drain_step u n r rest h hn).1) k s h

theorem drain_order (k : Nat) (s : State) (h : s.PathSound) (ho : s.OrderKept) : (drainRequests k s).OrderKept :=
  (drain_keeps (fun t => t.PathSound ∧ t.OrderKept)
    (fun u n r rest h _ _ hn =>
      ⟨(drain_step u n r rest h.1 hn).1,
        settle_order _ (accept_path _ n r (h.1.congr rfl rfl rfl) hn)
          (accept_order _ n r (OrderKept_congr h.2 rfl))⟩) k s ⟨h, ho⟩).2

theorem drain_offer (k : Nat) (s : State) (h : s.PathSound) (ho : s.OfferSound) : (drainRequests k s).OfferSound :=
  (drain_keeps (fun t => t.PathSound ∧ t.OfferSound)
    (fun u n r rest h _ _ hn =>
      ⟨(drain_step u n r rest h.1 hn).1,
        settle_offer _ (accept_path _ n r (h.1.congr rfl rfl rfl) hn)
          (accept_offer _ n r (OfferSound_advanced h.2 rfl (Advanced_same _)))⟩) k s ⟨h, ho⟩).2

theorem drain_quiet (k : Nat) (s : State) (h : s.PathSound) (hq : s.Quiet) : (drainRequests k s).Quiet :=
  (drain_keeps (fun t => t.PathSound ∧ t.Quiet)
    (fun u n r rest h _ _ hn =>
      ⟨(drain_step u n r rest h.1 hn).1,
        settle_quiet _ (accept_path _ n r (h.1.congr rfl rfl rfl) hn)⟩) k s ⟨h, hq⟩).2

end Sys2Proof.Machine
end

