-- ==== Sys2Proof/Laws/Link.lean ====
section
/-!
SUPPORT. What a command frame does to the state, by its first three checks and its argument count; slot
and parameter bytes.
-/

namespace Sys2Proof.Machine

namespace State
variable (s : State)

/-- A frame is ignored exactly where it is not taken. -/
theorem ignoresFrame_iff : s.ignoresFrame = false ↔ s.TakesFrames := by simp [ignoresFrame, TakesFrames]

/-- A taken frame with at most 60 argument bytes is carried out. -/
theorem takeFrame_taken (n : Nat) (f : State → State) (h : s.TakesFrames) (hn : n ≤ 60) :
    s.takeFrame n f = f (s.setMiso (List.replicate (3 + n) 0xFF)) := by
  have : ¬ Config.maxArgs < n := by simp only [Config.maxArgs]; omega
  simp [takeFrame, s.ignoresFrame_iff.2 h, this]

/-- A taken frame with more argument bytes answers FRAMING. -/
theorem takeFrame_long (n : Nat) (f : State → State) (h : s.TakesFrames) (hn : 60 < n) :
    s.takeFrame n f = (s.setMiso (List.replicate (3 + n) 0xFF)).rejectFrame .framing := by
  have : Config.maxArgs < n := hn
  simp [takeFrame, s.ignoresFrame_iff.2 h, this]

/-- A frame that a reset cuts is discarded. -/
theorem takeFrame_discarded (n : Nat) (f : State → State) (h : s.resetAsserted = true ∨ s.link.cut = true) :
    s.takeFrame n f = s.discardFrame (3 + n) := by
  have : s.ignoresFrame = true := by simpa [ignoresFrame] using h
  simp [takeFrame, this]

/-- A response right after the frame's bytes is the answered frame. -/
theorem respond_setMiso (n : Nat) (st : LinkStatus) (p : List Byte) :
    (s.setMiso (List.replicate n 0xFF)).respond st p = s.afterFrame n st p :=
  rfl

end State

theorem noArguments_nil (f : State → State) (s : State) : noArguments [] f s = f s := rfl

theorem noArguments_some {args : List Byte} (f : State → State) (s : State) (h : args ≠ []) :
    noArguments args f s = s.respond .badArgument [] := by
  cases args with
  | nil => exact absurd rfl h
  | cons => rfl

theorem oneArgument_one (b : Byte) (f : Byte → State → State) (s : State) : oneArgument [b] f s = f b s := rfl

theorem oneArgument_other {args : List Byte} (f : Byte → State → State) (s : State) (h : args.length ≠ 1) :
    oneArgument args f s = s.respond .badArgument [] := by
  match args, h with
  | [], _ => rfl
  | _ :: _ :: _, _ => rfl

theorem slotOf_some {b : Byte} {n : SlotNo} (h : b.toNat = n.val) : slotOf b = some n := by
  simp [slotOf, h]

theorem slotOf_none {b : Byte} (h : 8 ≤ b.toNat) : slotOf b = none := by simp [slotOf, h]

theorem slotOf_ne_all {b : Byte} {n : SlotNo} (h : b.toNat = n.val) : ¬ b.toNat = 0xFF := by
  have := n.isLt; omega

theorem toNat_ne_all {b : Byte} (h : b ≠ 0xFF) : ¬ b.toNat = 0xFF := fun h' => h (BitVec.eq_of_toNat_eq h')

end Sys2Proof.Machine
end

