-- ==== Sys2Proof/Laws/Moves.lean ====
section
/-!
SUPPORT. Everything a step can do, said once: `State.Move` lists the changes of state that commands make.
`step_cases` says that every step is one of them, a tick, or the expiry that DEADLINE_EXPIRY takes, and
`step_keeps` that what all of them and a counted edge keep every step keeps. An invariant of the part is proved
by cases on `State.Move`.
-/

namespace Sys2Proof.Machine

open State

/-- A change of the link by a frame: the alert mask stays, and in reset only the bytes on SPI_MISO and the mark
of a frame in progress change. -/
def State.LinkChange (s : State) (l : Link) : Prop :=
  l.mask = s.link.mask ∧ (s.resetAsserted = true → l = { s.link with cut := l.cut, miso := l.miso })

/-- The changes of state that commands make. -/
inductive State.Move : State → State → Prop where
  | same (s : State) : Move s s
  | arrive (s : State) (q : Request) : Move s (s.arrive q)
  | retire (s : State) (o : Offer) (e : Entry) (ho : s.table.offer = some o) (he : s.entry? o.entry = some e) :
      Move s (s.retire e)
  | accepted (s : State) (d : DownRequest) (hd : s.port.channel = some d) :
      Move s (settle { s with port := { s.port with channel := none } }).refreshAlert
  | stray (s : State) (kind : Dir) (k : Tag) (h : s.resetAsserted = false) : Move s (s.stray kind k)
  | late (s : State) (k : Tag) (o : Orphan) (h : s.resetAsserted = false) (hk : s.port.tags[k] = .orphaned o) :
      Move s (settle ((s.setTag k .free).post (orphanRecord .orphanLate o k))).refreshAlert
  | response (s : State) (k : Tag) (n : EntryNo) (fl : Flight) (e : Entry) (status : DownStatus)
      (data : List RBeat) (h : s.resetAsserted = false) (hk : s.port.tags[k] = .bound n (some fl))
      (he : s.entry? n = some e) : Move s (settle (s.takeResponse e k fl.kind status data)).refreshAlert
  | expiry (s : State) (k : Tag) (n : EntryNo) (fl : Flight) (e : Entry) (r : Run)
      (hk : s.port.tags[k] = .bound n (some fl)) (he : s.entry? n = some e) (hr : e.run = some r) :
      Move s (settle (s.expire e r k fl.kind)).refreshAlert
  | assertReset (s : State) (midFrame : Bool) : Move s (s.assertReset midFrame)
  | releaseReset (s : State) (midFrame : Bool) : Move s (s.releaseReset midFrame)
  | pulseReset (s : State) (midFrame : Bool) : Move s ((s.assertReset midFrame).releaseReset midFrame)
  | link (s : State) (l : Link) (hl : s.LinkChange l) : Move s { s with link := l }
  | staging (s : State) (l : Link) (t : WindowTable) (h : s.resetAsserted = false) (hl : s.LinkChange l) :
      Move s { s with link := l, gens := { s.gens with staging := t } }
  | mask (s : State) (l : Link) (h : s.resetAsserted = false) : Move s ({ s with link := l } : State).refreshAlert
  | commit (s : State) (l : Link) (h : s.resetAsserted = false) (hr : s.gens.retiring = none)
      (hv : s.gens.staging.firstFailure = none) (hl : s.LinkChange l) :
      Move s ({ s.advanceGeneration with link := l } : State).refreshAlert
  | summaryPop (s : State) (l : Link) (r : StatsRecord) (q : List StatsRecord) (h : s.resetAsserted = false)
      (hq : s.stats.queue = r :: q) :
      Move s ({ s with link := l, stats := { s.stats with queue := q } } : State).refreshAlert
  | faultPop (s : State) (l : Link) (r : FaultRecord) (q : List FaultRecord) (h : s.resetAsserted = false)
      (hq : s.faults = r :: q) : Move s ({ s with link := l, faults := q } : State).refreshAlert
  | purge (s : State) (b p : List Byte) (h : s.resetAsserted = false) :
      Move s (((settle (Config.sixteen.foldl purgeTag (s.setMiso b))).respond .ok p).refreshAlert)
  | softReset (s : State) (b : List Byte) (h : s.resetAsserted = false) :
      Move s (((offerNext (s.setMiso b).softResetBlocks).respond .ok []).refreshAlert)

/-- One of the changes listed, or a counted reference-clock edge. -/
def State.Change (s t : State) : Prop := s.Move t ∨ t = s.elapse 1

/-- A discarded frame changes the link alone. -/
theorem discardFrame_move (s : State) (n : Nat) : s.Move (s.discardFrame n) := .link s _ ⟨rfl, fun _ => rfl⟩

/-- A frame that is not ignored finds RESET_N released. -/
theorem takes_released (s : State) (h : ¬ s.ignoresFrame = true) : s.resetAsserted = false :=
  (s.ignoresFrame_iff.1 (by simpa using h)).1

/-- A frame is discarded, answered FRAMING, or carried out. -/
theorem takeFrame_move (s : State) (n : Nat) (f : State → State)
    (h : s.resetAsserted = false → s.Move (f (s.setMiso (List.replicate (3 + n) 0xFF)))) :
    s.Move (s.takeFrame n f) := by
  unfold takeFrame
  dsimp only
  split
  · exact discardFrame_move s _
  · rename_i hr
    have hr := takes_released s hr
    split
    · exact .link s _ ⟨rfl, fun hr' => by rw [hr] at hr'; cases hr'⟩
    · exact h hr

/-- An answer that changes the link alone. -/
theorem respond_move (s : State) (b : List Byte) (st : LinkStatus) (p : List Byte) (h : s.resetAsserted = false) :
    s.Move ((s.setMiso b).respond st p) :=
  .link s _ ⟨rfl, fun hr => by rw [h] at hr; cases hr⟩

theorem noArguments_move (s : State) (b : List Byte) (args : List Byte) (f : State → State)
    (h : s.resetAsserted = false) (hf : s.Move (f (s.setMiso b))) : s.Move (noArguments args f (s.setMiso b)) := by
  unfold noArguments
  split
  · exact hf
  · exact respond_move s b _ _ h

theorem oneArgument_move (s : State) (b : List Byte) (args : List Byte) (f : Byte → State → State)
    (h : s.resetAsserted = false) (hf : ∀ x, s.Move (f x (s.setMiso b))) :
    s.Move (oneArgument args f (s.setMiso b)) := by
  unfold oneArgument
  split
  · exact hf _
  · exact respond_move s b _ _ h
  · exact respond_move s b _ _ h

theorem respondDown_move (s : State) (kind : Dir) (k : Tag) (st : DownStatus) (d : List RBeat) :
    s.Move (s.respondDown kind k st d) := by
  unfold respondDown
  split
  · exact .same s
  · rename_i h
    have h : s.resetAsserted = false := by simpa using h
    split
    · exact .stray s kind k h
    · rename_i o hk; exact .late s k o h hk
    · exact .stray s kind k h
    · rename_i n fl hk
      split
      · rename_i hkind
        split
        · exact .same s
        · rename_i e he; subst hkind; exact .response s k n fl e st d h hk he
      · exact .stray s kind k h

/-- The expiry of one tag. -/
theorem expireTag_move (s : State) (k : Tag) : s.Move (s.expireTag k) := by
  unfold expireTag
  split
  · exact .same s
  · exact .same s
  · exact .same s
  · rename_i n fl hk
    split
    · exact .same s
    · rename_i e he
      split
      · exact .same s
      · rename_i r hr; exact .expiry s k n fl e r hk he hr

/-- The expiries of an edge, one after the other. -/
theorem expireDue_changes (s : State) : Relation.ReflTransGen State.Change s s.expireDue := by
  unfold expireDue
  generalize s.dueTags = l
  induction l generalizing s with
  | nil => exact .refl
  | cons k l ih => exact .head (.inl (expireTag_move s k)) (ih _)

/-- A reference-clock edge with the expiries it brings, and any number of them. -/
theorem tick_changes (s : State) : Relation.ReflTransGen State.Change s s.tick :=
  .head (.inr rfl) (expireDue_changes _)

theorem ticks_changes (n : Nat) (s : State) : Relation.ReflTransGen State.Change s (State.tick^[n] s) := by
  induction n generalizing s with
  | zero => exact .refl
  | succ n ih => exact (tick_changes s).trans (ih _)

/-- The expiry that DEADLINE_EXPIRY takes, with the edges before it and the expiries beside it. -/
theorem takeExpiry_changes (s : State) (k : Tag) : Relation.ReflTransGen State.Change s (s.takeExpiry k) := by
  unfold takeExpiry
  split
  · exact .refl
  · exact .refl
  · exact .refl
  · split
    · exact .refl
    · exact (((ticks_changes _ s).tail (.inr rfl)).tail (.inl (expireTag_move _ k))).trans (expireDue_changes _)

/-- Every command but a raw frame and DEADLINE_EXPIRY makes one of the changes listed. -/
theorem exec_move (c : Instr) (s : State) (h : ∀ f, c ≠ .rejectedFrame f) (hk : ∀ k, c ≠ .deadlineExpiry k) :
    ∃ t, exec c s = .next t ∧ s.Move t := by
  have frame : ∀ (n : Nat) (f : State → State),
      (s.resetAsserted = false → s.Move (f (s.setMiso (List.replicate (3 + n) 0xFF)))) →
        ∃ t, (Host.Outcome.next (s.takeFrame n f) : Host.Outcome State Fault Refusal) = .next t ∧ s.Move t :=
    fun n f hf => ⟨_, rfl, takeFrame_move s n f hf⟩
  have quiet : ∀ {l : Link}, s.resetAsserted = false → l.mask = s.link.mask → s.LinkChange l :=
    fun h hm => ⟨hm, fun hr => by rw [h] at hr; cases hr⟩
  cases c with
  | readRequest => exact ⟨_, rfl, .arrive s _⟩
  | writeRequest => exact ⟨_, rfl, .arrive s _⟩
  | retirement =>
    simp only [exec, execRetirement]
    split
    · exact ⟨_, rfl, .same s⟩
    · rename_i o ho
      split
      · exact ⟨_, rfl, .same s⟩
      · rename_i e he; exact ⟨_, rfl, .retire s o e ho he⟩
  | downRequestAccepted =>
    simp only [exec, execDownRequestAccepted]
    split
    · exact ⟨_, rfl, .same s⟩
    · rename_i d hd; exact ⟨_, rfl, .accepted s d hd⟩
  | downReadReturn => exact ⟨_, rfl, respondDown_move s _ _ _ _⟩
  | downWriteReturn => exact ⟨_, rfl, respondDown_move s _ _ _ _⟩
  | deadlineExpiry k => exact absurd rfl (hk k)
  | powerOnReset event =>
    obtain ⟨pin, m⟩ := event
    cases pin
    · exact ⟨_, rfl, .pulseReset s m⟩
    · exact ⟨_, rfl, .assertReset s m⟩
    · exact ⟨_, rfl, .releaseReset s m⟩
  | query => exact frame _ _ fun h => noArguments_move s _ _ _ h (.link s _ (quiet h rfl))
  | stageWrite args =>
    refine frame _ _ fun h => ?_
    unfold State.stageWrite
    split
    · exact respond_move s _ _ _ h
    · exact .staging s _ _ h (quiet h rfl)
  | stageRead =>
    refine frame _ _ fun h => oneArgument_move s _ _ _ h fun x => ?_
    unfold State.stageRead
    split
    · exact respond_move s _ _ _ h
    · exact respond_move s _ _ _ h
  | activeRead =>
    refine frame _ _ fun h => oneArgument_move s _ _ _ h fun x => ?_
    unfold State.activeRead
    split
    · exact respond_move s _ _ _ h
    · exact respond_move s _ _ _ h
  | stageClear =>
    refine frame _ _ fun h => oneArgument_move s _ _ _ h fun x => ?_
    unfold State.stageClear
    split
    · exact .staging s _ _ h (quiet h rfl)
    · split
      · exact respond_move s _ _ _ h
      · exact .staging s _ _ h (quiet h rfl)
  | stageCopy => exact frame _ _ fun h => noArguments_move s _ _ _ h (.staging s _ _ h (quiet h rfl))
  | commit args =>
    refine frame _ _ fun h => noArguments_move s _ _ _ h ?_
    unfold State.commit
    split
    · exact respond_move s _ _ _ h
    · rename_i hr
      split
      · exact respond_move s _ _ _ h
      · rename_i hv
        have e : (s.setMiso (List.replicate (3 + args.length) 255)).advanceGeneration.respond .accepted
            [(s.setMiso (List.replicate (3 + args.length) 255)).gens.active.number + 1] =
              { s.advanceGeneration with
                link :=
                  { s.link with
                    response :=
                      some
                        { status := .accepted, priorDiscarded := s.link.response.isSome
                          payload := [s.gens.active.number + 1] }
                    discarded := s.link.discarded || s.link.response.isSome
                    miso := List.replicate (3 + args.length) 255 } } := by
          by_cases h0 : s.table.activeCount = 0
          · simp only [advanceGeneration, setMiso_table, h0, if_true]; rfl
          · simp only [advanceGeneration, setMiso_table, h0, if_false]; rfl
        rw [e]
        exact .commit s _ h hr hv (quiet h rfl)
  | statsRead =>
    refine frame _ _ fun h => oneArgument_move s _ _ _ h fun x => ?_
    unfold State.statsRead
    dsimp only
    split
    · exact respond_move s _ _ _ h
    · split
      · exact respond_move s _ _ _ h
      · split
        · exact respond_move s _ _ _ h
        · exact respond_move s _ _ _ h
  | summaryPop =>
    refine frame _ _ fun h => noArguments_move s _ _ _ h ?_
    unfold State.summaryPop
    split
    · exact respond_move s _ _ _ h
    · rename_i r q hq; exact .summaryPop s _ r q h hq
  | faultPop =>
    refine frame _ _ fun h => noArguments_move s _ _ _ h ?_
    unfold State.faultPop
    split
    · exact respond_move s _ _ _ h
    · rename_i r q hq; exact .faultPop s _ r q h hq
  | setParamTimeout value =>
    refine frame _ _ fun hr => ?_
    unfold State.setTimeout
    split
    · exact .link s _ (quiet hr rfl)
    all_goals exact respond_move s _ _ _ hr
  | setParamAlertMask value =>
    refine frame _ _ fun h => oneArgument_move s _ _ _ h fun x => ?_
    unfold State.setMask
    split
    · exact .mask s _ h
    · exact respond_move s _ _ _ h
  | purge => exact frame _ _ fun h => noArguments_move s _ _ _ h (.purge s _ _ h)
  | softReset => exact frame _ _ fun h => noArguments_move s _ _ _ h (.softReset s _ h)
  | fetch k =>
    simp only [exec, execFetch]
    split
    · exact ⟨_, rfl, discardFrame_move s _⟩
    · rename_i hr
      have hr := takes_released s hr
      split
      · exact ⟨_, rfl, .link s _ (quiet hr rfl)⟩
      · exact ⟨_, rfl, .link s _ (quiet hr rfl)⟩
  | rejectedFrame f => exact absurd rfl (h f)

/-- A raw frame is ignored, rejected, or the command it spells. -/
theorem execRejectedFrame_cases (f : List Bool) (s : State) :
    execRejectedFrame f s = .next s ∨ execRejectedFrame f s = .next s.endCut ∨
      execRejectedFrame f s = .next (s.rejectRaw (wholeBytes f)) ∨
        ∃ c, (∀ g, c ≠ .rejectedFrame g) ∧ (∀ k, c ≠ .deadlineExpiry k) ∧ execRejectedFrame f s = exec c s := by
  unfold execRejectedFrame
  split
  · exact .inr (.inl rfl)
  · exact .inr (.inr (.inl rfl))
  · exact .inr (.inr (.inr ⟨.fetch _, by simp, by simp, rfl⟩))
  · exact .inr (.inr (.inr ⟨.query _, by simp, by simp, rfl⟩))
  · exact .inr (.inr (.inr ⟨.stageWrite _, by simp, by simp, rfl⟩))
  · exact .inr (.inr (.inr ⟨.stageRead _, by simp, by simp, rfl⟩))
  · exact .inr (.inr (.inr ⟨.activeRead _, by simp, by simp, rfl⟩))
  · exact .inr (.inr (.inr ⟨.stageClear _, by simp, by simp, rfl⟩))
  · exact .inr (.inr (.inr ⟨.stageCopy _, by simp, by simp, rfl⟩))
  · exact .inr (.inr (.inr ⟨.commit _, by simp, by simp, rfl⟩))
  · exact .inr (.inr (.inr ⟨.statsRead _, by simp, by simp, rfl⟩))
  · exact .inr (.inr (.inr ⟨.summaryPop _, by simp, by simp, rfl⟩))
  · exact .inr (.inr (.inr ⟨.faultPop _, by simp, by simp, rfl⟩))
  · exact .inr (.inr (.inr ⟨.setParamTimeout _, by simp, by simp, rfl⟩))
  · exact .inr (.inr (.inr ⟨.setParamAlertMask _, by simp, by simp, rfl⟩))
  · exact .inr (.inr (.inr ⟨.purge _, by simp, by simp, rfl⟩))
  · exact .inr (.inr (.inr ⟨.softReset _, by simp, by simp, rfl⟩))
  all_goals exact .inl rfl

theorem rejectRaw_move (f : List Byte) (s : State) : s.Move (s.rejectRaw f) := by
  unfold rejectRaw
  dsimp only
  split
  · exact discardFrame_move s _
  · rename_i hr
    have hr := takes_released s hr
    split
    · exact .link s _ ⟨rfl, fun h => by rw [hr] at h; cases h⟩
    · exact respond_move s _ _ _ hr

/-- Every command makes one of the changes listed, or is DEADLINE_EXPIRY. -/
theorem exec_cases (c : Instr) (s : State) :
    ∃ t, exec c s = .next t ∧ (s.Move t ∨ ∃ k, c = .deadlineExpiry k ∧ t = s.takeExpiry k) := by
  by_cases hk : ∀ k, c ≠ .deadlineExpiry k
  · by_cases h : ∀ f, c ≠ .rejectedFrame f
    · obtain ⟨t, h1, h2⟩ := exec_move c s h hk
      exact ⟨t, h1, .inl h2⟩
    · push Not at h
      obtain ⟨f, rfl⟩ := h
      rcases execRejectedFrame_cases f s with h | h | h | ⟨c, hc, hc', h⟩
      · exact ⟨_, h, .inl (.same s)⟩
      · exact ⟨_, h, .inl (.link s _ ⟨rfl, fun _ => rfl⟩)⟩
      · exact ⟨_, h, .inl (rejectRaw_move _ s)⟩
      · obtain ⟨t, h1, h2⟩ := exec_move c s hc hc'
        exact ⟨t, h.trans h1, .inl h2⟩
  · push Not at hk
    obtain ⟨k, rfl⟩ := hk
    exact ⟨_, rfl, .inr ⟨k, rfl, rfl⟩⟩

/-- Every step is a tick on an empty queue, or on the queue's rest one of the changes listed or the expiry that
DEADLINE_EXPIRY takes. -/
theorem step_cases (s t : State) (h : step s = .next t) :
    (s.pending = [] ∧ t = s.tick) ∨
      ∃ c rest, s.pending = c :: rest ∧
        (State.Move { s with pending := rest } t ∨ ∃ k, t = State.takeExpiry { s with pending := rest } k) := by
  unfold step at h
  split at h
  · rename_i hp
    injection h with h; exact .inl ⟨hp, h.symm⟩
  · rename_i c rest hp
    obtain ⟨u, h1, h2⟩ := exec_cases c { s with pending := rest }
    rw [h1] at h; injection h with h; subst h
    refine .inr ⟨c, rest, hp, ?_⟩
    rcases h2 with h2 | ⟨k, -, h2⟩
    · exact .inl h2
    · exact .inr ⟨k, h2⟩

/-- Every step is a sequence of the changes listed and of counted edges, on the state with the queue's rest. -/
theorem step_changes (s t : State) (h : step s = .next t) :
    ∃ rest, Relation.ReflTransGen State.Change { s with pending := rest } t := by
  rcases step_cases s t h with ⟨hp, rfl⟩ | ⟨c, rest, -, hm | ⟨k, rfl⟩⟩
  · have : ({ s with pending := [] } : State) = s := by cases s; simp_all
    exact ⟨[], this ▸ tick_changes s⟩
  · exact ⟨rest, .single (.inl hm)⟩
  · exact ⟨rest, takeExpiry_changes _ k⟩

/-- What the queue's own change, a counted edge and every change listed keep, every step keeps. -/
theorem step_keeps (P : State → Prop) (hqueue : ∀ s rest, P s → P { s with pending := rest })
    (hedge : ∀ s : State, P s → P (s.elapse 1)) (hmove : ∀ s t, State.Move s t → P s → P t) (s t : State) (h : P s)
    (hst : step s = .next t) : P t := by
  obtain ⟨rest, hm⟩ := step_changes s t hst
  have := hqueue s rest h
  clear h hst
  induction hm with
  | refl => exact this
  | tail _ hm ih =>
    rcases hm with hm | rfl
    · exact hmove _ _ hm ih
    · exact hedge _ ih

end Sys2Proof.Machine
end

