-- ==== Sys2Proof/Laws/Banks.lean ====
section
/-!
SUPPORT. The banks, the statistics records and the two queues through the operations of a step: which leave
them as they are, and what a close and a transfer do to them.
-/

namespace Sys2Proof.Machine

open State

/-- The banks, the shapes of the open records and the summary queue are as they were. -/
def SameGens (s t : State) : Prop := t.gens = s.gens ∧ t.stats.active.shape = s.stats.active.shape ∧
    t.stats.retiring.map StatsRecord.shape = s.stats.retiring.map StatsRecord.shape ∧
        t.stats.queue = s.stats.queue

theorem SameGens.refl (s : State) : SameGens s s := ⟨rfl, rfl, rfl, rfl⟩
theorem SameGens.trans {s t u : State} (h : SameGens s t) (h' : SameGens t u) : SameGens s u :=
  ⟨h'.1.trans h.1, h'.2.1.trans h.2.1, h'.2.2.1.trans h.2.2.1, h'.2.2.2.trans h.2.2.2⟩
theorem Unmoved.sameGens {s t : State} (h : s.Unmoved t) : SameGens s t := ⟨h.2.2.2.1, h.2.2.2.2.2.2.2.2.1,
    h.2.2.2.2.2.2.2.2.2.1, h.2.2.2.2.2.2.2.1⟩

theorem drain_sameGens (k : Nat) (s : State) : SameGens s (drainRequests k s) := by
  refine drain_keeps (fun t => SameGens s t) ?_ k s (.refl s)
  intro u n r rest h _ _ _
  refine h.trans (SameGens.trans ?_ (Unmoved.sameGens (settle_unmoved _)))
  obtain ⟨q, -, he⟩ := accept_eq { u with requests := rest } n r
  rw [he]
  unfold acceptedStats
  split
  · obtain ⟨h1, h2, h3⟩ := addTo_shape u.stats (some u.gens.active.number) _
      (acceptBeats_shape u.gens.active.table r.dir (u.gens.active.table.claimsOf r))
    exact ⟨rfl, h1, h2, h3⟩
  · exact ⟨rfl, rfl, rfl, rfl⟩

theorem GenerationsSound_congr {s t : State} (h : s.GenerationsSound) (hs : SameGens s t) : t.GenerationsSound := by
  obtain ⟨h1, h2, h3, h4⟩ := hs
  exact ⟨h1 ▸ h.1, h1 ▸ h.2, h1 ▸ h.3, by rw [h2, h1]; exact h.4, by rw [h3, h1]; exact h.5⟩

theorem endEntry_sameGens (u : State) (a b c d f) : SameGens u (u.endEntry a b c d f) := by
  unfold endEntry; dsimp only; split <;> exact ⟨rfl, rfl, rfl, rfl⟩

theorem takeResponse_sameGens (u : State) (e k kind st d) : SameGens u (u.takeResponse e k kind st d) := by
  unfold takeResponse
  split
  · exact .refl u
  · split
    · split
      · split
        · unfold mergeOldData; split
          · exact .refl u
          · split
            · exact .refl u
            · exact ⟨rfl, rfl, rfl, rfl⟩
        · apply endEntry_sameGens
      · unfold endInError; exact (endEntry_sameGens u _ _ _ _ _).trans ⟨rfl, rfl, rfl, rfl⟩
    · unfold endInError; exact (endEntry_sameGens u _ _ _ _ _).trans ⟨rfl, rfl, rfl, rfl⟩
    · apply endEntry_sameGens
    · unfold endInError; exact (endEntry_sameGens u _ _ _ _ _).trans ⟨rfl, rfl, rfl, rfl⟩

theorem purge_sameGens (l : List Tag) (v : State) : SameGens v (l.foldl purgeTag v) := by
  induction l generalizing v with
  | nil => exact .refl v
  | cons a l ih =>
    rw [List.foldl_cons]
    refine SameGens.trans ?_ (ih _)
    unfold purgeTag; split <;> exact ⟨rfl, rfl, rfl, rfl⟩

theorem answer_sameGens (s : State) (st p) : SameGens s ((s.respond st p).refreshAlert) := ⟨rfl, rfl, rfl, rfl⟩
theorem expire_sameGens (s : State) (e r k d) : SameGens s (s.expire e r k d) :=
  SameGens.trans (t := s.endEntry e k (.orphaned (orphanOf e r d)) .fault none) (endEntry_sameGens _ _ _ _ _ _)
    ⟨rfl, rfl, rfl, rfl⟩
theorem refreshAlert_sameGens (s : State) : SameGens s s.refreshAlert := ⟨rfl, rfl, rfl, rfl⟩

/-! ## Closes and transfers -/

theorem countRetired_gens (s : State) (b : Option Gen) : SameGens s (s.countRetired b) ∨ ((∃ bk,
    s.gens.retiring = some bk) ∧ SameGens s.closeRetiring (s.countRetired b)) := by
  unfold countRetired
  split
  · exact .inl (.refl s)
  · split
    · exact .inl ⟨rfl, rfl, rfl, rfl⟩
    · split
      · exact .inl (.refl s)
      · rename_i bk hb
        split
        · dsimp only; split
          · exact .inr ⟨⟨bk, hb⟩, ⟨rfl, rfl, rfl, rfl⟩⟩
          · exact .inl ⟨rfl, rfl, rfl, rfl⟩
        · exact .inl (.refl s)

theorem retire_gens (s : State) (e : Entry) : SameGens s (s.retire e) ∨ ((∃ bk, s.gens.retiring = some bk) ∧
    SameGens s.closeRetiring (s.retire e)) := by
  have h1 : SameGens s (s.release e.no) := ⟨rfl, rfl, rfl, rfl⟩
  have tail : ∀ v, SameGens v (drainRequests 16 (settle (v.setOffer none))).refreshAlert := fun v =>
    (SameGens.trans (s := v) (t := v.setOffer none) ⟨rfl, rfl, rfl, rfl⟩ ((Unmoved.sameGens
        (settle_unmoved _)).trans ((drain_sameGens _ _).trans (refreshAlert_sameGens _))))
  rcases countRetired_gens (s.release e.no) e.bound with h | ⟨hb, h⟩
  · exact .inl (h1.trans (h.trans (tail _)))
  · right
    refine ⟨hb, ?_⟩
    have : SameGens s.closeRetiring (s.release e.no).closeRetiring := ⟨rfl, rfl, rfl, rfl⟩
    exact this.trans (h.trans (tail _))

theorem closeRetiring_gens (s : State) (h : s.GenerationsSound) : s.closeRetiring.GenerationsSound :=
  ⟨h.1, fun b hb => (by cases hb), fun b hb => (by cases hb), h.4, rfl⟩

theorem transferBanks_gens (s : State) (h : s.GenerationsSound) (hv : s.gens.staging.firstFailure = none) :
    s.transferBanks.GenerationsSound := by
  refine ⟨hv, fun b hb => ?_, fun b hb => ?_, rfl, ?_⟩
  · simp only [transferBanks_gens_retiring, Option.some.injEq] at hb; subst hb; exact h.1
  · simp only [transferBanks_gens_retiring, Option.some.injEq] at hb; subst hb; simp
  · simp [h.4]

theorem shape_gen {r : StatsRecord} {b : Bank} (h : r.shape = b.shape) : r.gen = b.number := by
  have := congrArg Prod.fst h; exact this

/-! ## The two queues -/

theorem consecutive_tail {l : List Gen} {a : Gen} (h : consecutive (a :: l)) : consecutive l := by
  cases l with
  | nil => trivial
  | cons b l => exact h.2

theorem consecutive_snoc {l : List Gen} {a : Gen} (h : consecutive (l ++ [a])) : consecutive (l ++ [a, a + 1]) := by
  induction l with
  | nil => exact ⟨rfl, trivial⟩
  | cons b l ih =>
    cases l with
    | nil => exact ⟨h.1, rfl, trivial⟩
    | cons c l => exact ⟨h.1, ih h.2⟩

theorem SummariesConsecutive_congr {s t : State} (h : s.SummariesConsecutive) (hs : SameGens s t) : t.SummariesConsecutive := by
  obtain ⟨h1, h2, h3, h4⟩ := hs
  unfold SummariesConsecutive oldestLive at *; rw [h1, h4]; exact h

theorem drain_faults (k : Nat) (s : State) (h : s.faults.length ≤ 8) : (drainRequests k s).faults.length ≤ 8 :=
    by
  refine drain_keeps (fun t => t.faults.length ≤ 8) ?_ k s h
  intro u n r rest h _ _ _
  obtain ⟨q, hq, he⟩ := accept_eq { u with requests := rest } n r
  rw [(settle_unmoved _).2.2.2.2.1, he]
  rcases hq with rfl | ⟨r, rfl⟩
  · exact h
  · exact postRecord_bounded _ _ h

theorem endEntry_faults (u : State) (a b c d f) : (u.endEntry a b c d f).faults = u.faults := by
  unfold endEntry; dsimp only; split <;> rfl

theorem takeResponse_faults (u : State) (e k kind st d) (h : u.faults.length ≤ 8) :
    (u.takeResponse e k kind st d).faults.length ≤ 8 := by
  have h1 : ∀ r b, (u.endInError e r k b).faults.length ≤ 8 := by
    intro r b; unfold endInError; rw [post_faults, endEntry_faults]; exact postRecord_bounded _ _ h
  unfold takeResponse
  split
  · exact h
  · split
    · split
      · split
        · unfold mergeOldData; split
          · exact h
          · split <;> exact h
        · rw [endEntry_faults]; exact h
      · apply h1
    · apply h1
    · rw [endEntry_faults]; exact h
    · apply h1

theorem purge_faults (l : List Tag) (v : State) (h : v.faults.length ≤ 8) :
    (l.foldl purgeTag v).faults.length ≤ 8 := by
  induction l generalizing v with
  | nil => exact h
  | cons a l ih =>
    rw [List.foldl_cons]
    apply ih
    unfold purgeTag; split
    · exact h
    · exact h
    · exact postRecord_bounded _ _ h

theorem closeRetiring_consecutive (s : State) (hg : s.GenerationsSound) (h : s.SummariesConsecutive) (hb : ∃ b,
    s.gens.retiring = some b) : s.closeRetiring.SummariesConsecutive := by
  obtain ⟨b, hb⟩ := hb
  have hr := hg.5
  rw [hb] at hr
  cases hst : s.stats.retiring with
  | none => rw [hst] at hr; cases hr
  | some r =>
    rw [hst] at hr
    simp only [Option.map_some, Option.some.injEq] at hr
    have hgen := shape_gen hr
    have hnum := hg.3 b hb
    unfold SummariesConsecutive oldestLive at *
    rw [hb] at h
    simp only at h
    have e : s.closeRetiring.stats.queue = fileSummary s.stats.queue r := by simp [closeRetiring, hst]
    have e2 : s.closeRetiring.gens.retiring = none := rfl
    rw [e2, e]
    have hact : s.closeRetiring.gens.active.number = r.gen + 1 := by
      rw [hgen, hnum]; show s.gens.active.number = _; simp
    rw [← hgen] at h
    simp only [hact]
    unfold fileSummary
    split
    · rw [List.map_append, List.append_assoc]; exact consecutive_snoc h
    · rw [List.map_append, List.append_assoc]
      cases hq : s.stats.queue with
      | nil => exact ⟨rfl, trivial⟩
      | cons x q =>
        rw [hq] at h
        exact consecutive_snoc (consecutive_tail h)

theorem closeRetiring_bounded (s : State) (h : s.stats.queue.length ≤ 4) : s.closeRetiring.stats.queue.length ≤ 4 := by
  unfold closeRetiring; dsimp only; split
  · exact h
  · exact fileSummary_bounded _ _ h

theorem transferBanks_consecutive (s : State) (h : s.SummariesConsecutive) (hr : s.gens.retiring = none) :
    s.transferBanks.SummariesConsecutive := by
  unfold SummariesConsecutive oldestLive at *
  rw [hr] at h
  exact h

end Sys2Proof.Machine
end

