-- ==== Sys2Proof/Laws/Bytes.lean ====
section
/-!
SUPPORT. The byte layouts of the management link read back: numbers, codes and flag bits, each both ways.
-/

namespace Sys2Proof.Machine

/-! ## Numbers -/

theorem bytesBE_length (k n : Nat) : (bytesBE k n).length = k := by
  induction k with
  | zero => rfl
  | succ k ih => simp [bytesBE, ih]

theorem numberBE_append (v w : List Byte) : numberBE (v ++ w) = numberBE v * 256 ^ w.length + numberBE w := by
  have shift : ∀ (w : List Byte) (acc : Nat),
      w.foldl (fun a (b : Byte) => 256 * a + b.toNat) acc = acc * 256 ^ w.length + numberBE w := by
    intro w
    induction w with
    | nil => intro acc; simp only [List.foldl_nil, List.length_nil, pow_zero, numberBE]; omega
    | cons b w ih =>
      intro acc
      have h := ih (256 * 0 + b.toNat)
      rw [List.foldl_cons, ih, show numberBE (b :: w) = _ from h, List.length_cons]; ring
  rw [numberBE, List.foldl_append, shift]; rfl

theorem numberBE_cons (b : Byte) (v : List Byte) : numberBE (b :: v) = b.toNat * 256 ^ v.length + numberBE v := by
  rw [show b :: v = [b] ++ v from rfl, numberBE_append]
  simp only [numberBE, List.foldl_cons, List.foldl_nil, Nat.mul_zero, Nat.zero_add]

theorem numberBE_lt (v : List Byte) : numberBE v < 256 ^ v.length := by
  induction v with
  | nil => simp [numberBE]
  | cons b v ih =>
    rw [numberBE_cons, List.length_cons, pow_succ]
    have := b.isLt
    nlinarith [Nat.mul_le_mul_right (256 ^ v.length) (show b.toNat ≤ 255 by omega)]

/-- The high part of a number does not reach its low bytes. -/
theorem bytesBE_low (k a b : Nat) : bytesBE k (a * 256 ^ k + b) = bytesBE k b := by
  induction k generalizing a b with
  | zero => rfl
  | succ k ih =>
    have h1 : (a * 256 ^ (k + 1) + b) / 256 ^ k = a * 256 + b / 256 ^ k := by
      rw [pow_succ, show a * (256 ^ k * 256) = a * 256 * 256 ^ k by ring, Nat.add_comm,
        Nat.add_mul_div_right _ _ (Nat.pow_pos (by norm_num)), Nat.add_comm]
    have h2 : a * 256 ^ (k + 1) + b = a * 256 * 256 ^ k + b := by ring
    have h3 : BitVec.ofNat 8 (a * 256 + b / 256 ^ k) = BitVec.ofNat 8 (b / 256 ^ k) := by
      apply BitVec.eq_of_toNat_eq; simp only [BitVec.toNat_ofNat]; omega
    rw [bytesBE, h1, h3, h2, ih, bytesBE]

/-- Writing the number that `k` bytes spell in `k` bytes gives them back. -/
theorem bytesBE_numberBE (v : List Byte) : bytesBE v.length (numberBE v) = v := by
  induction v with
  | nil => rfl
  | cons b v ih =>
    have hd : (b.toNat * 256 ^ v.length + numberBE v) / 256 ^ v.length = b.toNat := by
      rw [Nat.add_comm, Nat.add_mul_div_right _ _ (Nat.pow_pos (by norm_num)),
        Nat.div_eq_of_lt (numberBE_lt v), Nat.zero_add]
    rw [numberBE_cons, List.length_cons, bytesBE, hd, bytesBE_low, ih]
    simp

/-- The bytes of a number that fits spell it. -/
theorem numberBE_bytesBE (k n : Nat) (h : n < 256 ^ k) : numberBE (bytesBE k n) = n := by
  induction k generalizing n with
  | zero => simp only [pow_zero] at h; simp only [bytesBE, numberBE, List.foldl_nil]; omega
  | succ k ih =>
    have hq : n / 256 ^ k < 256 := by
      rw [pow_succ] at h; exact Nat.div_lt_of_lt_mul h
    have hl : bytesBE k n = bytesBE k (n % 256 ^ k) := by
      rw [← bytesBE_low k (n / 256 ^ k) (n % 256 ^ k), Nat.div_add_mod']
    rw [bytesBE, numberBE_cons, bytesBE_length, hl, ih _ (Nat.mod_lt _ (Nat.pow_pos (by norm_num))),
      BitVec.toNat_ofNat, Nat.mod_eq_of_lt (show n / 256 ^ k < 2 ^ 8 from hq)]
    rw [Nat.mul_comm]; exact Nat.div_add_mod n _

/-! ## Codes -/

theorem modeOf_iff (b : Byte) (x : Mode) : modeOf b = some x ↔ b = x.code := by
  revert b; cases x <;> decide +kernel

theorem formatOf_iff (b : Byte) (x : Format) : formatOf b = some x ↔ b = x.code := by
  revert b; cases x <;> decide +kernel

theorem yesNoOf_iff (b : Byte) (x : Bool) : yesNoOf b = some x ↔ b = yesNoCode x := by
  revert b; cases x <;> decide +kernel

theorem sourceOf_iff (b : Byte) (x : Source) : sourceOf b = some x ↔ b = x.code := by
  rcases x with j | _ | _
  · revert b; fin_cases j <;> decide +kernel
  · revert b; decide +kernel
  · revert b; decide +kernel

theorem alphaSourceOf_iff (b : Byte) (x : AlphaSource) : alphaSourceOf b = some x ↔ b = x.code := by
  revert b; cases x <;> decide +kernel

theorem alphaPolicyOf_iff (b : Byte) (x : AlphaPolicy) : alphaPolicyOf b = some x ↔ b = x.code := by
  revert b; cases x <;> decide +kernel

theorem componentOf_iff (b : Byte) (x : Fin 4) : componentOf b = some x ↔ b = BitVec.ofNat 8 x.val := by
  revert b; fin_cases x <;> decide +kernel

theorem patternKindOf_iff (b : Byte) (x : PatternKind) : patternKindOf b = some x ↔ b = x.code := by
  revert b; cases x <;> decide +kernel

theorem backgroundOf_iff (b : Byte) (x : Background) : backgroundOf b = some x ↔ b = x.code := by
  revert b; cases x <;> decide +kernel

/-- Two bytes spell a 16-bit value whose two bytes they are. -/
theorem bytesBE_two (v : BitVec 16) (hi lo : Byte) : bytesBE 2 v.toNat = [hi, lo] ↔ v = hi ++ lo := by
  have hn : (hi ++ lo : BitVec 16).toNat = 256 * hi.toNat + lo.toNat := by
    rw [BitVec.toNat_append, ← Nat.shiftLeft_add_eq_or_of_lt lo.isLt, Nat.shiftLeft_eq]; omega
  have hb := bytesBE_numberBE [hi, lo]
  rw [show numberBE [hi, lo] = 256 * hi.toNat + lo.toNat by simp [numberBE], ← hn] at hb
  constructor
  · intro h
    apply BitVec.eq_of_toNat_eq
    have := congrArg numberBE h
    rw [numberBE_bytesBE 2 _ v.isLt] at this
    rw [this, hn]; simp [numberBE]
  · rintro rfl; exact hb

end Sys2Proof.Machine
end

