-- ==== Sys2Proof/Laws/Ends.lean ====
section
/-!
SUPPORT. The agreement of entries, tags and merge slots, the order and the offer through the changes that
end or free things: the end of a transaction, a merge's old data, the release of an entry, a tag freed, a
purge, a soft reset; and what each of them leaves of the banks and records.
-/

namespace Sys2Proof.Machine

open State

/-! ## The end of an entry's transaction -/

theorem endEntry_eq (s : State) (e : Entry) (k : Tag) (ts : TagState) (st : TxStatus) (d : Option (List RBeat)) :
    s.endEntry e k ts st d =
      { s with
        table :=
          { s.table with
            entries :=
              s.table.entries.map (fun x =>
                if x.no = e.no then { e.completed st with rdata := completionData (s.tableOf e.bound) e d } else x) }
        port := { s.port with tags := s.port.tags.set k ts }
        merge :=
          match e.slot with
          | none => s.merge
          | some m => s.merge.set m none } := by
  unfold endEntry
  cases e.slot <;> rfl

theorem endEntry_path (s : State) (e : Entry) (k : Tag) (ts : TagState) (st : TxStatus) (d : Option (List RBeat))
    (h : s.PathSound) (he : e ∈ s.table.entries) (hk : e.tag = some k) (hts : ∀ n fl, ts ≠ .bound n fl) :
    (s.endEntry e k ts st d).PathSound := by
  have hs := h.entries e he
  have hheld : e.state ≠ .held := by
    intro hh
    have := hs.tag
    rw [hk, hh] at this; cases this
  have hb : e.blockers = [] := by
    by_contra hne; exact hheld (hs.held.2 hne)
  rw [endEntry_eq]
  refine h.update (e := e) (e' := { e.completed st with rdata := completionData (s.tableOf e.bound) e d }) (k := k)
    (ts := ts) he rfl rfl rfl ?_ (.inl hk) (.inr ⟨rfl, hts⟩) ?_
  · exact ⟨fun hh => absurd rfl hh, hs.span, rfl, by simp [Entry.completed], by simp [Entry.completed],
      by simp [Entry.completed], hs.write, by simp [Entry.completed, hb]⟩
  · cases hsl : e.slot with
    | none => exact .inl ⟨rfl, rfl⟩
    | some m => exact .inr ⟨m, none, rfl, .inl rfl, .inr ⟨rfl, rfl⟩⟩

theorem endEntry_orderKey (s : State) (e : Entry) (k : Tag) (ts : TagState) (st : TxStatus)
    (d : Option (List RBeat)) (h : s.PathSound) (he : e ∈ s.table.entries) :
    (s.endEntry e k ts st d).table.entries.map Entry.orderKey = s.table.entries.map Entry.orderKey := by
  rw [endEntry_eq]
  show List.map _ (List.map _ _) = _
  rw [List.map_map]
  apply List.map_congr_left
  intro x hx
  by_cases hn : x.no = e.no
  · obtain rfl := h.same hx he hn
    simp [Entry.orderKey, Entry.completed]
  · simp [hn]

/-- An offer stands when entries keep their places and IDs and a COMPLETE entry does not change. -/
theorem OfferSound_map {s t : State} (h : s.OfferSound) (ho : t.table.offer = s.table.offer) (f : Entry → Entry)
    (ht : t.table.entries = s.table.entries.map f) (hid : ∀ x ∈ s.table.entries, (f x).id = x.id)
    (hc : ∀ x ∈ s.table.entries, x.state = .complete → f x = x) : t.OfferSound := by
  intro o hh
  obtain ⟨older, e, younger, hl, h1, h2, h3, h4⟩ := h o (ho ▸ hh)
  have he : f e = e := hc e (by rw [hl]; simp) h2
  refine ⟨older.map f, e, younger.map f, by rw [ht, hl, List.map_append, List.map_cons, he], h1, h2, h3, ?_⟩
  intro x hx
  obtain ⟨y, hy, rfl⟩ := List.mem_map.1 hx
  rw [hid y (by rw [hl]; simp [hy])]; exact h4 y hy

theorem endEntry_offer (s : State) (e : Entry) (k : Tag) (ts : TagState) (st : TxStatus) (d : Option (List RBeat))
    (h : s.PathSound) (ho : s.OfferSound) (he : e ∈ s.table.entries) (hk : e.tag = some k) :
    (s.endEntry e k ts st d).OfferSound := by
  have hnc : e.state ≠ .complete := by
    intro hh
    have := (h.entries e he).tag
    rw [hk, hh] at this; cases this
  rw [endEntry_eq]
  refine OfferSound_map ho rfl _ rfl (fun x hx => ?_) (fun x hx hst => ?_)
  · by_cases hn : x.no = e.no
    · obtain rfl := h.same hx he hn
      simp [Entry.completed]
    · simp [hn]
  · have : x.no ≠ e.no := by
      intro hn
      obtain rfl := h.same hx he hn
      exact hnc hst
    simp [this]

theorem mergeOldData_path (s : State) (e : Entry) (r : Run) (k : Tag) (d : List RBeat) (h : s.PathSound)
    (he : e ∈ s.table.entries) (hk : e.tag = some k) : (s.mergeOldData e r k d).PathSound := by
  unfold mergeOldData
  split
  · exact h
  · rename_i m hm
    split
    · exact h
    · rename_i w hw
      obtain ⟨w', k', fl, h1, h2, h3, -, -⟩ := h.work he hm
      rw [hw] at h1; injection h1 with h1; subst h1
      have hs := h.entries e he
      have hst : e.state = .merging := hs.slot.1 (by simp [hm])
      refine h.update (e := e) (e' := e) (k := k) (ts := .bound e.no none) he rfl
        (setEntry_self _ _ h.distinct he) rfl hs (.inl hk) (.inl ⟨hk, none, rfl, ?_⟩)
        (.inr ⟨m, _, rfl, .inl hm, .inl ⟨hm, _, rfl, h2⟩⟩)
      simp only [FlightFits, hst]
      exact ⟨m, { w with phase := .writeWait, oldData := [], merged := mergeRun (s.tableOf e.bound) e r d }, hm,
        by simp only [setTag_merge, setMerge_merge, store_set_get]; simp, h2, rfl⟩

/-- The three properties of the table that an answer of the memory side keeps. -/
def State.TableSound (s : State) : Prop := s.PathSound ∧ s.OrderKept ∧ s.OfferSound

theorem TableSound_congr {s t : State} (h : s.TableSound) (hes : t.table.entries = s.table.entries)
    (ho : t.table.offer = s.table.offer) (hm : t.merge = s.merge) (ht : t.port.tags = s.port.tags) :
    t.TableSound :=
  ⟨h.1.congr hes hm ht, OrderKept_congr h.2.1 (by rw [hes]),
    OfferSound_advanced h.2.2 ho (by rw [hes]; exact Advanced_same _)⟩

theorem settle_table (s : State) (h : s.TableSound) : (settle s).TableSound :=
  ⟨settle_path s h.1, settle_order s h.1 h.2.1, settle_offer s h.1 h.2.2⟩

theorem drain_table (k : Nat) (s : State) (h : s.TableSound) : (drainRequests k s).TableSound :=
  ⟨drain_path k s h.1, drain_order k s h.1 h.2.1, drain_offer k s h.1 h.2.2⟩

theorem endEntry_table (s : State) (e : Entry) (k : Tag) (ts : TagState) (st : TxStatus) (d : Option (List RBeat))
    (h : s.TableSound) (he : e ∈ s.table.entries) (hk : e.tag = some k) (hts : ∀ n fl, ts ≠ .bound n fl) :
    (s.endEntry e k ts st d).TableSound :=
  ⟨endEntry_path s e k ts st d h.1 he hk hts, OrderKept_congr h.2.1 (endEntry_orderKey s e k ts st d h.1 he),
    endEntry_offer s e k ts st d h.1 h.2.2 he hk⟩

theorem mergeOldData_table (s : State) (e : Entry) (r : Run) (k : Tag) (d : List RBeat) (h : s.TableSound)
    (he : e ∈ s.table.entries) (hk : e.tag = some k) : (s.mergeOldData e r k d).TableSound := by
  refine ⟨mergeOldData_path s e r k d h.1 he hk, ?_, ?_⟩
  · refine OrderKept_congr h.2.1 ?_
    unfold mergeOldData
    split
    · rfl
    · split <;> rfl
  · refine OfferSound_advanced h.2.2 ?_ ?_
    · unfold mergeOldData
      split
      · rfl
      · split <;> rfl
    · unfold mergeOldData
      split
      · exact Advanced_same _
      · split <;> exact Advanced_same _

theorem endInError_table (s : State) (e : Entry) (r : Run) (k : Tag) (kind : Dir) (h : s.TableSound)
    (he : e ∈ s.table.entries) (hk : e.tag = some k) : (s.endInError e r k kind).TableSound :=
  TableSound_congr (endEntry_table s e k .free .fault none h he hk (by simp)) rfl rfl rfl rfl

theorem takeResponse_table (s : State) (e : Entry) (k : Tag) (kind : Dir) (st : DownStatus) (d : List RBeat)
    (h : s.TableSound) (he : e ∈ s.table.entries) (hk : e.tag = some k) :
    (s.takeResponse e k kind st d).TableSound := by
  unfold takeResponse
  split
  · exact h
  · split
    · split
      · split
        · exact mergeOldData_table s e _ k d h he hk
        · exact endEntry_table s e k .free _ _ h he hk (by simp)
      · exact endInError_table s e _ k _ h he hk
    · exact endInError_table s e _ k _ h he hk
    · exact endEntry_table s e k .free _ _ h he hk (by simp)
    · exact endInError_table s e _ k _ h he hk

theorem expire_table (s : State) (e : Entry) (r : Run) (k : Tag) (kind : Dir) (h : s.TableSound)
    (he : e ∈ s.table.entries) (hk : e.tag = some k) : (s.expire e r k kind).TableSound :=
  TableSound_congr (endEntry_table s e k (.orphaned (orphanOf e r kind)) .fault none h he hk (by simp)) rfl rfl rfl rfl

/-! ## Tags -/

theorem elapse_get (s : State) (n : Nat) (k : Tag) :
    (s.elapse n).port.tags[k] =
      match s.port.tags[k] with
      | .bound e (some fl) => .bound e (some { fl with deadline := fl.deadline.map (· - n) })
      | other => other := by
  rw [elapse_port_tags, mapStore_get]
  cases s.port.tags[k] with
  | free => rfl
  | bound e fl => cases fl <;> rfl
  | orphaned => rfl

theorem elapse_table (s : State) (n : Nat) (h : s.TableSound) : (s.elapse n).TableSound := by
  refine ⟨h.1.retag rfl rfl fun k => ?_, OrderKept_congr h.2.1 rfl, OfferSound_advanced h.2.2 rfl (Advanced_same _)⟩
  rw [elapse_get]
  cases s.port.tags[k] with
  | free => exact ⟨fun _ _ h => (by cases h), fun _ _ h => (by cases h)⟩
  | orphaned o => exact ⟨fun _ _ h => (by cases h), fun _ _ h => (by cases h)⟩
  | bound e fl =>
    cases fl with
    | none => exact ⟨fun _ _ h => ⟨none, by injection h with h1 h2; subst h1; subst h2; simp⟩, fun _ fl h => ⟨fl, h⟩⟩
    | some fl =>
      refine ⟨fun n' fl' h => ?_, fun n' fl' h => ?_⟩
      · injection h with h1 h2; subst h1; subst h2; exact ⟨_, rfl, rfl⟩
      · injection h with h1 h2; subst h1; exact ⟨_, rfl⟩

/-- A tag that is not BOUND goes FREE. -/
theorem freeOrphan_table (s : State) (k : Tag) (o : Orphan) (hk : s.port.tags[k] = .orphaned o)
    (h : s.TableSound) : (s.setTag k .free).TableSound := by
  refine ⟨h.1.retag rfl rfl fun j => ?_, OrderKept_congr h.2.1 rfl, OfferSound_advanced h.2.2 rfl (Advanced_same _)⟩
  rw [setTag_port_tags, store_set_get]
  by_cases hj : k = j
  · subst hj
    rw [if_pos rfl, hk]
    exact ⟨fun _ _ h => (by cases h), fun _ _ h => (by cases h)⟩
  · rw [if_neg hj]
    exact ⟨fun _ fl h => ⟨fl, h, rfl⟩, fun _ fl h => ⟨fl, h⟩⟩

theorem purgeTag_table (s : State) (k : Tag) (h : s.TableSound) : (purgeTag s k).TableSound := by
  unfold purgeTag
  split
  · exact h
  · exact h
  · rename_i o hk
    exact TableSound_congr (freeOrphan_table s k o hk h) rfl rfl rfl rfl

theorem purge_table (l : List Tag) (s : State) (h : s.TableSound) : (l.foldl purgeTag s).TableSound := by
  induction l generalizing s with
  | nil => exact h
  | cons a l ih => exact ih _ (purgeTag_table s a h)

/-- Everything a PURGE does before the grants: the ORPHANED tags of a list go FREE, a record each. -/
theorem purge_fold (l : List Tag) (hd : l.Nodup) (s : State) :
    ∃ tags : Vector TagState 16,
      (∀ k : Tag, tags[k] = if k ∈ l ∧ (s.port.tags[k]).isOrphaned = true then .free else s.port.tags[k]) ∧
        l.foldl purgeTag s =
          { s with
            port := { s.port with tags := tags }
            faults :=
              (l.filterMap (fun k =>
                match s.port.tags[k] with
                | .free => none
                | .bound _ _ => none
                | .orphaned o => some (orphanRecord .purged o k))).foldl postRecord s.faults } := by
  induction l generalizing s with
  | nil => exact ⟨s.port.tags, by simp, rfl⟩
  | cons a l ih =>
    obtain ⟨ha, hd⟩ := List.nodup_cons.1 hd
    obtain ⟨tags, h1, h2⟩ := ih hd (purgeTag s a)
    rw [List.foldl_cons, h2]
    cases hs : s.port.tags[a] with
    | free =>
      have e : purgeTag s a = s := by simp only [purgeTag, hs]
      rw [e] at h1 ⊢
      refine ⟨tags, fun k => ?_, by rw [List.filterMap_cons, hs]⟩
      rw [h1]
      by_cases hk : k = a
      · subst hk; rw [hs]; simp [TagState.isOrphaned]
      · simp [hk]
    | bound n fl =>
      have e : purgeTag s a = s := by simp only [purgeTag, hs]
      rw [e] at h1 ⊢
      refine ⟨tags, fun k => ?_, by rw [List.filterMap_cons, hs]⟩
      rw [h1]
      by_cases hk : k = a
      · subst hk; rw [hs]; simp [TagState.isOrphaned]
      · simp [hk]
    | orphaned o =>
      have e : purgeTag s a = (s.setTag a .free).post (orphanRecord .purged o a) := by simp only [purgeTag, hs]
      rw [e] at h1 ⊢
      have ht : ∀ k : Tag, k ≠ a →
          ((s.setTag a .free).post (orphanRecord .purged o a)).port.tags[k] = s.port.tags[k] := by
        intro k hk
        rw [post_port, setTag_port_tags, store_set_get, if_neg fun h => hk h.symm]
      refine ⟨tags, fun k => ?_, ?_⟩
      · rw [h1]
        by_cases hk : k = a
        · subst hk
          rw [post_port, setTag_port_tags, store_set_get, if_pos rfl, hs]
          simp [TagState.isOrphaned]
        · rw [ht k hk]; simp [hk]
      · have hl : l.filterMap (fun k =>
            match ((s.setTag a .free).post (orphanRecord .purged o a)).port.tags[k] with
            | .free => none
            | .bound _ _ => none
            | .orphaned o => some (orphanRecord .purged o k)) =
              l.filterMap (fun k =>
                match s.port.tags[k] with
                | .free => none
                | .bound _ _ => none
                | .orphaned o => some (orphanRecord .purged o k)) := by
          apply List.filterMap_congr
          intro k hk
          rw [ht k fun h => ha (h ▸ hk)]
        rw [hl, List.filterMap_cons, hs]
        rfl

/-! ## The release of an entry -/

theorem unblock_fields (n : EntryNo) (x : Entry) :
    (x.unblock n).no = x.no ∧ (x.unblock n).id = x.id ∧ (x.unblock n).dir = x.dir ∧ (x.unblock n).span = x.span ∧
      (x.unblock n).bound = x.bound ∧ (x.unblock n).tag = x.tag ∧ (x.unblock n).slot = x.slot ∧
        (x.unblock n).blockers = x.blockers.filter (fun b => decide (b ≠ n)) :=
  ⟨rfl, rfl, rfl, rfl, rfl, rfl, rfl, rfl⟩

theorem unblock_sound {x : Entry} (n : EntryNo) (h : x.Sound) : (x.unblock n).Sound := by
  have hst : (x.unblock n).state =
      if x.state = .held ∧ x.blockers.filter (fun b => decide (b ≠ n)) = [] then .waiting else x.state := rfl
  by_cases hc : x.state = .held ∧ x.blockers.filter (fun b => decide (b ≠ n)) = []
  · rw [if_pos hc] at hst
    have htag : x.tag = none := by
      have := h.tag; rw [hc.1] at this; simpa [EntryState.holdsTag] using this
    have hslot : x.slot = none := by
      have := h.slot; rw [hc.1] at this; simpa using this
    refine ⟨fun _ => h.run (by rw [hc.1]; simp), h.span, ?_, ?_, ?_, ?_, h.write, ?_⟩
    · rw [hst]; show x.tag.isSome = _; rw [htag]; rfl
    · rw [hst]; show x.slot.isSome = true ↔ _; simp [hslot]
    · rw [hst]; simp
    · rw [hst]; simp
    · rw [hst]; exact ⟨fun hh => (by cases hh), fun hh => absurd hc.2 hh⟩
  · rw [if_neg hc] at hst
    refine ⟨fun hh => h.run (by rwa [hst] at hh), h.span, by rw [hst]; exact h.tag, by rw [hst]; exact h.slot,
      by rw [hst]; exact h.merging, by rw [hst]; exact h.plain, h.write, ?_⟩
    rw [hst]
    show _ ↔ x.blockers.filter _ ≠ []
    constructor
    · intro hh hf; exact hc ⟨hh, hf⟩
    · intro hh
      refine h.held.2 fun hb => hh ?_
      rw [hb]; rfl

theorem unblock_fits {s t : State} (hm : t.merge = s.merge) {x : Entry} (n : EntryNo) {fl : Option Flight}
    (h : s.FlightFits x fl) : t.FlightFits (x.unblock n) fl := by
  have hst : (x.unblock n).state =
      if x.state = .held ∧ x.blockers.filter (fun b => decide (b ≠ n)) = [] then .waiting else x.state := rfl
  have hne : x.state ≠ .held := by
    intro hh; simp only [FlightFits, hh] at h
  rw [if_neg fun hh => hne hh.1] at hst
  unfold FlightFits at h ⊢
  rw [hst, hm]; exact h

/-- A COMPLETE entry leaves, and every other is unblocked. -/
theorem release_path (s : State) (e : Entry) (h : s.PathSound) (he : e ∈ s.table.entries)
    (hst : e.state = .complete) : (s.release e.no).PathSound := by
  have hs := h.entries e he
  have htag : e.tag = none := by
    have := hs.tag; rw [hst] at this; simpa [EntryState.holdsTag] using this
  have hslot : e.slot = none := by
    have := hs.slot; rw [hst] at this; simpa using this
  have mem : ∀ y, y ∈ (s.release e.no).table.entries ↔ ∃ x ∈ s.table.entries, x.no ≠ e.no ∧ x.unblock e.no = y := by
    intro y
    rw [release_table_entries, List.mem_map]
    constructor
    · rintro ⟨x, hx, rfl⟩
      obtain ⟨h1, h2⟩ := List.mem_filter.1 hx
      exact ⟨x, h1, by simpa using h2, rfl⟩
    · rintro ⟨x, h1, h2, rfl⟩
      exact ⟨x, List.mem_filter.2 ⟨h1, by simpa using h2⟩, rfl⟩
  constructor
  · rw [release_table_entries, List.map_map]
    have : (Entry.no ∘ Entry.unblock e.no) = Entry.no := rfl
    rw [this]
    exact (List.Sublist.map Entry.no List.filter_sublist).nodup h.distinct
  · intro y hy
    obtain ⟨x, hx, -, rfl⟩ := (mem y).1 hy
    exact unblock_sound e.no (h.entries x hx)
  · intro k n fl hk
    obtain ⟨x, hx, h1, h2, h3⟩ := h.tags k n fl hk
    have hne : x.no ≠ e.no := by
      intro hn
      obtain rfl := h.same hx he hn
      rw [htag] at h2; cases h2
    exact ⟨x.unblock e.no, (mem _).2 ⟨x, hx, hne, rfl⟩, h1, h2, unblock_fits rfl e.no h3⟩
  · intro y hy k hk
    obtain ⟨x, hx, -, rfl⟩ := (mem y).1 hy
    exact h.holders x hx k hk
  · intro m w hw
    obtain ⟨x, hx, h1, h2⟩ := h.slots m w hw
    have hne : x.no ≠ e.no := by
      intro hn
      obtain rfl := h.same hx he hn
      rw [hslot] at h2; cases h2
    exact ⟨x.unblock e.no, (mem _).2 ⟨x, hx, hne, rfl⟩, h1, h2⟩

theorem release_order (s : State) (n : EntryNo) (h : s.OrderKept) : (s.release n).OrderKept := by
  intro older y younger hl
  rw [release_table_entries] at hl
  obtain ⟨as, bs, hf, rfl, h2⟩ := List.map_eq_append_iff.1 hl
  obtain ⟨x, ys, rfl, rfl, -⟩ := List.map_eq_cons_iff.1 h2
  obtain ⟨l1, l2, hs, h3, h4⟩ := List.filter_eq_append_iff.1 hf
  obtain ⟨l3, l4, hs', h5, h6, -⟩ := List.filter_eq_cons_iff.1 h4
  have hk := h (l1 ++ l3) x l4 (by rw [hs, hs', List.append_assoc])
  show x.blockers.filter _ = _
  rw [hk, List.filter_map]
  have h13 : (l1 ++ l3).filter (fun e => decide (e.no ≠ n)) = as := by
    rw [List.filter_append, h3, List.filter_eq_nil_iff.2 (fun a ha => h5 a ha), List.append_nil]
  rw [← h13, List.filter_map, List.map_map]
  have c1 : (Entry.conflicts (x.unblock n)) ∘ (Entry.unblock n) = Entry.conflicts x := by
    funext a; rfl
  have c2 : Entry.no ∘ Entry.unblock n = Entry.no := rfl
  rw [c1, c2, List.filter_filter, List.filter_filter]
  congr 2
  funext a
  simp [Bool.and_comm]

theorem release_table (s : State) (e : Entry) (h : s.TableSound) (he : e ∈ s.table.entries)
    (hst : e.state = .complete) : ((s.release e.no).setOffer none).TableSound := by
  refine ⟨(release_path s e h.1 he hst).congr rfl rfl rfl, OrderKept_congr (release_order s e.no h.2.1) rfl, ?_⟩
  intro o ho; cases ho

/-! ## A soft reset -/

theorem softReset_path (s : State) (h : s.PathSound) : s.softResetBlocks.PathSound := by
  have mem : ∀ y ∈ s.softResetBlocks.table.entries, ∃ x ∈ s.table.entries, x.answered = y := fun y hy => List.mem_map.1 hy
  have notBound : ∀ ts n fl, s.resetTag ts ≠ .bound n fl := by
    intro ts n fl
    unfold resetTag
    split
    · simp
    · simp
    · simp
    · split
      · simp
      · split <;> simp
  constructor
  · show List.Nodup (List.map Entry.no (List.map Entry.answered s.table.entries))
    rw [List.map_map]; exact h.distinct
  · intro y hy
    obtain ⟨x, hx, rfl⟩ := mem y hy
    exact ⟨fun hh => absurd rfl hh, rfl, rfl, by simp [Entry.answered], by simp [Entry.answered],
      by simp [Entry.answered], (h.entries x hx).write, by simp [Entry.answered]⟩
  · intro k n fl hk
    have : s.softResetBlocks.port.tags[k] = s.resetTag s.port.tags[k] := mapStore_get _ _ _
    rw [this] at hk; exact absurd hk (notBound _ _ _)
  · intro y hy k hk
    obtain ⟨x, -, rfl⟩ := mem y hy
    cases hk
  · intro m w hw
    have : ∀ m : MergeNo, State.reset.merge[m] = none := by decide
    have hm : s.softResetBlocks.merge[m] = none := this m
    rw [hm] at hw; cases hw

theorem softReset_table (s : State) (h : s.TableSound) : s.softResetBlocks.TableSound := by
  refine ⟨softReset_path s h.1, ?_, ?_⟩
  · intro older e younger hl
    have he : e ∈ s.softResetBlocks.table.entries := by rw [hl]; simp
    obtain ⟨x, -, rfl⟩ := List.mem_map.1 he
    have : older.filter (Entry.conflicts x.answered) = [] := by
      rw [List.filter_eq_nil_iff]; intro a _; simp [Entry.conflicts, Entry.answered]
    rw [this]; rfl
  · intro o ho
    have ho' : s.table.offer.map s.answeredOffer = some o := ho
    obtain ⟨p, hp, rfl⟩ := Option.map_eq_some_iff.1 ho'
    obtain ⟨older, e, younger, hl, h1, h2, h3, h4⟩ := h.2.2 p hp
    have he : e ∈ s.table.entries := by rw [hl]; simp
    have hf : s.entry? p.entry = some e := by rw [h1]; exact s.entry?_of_mem h.1.distinct he
    refine ⟨older.map Entry.answered, e.answered, younger.map Entry.answered, ?_, ?_, rfl, ?_, ?_⟩
    · show List.map Entry.answered s.table.entries = _
      rw [hl, List.map_append, List.map_cons]
    · simp only [answeredOffer, hf]; exact h1
    · simp only [answeredOffer, hf]
    · intro x hx
      obtain ⟨y, hy, rfl⟩ := List.mem_map.1 hx
      exact h4 y hy

theorem offerNext_table (s : State) (h : s.TableSound) : (offerNext s).TableSound :=
  ⟨offerNext_path s h.1, OrderKept_congr h.2.1 (by unfold offerNext; split <;> rfl), offerNext_offer s h.2.2⟩

end Sys2Proof.Machine
end

