-- ==== Sys2Proof/Laws/Clock.lean ====
section
/-!
SUPPORT. Deadlines that have counted their last edge: no operation but a reference-clock edge brings one about,
the expiries of an edge leave none, and an edge without one only counts.
-/

namespace Sys2Proof.Machine
namespace State

/-- The tag has no deadline that has counted its last edge. -/
def NotDue (s : State) (k : Tag) : Prop := ∀ n fl, s.port.tags[k] = .bound n (some fl) → fl.deadline ≠ some 0

/-- No tag has one. -/
def NoneDue (s : State) : Prop := ∀ k, s.NotDue k

variable {s t : State} {k j : Tag}

theorem due_iff (x : TagState) : x.due = true ↔ ∃ n fl, x = .bound n (some fl) ∧ fl.deadline = some 0 := by
  cases x with
  | free => simp [TagState.due]
  | orphaned => simp [TagState.due]
  | bound n fl =>
    cases fl with
    | none => simp [TagState.due]
    | some fl => simp [TagState.due]

theorem notDue_iff : s.NotDue k ↔ (s.port.tags[k]).due = false := by
  rw [← Bool.not_eq_true, due_iff]
  exact ⟨fun h ⟨n, fl, h1, h2⟩ => h n fl h1 h2, fun h n fl h1 h2 => h ⟨n, fl, h1, h2⟩⟩

theorem mem_dueTags : k ∈ s.dueTags ↔ ¬ s.NotDue k := by
  rw [notDue_iff]; simp [dueTags, sixteen_all]

theorem NotDue.congr (h : s.NotDue k) (ht : t.port.tags = s.port.tags) : t.NotDue k := by
  intro n fl hk; rw [ht] at hk; exact h n fl hk

/-- A tag set to a state that is not due. -/
theorem NotDue.set (h : s.NotDue k) {ts : TagState} (hts : ts.due = false)
    (ht : t.port.tags = s.port.tags.set j ts) : t.NotDue k := by
  rw [notDue_iff] at h ⊢
  rw [ht, store_set_get]; split
  · exact hts
  · exact h

theorem newDeadline_not_zero (s : State) : s.newDeadline ≠ some 0 := by
  unfold newDeadline; split
  · simp
  · rename_i h; simpa using h

theorem takePlain_notDue (s : State) (e : Entry) (h : s.NotDue k) : (takePlain s e).NotDue k := by
  have hd := s.newDeadline_not_zero
  unfold takePlain
  split
  · split
    · exact h.set (by simpa [TagState.due] using hd) rfl
    · exact h.set (by simpa [TagState.due] using hd) rfl
  · exact h
  · exact h

theorem takeMerge_notDue (s : State) (e : Entry) (m : MergeNo) (w : MergeWork) (h : s.NotDue k) :
    (takeMerge s e m w).NotDue k := by
  have hd := s.newDeadline_not_zero
  unfold takeMerge
  split
  · split
    · exact h.set (by simpa [TagState.due] using hd) rfl
    · exact h.set (by simpa [TagState.due] using hd) rfl
    · exact h
    · exact h
  · exact h
  · exact h

theorem grantOne_notDue (s t : State) (h : s.NotDue k) (hg : grantOne s = some t) : t.NotDue k := by
  obtain ⟨j, as, e, bs, -, -, -, -, rfl⟩ := (grantOne_iff s t).1 hg
  unfold grantTo
  split
  · split
    · exact h
    · exact h.set rfl rfl
  · exact h.set rfl rfl

theorem offerNext_notDue (s : State) (h : s.NotDue k) : (offerNext s).NotDue k := by
  unfold offerNext; split <;> exact h

/-- Settling brings no deadline to its last edge. -/
theorem settle_notDue (s : State) (h : s.NotDue k) : (settle s).NotDue k :=
  settle_keeps_of (fun s => s.NotDue k) (fun s e h _ _ => takePlain_notDue s e h)
    (fun s e m w h _ _ => takeMerge_notDue s e m w h) (fun s t h hg => grantOne_notDue s t h hg)
    (fun s h => offerNext_notDue s h) s h

theorem accept_notDue (s : State) (n : EntryNo) (r : Request) (h : s.NotDue k) : (accept s n r).NotDue k := by
  obtain ⟨q, -, he⟩ := accept_eq s n r
  rw [he]; exact h

theorem drain_notDue (n : Nat) (s : State) (h : s.NotDue k) : (drainRequests n s).NotDue k :=
  drain_keeps (fun s => s.NotDue k)
    (fun s n r rest h _ _ _ => settle_notDue _ (accept_notDue { s with requests := rest } n r h)) n s h

theorem endEntry_notDue (s : State) (e : Entry) (j : Tag) (ts : TagState) (st : TxStatus) (d : Option (List RBeat))
    (h : s.NotDue k) (hts : ts.due = false) : (s.endEntry e j ts st d).NotDue k := by
  unfold endEntry; dsimp only; split
  · exact h.set hts rfl
  · exact h.set hts rfl

theorem takeResponse_notDue (s : State) (e : Entry) (j : Tag) (kind : Dir) (st : DownStatus) (d : List RBeat)
    (h : s.NotDue k) : (s.takeResponse e j kind st d).NotDue k := by
  have he : ∀ r kind, (s.endInError e r j kind).NotDue k := fun r kind =>
    (endEntry_notDue s e j .free .fault none h rfl).congr rfl
  unfold takeResponse
  split
  · exact h
  · split
    · split
      · split
        · unfold mergeOldData; split
          · exact h
          · split
            · exact h
            · exact h.set rfl rfl
        · exact endEntry_notDue s e j .free _ _ h rfl
      · exact he _ _
    · exact he _ _
    · exact endEntry_notDue s e j .free _ _ h rfl
    · exact he _ _

theorem expire_notDue (s : State) (e : Entry) (r : Run) (j : Tag) (kind : Dir) (h : s.NotDue k) :
    (s.expire e r j kind).NotDue k :=
  (endEntry_notDue s e j (.orphaned (orphanOf e r kind)) .fault none h rfl).congr rfl

/-- The expiry of a tag leaves the others as far from their last edge as they were. -/
theorem expireTag_notDue (s : State) (j : Tag) (h : s.NotDue k) : (s.expireTag j).NotDue k := by
  unfold expireTag
  split
  · exact h
  · exact h
  · exact h
  · split
    · exact h
    · split
      · exact h
      · exact (settle_notDue _ (expire_notDue s _ _ j _ h)).congr rfl

theorem endEntry_tag (s : State) (e : Entry) (j : Tag) (ts : TagState) (st : TxStatus) (d : Option (List RBeat)) :
    (s.endEntry e j ts st d).port.tags = s.port.tags.set j ts := by
  unfold endEntry; dsimp only; split <;> rfl

/-- A tag whose expiry was taken is not due. -/
theorem expireTag_self (s : State) (j : Tag) (h : s.PathSound) : (s.expireTag j).NotDue j := by
  unfold expireTag
  cases hj : s.port.tags[j] with
  | free => intro n fl hk; dsimp only at hk; rw [hj] at hk; cases hk
  | orphaned => intro n fl hk; dsimp only at hk; rw [hj] at hk; cases hk
  | bound n fl =>
    cases fl with
    | none => intro n fl hk; dsimp only at hk; rw [hj] at hk; cases hk
    | some fl =>
      obtain ⟨e, he, -, -, -, -, r, hr⟩ := h.holder hj
      simp only [he, hr]
      refine NotDue.congr (settle_notDue _ ?_) rfl
      intro n' fl' hk
      have : (s.expire e r j fl.kind).port.tags = s.port.tags.set j (.orphaned (orphanOf e r fl.kind)) :=
        endEntry_tag s e j _ .fault none
      rw [this, store_set_get, if_pos rfl] at hk; cases hk

theorem expireTag_table (s : State) (j : Tag) (h : s.TableSound) : (s.expireTag j).TableSound := by
  unfold expireTag
  split
  · exact h
  · exact h
  · exact h
  · rename_i n fl hj
    split
    · exact h
    · rename_i e he
      split
      · exact h
      · rename_i r hr
        obtain ⟨e', he', hm, -, ht, -⟩ := h.1.holder hj
        rw [he] at he'; injection he' with he'; subst he'
        exact TableSound_congr (settle_table _ (expire_table s e r j fl.kind h hm ht)) rfl rfl rfl rfl

theorem expiries_keep (P : State → Prop) (h : ∀ s k, P s → P (s.expireTag k)) (l : List Tag) (s : State) (hs : P s) :
    P (l.foldl expireTag s) := by
  induction l generalizing s with
  | nil => exact hs
  | cons k l ih => exact ih _ (h s k hs)

/-- The expiries of an edge leave no deadline due (R127). -/
theorem expireDue_noneDue (s : State) (h : s.TableSound) : s.expireDue.NoneDue := by
  have key : ∀ (l : List Tag) (s : State), s.TableSound → (∀ k, ¬ s.NotDue k → k ∈ l) →
      (l.foldl expireTag s).NoneDue := by
    intro l
    induction l with
    | nil => intro s _ hl k; by_contra hk; exact absurd (hl k hk) (by simp)
    | cons j l ih =>
      intro s hs hl
      refine ih _ (expireTag_table s j hs) fun k hk => ?_
      have h1 : ¬ s.NotDue k := fun h => hk (expireTag_notDue s j h)
      rcases List.mem_cons.1 (hl k h1) with rfl | h2
      · exact absurd (expireTag_self s k hs.1) hk
      · exact h2
  exact key _ s h fun k hk => mem_dueTags.2 hk

theorem expireDue_table (s : State) (h : s.TableSound) : s.expireDue.TableSound :=
  expiries_keep TableSound (fun s k h => expireTag_table s k h) _ s h

theorem tick_table (s : State) (h : s.TableSound) : s.tick.TableSound := expireDue_table _ (Machine.elapse_table s 1 h)

/-- A reference-clock edge leaves no deadline due. -/
theorem tick_noneDue (s : State) (h : s.TableSound) : s.tick.NoneDue := expireDue_noneDue _ (Machine.elapse_table s 1 h)

theorem ticks_table (n : Nat) (s : State) (h : s.TableSound) : (tick^[n] s).TableSound := by
  induction n generalizing s with
  | zero => exact h
  | succ n ih => exact ih _ (tick_table s h)

/-- DEADLINE_EXPIRY leaves no deadline due. -/
theorem takeExpiry_noneDue (s : State) (j : Tag) (h : s.TableSound) (hd : s.NoneDue) : (s.takeExpiry j).NoneDue := by
  unfold takeExpiry
  split
  · exact hd
  · exact hd
  · exact hd
  · split
    · exact hd
    · exact expireDue_noneDue _ (expireTag_table _ j (Machine.elapse_table _ 1 (ticks_table _ s h)))

/-- With no deadline due nothing expires. -/
theorem expireDue_none (s : State) (h : s.NoneDue) : s.expireDue = s := by
  have : s.dueTags = [] := List.eq_nil_iff_forall_not_mem.2 fun k hk => mem_dueTags.1 hk (h k)
  rw [expireDue, this]; rfl

/-- An edge that brings no deadline to its last edge only counts. -/
theorem tick_counts (s : State) (h : (s.elapse 1).NoneDue) : s.tick = s.elapse 1 := expireDue_none _ h

/-- Two states that differ in their tags alone are equal when the tags are. -/
theorem eq_of_tags {s : State} {p p' : Vector TagState 16} (h : ∀ k : Tag, p[k] = p'[k]) :
    ({ s with port := { s.port with tags := p } } : State) = { s with port := { s.port with tags := p' } } := by
  rw [store_ext h]

theorem elapse_zero (s : State) : s.elapse 0 = s := by
  refine eq_of_tags (s := s) (p' := s.port.tags) fun k => ?_
  rw [mapStore_get]
  cases s.port.tags[k] with
  | free => rfl
  | orphaned => rfl
  | bound n fl => cases fl <;> simp [TagState.elapse]

/-- Edges go by one after the other. -/
theorem elapse_elapse (s : State) (m n : Nat) : (s.elapse m).elapse n = s.elapse (m + n) := by
  refine eq_of_tags (s := s) (p' := (s.elapse (m + n)).port.tags) fun k => ?_
  rw [elapse_port_tags, elapse_port_tags, mapStore_get, mapStore_get, mapStore_get]
  cases s.port.tags[k] with
  | free => rfl
  | orphaned => rfl
  | bound e fl =>
    cases fl with
    | none => rfl
    | some fl =>
      simp only [TagState.elapse, Option.map_map]
      congr 3
      cases fl.deadline with
      | none => rfl
      | some d => simp [Nat.sub_sub]

/-- Fewer edges than any running deadline needs only count. -/
theorem ticks_count (m : Nat) (s : State)
    (h : ∀ (k : Tag) n fl d, s.port.tags[k] = .bound n (some fl) → fl.deadline = some d → m < d) :
    tick^[m] s = s.elapse m := by
  induction m generalizing s with
  | zero => exact (elapse_zero s).symm
  | succ m ih =>
    have key : ∀ (k : Tag) n fl d, (s.elapse 1).port.tags[k] = .bound n (some fl) → fl.deadline = some d → m < d := by
      intro k n fl d hk hd
      rw [elapse_get] at hk
      cases hs : s.port.tags[k] with
      | free => rw [hs] at hk; cases hk
      | orphaned => rw [hs] at hk; cases hk
      | bound e x =>
        cases x with
        | none => rw [hs] at hk; cases hk
        | some x =>
          rw [hs] at hk; injection hk with h1 h2; injection h2 with h2; subst h2
          obtain ⟨d', hd', rfl⟩ := Option.map_eq_some_iff.1 hd
          have := h k e x d' hs hd'
          omega
    have hn : (s.elapse 1).NoneDue := fun k n fl hk hd => absurd (key k n fl 0 hk hd) (by omega)
    rw [Function.iterate_succ_apply, tick_counts s hn, ih _ key, elapse_elapse, Nat.add_comm]

end State
end Sys2Proof.Machine
end

