-- ==== Sys2Proof/Laws/Counts.lean ====
section
/-!
SUPPORT. The counts of R63 through the operations of a step: acceptance, retirement, transfer, the ends of a
transaction, soft reset.
-/

namespace Sys2Proof.Machine

open State

/-- An entry keeps its bound generation, and stays COMPLETE. -/
def Stays (x y : Entry) : Prop := y.bound = x.bound ∧ (x.state = .complete → y.state = .complete)

theorem CountsSound_congr {s t : State} (h : s.CountsSound) (h1 : t.gens.active.number = s.gens.active.number)
   (h2 : t.gens.retiring.map Bank.number = s.gens.retiring.map Bank.number)
   (h3 : t.table.activeCount = s.table.activeCount) (h4 : t.table.retiringCount = s.table.retiringCount)
   (h5 : List.Forall₂ Stays s.table.entries t.table.entries) : t.CountsSound := by
  have hb : ∀ g, t.boundTo g = s.boundTo g := by
    intro g; unfold boundTo; clear h1 h2 h3 h4 h
    generalize s.table.entries = l, t.table.entries = l' at h5 ⊢
    induction h5 with
    | nil => rfl
    | cons a _ ih => rw [List.countP_cons, List.countP_cons, ih, a.1]
  have hm : ∀ y ∈ t.table.entries, ∃ x ∈ s.table.entries, Stays x y := by
    clear h1 h2 h3 h4 h hb
    generalize s.table.entries = l, t.table.entries = l' at h5 ⊢
    intro y hy
    induction h5 with
    | nil => cases hy
    | cons a _ ih =>
      rcases List.mem_cons.1 hy with rfl | hy
      · exact ⟨_, List.mem_cons_self, a⟩
      · obtain ⟨x, hx, hh⟩ := ih hy; exact ⟨x, List.mem_cons_of_mem _ hx, hh⟩
  constructor
  · rw [h3, h1, hb]; exact h.active
  · intro b hbk
    rw [hbk] at h2
    cases hr : s.gens.retiring with
    | none => rw [hr] at h2; cases h2
    | some b' =>
      rw [hr] at h2; simp only [Option.map_some, Option.some.injEq] at h2
      rw [h4, hb, h2]; exact h.retiring b' hr
  · intro hn; rw [hn] at h2
    rw [h4]; apply h.settled
    cases hr : s.gens.retiring with
    | none => rfl
    | some b' => rw [hr] at h2; cases h2
  · intro y hy; obtain ⟨x, hx, hh⟩ := hm y hy
    rw [hh.1, h1, h2]; exact h.bound x hx
  · intro y hy hn; obtain ⟨x, hx, hh⟩ := hm y hy
    exact hh.2 (h.answered x hx (hh.1 ▸ hn))

theorem stays_same (l : List Entry) : List.Forall₂ Stays l l := List.forall₂_same.2 fun _ _ => ⟨rfl, id⟩

theorem settle_counts (s : State) (hp : s.PathSound) (h : s.CountsSound) : (settle s).CountsSound := by
  obtain ⟨-, -, -, hg, -, -, -, -, -, -, ha, hr⟩ := settle_unmoved s
  refine CountsSound_congr h (by rw [hg]) (by rw [hg]) ha hr ?_
  refine (settle_kept s hp).entries.imp fun _ _ hxy => ⟨by rw [hxy.1], fun hc => ?_⟩
  rw [hxy.2.1 (by rw [hc]; simp)]; exact hc

theorem gen_sub_one_ne (g : Gen) : g - 1 ≠ g := by
  intro h; have := congrArg BitVec.toNat h; simp [BitVec.toNat_sub] at this; omega

theorem accept_counts (s : State) (n q) (h : s.CountsSound) (hg : s.GenerationsSound) :
    (accept s n q).CountsSound := by
  obtain ⟨f, -, he⟩ := accept_eq s n q
  rw [he]
  have hf := (acceptedEntry_fields s n q).2.2.2.2.2.1
  constructor
  · show s.table.activeCount + 1 = List.countP _ (s.table.entries ++ [_])
    rw [List.countP_append, h.active]; simp [boundTo, hf]
  · intro b hb
    have hb : s.gens.retiring = some b := hb
    have := hg.retiringNumber b hb
    show s.table.retiringCount = List.countP _ (s.table.entries ++ [_]) ∧ _
    rw [List.countP_append]
    have hne : some s.gens.active.number ≠ some b.number := by
      rw [this]; exact fun hx => gen_sub_one_ne _ (Option.some.inj hx).symm
    rw [List.countP_singleton, hf, if_neg (by simpa using hne)]
    exact h.retiring b hb
  · exact h.settled
  · intro e hm
    rcases List.mem_append.1 hm with hm | hm
    · exact h.bound e hm
    · rw [List.mem_singleton] at hm; subst hm; left; exact hf
  · intro e hm hb
    rcases List.mem_append.1 hm with hm | hm
    · exact h.answered e hm hb
    · rw [List.mem_singleton] at hm; subst hm; rw [hf] at hb; cases hb

theorem drain_counts (k : Nat) (s : State) (hp : s.PathSound) (h : s.CountsSound) (hg : s.GenerationsSound) :
    (drainRequests k s).CountsSound :=
  (drain_keeps (fun t => t.PathSound ∧ t.GenerationsSound ∧ t.CountsSound)
    (fun u n r rest h _ _ hn => by
      have hg : (accept { u with requests := rest } n r).GenerationsSound := by
        obtain ⟨q, -, he⟩ := accept_eq { u with requests := rest } n r
        rw [he]
        unfold acceptedStats
        split
        · obtain ⟨h1, h2, h3⟩ := addTo_shape u.stats (some u.gens.active.number) _
            (acceptBeats_shape u.gens.active.table r.dir (u.gens.active.table.claimsOf r))
          exact ⟨h.2.1.1, h.2.1.2, h.2.1.3, h1.trans h.2.1.4, h2.trans h.2.1.5⟩
        · exact ⟨h.2.1.1, h.2.1.2, h.2.1.3, h.2.1.4, h.2.1.5⟩
      have hc : (accept { u with requests := rest } n r).CountsSound :=
        accept_counts { u with requests := rest } n r
          ⟨h.2.2.1, h.2.2.2, h.2.2.3, h.2.2.4, h.2.2.5⟩ ⟨h.2.1.1, h.2.1.2, h.2.1.3, h.2.1.4, h.2.1.5⟩
      have hpp := accept_path { u with requests := rest } n r (h.1.congr rfl rfl rfl) hn
      obtain ⟨-, -, -, e1, -, -, -, -, e2, e3, -, -⟩ := settle_unmoved (accept { u with requests := rest } n r)
      exact ⟨(drain_step u n r rest h.1 hn).1, ⟨e1 ▸ hg.1, e1 ▸ hg.2, e1 ▸ hg.3, by rw [e1, e2]; exact hg.4,
          by rw [e3, e1]; exact hg.5⟩,
        settle_counts _ hpp hc⟩) k s ⟨hp, hg, h⟩).2.2

/-- One entry less, by its number. -/
theorem filter_count (l : List Entry) (e : Entry) (p : Entry → Bool) (hd : (l.map Entry.no).Nodup)
    (he : e ∈ l) :
   (l.filter (fun x => decide (x.no ≠ e.no))).countP p + (if p e then 1 else 0) = l.countP p := by
  induction l with
  | nil => cases he
  | cons a l ih =>
    rw [List.map_cons, List.nodup_cons] at hd
    rcases List.mem_cons.1 he with rfl | he
    · have : l.filter (fun x => decide (x.no ≠ e.no)) = l := by
        rw [List.filter_eq_self]; intro x hx
        simp only [decide_eq_true_eq]; intro hn
        exact hd.1 (List.mem_map.2 ⟨x, hx, hn⟩)
      rw [List.filter_cons_of_neg (by simp), this, List.countP_cons]
    · have hn : a.no ≠ e.no := fun hn => hd.1 (hn ▸ List.mem_map.2 ⟨e, he, rfl⟩)
      rw [List.filter_cons_of_pos (by simpa using hn), List.countP_cons, List.countP_cons, ← ih hd.2 he]
      omega

theorem release_boundTo (s : State) (e : Entry) (g : Gen) (hp : s.PathSound) (he : e ∈ s.table.entries) :
   (s.release e.no).boundTo g + (if e.bound = some g then 1 else 0) = s.boundTo g := by
  have := filter_count s.table.entries e (fun x => decide (x.bound = some g)) hp.distinct he
  unfold boundTo
  rw [← this]
  have e1 : (s.release e.no).table.entries = (s.table.entries.filter (fun x => decide (x.no ≠ e.no))).map
      (Entry.unblock e.no) := rfl
  rw [e1, List.countP_map]
  have e2 : (fun x => decide (x.bound = some g)) ∘ Entry.unblock e.no = fun x : Entry => decide
      (x.bound = some g) := by
    funext x; simp [(unblock_fields e.no x)]
  rw [e2]; simp

theorem retired_counts (s : State) (e : Entry) (h : s.CountsSound) (hg : s.GenerationsSound)
    (hp : s.PathSound) (he : e ∈ s.table.entries) :
    (((s.release e.no).countRetired e.bound).setOffer none).CountsSound := by
  have hb := fun g => release_boundTo s e g hp he
  have old : ∀ y ∈ (s.release e.no).table.entries, ∃ x ∈ s.table.entries, y.bound = x.bound ∧
      (x.state = .complete → y.state = .complete) := by
    intro y hy
    obtain ⟨x, hx, rfl⟩ := List.mem_map.1 hy
    refine ⟨x, (List.mem_filter.1 hx).1, by simp [(unblock_fields e.no x)], fun hc => ?_⟩
    simp [Entry.unblock, hc]
  have ans : ∀ y ∈ (s.release e.no).table.entries, y.bound = none → y.state = .complete := by
    intro y hy hn
    obtain ⟨x, hx, h1, h2⟩ := old y hy
    exact h2 (h.answered x hx (h1 ▸ hn))
  have bnd : ∀ y ∈ (s.release e.no).table.entries,
      y.bound = some s.gens.active.number ∨ y.bound = s.gens.retiring.map Bank.number ∨ y.bound = none := by
    intro y hy
    obtain ⟨x, hx, h1, h2⟩ := old y hy
    rw [h1]; exact h.bound x hx
  rcases h.bound e he with hbd | hbd | hbd
  · rw [hbd]
    have e1 : ((s.release e.no).countRetired (some s.gens.active.number)) = { s.release e.no with table := {
        (s.release e.no).table with activeCount := (s.release e.no).table.activeCount - 1 } } := by
      unfold countRetired; exact if_pos rfl
    rw [e1]
    refine ⟨?_, fun b hbk => ?_, fun hn => h.settled hn, bnd, ans⟩
    · have := hb s.gens.active.number
      rw [if_pos hbd] at this
      show s.table.activeCount - 1 = (s.release e.no).boundTo s.gens.active.number
      rw [h.active]; omega
    · have hbk : s.gens.retiring = some b := hbk
      have := hb b.number
      have hne : e.bound ≠ some b.number := by
        rw [hbd, hg.retiringNumber b hbk]
        exact fun hx => gen_sub_one_ne _ (Option.some.inj hx).symm
      rw [if_neg hne] at this
      have h2 := h.retiring b hbk
      exact ⟨h2.1.trans this.symm, h2.2⟩
  · cases hr : s.gens.retiring with
    | none =>
      rw [hr] at hbd
      have hbd : e.bound = none := hbd
      rw [hbd]
      refine ⟨?_, fun b hbk => ?_, fun hn => h.settled hn, bnd, ans⟩
      · have := hb s.gens.active.number
        rw [if_neg (by rw [hbd]; simp)] at this
        exact h.active.trans this.symm
      · have hbk : s.gens.retiring = some b := hbk
        rw [hr] at hbk; cases hbk
    | some b =>
      rw [hr] at hbd
      have hbd : e.bound = some b.number := hbd
      have hne : b.number ≠ s.gens.active.number := by rw [hg.retiringNumber b hr]; exact gen_sub_one_ne _
      have h2 := h.retiring b hr
      have hb1 := hb b.number
      rw [if_pos hbd] at hb1
      have hb2 := hb s.gens.active.number
      rw [if_neg (by rw [hbd]; exact fun hx => hne (Option.some.inj hx))] at hb2
      rw [hbd]
      have e1 : (s.release e.no).gens.retiring = some b := hr
      unfold countRetired
      simp only
      rw [if_neg (show ¬ b.number = (s.release e.no).gens.active.number from hne), e1]
      simp only [if_true]
      split
      · rename_i hz
        have hz : s.table.retiringCount - 1 = 0 := hz
        have h0 : (s.release e.no).boundTo b.number = 0 := by rw [h2.1] at hz; omega
        refine ⟨h.active.trans hb2.symm, fun b' hbk => (by cases hbk), fun _ => hz, fun y hy => ?_, ans⟩
        have hy : y ∈ (s.release e.no).table.entries := hy
        rcases bnd y hy with h3 | h3 | h3
        · exact .inl h3
        · rw [hr] at h3
          have := List.countP_eq_zero.1 h0 y hy
          simp at this; exact absurd h3 this
        · exact .inr (.inr h3)
      · rename_i hz
        have hz : ¬ s.table.retiringCount - 1 = 0 := hz
        refine ⟨h.active.trans hb2.symm, fun b' hbk => ?_, fun hn => ?_, bnd, ans⟩
        · have hbk : s.gens.retiring = some b' := hbk
          rw [hr] at hbk; injection hbk with hbk; subst hbk
          refine ⟨?_, ?_⟩
          · show s.table.retiringCount - 1 = (s.release e.no).boundTo b.number
            rw [h2.1]; omega
          · show 0 < s.table.retiringCount - 1
            omega
        · have hn : s.gens.retiring = none := hn
          rw [hr] at hn; cases hn
  · rw [hbd]
    refine ⟨?_, fun b hbk => ?_, fun hn => h.settled hn, bnd, ans⟩
    · have := hb s.gens.active.number
      rw [if_neg (by rw [hbd]; simp)] at this
      exact h.active.trans this.symm
    · have := hb b.number
      rw [if_neg (by rw [hbd]; simp)] at this
      exact ⟨(h.retiring b hbk).1.trans this.symm, (h.retiring b hbk).2⟩

theorem commit_counts (s : State) (h : s.CountsSound) (hr : s.gens.retiring = none) :
    s.advanceGeneration.CountsSound := by
  have hne : ∀ e ∈ s.table.entries, e.bound ≠ some (s.gens.active.number + 1) := by
    intro e he hb
    rcases h.bound e he with h1 | h1 | h1
    · rw [h1] at hb; have := Option.some.inj hb
      have hx := congrArg (· - 1) this; simp at hx
    · rw [hr] at h1; rw [h1] at hb; cases hb
    · rw [h1] at hb; cases hb
  have hz : s.boundTo (s.gens.active.number + 1) = 0 := by
    apply List.countP_eq_zero.2; intro e he; simpa using hne e he
  have bd : ∀ e ∈ s.table.entries, e.bound = some s.gens.active.number ∨ e.bound = none := by
    intro e he
    rcases h.bound e he with h1 | h1 | h1
    · exact .inl h1
    · rw [hr] at h1; exact .inr h1
    · exact .inr h1
  unfold advanceGeneration
  split
  · rename_i h0
    refine ⟨hz.symm, fun b hb => (by cases hb), fun _ => h0, fun e he => ?_, h.answered⟩
    rcases bd e he with h1 | h1
    · rw [h.active] at h0
      have := List.countP_eq_zero.1 h0 e he
      simp at this; exact absurd h1 this
    · exact .inr (.inr h1)
  · rename_i h0
    refine ⟨hz.symm, fun b hb => ?_, fun hn => (by cases hn), fun e he => ?_, h.answered⟩
    · have hb : some s.gens.active = some b := hb
      injection hb with hb; subst hb
      exact ⟨h.active, Nat.pos_of_ne_zero h0⟩
    · rcases bd e he with h1 | h1
      · exact .inr (.inl h1)
      · exact .inr (.inr h1)

theorem set_stays (l : List Entry) (hd : (l.map Entry.no).Nodup) (e e' : Entry) (he : e ∈ l) (h : Stays e e') :
    List.Forall₂ Stays l (l.map (fun x => if x.no = e.no then e' else x)) := by
  rw [List.forall₂_map_right_iff]
  refine List.forall₂_same.2 fun x hx => ?_
  by_cases hn : x.no = e.no
  · obtain rfl := List.inj_on_of_nodup_map hd hx he hn
    simpa using h
  · simp only [if_neg hn]; exact ⟨rfl, id⟩

theorem endEntry_counts (s : State) (e k ts st d) (h : s.CountsSound) (hp : s.PathSound)
    (he : e ∈ s.table.entries) : (s.endEntry e k ts st d).CountsSound := by
  rw [endEntry_eq]
  exact CountsSound_congr h rfl rfl rfl rfl (set_stays _ hp.distinct e _ he ⟨rfl, fun _ => rfl⟩)

theorem takeResponse_counts (u : State) (e k kind st d) (h : u.CountsSound) (hp : u.PathSound)
    (he : e ∈ u.table.entries) : (u.takeResponse e k kind st d).CountsSound := by
  have h1 : ∀ r b, (u.endInError e r k b).CountsSound := by
    intro r b; exact CountsSound_congr (endEntry_counts u e k .free .fault none h hp he) rfl rfl rfl rfl
        (stays_same _)
  unfold takeResponse
  split
  · exact h
  · split
    · split
      · split
        · unfold mergeOldData; split
          · exact h
          · split
            · exact h
            · exact CountsSound_congr h rfl rfl rfl rfl (stays_same _)
        · exact endEntry_counts _ _ _ _ _ _ h hp he
      · apply h1
    · apply h1
    · exact endEntry_counts _ _ _ _ _ _ h hp he
    · apply h1

theorem purge_counts (l : List Tag) (v : State) (h : v.CountsSound) : (l.foldl purgeTag v).CountsSound := by
  induction l generalizing v with
  | nil => exact h
  | cons a l ih =>
    rw [List.foldl_cons]
    apply ih
    unfold purgeTag; split <;> exact CountsSound_congr h rfl rfl rfl rfl (stays_same _)

theorem answered_counts (v : State) (h1 : v.gens = State.reset.gens) (h2 : v.table.activeCount = 0)
    (h3 : v.table.retiringCount = 0)
   (h4 : ∀ e ∈ v.table.entries, e.bound = none ∧ e.state = .complete) : v.CountsSound := by
  refine ⟨?_, fun b hb => ?_, fun _ => h3, fun e he => .inr (.inr (h4 e he).1), fun e he _ => (h4 e he).2⟩
  · rw [h2]; symm; apply List.countP_eq_zero.2; intro e he; rw [(h4 e he).1]; simp
  · rw [h1] at hb; cases hb

theorem reset_counts : State.reset.CountsSound := answered_counts _ rfl rfl rfl fun e he => (by cases he)
theorem same_counts (v w : State) (h : v.CountsSound) (ht : w.table = v.table) (hg : w.gens = v.gens) :
    w.CountsSound :=
  CountsSound_congr h (by rw [hg]) (by rw [hg]) (by rw [ht]) (by rw [ht]) (by rw [ht]; exact stays_same _)

theorem answer_counts (v : State) (st p) (h : v.CountsSound) : ((v.respond st p).refreshAlert).CountsSound :=
    same_counts _ _ h rfl rfl
theorem refreshAlert_counts (v : State) (h : v.CountsSound) : v.refreshAlert.CountsSound := same_counts _ _ h rfl rfl

theorem countRetired_gs (s : State) (b) (h : s.GenerationsSound) : (s.countRetired b).GenerationsSound := by
  unfold countRetired
  split
  · exact h
  · split
    · exact ⟨h.1, h.2, h.3, h.4, h.5⟩
    · split
      · exact h
      · split
        · dsimp only; split
          · exact ⟨h.1, fun b hb => (by cases hb), fun b hb => (by cases hb), h.4, rfl⟩
          · exact ⟨h.1, h.2, h.3, h.4, h.5⟩
        · exact h

theorem settle_gs (s : State) (hg : s.GenerationsSound) : (settle s).GenerationsSound := by
  obtain ⟨-, -, -, e1, -, -, -, -, e2, e3, -, -⟩ := settle_unmoved s
  exact ⟨e1 ▸ hg.1, e1 ▸ hg.2, e1 ▸ hg.3, by rw [e1, e2]; exact hg.4, by rw [e3, e1]; exact hg.5⟩

end Sys2Proof.Machine
end

