-- ==== Sys2Proof/Laws/Frames.lean ====
section
/-!
SUPPORT. The frames of the management link: bits and whole bytes, what check 1 asks, which codes pick a command, and that the frame
of a command passes the checks and is read back.
-/

namespace Sys2Proof

/-- The eight bits of a byte shifted in give the byte. -/
theorem byteBits_shifted (b : Byte) : (byteBits b).foldl shiftIn 0 = b := by
  revert b; decide +kernel

/-- Fewer than eight bits make no whole byte. -/
theorem wholeBytes_short {bits : List Bool} (h : bits.length < 8) : wholeBytes bits = [] := by
  unfold wholeBytes
  split
  · simp only [List.length_cons] at h; omega
  · rfl

/-- The whole bytes of a byte's bits and what follows. -/
theorem wholeBytes_cons (b : Byte) (bits : List Bool) : wholeBytes (byteBits b ++ bits) = b :: wholeBytes bits := by
  conv_rhs => rw [← byteBits_shifted b]
  rfl

/-- The whole bytes of a frame's bits are the frame, whatever bits of an incomplete last byte follow (R164). -/
theorem wholeBytes_frameBits (frame : List Byte) {rest : List Bool} (h : rest.length < 8) :
    wholeBytes (frameBits frame ++ rest) = frame := by
  induction frame with
  | nil => exact wholeBytes_short h
  | cons b frame ih =>
    rw [show frameBits (b :: frame) ++ rest = byteBits b ++ (frameBits frame ++ rest) by simp [frameBits],
      wholeBytes_cons, ih]

/-- Check 1 of R166. -/
theorem frameLengthOk_iff (frame : List Byte) :
    frameLengthOk frame = true ↔
      ∃ code n rest, frame = code :: n :: rest ∧ rest ≠ [] ∧ n.toNat ≤ 60 ∧ frame.length = 3 + n.toNat := by
  constructor
  · intro h
    match frame, h with
    | c :: n :: x :: r, h =>
      simp only [frameLengthOk, Bool.and_eq_true, decide_eq_true_eq] at h
      exact ⟨c, n, x :: r, rfl, by simp, h.1, h.2⟩
  · rintro ⟨c, n, r, rfl, hr, h1, h2⟩
    match r, hr with
    | x :: r, _ => simp only [frameLengthOk, Bool.and_eq_true, decide_eq_true_eq]; exact ⟨h1, h2⟩

/-- A code and its arguments pick no command exactly where the code is undefined (check 3 of R166) or a
SET_PARAM names no parameter (R181). -/
theorem commandOf_none (code : Byte) (args : List Byte) :
    commandOf code args = none ↔
      knownCode code = false ∨ (code = 0x30 ∧ ∀ p v, args = p :: v → p ≠ 0 ∧ p ≠ 1) := by
  by_cases h30 : code = 0x30
  · subst h30
    have : knownCode 0x30 = true := by decide
    simp only [this, commandOf, Bool.true_eq_false, true_and, false_or]
    simp only [show (0x30 : Byte).toNat = 0x30 from rfl]
    rcases args with _ | ⟨p, v⟩
    · simp
    · constructor
      · intro h p' v' he
        injection he with he1 he2; subst he1
        refine ⟨?_, ?_⟩ <;> rintro rfl <;> simp at h
      · intro h
        obtain ⟨h0, h1⟩ := h p v rfl
        have h0' : p.toNat ≠ 0 := fun h => h0 (BitVec.eq_of_toNat_eq h)
        have h1' : p.toNat ≠ 1 := fun h => h1 (BitVec.eq_of_toNat_eq h)
        dsimp only
        split
        · exact absurd ‹_› h0'
        · exact absurd ‹_› h1'
        · rfl
  · simp only [h30, false_and, or_false]
    have key : ∀ c : Byte, c ≠ 0x30 → ((commandOf c []).isNone = !knownCode c) := by decide +kernel
    have kk := key code h30
    have : (commandOf code args).isNone = (commandOf code []).isNone := by
      have h30' : code.toNat ≠ 0x30 := fun h => h30 (BitVec.eq_of_toNat_eq h)
      unfold commandOf
      split <;> simp_all
    rw [← Option.isNone_iff_eq_none, this, kk]
    simp

/-- A command frame of a defined code passes checks 1 to 3 of R166. -/
theorem commandFrame_passes (code : Byte) (args : List Byte) (hk : knownCode code = true) (hl : args.length ≤ 60) :
    frameError (commandFrame code args) = none := by
  have hn : (BitVec.ofNat 8 args.length).toNat = args.length := by simp; omega
  have h1 : frameLengthOk (commandFrame code args) = true := by
    rw [frameLengthOk_iff]
    refine ⟨code, BitVec.ofNat 8 args.length, args ++ [crc8 (code :: BitVec.ofNat 8 args.length :: args)],
      by simp [commandFrame], by simp, by omega, ?_⟩
    rw [hn]; simp [commandFrame]; omega
  simp only [frameError, h1]
  rw [if_neg (by simp), if_neg (by simp only [commandFrame, List.getLastD_concat, List.dropLast_concat]; simp)]
  simp [commandFrame, hk]

/-- A command frame is read back as the command that its code and arguments pick, whatever bits of an
incomplete last byte follow. -/
theorem decodeFrame_commandFrame (code : Byte) (args : List Byte) (rest : List Bool) (c : Instr)
    (hk : knownCode code = true) (hl : args.length ≤ 60) (hr : rest.length < 8)
    (hc : commandOf code args = some c) : decodeFrame (frameBits (commandFrame code args) ++ rest) = some c := by
  have hf : ¬ code = fetchCode := by rintro rfl; revert hk; decide
  have := commandFrame_passes code args hk hl
  rw [decodeFrame, wholeBytes_frameBits _ hr]
  rw [show commandFrame code args =
      code :: ([BitVec.ofNat 8 args.length] ++ args ++ [crc8 (code :: BitVec.ofNat 8 args.length :: args)]) by
    simp [commandFrame]] at this ⊢
  simp only [hf, if_false, this]
  simp [hc]

end Sys2Proof
end

