-- ==== Sys2Proof/Laws/PerInstr.lean ====
section
/-!
SUPPORT. Facts about every command as syntax, one lemma per constructor.
-/

namespace Sys2Proof.Laws.FramePasses

/-- The frame of a well-formed command passes checks 1 to 3 of R166, but for the frames those checks do not
speak of: a FETCH frame (R169) and the raw frame of REJECTED_FRAME. -/
def Statement (i : Instr) : Prop :=
  ∀ bits, i.wellFormed = true → encodeFrame i = some bits →
    (∃ raw, i = .rejectedFrame raw) ∨ (∃ clocked, i = .fetch clocked) ∨ frameError (wholeBytes bits) = none

/-- A command frame with few enough arguments. -/
theorem ofArgs {i : Instr} {code : Byte} {args : List Byte} (he : encodeFrame i = some (frameBits (commandFrame code args)))
    (hk : knownCode code = true) (hl : i.wellFormed = true → args.length ≤ 60) : Statement i := by
  intro bits hw hf
  rw [he] at hf
  injection hf with hf
  subst hf
  have := wholeBytes_frameBits (commandFrame code args) (rest := []) (by decide)
  rw [List.append_nil] at this
  rw [this]
  exact .inr (.inr (commandFrame_passes code args hk (hl hw)))

/-- A command that is no frame. -/
theorem ofNone {i : Instr} (he : encodeFrame i = none) : Statement i := by
  intro frame _ hf
  rw [he] at hf
  cases hf

theorem readRequest (id : UpId) (addr : Addr) (beats : Nat) : Statement (.readRequest id addr beats) :=
  ofNone rfl
theorem writeRequest (id : UpId) (addr : Addr) (beats : Nat) (data : List WBeat) : Statement (.writeRequest id addr beats data) :=
  ofNone rfl
theorem retirement : Statement (.retirement) := ofNone rfl
theorem downRequestAccepted : Statement (.downRequestAccepted) := ofNone rfl
theorem downReadReturn (tag : Tag) (status : DownStatus) (data : List RBeat) : Statement (.downReadReturn tag status data) :=
  ofNone rfl
theorem downWriteReturn (tag : Tag) (status : DownStatus) : Statement (.downWriteReturn tag status) :=
  ofNone rfl
theorem deadlineExpiry (tag : Tag) : Statement (.deadlineExpiry tag) := ofNone rfl
theorem powerOnReset (event : ResetEvent) : Statement (.powerOnReset event) := ofNone rfl
theorem query (args : List Byte) : Statement (.query args) := ofArgs rfl (by decide) of_decide_eq_true
theorem stageWrite (args : List Byte) : Statement (.stageWrite args) :=
  ofArgs rfl (by decide) of_decide_eq_true
theorem stageRead (args : List Byte) : Statement (.stageRead args) := ofArgs rfl (by decide) of_decide_eq_true
theorem activeRead (args : List Byte) : Statement (.activeRead args) :=
  ofArgs rfl (by decide) of_decide_eq_true
theorem stageClear (args : List Byte) : Statement (.stageClear args) :=
  ofArgs rfl (by decide) of_decide_eq_true
theorem stageCopy (args : List Byte) : Statement (.stageCopy args) := ofArgs rfl (by decide) of_decide_eq_true
theorem commit (args : List Byte) : Statement (.commit args) := ofArgs rfl (by decide) of_decide_eq_true
theorem statsRead (args : List Byte) : Statement (.statsRead args) := ofArgs rfl (by decide) of_decide_eq_true
theorem summaryPop (args : List Byte) : Statement (.summaryPop args) :=
  ofArgs rfl (by decide) of_decide_eq_true
theorem faultPop (args : List Byte) : Statement (.faultPop args) := ofArgs rfl (by decide) of_decide_eq_true
theorem setParamTimeout (value : List Byte) : Statement (.setParamTimeout value) :=
  ofArgs rfl (by decide) of_decide_eq_true
theorem setParamAlertMask (value : List Byte) : Statement (.setParamAlertMask value) :=
  ofArgs rfl (by decide) of_decide_eq_true
theorem purge (args : List Byte) : Statement (.purge args) := ofArgs rfl (by decide) of_decide_eq_true
theorem softReset (args : List Byte) : Statement (.softReset args) := ofArgs rfl (by decide) of_decide_eq_true
theorem fetch (clocked : Nat) : Statement (.fetch clocked) := fun _ _ _ => .inr (.inl ⟨clocked, rfl⟩)
theorem rejectedFrame (bits : List Bool) : Statement (.rejectedFrame bits) := fun _ _ _ => .inl ⟨bits, rfl⟩

end Sys2Proof.Laws.FramePasses
end

