-- ==== Sys2Proof/Laws/Quiet.lean ====
section
/-!
SUPPORT. What a retirement starts from and leaves of entries, tags and the offer, and that nothing is left open
through the operations of a step.
-/

namespace Sys2Proof.Machine

open State

/-! ## Entries on offer and holders of tags -/

theorem offered_entry (s : State) (h : s.TableSound) (o : Offer) (e : Entry) (ho : s.table.offer = some o)
    (he : s.entry? o.entry = some e) :
   e ∈ s.table.entries ∧ e.state = .complete := by
  obtain ⟨hm, hn⟩ := s.entry?_mem he
  obtain ⟨older, x, younger, hl, h1, h2, -, -⟩ := h.2.2 o ho
  have hx : x ∈ s.table.entries := by rw [hl]; simp
  obtain rfl := h.1.same hm hx (hn.trans h1)
  exact ⟨hm, h2⟩

theorem countRetired_fields (s : State) (b) : (s.countRetired b).table.entries = s.table.entries ∧
    (s.countRetired b).table.offer = s.table.offer ∧ (s.countRetired b).merge = s.merge ∧
    (s.countRetired b).port = s.port ∧ (s.countRetired b).requests = s.requests ∧
    (s.countRetired b).resetAsserted = s.resetAsserted := by
  unfold countRetired
  split
  · exact ⟨rfl, rfl, rfl, rfl, rfl, rfl⟩
  · split
    · exact ⟨rfl, rfl, rfl, rfl, rfl, rfl⟩
    · split
      · exact ⟨rfl, rfl, rfl, rfl, rfl, rfl⟩
      · split
        · dsimp only; split <;> exact ⟨rfl, rfl, rfl, rfl, rfl, rfl⟩
        · exact ⟨rfl, rfl, rfl, rfl, rfl, rfl⟩

theorem retire_pre_table (s : State) (h : s.TableSound) (o e) (ho : s.table.offer = some o)
    (he : s.entry? o.entry = some e) :
   (((s.release e.no).countRetired e.bound).setOffer none).TableSound := by
  obtain ⟨h1, h2⟩ := offered_entry s h o e ho he
  obtain ⟨c1, c2, c3, c4, -, -⟩ := countRetired_fields (s.release e.no) e.bound
  exact TableSound_congr (release_table s e h h1 h2) c1 rfl c3 (by rw [setOffer_port, c4]; rfl)

theorem holder_of_tag (s : State) (h : s.PathSound) (k n fl e) (hk : s.port.tags[k] = .bound n (some fl))
    (he : s.entry? n = some e) : e ∈ s.table.entries ∧ e.tag = some k := by
  obtain ⟨x, hx, hm, -, ht, -⟩ := h.holder hk
  rw [he] at hx; injection hx with hx; subst hx; exact ⟨hm, ht⟩

theorem refreshAlert_tableSound (s : State) (h : s.TableSound) : s.refreshAlert.TableSound :=
    TableSound_congr h rfl rfl rfl rfl

theorem answer_tableSound (v : State) (st p) (h : v.TableSound) : ((v.respond st p).refreshAlert).TableSound :=
    TableSound_congr h rfl rfl rfl rfl

/-! ## Nothing left open -/

/-- No waiting request could be accepted (R44). -/
def AcceptDone (s : State) : Prop := s.requests ≠ [] → s.resetAsserted = true ∨ ∀ n : EntryNo,
    ∃ e ∈ s.table.entries, e.no = n

theorem AcceptDone_congr {s t : State} (h : AcceptDone s) (h1 : t.requests = s.requests)
    (h2 : t.resetAsserted = s.resetAsserted) (h3 : t.table.entries.map Entry.no = s.table.entries.map Entry.no) :
    AcceptDone t := by
  intro hq
  rw [h1] at hq
  rcases h hq with h | h
  · exact .inl (h2.trans h)
  · right; intro n
    obtain ⟨e, he, hn⟩ := h n
    have : n ∈ t.table.entries.map Entry.no := by rw [h3]; exact List.mem_map.2 ⟨e, he, hn⟩
    obtain ⟨x, hx, hxn⟩ := List.mem_map.1 this
    exact ⟨x, hx, hxn⟩

theorem Quiet_congr {s t : State} (h : s.Quiet) (hes : t.table.entries = s.table.entries)
    (ho : t.table.offer = s.table.offer) (hm : t.merge = s.merge)
    (hc : t.port.channel = s.port.channel) (ht : ∀ k : Tag, t.port.tags[k] = .free → s.port.tags[k] = .free) :
        t.Quiet := by
  refine ⟨fun ⟨k, hk⟩ => ?_, fun h1 => ?_, fun h1 => ?_⟩
  · rw [hes, hm]; exact h.grant ⟨k, ht k hk⟩
  · rw [hes, hm]; exact h.take (hc ▸ h1)
  · rw [hes]; exact h.offer (ho ▸ h1)

theorem Settled_of {s : State} (h : s.Quiet) (h2 : AcceptDone s) (h3 : s.NoneDue) : s.Settled :=
  ⟨h.grant, h.take, h.offer, h2, fun k => h3 k⟩

theorem Settled.quiet {s : State} (h : s.Settled) : s.Quiet := ⟨h.grant, h.take, h.offer⟩

theorem answer_settled (v : State) (st p) (h1 : v.Quiet) (h2 : AcceptDone v) (h3 : v.NoneDue) :
    ((v.respond st p).refreshAlert).Settled :=
  Settled_of (Quiet_congr h1 rfl rfl rfl rfl fun _ h => h) (AcceptDone_congr h2 rfl rfl rfl) h3

theorem settle_acc (s : State) (h : s.PathSound) (ha : AcceptDone s) : AcceptDone (settle s) :=
  AcceptDone_congr ha (settle_unmoved s).2.2.1 (settle_unmoved s).2.1 (Advanced_nos (settle_kept s h).entries)

theorem endEntry_acc (s : State) (e k ts st d) (ha : AcceptDone s) : AcceptDone (s.endEntry e k ts st d) := by
  rw [endEntry_eq]
  refine AcceptDone_congr ha rfl rfl ?_
  exact setEntry_nos _ rfl

theorem expire_acc (s : State) (e r k d) (ha : AcceptDone s) : AcceptDone (s.expire e r k d) :=
  AcceptDone_congr (endEntry_acc s e k (.orphaned (orphanOf e r d)) .fault none ha) rfl rfl rfl

theorem takeResponse_acc (u : State) (e k kind st d) (h : AcceptDone u) : AcceptDone
    (u.takeResponse e k kind st d) := by
  have h1 : ∀ r b, AcceptDone (u.endInError e r k b) := by
    intro r b; exact AcceptDone_congr (endEntry_acc u e k .free .fault none h) rfl rfl rfl
  unfold takeResponse
  split
  · exact h
  · split
    · split
      · split
        · unfold mergeOldData; split
          · exact h
          · split
            · exact h
            · exact AcceptDone_congr h rfl rfl rfl
        · exact endEntry_acc _ _ _ _ _ _ h
      · apply h1
    · apply h1
    · exact endEntry_acc _ _ _ _ _ _ h
    · apply h1

theorem purge_acc (l : List Tag) (v : State) (h : AcceptDone v) : AcceptDone (l.foldl purgeTag v) := by
  induction l generalizing v with
  | nil => exact h
  | cons a l ih =>
    rw [List.foldl_cons]
    apply ih
    unfold purgeTag; split <;> exact AcceptDone_congr h rfl rfl rfl

theorem reset_quiet : State.reset.Quiet := by
  refine ⟨fun _ e h => (by cases h), fun _ => ⟨fun e h => (by cases h), fun m w h => ?_⟩,
      fun _ older e younger h => ?_⟩
  · have : ∀ m : MergeNo, State.reset.merge[m] = none := by decide
    rw [this] at h; cases h
  · have : (older ++ e :: younger).length = 0 := by rw [← h]; rfl
    simp at this

/-- No change of state that a command makes brings a deadline to its last edge. -/
theorem move_noneDue {s t : State} (hm : s.Move t) (h : s.NoneDue) : t.NoneDue := by
  have reset : State.reset.NoneDue := fun k n fl hk => by
    have : ∀ k : Tag, State.reset.port.tags[k] = .free := by decide
    rw [this] at hk; cases hk
  have alert : ∀ (v : State) k, v.NotDue k → v.refreshAlert.NotDue k := fun v k hv => hv.congr rfl
  have answer : ∀ (v : State) st p k, v.NotDue k → (v.respond st p).refreshAlert.NotDue k :=
    fun v st p k hv => hv.congr rfl
  have release : ∀ (v : State) (b : Bool), v.NoneDue → (v.releaseReset b).NoneDue := fun v b hv => by
    unfold releaseReset; split
    · exact fun k => alert _ k (drain_notDue 16 _ (NotDue.congr (hv k) rfl))
    · exact hv
  intro k
  cases hm with
  | same => exact h k
  | arrive q => exact alert _ k (drain_notDue 16 _ (NotDue.congr (h k) rfl))
  | retire o e ho he =>
    have := congrArg MemoryPort.tags (countRetired_fields (s.release e.no) e.bound).2.2.2.1
    exact alert _ k (drain_notDue 16 _ (settle_notDue _ (NotDue.congr (h k) this)))
  | accepted => exact alert _ k (settle_notDue _ (NotDue.congr (h k) rfl))
  | stray => exact NotDue.congr (h k) rfl
  | late j o => exact alert _ k (settle_notDue _ (NotDue.set (h k) (j := j) (ts := .free) rfl rfl))
  | response => exact alert _ k (settle_notDue _ (takeResponse_notDue s _ _ _ _ _ (h k)))
  | expiry => exact alert _ k (settle_notDue _ (expire_notDue s _ _ _ _ (h k)))
  | assertReset => exact NotDue.congr (reset k) rfl
  | releaseReset b => exact release s b h k
  | pulseReset b => exact release (s.assertReset b) b (fun j => NotDue.congr (reset j) rfl) k
  | link => exact NotDue.congr (h k) rfl
  | staging => exact NotDue.congr (h k) rfl
  | mask => exact NotDue.congr (h k) rfl
  | commit => exact NotDue.congr (h k) (by unfold advanceGeneration; split <;> rfl)
  | summaryPop => exact NotDue.congr (h k) rfl
  | faultPop => exact NotDue.congr (h k) rfl
  | purge b p =>
    have fold : ∀ (l : List Tag) (v : State), v.NotDue k → (l.foldl purgeTag v).NotDue k := by
      intro l
      induction l with
      | nil => exact fun v hv => hv
      | cons j l ih =>
        intro v hv
        refine ih _ ?_
        unfold purgeTag; split
        · exact hv
        · exact hv
        · exact hv.set (j := j) (ts := .free) rfl rfl
    exact answer _ _ _ k (settle_notDue _ (fold _ (s.setMiso b) (NotDue.congr (h k) rfl)))
  | softReset b =>
    refine answer _ _ _ k (offerNext_notDue (s.setMiso b).softResetBlocks ?_)
    intro n fl hk
    simp only [softResetBlocks, mapStore_get, setMiso_port] at hk
    cases hj : s.port.tags[k] with
    | free => rw [hj] at hk; cases hk
    | orphaned => rw [hj] at hk; cases hk
    | bound m x =>
      rw [hj] at hk
      cases x with
      | none => cases hk
      | some x =>
        simp only [resetTag] at hk
        split at hk
        · cases hk
        · split at hk <;> cases hk

/-- Every step leaves no deadline due (R127). -/
theorem step_noneDue (s t : State) (hT : s.TableSound) (h : s.NoneDue) (hst : step s = .next t) : t.NoneDue := by
  rcases step_cases s t hst with ⟨-, rfl⟩ | ⟨c, rest, -, hm | ⟨k, rfl⟩⟩
  · exact tick_noneDue s hT
  · exact move_noneDue hm h
  · exact takeExpiry_noneDue { s with pending := rest } k (TableSound_congr hT rfl rfl rfl rfl) h

end Sys2Proof.Machine
end

