-- ==== Sys2Proof/Laws/Request.lean ====
section
/-!
SUPPORT. A request from the channel to its acceptance: which command sends it, and what the step is when no
other request waits and an entry is free.
-/

namespace Sys2Proof.Machine

open State

/-- Well-formedness as the statements say it (R50). -/
theorem wellFormed_iff (q : Request) : q.wellFormed = true ↔ q.InForm := by
  simp [Request.wellFormed, Request.InForm, and_assoc]

/-- The command that sends a request puts it on the channel. -/
theorem exec_command (q : Request) (s : State) (h : q.dir = .read → q.data = []) :
    exec q.command s = .next (s.arrive q) := by
  rcases q with ⟨d, id, a, b, data⟩
  cases d with
  | read => have := h rfl; subst this; rfl
  | write => rfl

/-- A request that arrives on an empty channel while an entry is free is accepted in that step. -/
theorem drain_new (s : State) (n : EntryNo) (q : Request) (h : s.resetAsserted = false) (h0 : s.requests = [])
    (hn : s.freeEntry = some n) :
    drainRequests 16 { s with requests := s.requests ++ [q] } = settle (accept s n q) := by
  have e : ({ s with requests := [] } : State) = s := by cases s; simp_all
  have hn' : State.freeEntry { s with requests := s.requests ++ [q] } = some n := hn
  rw [drainRequests]; simp only [h0, List.nil_append]
  rw [if_neg (by simp [h])]
  rw [h0] at hn'
  simp only [List.nil_append] at hn'
  simp only [hn']
  rw [e]
  apply drain_idle
  left
  rw [(settle_unmoved _).2.2.1]
  unfold accept; dsimp only; split
  · unfold postFenced; split <;> exact h0
  · exact h0

/-- The step of a request that is accepted at once. -/
theorem exec_request (s : State) (n : EntryNo) (q : Request) (h : s.resetAsserted = false) (h0 : s.requests = [])
    (hn : s.freeEntry = some n) (hq : q.dir = .read → q.data = []) :
    exec q.command s = .next (settle (accept s n q)).refreshAlert := by
  rw [exec_command q s hq, State.arrive, drain_new s n q h h0 hn]

/-- The youngest entry replaced; no older one has its number. -/
theorem youngest_replaced (l : List Entry) (e e' : Entry) (h : ∀ x ∈ l, x.no ≠ e'.no) (hn : e.no = e'.no) :
    (l ++ [e]).map (fun x => if x.no = e'.no then e' else x) = l ++ [e'] := by
  rw [List.map_append]
  congr 1
  · conv_rhs => rw [← List.map_id l]
    apply List.map_congr_left
    intro x hx; simp [h x hx]
  · simp [hn]

/-- Settling that is one grant and the take it allows, after which nothing waits. -/
theorem settle_one (a g t : State) (h1 : arbitrate a = a) (h2 : grantOne a = some g) (h3 : arbitrate g = t)
    (h4 : ∀ e ∈ t.table.entries, e.state ≠ .waiting) : settle a = offerNext t := by
  have : grantOne t = none := (grantOne_none t).2 (.inr fun e he => by
    rw [← Bool.not_eq_true, canProceed_iff]; exact fun h => h4 e he h.1)
  unfold settle
  rw [h1, grants, h2]; dsimp only
  rw [h3, grants, this]

/-- An offer changes nothing but the offer. -/
theorem offerNext_fields (t : State) :
    (offerNext t).table.entries = t.table.entries ∧ (offerNext t).merge = t.merge ∧ (offerNext t).port = t.port ∧
      (offerNext t).stats = t.stats := by
  unfold offerNext; split <;> exact ⟨rfl, rfl, rfl, rfl⟩

end Sys2Proof.Machine
end

