-- ==== Sys2Proof/Tests/Slice0.lean ====
section
/-!
SUPPORT. The model's own tests: ill-formed commands that are refused, frames written out from the spec's
layouts, the spec's worked figures, one small step per command, and for every statement with hypotheses
concrete states that meet them.
-/

namespace Sys2Proof.Tests

open Sys2Proof Sys2Proof.Machine

set_option Elab.async false

/-! ## Small states and operands -/

/-- The state a command leads to; every command leads to one. -/
def ran (c : Instr) (s : State) : State :=
  match exec c s with
  | .next t => t
  | .fault _ => s
  | .refused _ => s

/-- A lane that is written. -/
def put (v : Byte) : Lane := { val := v, strobe := true }

/-- A lane that is not. -/
def skip (v : Byte) : Lane := { val := v, strobe := false }

/-- A beat of one value, all strobes set. -/
def beatOf (v : Byte) : WBeat := List.replicate 8 (put v)

/-- A window with no group but PLACE. -/
def bare (m : Mode) (base : Addr) (length : Nat) : Window :=
  { place := { mode := m, format := .s32, checksum := true, base := base, length := length }
    map := none, curve := none, clamp := none, blend := none, pattern := none }

/-- CONDITION over the first KiB, under BLEND, PATTERN and FENCE windows of 256 bytes each. -/
def stack : WindowTable :=
  { slots :=
      #v[some (bare .condition 0 1024),
        some
          { bare .blend 256 256 with
            blend := some { source := .plane, plane := 32, component := 3, policy := .keepOld } },
        some
          { bare .pattern 512 256 with
            pattern := some { kind := .solid, row := 8, border := 1, seed := 0, solid := ⟨1, 2, 3, 4⟩ } },
        some (bare .fence 768 256), none, none, none, none]
    layers := [1, 2, 3, 0]
    background := .fence }

/-- The part with a table in force, as generation 5. -/
def under (t : WindowTable) : State :=
  { State.reset with
    gens := { State.reset.gens with active := { number := 5, table := t } }
    stats := { State.reset.stats with active := openRecord 5 t } }

/-- A READ REQUEST. -/
def readAt (addr : Addr) (beats : Nat) : Request := { dir := .read, id := 3, addr := addr, beats := beats, data := [] }

/-- A WRITE REQUEST of like beats. -/
def writeAt (addr : Addr) (beats : Nat) : Request :=
  { dir := .write, id := 4, addr := addr, beats := beats, data := List.replicate beats (beatOf 100) }

/-- A live entry of one pass-through beat on a line of its own. -/
def live (n : EntryNo) (d : Dir) (st : EntryState) : Entry :=
  { no := n, id := 0, dir := d, addr := BitVec.ofNat 36 (64 * n.val), beats := 1
    wdata := if d = .write then [beatOf 7] else [], bound := some 0, claims := some [.backgroundPass]
    merge := false, run := some ⟨0, 0⟩, span := some ⟨n.val, n.val⟩, blockers := [], state := st
    tag := none, slot := none, status := .done, rdata := [] }

/-- A read in flight. -/
def flying (kind : Dir) : Option Flight := some { kind := kind, deadline := some 9 }

/-- What an ORPHANED tag keeps. -/
def lost : Orphan := { dir := .read, addr := 64, beats := 1, gen := some 0, phase := none }

/-- Entry 0 is ISSUING, entry 1 MERGING in READ_WAIT, entry 2 OUTSTANDING; tag 3 is ORPHANED. -/
def busy : State :=
  { State.reset with
    table :=
      { State.reset.table with
        entries :=
          [{ live 0 .read .issuing with tag := some 0 },
            { live 1 .write .merging with tag := some 1, slot := some 0, merge := true },
            { live 2 .read .outstanding with tag := some 2 }]
        activeCount := 3 }
    merge := #v[some { entry := 1, phase := .readWait, oldData := [], merged := [] }, none, none, none]
    port :=
      { State.reset.port with
        tags :=
          #v[.bound 0 none, .bound 1 none, .bound 2 (flying .read), .orphaned lost, .free, .free, .free, .free,
            .free, .free, .free, .free, .free, .free, .free, .free] }
    alertLow := false }

/-- Sixteen malformed requests live, the first on offer, one request waiting, and a RETIREMENT in the queue. -/
def full : State :=
  let q : Request := readAt 0 0
  { State.reset with
    pending := [.retirement]
    table :=
      { entries := Config.sixteen.map (fun n => malformedEntry n q 0)
        activeCount := 16, retiringCount := 0
        offer := some { entry := 0, response := (malformedEntry 0 q 0).response } }
    requests := [readAt 0x40 1] }

/-- One entry on offer. -/
def offering (e : Entry) : State :=
  { State.reset with
    table := { State.reset.table with entries := [e], offer := some { entry := e.no, response := e.response } } }

/-! ## Commands that no sender could send -/

theorem test_illformed_write_lane :
    (Instr.writeRequest 0 0 1 [[put 1]]).wellFormed = false ∧ wbeatOk [put 1] = false ∧ wbeatOk (beatOf 1) = true := by
  decide

theorem test_illformed_write_length : (Instr.writeRequest 0 0 2 [beatOf 1]).wellFormed = false := by decide

theorem test_illformed_read_beat :
    (Instr.downReadReturn 0 .ok [[1, 2, 3]]).wellFormed = false ∧ rbeatOk [1, 2, 3] = false := by decide

theorem test_illformed_arguments :
    let long : List Byte := List.replicate 61 0
    argsOk long = false ∧ argsOk (List.replicate 60 0) = true ∧
      ∀ c ∈ [Instr.query long, .stageWrite long, .stageRead long, .activeRead long, .stageClear long,
        .stageCopy long, .commit long, .statsRead long, .summaryPop long, .faultPop long, .purge long,
        .softReset long, .setParamTimeout (List.replicate 60 0), .setParamAlertMask (List.replicate 60 0)],
        c.wellFormed = false := by decide +kernel

/-- Frames that are not rejected: a QUERY, with and without bits of a fourth byte, no whole byte, a FETCH. -/
theorem test_illformed_rejected_frame :
    (∀ bits ∈ [frameBits [0x01, 0x00, 0x15], frameBits [0x01, 0x00, 0x15] ++ [true, false], [],
        List.replicate 7 true, frameBits [0x80, 0x00]], (Instr.rejectedFrame bits).wellFormed = false) ∧
      (Instr.rejectedFrame (frameBits [0x01, 0x00, 0x14])).wellFormed = true ∧
      (Instr.rejectedFrame (frameBits [0x01, 0x00] ++ List.replicate 7 true)).wellFormed = true := by decide +kernel

/-! ## Frames and figures of the spec -/

/-- R164: a QUERY frame bit by bit, most significant bit of each byte first, with bits of a fourth byte. -/
theorem test_bits_of_a_frame :
    let bits : List Bool :=
      [false, false, false, false, false, false, false, true,
       false, false, false, false, false, false, false, false,
       false, false, false, true, false, true, false, true,
       true, true, true, true, true, true, true]
    wholeBytes bits = [0x01, 0x00, 0x15] ∧ decodeFrame bits = some (.query []) ∧
      frameBits [0x01, 0x00, 0x15] = bits.take 24 ∧ wholeBytes (bits.take 23) = [0x01, 0x00] ∧
      decodeFrame (bits.take 7) = none := by decide +kernel

/-- R165, R185: QUERY, COMMIT, SET_PARAM and FETCH frames, and one byte wrong. -/
theorem test_frames_of_the_spec :
    decodeFrame (frameBits [0x01, 0x00, 0x15]) = some (.query []) ∧
      encodeFrame (.query []) = some (frameBits [0x01, 0x00, 0x15]) ∧
      encodeFrame (.commit []) = some (frameBits (commandFrame 0x15 [])) ∧
      decodeFrame (frameBits (commandFrame 0x30 [0x00, 0x07, 0xD0])) = some (.setParamTimeout [0x07, 0xD0]) ∧
      decodeFrame (frameBits [0x80, 0xFF, 0xFF]) = some (.fetch 2) ∧
      frameError [0x01, 0x00, 0x16] = some .badCrc ∧ frameError [0x01, 0x00] = some .framing ∧
      frameError (commandFrame 0x02 []) = some .unknownCommand ∧ crc8 [0x0A, 0x00] = 0x82 := by decide +kernel

/-- The curve table after R76. -/
theorem test_curve_of_the_spec :
    let knots : List Knot := [⟨0, 0⟩, ⟨100, 150⟩, ⟨102, 149⟩, ⟨255, 0⟩]
    [0, 1, 3, 100, 101, 102, 200, 255].map (curveAt knots) = [0, 2, 5, 150, 150, 149, 54, 0] := by decide

/-- The alphas of R92 and R93. -/
theorem test_alphas_of_the_spec :
    [0, 1, 2, 5, 128, 253, 254, 255].map (fun v => sampleAlpha (put v)) = [0, 0, 1, 1, 32, 63, 64, 64] ∧
      [0, 5, 128, 253, 255].map
          (fun v => effectiveAlpha { source := .product, plane := 32, component := 3, policy := .keepOld } (put v)) =
        [0, 1, 16, 32, 32] := by decide

/-- The beat of section 4.8, with its clamped count and checksum. -/
theorem test_conditioned_beat_of_the_spec :
    let w : Window :=
      { bare .condition 0 256 with
        map := some ⟨.comp 2, .comp 1, .comp 0, .comp 3⟩
        curve := some { mask := ⟨true, true, true, false⟩, knots := [⟨0, 0⟩, ⟨64, 32⟩, ⟨192, 224⟩, ⟨255, 255⟩] }
        clamp := some ⟨⟨16, 235⟩, ⟨16, 235⟩, ⟨16, 235⟩, ⟨0, 255⟩⟩ }
    let sent : WBeat := [put 20, put 100, put 200, put 255, put 10, put 64, skip 250, skip 128]
    let built := conditionBeat w sent
    built.beat = [put 228, put 86, put 16, put 255, skip 0, put 32, put 16, skip 0] ∧ built.clamped = 2 ∧
      beatChecksum built.beat = 30212 := by decide

/-- The S16 beat of section 4.9. -/
theorem test_constant_source_of_the_spec :
    let w : Window :=
      { bare .condition 0 256 with
        place := { mode := .condition, format := .s16, checksum := false, base := 0, length := 256 }
        map := some ⟨.comp 1, .full, .comp 0, .comp 0⟩
        clamp := some ⟨⟨0, 255⟩, ⟨0, 200⟩, ⟨0, 255⟩, ⟨0, 255⟩⟩ }
    let built := conditionBeat w [put 30, put 70, put 30, skip 70, skip 30, put 70, skip 30, skip 70]
    built.beat = [put 70, put 200, skip 0, put 200, put 70, put 200, skip 0, skip 0] ∧ built.clamped = 3 := by
  decide

/-- Beat 1 of section 5.8. -/
theorem test_blended_beat_of_the_spec :
    let b : Blend := { source := .product, plane := 48, component := 3, policy := .takeNew }
    let w : Window :=
      { bare .blend 0x02000100 256 with
        clamp := some ⟨⟨16, 235⟩, ⟨16, 235⟩, ⟨16, 235⟩, ⟨0, 255⟩⟩
        blend := some b }
    let built :=
      blendBeat w b [put 200, put 100, put 0, put 128, put 255, put 255, put 255, skip 9]
        [40, 40, 0, 200, 0, 100, 200, 50]
    built.beat = [put 100, put 63, put 16, put 128, put 191, put 216, put 235, skip 0] ∧ built.clamped = 2 ∧
      beatChecksum built.beat = 39198 := by decide

/-- The pattern beats of section 6.6. -/
theorem test_patterns_of_the_spec :
    let place := fun (f : Format) (base : Addr) (length : Nat) =>
      ({ mode := .pattern, format := f, checksum := false, base := base, length := length } : Place)
    patternBeat (place .s32 0x00400000 0xF00)
          { kind := .bars, row := 64, border := 1, seed := 0, solid := ⟨16, 128, 128, 255⟩ } 0x00400080 =
        [255, 255, 0, 255, 255, 255, 0, 255] ∧
      patternBeat (place .s32 0x00600000 0x400)
          { kind := .border, row := 48, border := 1, seed := 0, solid := ⟨255, 255, 0, 255⟩ } 0x006000C0 =
        [255, 255, 0, 255, 0, 0, 0, 255] ∧
      patternBeat (place .s16 0x00700000 0x100)
          { kind := .noise, row := 128, border := 1, seed := 1, solid := ⟨0, 0, 0, 0⟩ } 0x00700000 =
        [0, 42, 151, 166, 13, 2, 99, 62] := by decide

/-! ## One step of every command -/

/-- A read under the empty table is granted tag 0 and presented at once. -/
theorem test_readRequest :
    let t := ran (.readRequest 3 0x1000 2) State.reset
    t.port.channel = some { kind := .read, tag := 0, addr := 0x1000, beats := 2, data := [] } ∧
      t.table.entries.map Entry.state = [.outstanding] ∧ t.table.activeCount = 1 := by decide +kernel

/-- A read of fenced space completes REFUSED with zeros and a FENCED record. -/
theorem test_readRequest_fenced :
    let t := ran (.readRequest 3 768 1) (under stack)
    t.port.channel = none ∧ t.faults.map FaultRecord.kind = [.fenced] ∧ t.alertLow = true ∧
      t.table.offer.map Offer.response =
        some { dir := .read, id := 3, status := .refused, data := [List.replicate 8 0] } := by decide +kernel

/-- A plain write leaves conditioned and is counted under its slot. -/
theorem test_writeRequest :
    let t := ran (.writeRequest 4 8 1 [beatOf 100]) (under stack)
    t.port.channel = some { kind := .write, tag := 0, addr := 8, beats := 1, data := [beatOf 100] } ∧
      t.stats.active.parts.map SlotPart.issued = [0, 0, 0, 1] := by decide +kernel

/-- A blending write takes a merge slot and reads the old data first. -/
theorem test_writeRequest_blend :
    let t := ran (.writeRequest 4 256 1 [beatOf 100]) (under stack)
    t.port.channel = some { kind := .read, tag := 0, addr := 256, beats := 1, data := [] } ∧
      t.merge[0] = some { entry := 0, phase := .readOut, oldData := [], merged := [] } := by decide +kernel

theorem test_retirement :
    let t := ran .retirement full
    t.requests = [] ∧ t.table.entries.length = 16 ∧ t.table.offer.map Offer.entry = some 1 ∧
      t.port.channel = some { kind := .read, tag := 0, addr := 0x40, beats := 1, data := [] } := by decide +kernel

theorem test_downRequestAccepted :
    let s := ran (.readRequest 3 0 1) State.reset
    (ran .downRequestAccepted s).port.channel = none ∧ (ran .downRequestAccepted State.reset) = State.reset := by
  decide +kernel

/-- The entry keeps its read data; two older entries share its upstream ID, so it is not offered yet. -/
theorem test_downReadReturn :
    let data : RBeat := [1, 2, 3, 4, 5, 6, 7, 8]
    let t := ran (.downReadReturn 2 .ok [data]) busy
    t.table.entries.map Entry.rdata = [[], [], [data]] ∧ t.table.offer = none ∧ t.port.tags[2] = .free := by
  decide +kernel

/-- A write return on a tag that awaits a read is a stray. -/
theorem test_downWriteReturn :
    let t := ran (.downWriteReturn 2 .error) busy
    t.faults.map FaultRecord.kind = [.stray] ∧ t.table = busy.table ∧ t.port = busy.port := by decide +kernel

theorem test_deadlineExpiry :
    let t := ran (.deadlineExpiry 2) busy
    t.faults.map FaultRecord.kind = [.timeout] ∧
      t.port.tags[2] = .orphaned { dir := .read, addr := 128, beats := 1, gen := some 0, phase := none } ∧
      t.table.entries.map Entry.status = [.done, .done, .fault] := by decide +kernel

theorem test_powerOnReset :
    ran (.powerOnReset ⟨.pulse, false⟩) busy = State.reset ∧
      (ran (.powerOnReset ⟨.asserted, false⟩) full).requests = full.requests := by decide +kernel

/-- R184: a frame in progress at the assertion, or at the release, is discarded; the next one is taken. -/
theorem test_frame_cut_by_a_reset :
    let cut := ran (.powerOnReset ⟨.released, false⟩) (ran (.powerOnReset ⟨.asserted, true⟩) busy)
    let late := ran (.powerOnReset ⟨.released, true⟩) (ran (.powerOnReset ⟨.asserted, false⟩) busy)
    cut.link.cut = true ∧ late = cut ∧ ran (.powerOnReset ⟨.pulse, true⟩) busy = cut ∧
      (ran (.stageCopy []) cut).link.response = none ∧ (ran (.stageCopy []) cut).link.cut = false ∧
      (ran (.rejectedFrame [true]) cut).link.cut = false ∧
      ((ran (.stageCopy []) (ran (.stageCopy []) cut)).link.response).isSome = true := by decide +kernel

/-- The snapshot right after reset: timeout 2000, orphan MASKED, all else zero. -/
theorem test_query :
    (ran (.query []) State.reset).link.response =
      some
        { status := .ok, priorDiscarded := false, payload := [0, 0, 0, 0, 0, 0, 0, 0, 0, 0, 4, 0, 0x07, 0xD0] } := by
  decide +kernel

/-- PLACE of slot 2 with values: FENCE, S16, checksum no, base 0x100, length 0x100. -/
theorem test_stageWrite :
    let t := ran (.stageWrite [2, 0, 3, 0, 0, 0, 0, 0, 1, 0, 0, 0, 0, 1, 0]) State.reset
    t.link.response.map LinkResponse.status = some .ok ∧
      (t.gens.staging.slots[2].map Window.place).map Place.length = some 256 ∧
      t.gens.active = State.reset.gens.active := by decide +kernel

/-- MAP of an EMPTY slot is refused. -/
theorem test_stageWrite_refused :
    let t := ran (.stageWrite [2, 1, 0, 1, 2, 3]) State.reset
    t.link.response.map LinkResponse.status = some .badArgument ∧ t.gens = State.reset.gens := by decide +kernel

theorem test_stageRead :
    (ran (.stageRead [7]) State.reset).link.response.map LinkResponse.payload = some [0] ∧
      (ran (.stageRead [8]) State.reset).link.response.map LinkResponse.status = some .badArgument := by
  decide +kernel

theorem test_activeRead :
    (ran (.activeRead [0xFF]) (under stack)).link.response.map LinkResponse.payload =
      some [5, 1, 4, 1, 2, 3, 0] := by decide +kernel

theorem test_stageClear :
    let s : State := { State.reset with gens := { State.reset.gens with staging := stack } }
    (ran (.stageClear [0xFF]) s).gens = State.reset.gens ∧
      (ran (.stageClear [0]) s).gens.staging.layers = stack.layers ∧
      (ran (.stageClear [0]) s).gens.staging.slots[0] = none := by decide +kernel

theorem test_stageCopy : (ran (.stageCopy []) (under stack)).gens.staging = stack := by decide +kernel

/-- A commit with a live entry leaves the old generation draining. -/
theorem test_commit :
    let t := ran (.commit []) busy
    t.link.response.map LinkResponse.payload = some [1] ∧ t.gens.retiring.map Bank.number = some 0 ∧
      t.table.retiringCount = 3 ∧ t.table.activeCount = 0 := by decide +kernel

/-- A list that names an EMPTY slot. -/
theorem test_commit_invalid :
    let s : State :=
      { State.reset with gens := { State.reset.gens with staging := { WindowTable.empty with layers := [3] } } }
    (ran (.commit []) s).link.response =
        some { status := .invalid, priorDiscarded := false, payload := [0xFF, 0x03] } ∧
      (ran (.commit []) s).gens = s.gens := by decide +kernel

theorem test_statsRead :
    (ran (.statsRead [2]) (under stack)).link.response.map LinkResponse.payload =
        some ([5, 2, 2] ++ List.replicate 18 0) ∧
      (ran (.statsRead [4]) (under stack)).link.response =
        some { status := .notListed, priorDiscarded := false, payload := [5] } := by decide +kernel

theorem test_summaryPop :
    let t := ran (.summaryPop []) (ran (.commit []) State.reset)
    t.link.response = some { status := .ok, priorDiscarded := true, payload := List.replicate 13 0 } ∧
      t.stats.queue = [] ∧ t.alertLow = false := by decide +kernel

theorem test_faultPop :
    let t := ran (.faultPop []) (ran (.downReadReturn 9 .ok []) State.reset)
    t.link.response.map LinkResponse.payload = some [6, 0, 16, 0, 0, 0, 0, 0, 0, 0, 0, 9, 0] ∧ t.faults = [] := by
  decide +kernel

theorem test_setParamTimeout : (ran (.setParamTimeout [0x12, 0x34]) State.reset).link.timeout = 0x1234 := by
  decide +kernel

/-- Unmasking a source that is active asserts the line at once. -/
theorem test_setParamAlertMask :
    (ran (.setParamAlertMask [0x03]) busy).alertLow = true ∧
      (ran (.setParamAlertMask [0x08]) busy).link.mask = busy.link.mask := by decide +kernel

theorem test_purge :
    let t := ran (.purge []) busy
    t.link.response.map LinkResponse.payload = some [1] ∧ t.faults.map FaultRecord.kind = [.purged] ∧
      t.port.tags[3] = .free := by decide +kernel

theorem test_softReset :
    let t := ran (.softReset []) busy
    t.table.entries.map Entry.status = [.fault, .fault, .fault] ∧ t.faults = [] ∧
      t.port.tags[0] = .free ∧ t.port.tags[1] = .free ∧
      t.port.tags[2] = .orphaned { dir := .read, addr := 128, beats := 1, gen := some 0, phase := none } ∧
      t.port.tags[3] = .orphaned lost := by decide +kernel

/-- NO_RESPONSE from an empty buffer, and a complete fetch of a pending response. -/
theorem test_fetch :
    (ran (.fetch 4) State.reset).link.miso = [0xFF, 0x0A, 0x00, 0x82, 0xFF] ∧
      (ran (.fetch 4) (ran (.stageCopy []) State.reset)).link.response = none := by decide +kernel

theorem test_rejectedFrame :
    let t := ran (.rejectedFrame (frameBits [0x01, 0x00, 0x14])) State.reset
    t.link.response = some { status := .badCrc, priorDiscarded := false, payload := [] } ∧
      t.link.frameError = true := by decide +kernel

/-! ## Sound states -/

/-- A state with no tag and no merge slot in use and no entry is sound as far as the path goes. -/
theorem path_of_empty (s : State) (he : s.table.entries = []) (ht : ∀ k : Tag, s.port.tags[k] = .free)
    (hm : ∀ m : MergeNo, s.merge[m] = none) : s.PathSound := by
  refine ⟨by rw [he]; exact List.nodup_nil, fun e h => ?_, fun k n fl h => ?_, fun e h => ?_, fun m w h => ?_⟩
  · rw [he] at h; cases h
  · rw [ht] at h; cases h
  · rw [he] at h; cases h
  · rw [hm] at h; cases h

theorem under_path (t : WindowTable) : (under t).PathSound :=
  path_of_empty _ rfl (show ∀ k : Tag, State.reset.port.tags[k] = .free by decide)
    (show ∀ m : MergeNo, State.reset.merge[m] = none by decide)

theorem busy_tags : ∀ k : Tag, busy.port.tags[k] =
    if k = 0 then .bound 0 none else if k = 1 then .bound 1 none
    else if k = 2 then .bound 2 (flying .read) else if k = 3 then .orphaned lost else .free := by decide

theorem busy_path : busy.PathSound := by
  refine ⟨by decide, fun e he => ?_, fun k n fl h => ?_, fun e he k hk => ?_, fun m w h => ?_⟩
  · simp only [busy, List.mem_cons, List.not_mem_nil, or_false] at he
    rcases he with rfl | rfl | rfl <;>
      exact ⟨by simp [live], by simp [live, spanOf], by simp [live, EntryState.holdsTag], by simp [live],
        by simp [live], by simp [live], by simp [live], by simp [live]⟩
  · rw [busy_tags] at h
    split at h
    · rename_i hk
      injection h with h1 h2; subst h1 h2 hk
      exact ⟨_, .head _, rfl, rfl, rfl⟩
    · split at h
      · rename_i hk
        injection h with h1 h2; subst h1 h2 hk
        exact ⟨_, .tail _ (.head _), rfl, rfl, 0, _, rfl, rfl, rfl, rfl⟩
      · split at h
        · rename_i hk
          injection h with h1 h2; subst h1 h2 hk
          exact ⟨_, .tail _ (.tail _ (.head _)), rfl, rfl, rfl⟩
        · split at h <;> cases h
  · simp only [busy, List.mem_cons, List.not_mem_nil, or_false] at he
    rcases he with rfl | rfl | rfl <;> simp only [Option.some.injEq] at hk <;> subst hk <;>
      exact ⟨_, rfl⟩
  · have : ∀ m : MergeNo, m ≠ 0 → busy.merge[m] = none := by decide
    by_cases hm : m = 0
    · subst hm
      have h0 : busy.merge[(0 : MergeNo)] = some { entry := 1, phase := .readWait, oldData := [], merged := [] } := rfl
      rw [h0] at h; injection h with h; subst h
      exact ⟨_, .tail _ (.head _), rfl, rfl⟩
    · rw [this m hm] at h; cases h

/-- The malformed requests that fill the table in `full`. -/
theorem full_entry (e : Entry) (he : e ∈ full.table.entries) :
    e.state = .complete ∧ e.tag = none ∧ e.slot = none ∧ e.merge = false ∧ e.run = none ∧ e.span = none ∧
      e.blockers = [] ∧ e.bound = some 0 := by
  obtain ⟨n, -, rfl⟩ := List.mem_map.1 he
  exact ⟨rfl, rfl, rfl, rfl, rfl, rfl, rfl, rfl⟩

theorem full_path : full.PathSound := by
  have ht : ∀ k : Tag, State.reset.port.tags[k] = .free := by decide
  have hm : ∀ m : MergeNo, State.reset.merge[m] = none := by decide
  refine ⟨by decide, fun e he => ?_, fun k n fl h => ?_, fun e he k hk => ?_, fun m w h => ?_⟩
  · obtain ⟨h1, h2, h3, h4, h5, h6, h7, -⟩ := full_entry e he
    exact ⟨by simp [h1], by simp [h5, h6], by simp [h1, h2, EntryState.holdsTag], by simp [h1, h3], by simp [h1],
      by simp [h1], by simp [h4], by simp [h1, h7]⟩
  · have h : State.reset.port.tags[k] = .bound n fl := h
    rw [ht] at h; cases h
  · rw [(full_entry e he).2.1] at hk; cases hk
  · have h : State.reset.merge[m] = some w := h
    rw [hm] at h; cases h

theorem reset_valid : State.reset.GenerationsSound :=
  ⟨by decide +kernel, fun _ h => (by cases h), fun _ h => (by cases h), rfl, rfl⟩

theorem full_sound : full.Sound := by
  have ho : ∀ older e younger, full.table.entries = older ++ e :: younger →
      e ∈ full.table.entries ∧ ∀ x ∈ older, x ∈ full.table.entries := by
    intro older e younger h
    rw [h]; exact ⟨by simp, fun x hx => by simp [hx]⟩
  refine ⟨⟨by decide, by decide⟩, ?_, fun h => (by cases h), ?_, trivial, ?_, full_path, ?_, ?_, ?_⟩
  · have : full.refreshAlert = full := by decide +kernel
    rw [← this]; exact full.refreshAlert_follows
  · exact ⟨reset_valid.1, fun _ h => (by cases h), fun _ h => (by cases h), rfl, rfl⟩
  · exact ⟨by decide, fun _ h => (by cases h), fun _ => rfl, fun e he => .inl (full_entry e he).2.2.2.2.2.2.2,
      fun e he h => (full_entry e he).1⟩
  · intro older e younger h
    obtain ⟨h1, h2⟩ := ho older e younger h
    obtain ⟨-, -, -, -, -, h6, h7, -⟩ := full_entry e h1
    have : older.filter (Entry.conflicts e) = [] := by
      rw [List.filter_eq_nil_iff]; intro x _; simp [Entry.conflicts, h6]
    rw [h7, this]; rfl
  · intro o h
    have h : full.table.offer = some o := h
    refine ⟨[], malformedEntry 0 (readAt 0 0) 0, _, rfl, ?_⟩
    injection h with h; subst h
    exact ⟨rfl, rfl, rfl, fun x hx => (by cases hx)⟩
  · refine ⟨fun _ e he h => ?_, fun _ => ⟨fun e he h => ?_, fun m w h => ?_⟩, fun h => (by cases h), fun _ => .inr ?_,
      fun k n fl h => ?_⟩
    · rw [(full_entry e he).1] at h; cases h
    · rw [(full_entry e he).1] at h; cases h
    · have hm : ∀ m : MergeNo, State.reset.merge[m] = none := by decide
      have h : State.reset.merge[m] = some w := h
      rw [hm] at h; cases h
    · decide
    · have ht : ∀ k : Tag, State.reset.port.tags[k] = .free := by decide
      have h : State.reset.port.tags[k] = .bound n (some fl) := h
      rw [ht] at h; cases h

/-! ## What the statements assume can be met -/

theorem takes_of {s : State} (h : s.ignoresFrame = false) : s.TakesFrames := (State.ignoresFrame_iff s).1 h

theorem inForm_iff (q : Request) : q.InForm ↔ q.wellFormed = true := by
  simp [Request.InForm, Request.wellFormed, and_assoc]

theorem follows_of {s : State} (h : s.refreshAlert = s) : s.AlertFollows := by
  rw [← h]; exact s.refreshAlert_follows

/-- An entry that waits for nothing more. -/
def done (d : Dir) : Entry := live 0 d .complete

/-- The state with one command waiting. -/
def queued (c : Instr) : State := { State.reset with pending := [c] }

/-- Generation 255 drains while generation 0 is in force; entry 0 is bound to it and on offer. -/
def draining (count : Nat) : State :=
  { offering { done .read with bound := some 255 } with
    table :=
      { entries := [{ done .read with bound := some 255 }], activeCount := 0, retiringCount := count
        offer := some { entry := 0, response := (done .read).response } }
    gens := { State.reset.gens with retiring := some { number := 255, table := .empty } }
    stats := { State.reset.stats with retiring := some { StatsRecord.zero with gen := 255 } } }

theorem offering_path (d : Dir) : (offering (done d)).PathSound := by
  have ht : ∀ k : Tag, State.reset.port.tags[k] = .free := by decide
  have hm : ∀ m : MergeNo, State.reset.merge[m] = none := by decide
  refine ⟨by cases d <;> decide, fun e he => ?_, fun k n fl h => ?_, fun e he k hk => ?_, fun m w h => ?_⟩
  · simp only [offering, List.mem_singleton] at he
    subst he
    exact ⟨by simp [done, live], by simp [done, live, spanOf], rfl, by simp [done, live], by simp [done, live], by simp [done, live],
      by simp [done, live], by simp [done, live]⟩
  · have h : State.reset.port.tags[k] = .bound n fl := h
    rw [ht] at h; cases h
  · simp only [offering, List.mem_singleton] at he
    subst he; cases hk
  · have h : State.reset.merge[m] = some w := h
    rw [hm] at h; cases h

theorem test_witness_IdleStepCountsOneReferenceEdge :
    busy.pending = [] ∧ busy.tick.port.tags[2] = .bound 2 (some { kind := .read, deadline := some 8 }) ∧
      let s := busy.setTag 2 (.bound 2 (some { kind := .read, deadline := some 1 }))
      s.pending = [] ∧ s.tick.port.tags[2] = .orphaned { dir := .read, addr := 128, beats := 1, gen := some 0, phase := none } ∧
        s.tick.faults.map FaultRecord.kind = [.timeout] := by decide +kernel

theorem test_witness_PowerOnResetPutsEveryBlockBack :
    State.reset.resetAsserted = false ∧ State.reset.requests = [] ∧
      (ran (.powerOnReset ⟨.asserted, true⟩) busy).resetAsserted = true ∧
      (ran (.powerOnReset ⟨.asserted, true⟩) busy).requests = [] ∧ full.requests = [readAt 0x40 1] ∧
      (readAt 0x40 1).data = [] ∧ (writeAt 0x40 1).dir ≠ .read := by decide +kernel

/-- Two requests that wait through a reset, and what its release makes of them. -/
theorem test_witness_PowerOnResetPutsEveryBlockBack_waiting :
    let held := ran (.powerOnReset ⟨.asserted, true⟩) { busy with requests := [readAt 0x40 1, writeAt 0x40 1] }
    let t := ran (.powerOnReset ⟨.released, false⟩) held
    held.resetAsserted = true ∧ held.ResetHeld ∧ held.requests.length = 2 ∧
      t.table.entries.map (fun e => (e.dir, e.bound, e.state)) =
        [(.read, some 0, .outstanding), (.write, some 0, .held)] ∧ t.requests = [] := by
  unfold State.ResetHeld; decide +kernel

theorem test_witness_SoftResetAnswersEveryEntry :
    (offering (done .read)).TakesFrames ∧
      (offering (done .read)).table.offer = some { entry := 0, response := (done .read).response } ∧
      (offering (done .read)).entry? 0 = some (done .read) ∧ busy.TakesFrames ∧
      busy.table.offer = none := ⟨takes_of rfl, by decide, by decide, takes_of rfl, by decide⟩

/-- Tags FREE, ORPHANED, BOUND with nothing in flight, and BOUND in flight to an entry with a run. -/
theorem test_witness_SoftResetTagsByState :
    busy.PathSound ∧ busy.TakesFrames ∧ busy.port.tags[15] = .free ∧
      busy.port.tags[3] = .orphaned lost ∧ busy.port.tags[0] = .bound 0 none ∧
      busy.port.tags[2] = .bound 2 (flying .read) ∧ (busy.entry? 2).bind Entry.run = some ⟨0, 0⟩ :=
  ⟨busy_path, takes_of rfl, by decide⟩

theorem test_witness_RequestWaitsOnTheChannel :
    full.AlertFollows ∧ (∀ n : EntryNo, ∃ e ∈ full.table.entries, e.no = n) ∧
      ({ State.reset with resetAsserted := true } : State).AlertFollows ∧ (readAt 0 1).data = [] :=
  ⟨full_sound.alert, by decide, follows_of (by decide +kernel), rfl⟩

/-- No beats, 17 beats, a crooked address, and a burst over a 4 KiB edge. -/
theorem test_witness_MalformedRequestIsRefused :
    State.reset.resetAsserted = false ∧ State.reset.requests = [] ∧ State.reset.freeEntry = some 0 ∧
      ∀ q ∈ [readAt 0 0, readAt 0 17, readAt 4 1, writeAt 0xFF8 2], ¬ q.InForm := by
  refine ⟨by decide, by decide, by decide, fun q hq => ?_⟩
  rw [inForm_iff]
  revert q
  decide

/-- A run and no run, no conflict and a conflict with an older write. -/
theorem test_witness_WellFormedRequestTakesItsFirstState :
    (∀ q ∈ [readAt 0 1, writeAt 0xF80 16, readAt 0xFFFFFFFF8 1], q.InForm) ∧
      (under stack).freeEntry = some 0 ∧ (under stack).requests = [] ∧
      stack.runOf (stack.claimsOf (readAt 0 1)) = some ⟨0, 0⟩ ∧
      stack.runOf (stack.claimsOf (readAt 512 16)) = none ∧
      Entry.conflicts (live 0 .read .waiting) (live 0 .write .outstanding) = true := by
  refine ⟨fun q hq => ?_, by decide, by decide, by decide, by decide, by decide⟩
  rw [inForm_iff]
  revert q
  decide

/-- A READ behind a COMPLETE read of its line. -/
theorem test_witness_AcceptedRequestIsTakenAtOnce_read :
    let s := offering (done .read)
    let q := readAt 8 1
    s.PathSound ∧ q.InForm ∧ s.resetAsserted = false ∧ s.requests = [] ∧ s.freeEntry = some 1 ∧
      s.freeTag = some 0 ∧ s.freeMergeSlot = some 0 ∧ s.port.channel = none ∧
      (∀ e ∈ s.table.entries, e.state ≠ .waiting ∧ e.state ≠ .issuing) ∧
      (∀ j : MergeNo, ∀ w ∈ s.merge[j], w.phase.waits = false) ∧ q.dir = .read ∧ q.data = [] ∧
      s.gens.active.table.runOf (s.gens.active.table.claimsOf q) = some ⟨0, 0⟩ ∧
      ∀ e ∈ s.table.entries, ∀ span ∈ e.span, span.meets (spanOf q.addr ⟨0, 0⟩) = true → e.dir = .read ∧ q.dir = .read :=
  ⟨offering_path .read, (inForm_iff _).2 (by decide), by decide⟩

/-- A plain write to the CONDITION window and a write that blends. -/
theorem test_witness_AcceptedRequestIsTakenAtOnce_write :
    let s := under stack
    s.PathSound ∧ (writeAt 0 1).InForm ∧ (writeAt 248 2).InForm ∧ s.freeEntry = some 0 ∧ s.freeTag = some 0 ∧
      s.freeMergeSlot = some 0 ∧ s.port.channel = none ∧ s.table.entries = [] ∧
      (∀ j : MergeNo, ∀ w ∈ s.merge[j], w.phase.waits = false) ∧
      stack.runOf (stack.claimsOf (writeAt 0 1)) = some ⟨0, 0⟩ ∧
      stack.runOf (stack.claimsOf (writeAt 248 2)) = some ⟨0, 1⟩ ∧
      (∀ c ∈ stack.claimsOf (writeAt 0 1), (stack.treatment c).isBlend = false) ∧
      ∃ c ∈ stack.claimsOf (writeAt 248 2), (stack.treatment c).isBlend = true :=
  ⟨under_path _, (inForm_iff _).2 (by decide), (inForm_iff _).2 (by decide), by decide⟩

/-- The edges of a window at the top of the list and of one under others, and of the background. -/
theorem test_witness_BeatClaimIsTopmostListedWindow :
    stack.firstFailure = none ∧ stack.layers = [] ++ 1 :: [2, 3, 0] ∧ stack.layers = [1, 2, 3] ++ 0 :: [] ∧
      (∀ a ∈ [256, 511], ∀ w ∈ stack.slots[1], w.contains a = true) ∧
      (∀ a ∈ [0, 255], ∀ w ∈ stack.slots[0], w.contains a = true) ∧
      [255, 256, 511, 512, 1023, 1024].map stack.claimAt =
        [.slot 0, .slot 1, .slot 1, .slot 2, .slot 3, .backgroundFence] ∧
      (readAt 8 2).addr.toNat + 8 * 1 = (readAt 16 1).addr.toNat + 8 * 0 := by decide +kernel

/-- Where the windows above do not contain the address, and where none does. -/
theorem test_witness_BeatClaimIsTopmostListedWindow_above :
    (∀ x ∈ ([1, 2, 3] : List (Fin 16)), ∀ m : SlotNo, m.val = x.val → ∀ v ∈ stack.slots[m],
      ¬ (v.place.base.toNat ≤ 255 ∧ 255 < v.place.base.toNat + v.place.length)) ∧
      ∀ x ∈ stack.layers, ∀ m : SlotNo, m.val = x.val → ∀ v ∈ stack.slots[m],
        ¬ (v.place.base.toNat ≤ 1024 ∧ 1024 < v.place.base.toNat + v.place.length) := by decide

theorem test_witness_MemoryRunSpansTheMemoryBeats :
    stack.firstFailure = none ∧ (readAt 760 16).InForm ∧ (readAt 504 2).InForm ∧
      stack.runOf (stack.claimsOf (readAt 760 16)) = none ∧
      stack.runOf (stack.claimsOf (readAt 504 2)) = some ⟨0, 0⟩ ∧
      WindowTable.empty.runOf (WindowTable.empty.claimsOf (readAt 56 16)) = some ⟨0, 15⟩ ∧
      spanOf 56 ⟨0, 15⟩ = ⟨0, 2⟩ :=
  ⟨by decide +kernel, (inForm_iff _).2 (by decide), (inForm_iff _).2 (by decide), by decide⟩

/-- Bound to ACTIVE, to none, and to a RETIRING generation with another entry left. -/
theorem test_witness_RetirementFreesTheEntry :
    State.reset.table.offer = none ∧
      (∀ b : Option Gen, b = some 0 ∨ b = none →
        (offering { done .read with bound := b }).entry? 0 = some { done .read with bound := b }) ∧
      (offering (done .read)).table.offer.map Offer.entry = some 0 ∧ (offering (done .read)).requests = [] ∧
      (draining 2).entry? 0 = some { done .read with bound := some 255 } ∧ (draining 2).requests = [] ∧
      (draining 2).gens.retiring.map Bank.number = some 255 ∧ 2 ≤ (draining 2).table.retiringCount := by
  refine ⟨rfl, fun b _ => rfl, by decide⟩

theorem test_witness_LastRetirementClosesTheGeneration :
    let s := draining 1
    s.table.offer.map Offer.entry = some 0 ∧ s.entry? 0 = some { done .read with bound := some 255 } ∧
      s.requests = [] ∧ s.gens.retiring = some { number := 255, table := .empty } ∧ (255 : Gen) ≠ s.gens.active.number ∧
      s.table.retiringCount = 1 ∧ s.stats.retiring = some { StatsRecord.zero with gen := 255 } := by decide

theorem test_witness_RetirementAcceptsTheWaitingRequest :
    full.Sound ∧ full.table.offer.map Offer.entry = some 0 ∧
      full.entry? 0 = some (malformedEntry 0 (readAt 0 0) 0) ∧ full.requests = readAt 0x40 1 :: [] :=
  ⟨full_sound, by decide⟩

/-- Both sides, either side alone, neither, and a channel that is taken. -/
theorem test_witness_ArbiterAlternatesBetweenItsSides :
    let e0 := { live 0 .read .issuing with tag := some 0 }
    let e1 := { live 1 .write .merging with tag := some 1, slot := some 0, merge := true }
    let w : MergeWork := { entry := 1, phase := .readWait, oldData := [], merged := [] }
    let alone : State := { busy with merge := State.reset.merge }
    let merging := busy.setEntries [e1]
    busy.port.channel = none ∧ busy.forwardCandidate = some e0 ∧ busy.mergeCandidate = some (e1, 0, w) ∧
      alone.forwardCandidate = some e0 ∧ alone.mergeCandidate = none ∧ merging.forwardCandidate = none ∧
      merging.mergeCandidate = some (e1, 0, w) ∧ State.reset.forwardCandidate = none ∧
      State.reset.mergeCandidate = none ∧ (arbitrate busy).port.channel ≠ none ∧ e0.run = some ⟨0, 0⟩ ∧
      e1.run = some ⟨0, 0⟩ ∧ w.phase.waits = true ∧ busy.ignoresFrame = false := by decide

theorem test_witness_TakePresentsTheRequest :
    ∀ d : Dir, let e := { live 5 d .issuing with tag := some 15 }
      e.tag = some 15 ∧ e.run = some ⟨0, 0⟩ ∧ e.dir = d := by
  intro d; exact ⟨rfl, rfl, rfl⟩

/-- A plain entry and a merge entry that are granted, and states in which nothing is. -/
theorem test_witness_GrantGoesToTheOldestThatCanProceed :
    let waiting := fun merge : Bool =>
      State.reset.setEntries [{ live 3 .write .waiting with merge := merge }]
    (grantOne (waiting false)).isSome = true ∧ (grantOne (waiting true)).isSome = true ∧
      grantOne State.reset = none := by decide

/-- Something to grant and nothing; a free return channel with nothing deliverable, with one entry behind a younger
one that shares its upstream ID, and with an older entry that is not COMPLETE. -/
theorem test_witness_SettlingOffersTheOldest :
    let offered := fun entries => (offerNext (State.reset.setEntries entries)).table.offer.map Offer.entry
    (grantOne (State.reset.setEntries [live 3 .write .waiting])).isSome = true ∧ grantOne State.reset = none ∧
      State.reset.table.offer = none ∧ offered [] = none ∧ offered [done .read, { done .read with no := 1 }] = some 0 ∧
      offered [live 2 .read .waiting, { done .read with no := 1 }] = none ∧
      offered [live 2 .read .waiting, { done .read with no := 1, id := 5 }, { done .read with id := 7 }] = some 1 := by
  decide

theorem test_witness_SettlingLeavesTheRest :
    busy.PathSound ∧ busy.port.tags[2] = .bound 2 (flying .read) ∧ busy.port.tags[3] = .orphaned lost ∧
      (live 2 .read .outstanding).state ≠ .waiting ∧ full.table.offer ≠ none ∧
      (arbitrate busy).port.channel ≠ none := ⟨busy_path, by decide⟩

theorem test_witness_AcceptedDownRequestFreesTheChannel :
    let s : State := { full with port := { full.port with channel := (arbitrate busy).port.channel } }
    let freed : State := { s with port := { s.port with channel := none } }
    State.reset.port.channel = none ∧ s.port.channel ≠ none ∧ freed.forwardCandidate = none ∧
      freed.mergeCandidate = none ∧ grantOne freed = none ∧ s.table.offer ≠ none := by decide

/-- A read and a write in flight, answered with the beats asked for and with others. -/
theorem test_witness_ResponseCompletesAPlainEntry :
    ∀ d : Dir, let e := { live 2 d .outstanding with tag := some 2 }
      let s : State :=
        { State.reset with
          table := { State.reset.table with entries := [e] }
          port := { State.reset.port with tags := State.reset.port.tags.set 2 (.bound 2 (flying d)) } }
      s.resetAsserted = false ∧ s.port.tags[2] = .bound 2 (some { kind := e.dir, deadline := some 9 }) ∧
        s.entry? 2 = some e ∧ e.run = some ⟨0, 0⟩ ∧ e.merge = false ∧ e.slot = none ∧ e.dir = d ∧
        [List.replicate 8 (0 : Byte)].length = Run.count ⟨0, 0⟩ ∧ ([] : List RBeat).length ≠ Run.count ⟨0, 0⟩ := by
  intro d
  cases d <;> decide

theorem test_witness_ResponseMovesAMergeOn :
    ∀ d : Dir, let e := { live 1 .write .merging with tag := some 1, slot := some 0, merge := true }
      let s : State := { busy with port := { busy.port with tags := busy.port.tags.set 1 (.bound 1 (flying d)) } }
      s.resetAsserted = false ∧ s.entry? 1 = some e ∧ e.run = some ⟨0, 0⟩ ∧ e.merge = true ∧ e.dir = .write ∧
        e.slot = some 0 ∧ (s.merge[0]).isSome = true ∧
        s.port.tags[1] = .bound 1 (some { kind := d, deadline := some 9 }) := by
  intro d
  cases d <;> decide

theorem test_witness_StrayResponseOnlyPostsARecord :
    busy.resetAsserted = false ∧ busy.port.tags[15] = .free ∧ busy.port.tags[0] = .bound 0 none ∧
      Dir.read ≠ .write ∧ busy.port.tags[2] = .bound 2 (some { kind := .read, deadline := some 9 }) := by decide

theorem test_witness_LateResponseFreesTheOrphan :
    busy.resetAsserted = false ∧ busy.port.tags[3] = .orphaned lost ∧
      ({ State.reset with resetAsserted := true } : State).resetAsserted = true := by decide

theorem test_witness_ExpiryOrphansTheTag :
    busy.port.tags[2] = .bound 2 (some { kind := .read, deadline := some 9 }) ∧ 1 ≤ 9 ∧
      (busy.entry? 2).bind Entry.run = some ⟨0, 0⟩ ∧ busy.port.tags[0] = .bound 0 none ∧
      busy.port.tags[15] = .free ∧ busy.port.tags[3] = .orphaned lost := by decide

/-- No other deadline runs in `busy`; and where one falls due first, or at the same edge, it expires too. -/
theorem test_witness_ExpiryOrphansTheTag_others :
    (∀ j : Tag, j ≠ 2 → (match busy.port.tags[j] with | .bound _ (some _) => false | _ => true) = true) ∧
      ∀ first ∈ [4, 9],
        let s : State :=
          { busy.setTag 1 (.bound 1 (some { kind := .read, deadline := some first })) with
            merge := #v[some { entry := 1, phase := .readOut, oldData := [], merged := [] }, none, none, none] }
        let t := ran (.deadlineExpiry 2) s
        t.faults.map FaultRecord.tag = (if first = 4 then [some 1, some 2] else [some 2, some 1]) ∧
          (t.port.tags[1]).isOrphaned = true ∧ (t.port.tags[2]).isOrphaned = true := by decide +kernel

theorem test_witness_PurgeFreesEveryOrphan : busy.TakesFrames ∧ busy.HasOrphan :=
  ⟨takes_of rfl, 3, lost, by decide⟩

theorem test_witness_CommitIsRefusedUnchanged :
    (draining 1).ignoresFrame = false ∧ (draining 1).gens.retiring ≠ none ∧ State.reset.gens.retiring = none ∧
      ({ WindowTable.empty with layers := [8] } : WindowTable).firstFailure = some (none, .listRange) ∧
      (stack.setSlot 0 (some (bare .blend 0 256))).firstFailure = some (some 0, .groupMissing) ∧
      (stack.setSlot 7 (some (bare .fence 0 0))).firstFailure = some (some 7, .placeRange) := by decide +kernel

theorem test_witness_CommitMakesANewGeneration :
    busy.ignoresFrame = false ∧ busy.gens.retiring = none ∧ busy.gens.staging.firstFailure = none ∧
      busy.table.activeCount ≠ 0 ∧ State.reset.table.activeCount = 0 ∧ stack.firstFailure = none ∧
      stack.slots[3] = some (bare .fence 768 256) ∧ (3 : SlotNo).val = (3 : Fin 16).val := by decide +kernel

/-- The three failures of the list, and every failure of a slot, two of them where a later check fails too. -/
theorem test_witness_ValidationFindsTheFirstFailure :
    ({ stack with layers := [3, 9, 3] } : WindowTable).firstFailure = some (none, .listRange) ∧
      ({ stack with layers := [3, 3] } : WindowTable).firstFailure = some (none, .listDuplicate) ∧
      ({ stack with layers := [3, 4] } : WindowTable).firstFailure = some (none, .listEmptySlot) ∧
      (stack.setSlot 4 (some (bare .fence 128 0))).firstFailure = some (some 4, .placeAlign) ∧
      (stack.setSlot 4 (some (bare .fence 0xFFFFFFF00 512))).firstFailure = some (some 4, .placeRange) ∧
      (stack.setSlot 4 (some (bare .fence 0xFFFFFFF00 256))).firstFailure = none ∧
      let w := bare .condition 0 256
      let small : Window := { w with place := { w.place with format := .s16 } }
      let pixels : Window := { w with place := { w.place with mode := .pattern } }
      let mix : Blend := { source := .plane, plane := 65, component := 3, policy := .keepOld }
      let blended := fun (w : Window) => ({ w with place := { w.place with mode := .blend }, blend := some mix } : Window)
      let ramp : Curve := { mask := ⟨true, false, false, false⟩, knots := [⟨0, 0⟩, ⟨255, 255⟩] }
      let rows : Pattern := { kind := .solid, row := 65, border := 0, seed := 0, solid := ⟨0, 0, 0, 0⟩ }
      [ { pixels with map := some ⟨.zero, .zero, .zero, .zero⟩ }, { w with place := { w.place with mode := .blend } }, pixels
      , { small with map := some ⟨.comp 2, .zero, .zero, .zero⟩ }
      , { w with curve := some { ramp with knots := [⟨1, 0⟩, ⟨1, 255⟩] } }
      , { w with curve := some { ramp with knots := [⟨0, 0⟩, ⟨0, 1⟩, ⟨255, 255⟩] } }
      , { w with curve := some { ramp with mask := ⟨false, false, false, false⟩ } }
      , { w with clamp := some ⟨⟨0, 0⟩, ⟨0, 0⟩, ⟨0, 0⟩, ⟨1, 0⟩⟩ }, blended small, blended w
      , { pixels with pattern := some rows }, { pixels with pattern := some { rows with row := 64 } } ].filterMap checkWindow =
        [.groupNotUsed, .groupMissing, .groupMissing, .mapComponent, .curveEnds, .curveOrder, .curveMask, .clampOrder,
          .blendComponent, .blendPlane, .patternRow, .patternBorder] := by decide +kernel

theorem test_witness_StageWriteEditsStagingAlone :
    State.reset.ignoresFrame = false ∧ parseStageWrite [8, 0] = none ∧
      parseStageWrite [0, 1, 0, 1, 2, 3] = some (.slot 0 (.map (some ⟨.comp 0, .comp 1, .comp 2, .comp 3⟩))) ∧
      editSlot (.map (some ⟨.comp 0, .comp 1, .comp 2, .comp 3⟩)) State.reset.gens.staging.slots[0] = none ∧
      parseStageWrite [7, 0] = some (.slot 7 (.place none)) ∧
      (editSlot (.place none) (some (bare .fence 0 256))) = some none ∧
      parseStageWrite [0xFF, 6, 1, 1, 15] = some (.global .fence [15]) := by decide +kernel

theorem test_witness_GroupBytesReadBackAsWritten :
    parsePlace [0, 1, 1, 0, 0, 0, 1, 0, 1, 0, 0, 0, 0] = some (bare .condition 256 4294967296).place ∧
      parsePlace [0, 1, 1, 0, 0, 0, 1, 0, 1, 0, 0, 0, 1] = none ∧
      parseCurve [15, 2, 0, 0, 255, 255] =
        some { mask := ⟨true, true, true, true⟩, knots := [⟨0, 0⟩, ⟨255, 255⟩] } ∧
      parseStageWrite [8, 1] = none ∧ parseStageWrite [0xFE, 1] = none ∧ parseStageWrite [0, 6] = none ∧
      parseStageWrite [0xFF, 0, 0, 0] = none ∧ (0 : Byte).toNat = (0 : SlotNo).val ∧ (7 : Byte).toNat = (7 : SlotNo).val ∧
      [(0 : Byte)] ≠ [] ∧ parseStageWrite [7, 1, 0, 1, 2, 6] = none ∧ parseStageWrite [7, 3] = some (.slot 7 (.clamp none)) ∧
      parseStageWrite [0xFF, 6, 0, 0] = some (.global .pass []) ∧ parseStageWrite [0xFF, 6, 2, 0] = none := by
  decide +kernel

/-- Target bytes and argument lists at the edges of their ranges. -/
theorem test_witness_targets :
    State.reset.ignoresFrame = false ∧ (0 : Byte).toNat = (0 : SlotNo).val ∧ (7 : Byte).toNat = (7 : SlotNo).val ∧
      8 ≤ (8 : Byte).toNat ∧ 8 ≤ (0xFE : Byte).toNat ∧ (0xFE : Byte) ≠ 0xFF ∧ ([] : List Byte).length ≠ 1 ∧
      [(0 : Byte), 0].length ≠ 1 ∧ (List.replicate 60 (0 : Byte)).length ≤ 60 ∧ [(0 : Byte)] ≠ [] ∧
      60 < (List.replicate 61 (0 : Byte)).length := by decide

theorem test_witness_StatsReadShowsTheLiveFigures :
    let r := (under stack).stats.active
    (under stack).ignoresFrame = false ∧ r.gen = (under stack).gens.active.number ∧
      r.parts = [openPart 1 .blend] ++ openPart 2 .pattern :: [openPart 3 .fence, openPart 0 .condition] ∧
      (∀ x ∈ [openPart 1 .blend], x.slot ≠ 2) ∧ ∀ p ∈ r.parts, p.slot ≠ 4 := by decide +kernel

theorem test_witness_SummaryPopTakesTheOldest :
    State.reset.ignoresFrame = false ∧ State.reset.stats.queue = [] ∧
      (ran (.commit []) State.reset).ignoresFrame = false ∧
      (ran (.commit []) State.reset).stats.queue = StatsRecord.zero :: [] := by decide +kernel

theorem test_witness_FaultPopTakesTheOldest :
    State.reset.faults = [] ∧ (ran (.downWriteReturn 0 .ok) State.reset).ignoresFrame = false ∧
      (ran (.downWriteReturn 0 .ok) State.reset).faults = strayRecord .write 0 :: [] := by decide +kernel

theorem test_witness_SetParamWritesOneParameter :
    State.reset.ignoresFrame = false ∧ ([] : List Byte).length ≠ 2 ∧ [(1 : Byte), 2, 3].length ≠ 2 ∧
      (List.replicate 59 (0 : Byte)).length ≤ 59 ∧ 8 ≤ (8 : Byte).toNat ∧ 8 ≤ (255 : Byte).toNat ∧
      [(1 : Byte), 2].length ≠ 1 := by decide

/-- An empty buffer, a fetch just long enough and one byte short. -/
theorem test_witness_FetchShiftsOutTheResponse :
    let r : LinkResponse := { status := .ok, priorDiscarded := false, payload := [] }
    State.reset.ignoresFrame = false ∧ State.reset.link.response = none ∧
      (ran (.stageCopy []) State.reset).link.response = some r ∧ 5 + r.payload.length ≤ 1 + 4 ∧
      1 + 3 < 5 + r.payload.length := by decide +kernel

/-- Frames that fail check 1, 2 and 3, a SET_PARAM with no and with an undefined parameter byte, and the frame of
another command with bits of an incomplete byte after it. -/
theorem test_witness_RejectedFrameAnswersItsFirstFailedCheck :
    frameLengthOk [1, 0] = false ∧ frameLengthOk [1, 0, 0x16] = true ∧
      ([1, 0, 0x16] : List Byte).getLastD 0 ≠ crc8 [1, 0] ∧ frameLengthOk (commandFrame 2 []) = true ∧
      knownCode 2 = false ∧ (commandFrame 0x30 []).tail.tail.dropLast = [] ∧
      (commandFrame 0x30 [2]).tail.tail.dropLast = 2 :: [] ∧ (2 : Byte) ≠ 0 ∧ (2 : Byte) ≠ 1 ∧
      (commandFrame 0x30 [2]).getLastD 0 = crc8 (commandFrame 0x30 [2]).dropLast ∧
      (Instr.commit []).wellFormed = true ∧ (encodeFrame (.commit [])).isSome = true ∧
      [true, true, true, true, true, true, true].length < 8 := by decide +kernel

theorem test_witness_NoFrameIsTakenInReset :
    (ran (.powerOnReset ⟨.asserted, false⟩) busy).resetAsserted = true ∧
      (ran (.powerOnReset ⟨.pulse, true⟩) busy).link.cut = true ∧
      (ran (.powerOnReset ⟨.pulse, true⟩) busy).resetAsserted = false ∧
      (Instr.rejectedFrame (frameBits [0])).wellFormed = true ∧ wholeBytes (frameBits [0]) ≠ [] ∧
      wholeBytes [true, false] = [] := by decide +kernel

theorem test_witness_FramesReadBackAsTheirCommands :
    (Instr.query (List.replicate 60 0)).wellFormed = true ∧
      (encodeFrame (.query (List.replicate 60 0))).isSome = true ∧ (Instr.fetch 0).wellFormed = true ∧
      encodeFrame (.fetch 0) = some (frameBits [0x80]) ∧ (Instr.rejectedFrame (frameBits [1, 0])).wellFormed = true ∧
      encodeFrame (.rejectedFrame (frameBits [1, 0])) = some (frameBits [1, 0]) ∧
      (List.replicate 7 true).length < 8 := by decide +kernel

theorem test_witness_CurveInterpolatesBetweenItsKnots :
    let knots : List Knot := [⟨0, 0⟩, ⟨100, 150⟩, ⟨102, 149⟩, ⟨255, 0⟩]
    knots.Pairwise (fun x y => x.input.toNat < y.input.toNat) ∧
      knots = [⟨0, 0⟩] ++ ⟨100, 150⟩ :: ⟨102, 149⟩ :: [⟨255, 0⟩] ∧ (100 : Byte).toNat < (101 : Byte).toNat ∧
      (101 : Byte).toNat < (102 : Byte).toNat := by decide

theorem test_witness_MapAndClampWorkPerComponent :
    let q : Quad Source := ⟨.comp 3, .zero, .full, .comp 0⟩
    q.get 0 = .comp 3 ∧ q.get 1 = .zero ∧ q.get 2 = .full ∧ [put 1, put 2, skip 3, put 4][3]? = some (put 4) ∧
      [put 1, put 2, skip 3, put 4][2]? = some (skip 3) ∧ (beatOf 1).length = 8 ∧
      (bare .condition 0 256).clamp = none ∧
      let e : Entry := { live 0 .write .issuing with beats := 2, wdata := [beatOf 1, beatOf 2], claims := some [.slot 0, .backgroundPass] }
      e.claims = some [.slot 0, .backgroundPass] ∧ 1 < Run.count ⟨0, 1⟩ ∧
        [Claim.slot 0, .backgroundPass][0 + 1]? = some .backgroundPass ∧ e.wdata[0 + 1]? = some (beatOf 2) ∧
        [Claim.slot 0, .backgroundPass][0 + 0]? = some (.slot 0) ∧ e.wdata[0 + 0]? = some (beatOf 1) ∧
        stack.treatment (.slot 0) = .condition (bare .condition 0 1024) := by decide

theorem test_witness_BlendingMixesByAlpha :
    let b := fun (x : AlphaSource) (p : AlphaPolicy) (plane : Byte) =>
      ({ source := x, plane := plane, component := 3, policy := p } : Blend)
    (b .sample .keepOld 0).plane.toNat ≤ 64 ∧ (b .product .takeNew 64).plane.toNat ≤ 64 ∧
      sampleAlpha (skip 0) = 64 ∧ sampleAlpha (put 255) = 64 ∧ (put 9).strobe = true ∧ (skip 9).strobe = false ∧
      0 ≠ (b .plane .keepOld 64).component.val ∧ (b .plane .keepOld 64).component.val < 4 ∧
      [put 1, put 2, put 3, put 4][(b .plane .keepOld 64).component.val]? = some (put 4) ∧ (beatOf 1).length = 8 ∧
      (List.replicate 8 (0 : Byte)).length = 8 ∧
      let e : Entry := { live 0 .write .merging with wdata := [beatOf 1], claims := some [.slot 1] }
      e.claims = some [.slot 1] ∧ 0 < Run.count ⟨0, 0⟩ ∧ e.wdata[0 + 0]? = some (beatOf 1) ∧
        [List.replicate 8 (0 : Byte)][0]? = some (List.replicate 8 0) ∧
        ∃ w g, stack.treatment (.slot 1) = .blend w ∧ w.blend = some g := by
  refine ⟨by decide, by decide, by decide, by decide, rfl, rfl, by decide, by decide, by decide, rfl, rfl, rfl, by decide,
    rfl, rfl, _, _, rfl, rfl⟩

/-- A read over CONDITION and PATTERN beats, and one over FENCE and nothing else, which has no memory run. -/
theorem test_witness_ReadBufferIsFilledByClaim :
    let e : Entry :=
      { live 0 .read .outstanding with
        addr := 504, beats := 2, run := some ⟨0, 0⟩, claims := some [.slot 1, .slot 2] }
    e.run = some ⟨0, 0⟩ ∧ e.claims = some [.slot 1, .slot 2] ∧ (stack.treatment (.slot 1)).toMemory = true ∧
      (stack.treatment (.slot 2)).isPattern = true ∧ (stack.treatment (.slot 3)).isFenced = true ∧
      (stack.treatment .backgroundFence).isFenced = true ∧ 1 < e.beats ∧
      (∀ w ∈ stack.slots[2], ∀ g ∈ w.pattern, 1 ≤ g.row.toNat ∧ w.place.format = .s32) ∧
      (stack.slots[2]).isSome = true ∧
      readBuffer stack { e with run := none, claims := some [.slot 2, .slot 3] } none =
        [[1, 2, 3, 4, 1, 2, 3, 4], List.replicate 8 0] := by decide +kernel

theorem test_witness_ProtectedBeatsStayInside :
    let e : Entry :=
      { live 0 .write .issuing with beats := 1, claims := some [.slot 3], run := some ⟨0, 0⟩ }
    e.claims = some [.slot 3] ∧ [Claim.slot 3][0 + 0]? = some (.slot 3) ∧
      (stack.treatment (.slot 3)).toMemory = false ∧ (conditionRun stack e ⟨0, 0⟩)[0]? = some gapBeat ∧
      (mergeRun stack e ⟨0, 0⟩ [])[0]? = some gapBeat := by decide +kernel

/-- An addition to the ACTIVE record, to the RETIRING one, and to none. -/
theorem test_witness_StatisticsGoToTheClaimant :
    let u := (draining 1).stats
    u.active.gen = 0 ∧ (u.retiring.map StatsRecord.gen) = some 255 ∧ u.active.gen ≠ 255 ∧ u.active.gen ≠ 7 ∧
      (∀ r ∈ u.retiring, r.gen ≠ 7) := by decide

theorem test_witness_QueuesKeepTheirOrder :
    let seven := List.replicate 7 (strayRecord .read 0)
    let three := List.replicate 3 StatsRecord.zero
    seven.length < 8 ∧ seven.length = 7 ∧ three.length < 4 ∧ three.length = 3 := by decide

/-- A sound state with a command in its queue, which leads to a next state. -/
theorem test_witness_StepKeeps :
    full.Sound ∧ full.AlertFollows ∧ full.GenerationsSound ∧ full.Bounded ∧ full.SummariesConsecutive ∧
      ∃ t, step full = .next t :=
  ⟨full_sound, full_sound.alert, full_sound.generations, full_sound.bounded, full_sound.summaries, _, rfl⟩

theorem test_witness_StepKeepsTheReset :
    let s : State := { State.reset with pending := [.query []], resetAsserted := true }
    s.resetAsserted = true ∧ s.ResetHeld ∧ ∃ t, step s = .next t :=
  ⟨rfl, fun _ => rfl, _, rfl⟩

end Sys2Proof.Tests
end

section
/-!
CERTIFICATE. The Layer Resolver's claim of a beat (R14): which address a listed slot claims, the topmost claim of
the layer list, and the layer list of a valid table (R12).
-/

namespace Sys2Proof.Machine

variable (t : WindowTable) (a : Nat) (e : Fin 16)

/-! ## The claim of one layer-list entry -/

/-- A window contains the addresses from its base to below its end (R4). -/
theorem window_contains_iff (w : Window) :
    w.contains a = true ↔ w.place.base.toNat ≤ a ∧ a < w.place.base.toNat + w.place.length := by
  simp only [Window.contains, Bool.and_eq_true, decide_eq_true_eq]

/-- A layer-list entry claims exactly the addresses in the window of the slot it names, for that slot. -/
theorem claimOfEntry_eq_some (c : Claim) :
    t.claimOfEntry a e = some c ↔
      ∃ (n : SlotNo) (w : Window), n.val = e.val ∧ t.slots[n] = some w ∧ w.contains a = true ∧ c = .slot n := by
  unfold WindowTable.claimOfEntry
  split
  case isTrue he =>
    split
    case h_1 empty =>
      constructor
      · rintro ⟨⟩
      · rintro ⟨n, w, hn, hw, -⟩
        obtain rfl : n = ⟨e.val, he⟩ := Fin.ext hn
        cases empty.symm.trans hw
    case h_2 w used =>
      rw [Option.ite_none_right_eq_some, Option.some.injEq]
      constructor
      · rintro ⟨hin, rfl⟩
        exact ⟨⟨e.val, he⟩, w, rfl, used, hin, rfl⟩
      · rintro ⟨n, v, hn, hv, hin, rfl⟩
        obtain rfl : n = ⟨e.val, he⟩ := Fin.ext hn
        obtain rfl : w = v := Option.some.inj (used.symm.trans hv)
        exact ⟨hin, rfl⟩
  case isFalse he =>
    constructor
    · rintro ⟨⟩
    · rintro ⟨n, -, hn, -⟩
      exact absurd (hn ▸ n.isLt) he

/-- A layer-list entry makes no claim exactly on the addresses outside every window of its number. -/
theorem claimOfEntry_eq_none :
    t.claimOfEntry a e = none ↔
      ∀ (m : SlotNo) (v : Window), m.val = e.val → t.slots[m] = some v →
        ¬ (v.place.base.toNat ≤ a ∧ a < v.place.base.toNat + v.place.length) := by
  simp only [Option.eq_none_iff_forall_ne_some, ne_eq, claimOfEntry_eq_some, window_contains_iff]
  constructor
  · intro h m v hm hv hin
    exact h (.slot m) ⟨m, v, hm, hv, hin, rfl⟩
  · rintro h c ⟨m, v, hm, hv, hin, -⟩
    exact h m v hm hv hin

/-! ## The claim of an address and of a beat -/

variable {t a e}

/-- The first entry of the layer list that claims an address decides its claim (R14, R15). -/
theorem claimAt_of_topmost {above below : List (Fin 16)} {c : Claim} (hl : t.layers = above ++ e :: below)
    (he : t.claimOfEntry a e = some c) (ha : ∀ x ∈ above, t.claimOfEntry a x = none) : t.claimAt a = c := by
  have first : t.layers.findSome? (t.claimOfEntry a) = some c :=
    List.findSome?_eq_some_iff.2 ⟨above, e, below, hl, he, ha⟩
  rw [WindowTable.claimAt, first, Option.getD_some]

/-- An address that no entry of the layer list claims is the background's (R14). -/
theorem claimAt_of_unclaimed (h : ∀ x ∈ t.layers, t.claimOfEntry a x = none) : t.claimAt a = t.background.claim := by
  rw [WindowTable.claimAt, List.findSome?_eq_none_iff.2 h, Option.getD_none]

theorem background_claim_eq (b : Background) :
    b.claim = if b = .pass then .backgroundPass else .backgroundFence := by
  cases b <;> rfl

/-- Beat `i` of a request is claimed as its address is (R14). -/
theorem claimsOf_getElem? {q : Request} {i : Nat} (h : i < q.beats) :
    (t.claimsOf q)[i]? = some (t.claimAt (q.addr.toNat + 8 * i)) := by
  rw [WindowTable.claimsOf, List.getElem?_map, List.getElem?_range h, Option.map_some]

/-! ## The layer list of a valid table -/

/-- An entry that names a window is in range and its slot is not EMPTY. -/
theorem names_iff : t.Names e ↔ e.val ≤ 7 ∧ t.namesEmpty e = false := by
  unfold WindowTable.namesEmpty
  split
  case isTrue he =>
    rw [Option.isNone_eq_false_iff, Option.isSome_iff_exists, and_iff_right (Nat.le_of_lt_succ he)]
    constructor
    · rintro ⟨n, w, hn, hw⟩
      obtain rfl : n = ⟨e.val, he⟩ := Fin.ext hn
      exact ⟨w, hw⟩
    · rintro ⟨w, hw⟩
      exact ⟨⟨e.val, he⟩, w, rfl, hw⟩
  case isFalse he =>
    constructor
    · rintro ⟨n, -, hn, -⟩
      exact absurd (hn ▸ n.isLt) he
    · rintro ⟨-, ⟨⟩⟩

/-- The layer-list checks pass exactly where every entry names a window and none is repeated, neither in the list
nor among the entries seen before it (R12). -/
theorem checkLayers_eq_none (seen l : List (Fin 16)) :
    checkLayers t seen l = none ↔ (∀ x ∈ l, t.Names x) ∧ l.Nodup ∧ ∀ x ∈ l, x ∉ seen := by
  induction l generalizing seen with
  | nil => simp [checkLayers]
  | cons x rest ih =>
    have head : checkLayers t seen (x :: rest) = none ↔
        t.Names x ∧ x ∉ seen ∧ checkLayers t (x :: seen) rest = none := by
      rw [checkLayers, names_iff]
      split_ifs <;> simp_all
    rw [head, ih]
    have apart : (∀ y ∈ rest, y ∉ x :: seen) ↔ x ∉ rest ∧ ∀ y ∈ rest, y ∉ seen := by
      simp only [List.mem_cons, not_or, imp_and, forall_and, and_congr_left_iff]
      exact fun _ => ⟨fun h hx => h x hx rfl, fun h y hy hyx => h (hyx ▸ hy)⟩
    rw [apart, List.forall_mem_cons, List.forall_mem_cons, List.nodup_cons]
    tauto

/-- A table without a failure names a window by every entry of its layer list, each at most once (R12, R31). -/
theorem layers_of_firstFailure_none (h : t.firstFailure = none) : (∀ x ∈ t.layers, t.Names x) ∧ t.layers.Nodup := by
  have pass : checkLayers t [] t.layers = none := by
    unfold WindowTable.firstFailure at h
    split at h
    · cases h
    · assumption
  obtain ⟨names, nodup, -⟩ := (checkLayers_eq_none [] t.layers).1 pass
  exact ⟨names, nodup⟩

end Sys2Proof.Machine

namespace Sys2Proof.Machine

/-- Settles O12: the claim of an address is its first claiming entry's, else the background's, and a beat of a request is
claimed as its address is, whatever else the request holds (R14). -/
theorem beatClaimIsTopmostListedWindow : Obligations.BeatClaimIsTopmostListedWindow := by
  refine ⟨fun t q i hi => claimsOf_getElem? hi, ?topmost, ?background, ?sameAddress, ?listed⟩
  case topmost =>
    intro t a above below e n w hl hn hw hin habove
    have claims : t.claimOfEntry a e = some (.slot n) :=
      (claimOfEntry_eq_some t a e _).2 ⟨n, w, hn, hw, (window_contains_iff a w).2 hin, rfl⟩
    exact claimAt_of_topmost hl claims fun x hx => (claimOfEntry_eq_none t a x).2 (habove x hx)
  case background =>
    intro t a h
    rw [claimAt_of_unclaimed fun x hx => (claimOfEntry_eq_none t a x).2 (h x hx), background_claim_eq]
  case sameAddress =>
    intro t q q' i j hi hj haddr
    rw [claimsOf_getElem? hi, claimsOf_getElem? hj, haddr]
  case listed =>
    rintro t (rfl | valid)
    · exact ⟨fun e he => absurd he List.not_mem_nil, List.nodup_nil⟩
    · exact layers_of_firstFailure_none valid

end Sys2Proof.Machine
end

section
/-!
CERTIFICATE. The acceptance of a malformed request (R50): the data its response carries (R45), the entry it
takes and the state right after its acceptance.
-/

namespace Sys2Proof.Machine

/-- The all-zero data of a response: as many zero beats as a READ asked for, when that lies in 1 to 16 (R45). -/
theorem zeroData_eq (e : Entry) :
    zeroData e =
      if e.dir = .read ∧ 1 ≤ e.beats ∧ e.beats ≤ 16 then List.replicate e.beats (List.replicate 8 0) else [] := by
  unfold zeroData
  split
  case h_1 read => simp only [read, true_and, zeroBeat]
  case h_2 write => rw [if_neg (by simp [write])]

/-- A malformed request is not resolved: it takes its entry and posts its record, and the statistics are not
reached (R50). -/
theorem accept_malformed (s : State) (n : EntryNo) (q : Request) (hq : ¬ q.InForm) :
    accept s n q =
      (s.addEntry (malformedEntry n q s.gens.active.number)).post (malformedRecord q s.gens.active.number) := by
  have malformed : ¬ q.wellFormed = true := mt (wellFormed_iff q).1 hq
  rw [accept, if_neg malformed]

/-- Settles O9: the step is the acceptance of the request and what follows it, and a malformed request is
accepted into its COMPLETE entry with one MALFORMED record (R50). -/
theorem malformedRequestIsRefused : Obligations.MalformedRequestIsRefused := by
  intro s q n released quiet free noData malformed
  dsimp only
  rw [exec_request s n q released quiet free noData, accept_malformed s n q malformed, malformedEntry, zeroData_eq]
  rfl

end Sys2Proof.Machine
end

section
/-!
CERTIFICATE. The tone curve (R75, R76): the rounded quotient, the value of a segment over its whole closed range,
and the curve of a knot list on each of its segments.
-/

namespace Sys2Proof.Machine

/-! ## The rounded quotient -/

/-- `n / d` rounded to the nearest integer, halves to the larger one, for positive `d` (R75). -/
def roundedQuotient (n d : Int) : Int := (2 * n + d) / (2 * d)

/-- A whole quotient is not changed by the rounding. -/
theorem roundedQuotient_mul {d : Int} (hd : 0 < d) (k : Int) : roundedQuotient (d * k) d = k := by
  have half : d / (2 * d) = 0 := Int.ediv_eq_zero_of_lt hd.le (by omega)
  rw [roundedQuotient, ← mul_assoc, add_comm, Int.add_mul_ediv_left _ _ (by omega), half, zero_add]

theorem roundedQuotient_mono {d m n : Int} (hd : 0 < d) (h : m ≤ n) : roundedQuotient m d ≤ roundedQuotient n d :=
  Int.ediv_le_ediv (by omega) (by omega)

/-! ## The value of a segment -/

/-- The value of the segment from `a` to `b` at `x`, its knots included: as an integer, before it is stored (R75). -/
def segmentValue (a b : Knot) (x : Nat) : Int :=
  a.output.toNat +
    roundedQuotient (((x : Int) - a.input.toNat) * ((b.output.toNat : Int) - a.output.toNat))
      ((b.input.toNat : Int) - a.input.toNat)

theorem interpolate_eq (a b : Knot) (x : Nat) : interpolate a b x = BitVec.ofInt 8 (segmentValue a b x) := rfl

section
variable {a b : Knot} (rises : a.input.toNat < b.input.toNat) {x y : Nat}
include rises

theorem segmentValue_left : segmentValue a b a.input.toNat = a.output.toNat := by
  have whole := roundedQuotient_mul (d := (b.input.toNat : Int) - a.input.toNat) (by omega) 0
  rw [segmentValue, sub_self, zero_mul, ← mul_zero ((b.input.toNat : Int) - a.input.toNat), whole, add_zero]

theorem segmentValue_right : segmentValue a b b.input.toNat = b.output.toNat := by
  rw [segmentValue, roundedQuotient_mul (by omega), add_sub_cancel]

theorem segmentValue_mono (up : a.output.toNat ≤ b.output.toNat) (h : x ≤ y) :
    segmentValue a b x ≤ segmentValue a b y := by
  have product := Int.mul_le_mul_of_nonneg_right (show (x : Int) - a.input.toNat ≤ (y : Int) - a.input.toNat by omega)
    (show 0 ≤ (b.output.toNat : Int) - a.output.toNat by omega)
  exact Int.add_le_add_left (roundedQuotient_mono (by omega) product) _

theorem segmentValue_anti (down : b.output.toNat ≤ a.output.toNat) (h : x ≤ y) :
    segmentValue a b y ≤ segmentValue a b x := by
  have product := Int.mul_le_mul_of_nonpos_right
    (show (x : Int) - a.input.toNat ≤ (y : Int) - a.input.toNat by omega)
    (show (b.output.toNat : Int) - a.output.toNat ≤ 0 by omega)
  exact Int.add_le_add_left (roundedQuotient_mono (by omega) product) _

/-- A segment's value lies between the outputs of its knots, since it runs from one to the other without turning
(R76). -/
theorem segmentValue_between (hax : a.input.toNat ≤ x) (hxb : x ≤ b.input.toNat) :
    ((min a.output.toNat b.output.toNat : Nat) : Int) ≤ segmentValue a b x ∧
      segmentValue a b x ≤ ((max a.output.toNat b.output.toNat : Nat) : Int) := by
  have left := segmentValue_left rises
  have right := segmentValue_right rises
  rcases Nat.le_total a.output.toNat b.output.toNat with up | down
  · have low := segmentValue_mono rises up hax
    have high := segmentValue_mono rises up hxb
    omega
  · have high := segmentValue_anti rises down hax
    have low := segmentValue_anti rises down hxb
    omega

/-- A segment's value needs no clamping to be stored in a byte (R76). -/
theorem interpolate_toNat (hax : a.input.toNat ≤ x) (hxb : x ≤ b.input.toNat) :
    ((interpolate a b x).toNat : Int) = segmentValue a b x := by
  have between := segmentValue_between rises hax hxb
  have ha := a.output.isLt
  have hb := b.output.isLt
  rw [interpolate_eq, BitVec.toNat_ofInt]
  omega

end

/-! ## The curve of a knot list -/

/-- A value past the next knot's input is that of the curve from the next knot on. -/
theorem curveAt_cons_of_le {a b : Knot} (rest : List Knot) {x : Byte} (rises : a.input.toNat < b.input.toNat)
    (h : b.input.toNat ≤ x.toNat) : curveAt (a :: b :: rest) x = curveAt (b :: rest) x := by
  have past : x ≠ a.input := by rintro rfl; omega
  rw [curveAt, if_neg past, if_neg (by omega)]

/-- At its first knot's input a curve gives that knot's output. -/
theorem curveAt_first (a : Knot) (rest : List Knot) : curveAt (a :: rest) a.input = a.output := by
  cases rest with
  | nil => rfl
  | cons b rest => rw [curveAt, if_pos rfl]

/-- At its second knot's input a curve gives that knot's output. -/
theorem curveAt_second {a b : Knot} (rest : List Knot) (rises : a.input.toNat < b.input.toNat) :
    curveAt (a :: b :: rest) b.input = b.output := by
  rw [curveAt_cons_of_le rest rises le_rfl, curveAt_first]

/-- Knots before one whose input the value has reached do not matter. -/
theorem curveAt_append (before rest : List Knot) (a : Knot) {x : Byte}
    (ordered : (before ++ a :: rest).Pairwise fun k l => k.input.toNat < l.input.toNat)
    (h : a.input.toNat ≤ x.toNat) : curveAt (before ++ a :: rest) x = curveAt (a :: rest) x := by
  induction before with
  | nil => rfl
  | cons c before ih =>
    rw [List.cons_append, List.pairwise_cons] at ordered
    obtain ⟨after, tail⟩ := ordered
    obtain ⟨d, more, shape⟩ : ∃ d more, before ++ a :: rest = d :: more :=
      List.exists_cons_of_ne_nil (List.append_ne_nil_of_right_ne_nil _ (List.cons_ne_nil _ _))
    have reached : d.input.toNat ≤ x.toNat := by
      have member : a ∈ d :: more := shape ▸ List.mem_append_right before List.mem_cons_self
      rcases List.mem_cons.1 member with rfl | later
      · exact h
      · exact ((List.rel_of_pairwise_cons (shape ▸ tail) later).le).trans h
    rw [← ih tail, List.cons_append, shape]
    exact curveAt_cons_of_le more (after d (shape ▸ List.mem_cons_self)) reached

/-- In an ordered knot list the inputs of two consecutive knots rise. -/
theorem input_lt_of_consecutive {before after : List Knot} {a b : Knot}
    (ordered : (before ++ a :: b :: after).Pairwise fun k l => k.input.toNat < l.input.toNat) :
    a.input.toNat < b.input.toNat := by
  obtain ⟨-, tail, -⟩ := List.pairwise_append.1 ordered
  exact List.rel_of_pairwise_cons tail List.mem_cons_self

/-- Between two consecutive knots, and at both of them, the curve is the value of their segment (R75). -/
theorem curveAt_toNat {before after : List Knot} {a b : Knot} {x : Byte}
    (ordered : (before ++ a :: b :: after).Pairwise fun k l => k.input.toNat < l.input.toNat)
    (hax : a.input.toNat ≤ x.toNat) (hxb : x.toNat ≤ b.input.toNat) :
    ((curveAt (before ++ a :: b :: after) x).toNat : Int) = segmentValue a b x.toNat := by
  have rises := input_lt_of_consecutive ordered
  rw [curveAt_append before _ a ordered hax]
  rcases hxb.eq_or_lt with atRight | inside
  · obtain rfl : x = b.input := BitVec.eq_of_toNat_eq atRight
    rw [curveAt_second after rises, segmentValue_right rises]
  · by_cases atLeft : x = a.input
    · rw [atLeft, curveAt_first, segmentValue_left rises]
    · rw [curveAt, if_neg atLeft, if_pos inside, interpolate_toNat rises hax hxb]

/-- The two-knot list from (0, 0) to (255, 255) changes no value (R76). -/
theorem curveAt_identity (x : Byte) : curveAt [⟨0, 0⟩, ⟨255, 255⟩] x = x := by
  have segment := curveAt_toNat (before := []) (a := ⟨0, 0⟩) (b := ⟨255, 255⟩) (after := []) (x := x) (by simp)
    (Nat.zero_le _) (Nat.le_of_lt_succ x.isLt)
  have whole : segmentValue ⟨0, 0⟩ ⟨255, 255⟩ x.toNat = x.toNat := by
    have quotient := roundedQuotient_mul (d := 255) (by decide) x.toNat
    rw [mul_comm] at quotient
    simpa [segmentValue] using quotient
  exact BitVec.eq_of_toNat_eq (Int.ofNat_inj.1 (segment.trans whole))

/-- Settles O45: every clause is read off the value of the segment, which the curve is from knot to knot (R75,
R76). -/
theorem curveInterpolatesBetweenItsKnots : Obligations.CurveInterpolatesBetweenItsKnots := by
  refine ⟨?segment, curveAt_identity⟩
  rintro knots before after a b ordered rfl
  have rises := input_lt_of_consecutive ordered
  have value := fun x => curveAt_toNat (x := x) ordered
  refine ⟨?atLeft, ?atRight, ?inside, ?between, ?monotone⟩
  case atLeft => rw [curveAt_append before _ a ordered le_rfl, curveAt_first]
  case atRight => rw [curveAt_append before _ a ordered rises.le, curveAt_second after rises]
  case inside =>
    intro x hax hxb d n
    rw [value x hax.le hxb.le, Int.fdiv_eq_ediv_of_nonneg _ (by omega)]
    rfl
  case between =>
    intro x hax hxb
    rw [← Int.ofNat_le, ← Int.ofNat_le, value x hax hxb]
    exact segmentValue_between rises hax hxb
  case monotone =>
    intro x y hax hxy hyb
    rw [← Int.ofNat_le (m := (curveAt _ x).toNat), ← Int.ofNat_le (m := (curveAt _ y).toNat),
      value x hax (hxy.trans hyb), value y (hax.trans hxy) hyb]
    exact ⟨fun up => segmentValue_mono rises up hxy, fun down => segmentValue_anti rises down hxy⟩

end Sys2Proof.Machine
end

section
/-!
CERTIFICATE. The Conditioning Pipe on a beat: map, curve and clamp of one component (R71 to R74, R77), the beat as
its components each at its own byte (R70, R78, R79), and the beats of a plain write (R69).
-/

namespace Sys2Proof.Machine

/-! ## The map of a component -/

section
variable (lane : Lane) (sample : List Lane) (v : Byte) (k : Nat)

@[simp] theorem maskLane_strobe : (maskLane lane).strobe = lane.strobe := by
  unfold maskLane
  split
  case isTrue => rfl
  case isFalse clear => exact (Bool.eq_false_iff.2 clear).symm

theorem maskLane_val : (maskLane lane).val = if lane.strobe = true then lane.val else 0 := by
  rw [maskLane, apply_ite Lane.val]; rfl

/-- A lane carries its strobe on, and its value only where that is set (R72, R73). -/
theorem maskLane_spec :
    (maskLane lane).strobe = lane.strobe ∧ (lane.strobe = true → (maskLane lane).val = lane.val) ∧
      (lane.strobe = false → (maskLane lane).val = 0) := by
  rw [maskLane_val]
  exact ⟨maskLane_strobe lane, fun set => if_pos set, fun clear => if_neg (Bool.eq_false_iff.1 clear)⟩

/-- A constant is strobed where some input of its sample is (R72). -/
theorem constantLane_strobe_iff :
    (constantLane sample v).strobe = true ↔ ∃ lane ∈ sample, lane.strobe = true := by
  rw [← List.any_eq_true, constantLane]
  split
  case isTrue set => exact ⟨fun _ => set, fun _ => rfl⟩
  case isFalse clear => exact ⟨fun set => absurd set Bool.false_ne_true, fun set => absurd set clear⟩

theorem constantLane_val :
    (constantLane sample v).val = if (constantLane sample v).strobe = true then v else 0 := by
  unfold constantLane
  split <;> rfl

variable {lane sample k}

/-- With MAP ABSENT output component `k` is input component `k` (R71). -/
theorem mapLane_none (h : sample[k]? = some lane) : mapLane none sample k = maskLane lane := by
  rw [mapLane, List.getD_eq_getElem?_getD, h, Option.getD_some]

theorem mapLane_comp {q : Quad Source} {j : Fin 4} (hq : q.get k = .comp j) (h : sample[j.val]? = some lane) :
    mapLane (some q) sample k = maskLane lane := by
  simp only [mapLane, hq, List.getD_eq_getElem?_getD, h, Option.getD_some]

theorem mapLane_constant {q : Quad Source} (hq : q.get k = .zero ∨ q.get k = .full) :
    mapLane (some q) sample k = constantLane sample (if q.get k = .zero then 0 else 255) := by
  rcases hq with hq | hq <;> simp [mapLane, hq]

end

/-! ## The curve and the clamp of a component -/

theorem clampLane_strobe (q : Option (Quad Bounds)) (k : Nat) (lane : Lane) :
    (clampLane q k lane).strobe = lane.strobe := by
  unfold clampLane
  split
  case h_1 => rfl
  case h_2 => split <;> rfl

theorem clampLane_of_unstrobed (q : Option (Quad Bounds)) (k : Nat) {lane : Lane} (h : lane.strobe = false) :
    clampLane q k lane = lane := by
  cases q with
  | none => rfl
  | some b => rw [clampLane, h, if_neg Bool.false_ne_true]

theorem clampLane_of_strobed (b : Quad Bounds) (k : Nat) {lane : Lane} (h : lane.strobe = true) :
    clampLane (some b) k lane = { lane with val := clampValue (b.get k) lane.val } := by
  rw [clampLane, if_pos h]

theorem curveLane_strobe (c : Option Curve) (k : Nat) (lane : Lane) : (curveLane c k lane).strobe = lane.strobe := by
  unfold curveLane
  split
  case h_1 => rfl
  case h_2 => split <;> rfl

theorem curveLane_of_unstrobed (c : Option Curve) (k : Nat) {lane : Lane} (h : lane.strobe = false) :
    curveLane c k lane = lane := by
  cases c with
  | none => rfl
  | some cv => rw [curveLane, h, Bool.and_false, if_neg Bool.false_ne_true]

theorem curveLane_some (cv : Curve) (k : Nat) (lane : Lane) :
    curveLane (some cv) k lane =
      if cv.mask.get k = true ∧ lane.strobe = true then { lane with val := curveAt cv.knots lane.val } else lane := by
  simp only [curveLane, Bool.and_eq_true]

/-! ## Unstrobed components carry zero -/

/-- A lane as it may leave the pipe: zero where its strobe is clear (R73). -/
def ZeroUnlessStrobed (lane : Lane) : Prop := lane.strobe = false → lane.val = 0

theorem maskLane_zeroUnlessStrobed (lane : Lane) : ZeroUnlessStrobed (maskLane lane) := by
  obtain ⟨strobe, -, zero⟩ := maskLane_spec lane
  exact fun clear => zero (strobe ▸ clear)

theorem constantLane_zeroUnlessStrobed (sample : List Lane) (v : Byte) :
    ZeroUnlessStrobed (constantLane sample v) := by
  intro clear
  rw [constantLane_val, clear, if_neg Bool.false_ne_true]

theorem mapLane_zeroUnlessStrobed (m : Option (Quad Source)) (sample : List Lane) (k : Nat) :
    ZeroUnlessStrobed (mapLane m sample k) := by
  unfold mapLane
  split
  case h_1 => exact maskLane_zeroUnlessStrobed _
  case h_2 q =>
    split
    case h_1 => exact maskLane_zeroUnlessStrobed _
    case h_2 => exact constantLane_zeroUnlessStrobed _ _
    case h_3 => exact constantLane_zeroUnlessStrobed _ _

theorem ZeroUnlessStrobed.curveLane {lane : Lane} (h : ZeroUnlessStrobed lane) (c : Option Curve) (k : Nat) :
    ZeroUnlessStrobed (curveLane c k lane) := by
  intro clear
  rw [curveLane_strobe] at clear
  rw [curveLane_of_unstrobed c k clear, h clear]

theorem ZeroUnlessStrobed.clampLane {lane : Lane} (h : ZeroUnlessStrobed lane) (q : Option (Quad Bounds)) (k : Nat) :
    ZeroUnlessStrobed (clampLane q k lane) := by
  intro clear
  rw [clampLane_strobe] at clear
  rw [clampLane_of_unstrobed q k clear, h clear]

/-! ## A beat as its components -/

theorem format_size_eq (f : Format) : f.size = if f = .s32 then 4 else 2 := by cases f <;> rfl

theorem format_size_mul (f : Format) : f.size * (8 / f.size) = 8 := by cases f <;> rfl

/-- The sample of a beat that byte `p` belongs to, for samples of `size` bytes (R70). -/
def sampleAround {α : Type} (size : Nat) (beat : List α) (p : Nat) : List α := (beat.drop (p - p % size)).take size

theorem sampleAround_add {α : Type} (size : Nat) (beat : List α) (p : Nat) :
    sampleAround size beat (size + p) = sampleAround size (beat.drop size) p := by
  have within := Nat.mod_le p size
  rw [sampleAround, sampleAround, List.drop_drop, Nat.add_mod_left, Nat.add_sub_assoc within]

/-- What is made of every component of every sample, in order, is what is made at every byte of the component of
its position in the sample around it (R79). -/
theorem samplesOf_flatMap {α β : Type} (size n : Nat) (beat : List α) (f : List α → Nat → β) :
    (samplesOf size n beat).flatMap (fun s => (List.range size).map (f s)) =
      (List.range (size * n)).map fun p => f (sampleAround size beat p) (p % size) := by
  induction n generalizing beat with
  | zero => rfl
  | succ n ih =>
    have first : (List.range size).map (f (beat.take size)) =
        (List.range size).map fun p => f (sampleAround size beat p) (p % size) := by
      refine List.map_congr_left fun p hp => ?_
      rw [sampleAround, Nat.mod_eq_of_lt (List.mem_range.1 hp), Nat.sub_self, List.drop_zero]
    rw [samplesOf, List.flatMap_cons, ih, first, Nat.mul_succ, Nat.add_comm, List.range_add, List.map_append,
      List.map_map]
    simp only [Function.comp_def, sampleAround_add, Nat.add_mod_left]

/-- The samples of a beat that is long enough are whole. -/
theorem length_of_mem_samplesOf {α : Type} {size n : Nat} {beat s : List α} (h : size * n ≤ beat.length)
    (hs : s ∈ samplesOf size n beat) : s.length = size := by
  induction n generalizing beat with
  | zero => cases hs
  | succ n ih =>
    rw [Nat.mul_succ] at h
    rcases List.mem_cons.1 hs with rfl | later
    · rw [List.length_take]; omega
    · exact ih (by rw [List.length_drop]; omega) later

theorem zipIdx_map_range {α : Type} (f : Nat → α) (n : Nat) :
    ((List.range n).map f).zipIdx = (List.range n).map fun k => (f k, k) := by
  apply List.ext_getElem <;> simp

/-- Output component `k` of a sample after map and curve (R70). -/
def shapedLane (w : Window) (sample : List Lane) (k : Nat) : Lane := curveLane w.curve k (mapLane w.map sample k)

theorem shapedLane_zeroUnlessStrobed (w : Window) (sample : List Lane) (k : Nat) :
    ZeroUnlessStrobed (shapedLane w sample k) :=
  (mapLane_zeroUnlessStrobed w.map sample k).curveLane w.curve k

theorem shapeSample_eq (w : Window) (sample : List Lane) :
    shapeSample w sample = (List.range sample.length).map (shapedLane w sample) := by
  rw [shapeSample, mapSample, curveSample, zipIdx_map_range, List.map_map]; rfl

theorem clampSample_shapeSample (w : Window) (sample : List Lane) :
    clampSample w.clamp (shapeSample w sample) =
      (List.range sample.length).map fun k => clampLane w.clamp k (shapedLane w sample k) := by
  rw [shapeSample_eq, clampSample, zipIdx_map_range, List.map_map]; rfl

theorem clampedIn_shapeSample (w : Window) (sample : List Lane) :
    clampedIn w.clamp (shapeSample w sample) =
      ((List.range sample.length).map fun k =>
        decide (clampLane w.clamp k (shapedLane w sample k) ≠ shapedLane w sample k)).countP id := by
  rw [shapeSample_eq, clampedIn, zipIdx_map_range, List.countP_map, List.countP_map]; rfl

section
variable (w : Window) {beat : WBeat} (whole : beat.length = 8)
include whole

/-- What is made of the samples of a beat of eight bytes, component by component, is made byte by byte. -/
theorem beatSamples_flatMap {β : Type} (fmt : Format) (f : List Lane → Nat → β) :
    (beatSamples fmt beat).flatMap (fun s => (List.range s.length).map (f s)) =
      (List.range 8).map fun p => f (sampleAround fmt.size beat p) (p % fmt.size) := by
  have long : fmt.size * (8 / fmt.size) ≤ beat.length := by rw [format_size_mul, whole]
  have eight := samplesOf_flatMap fmt.size (8 / fmt.size) beat f
  rw [format_size_mul] at eight
  rw [← eight, beatSamples]
  exact List.flatMap_congr fun s hs => by rw [length_of_mem_samplesOf long hs]

/-- The conditioned beat carries at each byte the clamped component of that position (R70, R79). -/
theorem conditionBeat_beat :
    (conditionBeat w beat).beat = (List.range 8).map fun p =>
      clampLane w.clamp (p % w.place.format.size)
        (shapedLane w (sampleAround w.place.format.size beat p) (p % w.place.format.size)) := by
  rw [← beatSamples_flatMap whole w.place.format fun s k => clampLane w.clamp k (shapedLane w s k)]
  simp only [← clampSample_shapeSample]
  rw [conditionBeat, List.flatMap_map]

/-- The clamped count of a beat is the number of bytes whose component the clamp changed (R78). -/
theorem conditionBeat_clamped :
    (conditionBeat w beat).clamped = (List.range 8).countP fun p =>
      let shaped := shapedLane w (sampleAround w.place.format.size beat p) (p % w.place.format.size)
      decide (clampLane w.clamp (p % w.place.format.size) shaped ≠ shaped) := by
  have bytes := congrArg (List.countP id) (beatSamples_flatMap whole w.place.format fun s k =>
    decide (clampLane w.clamp k (shapedLane w s k) ≠ shapedLane w s k))
  rw [List.countP_flatMap, List.countP_map] at bytes
  simp only [Function.comp_def, ← clampedIn_shapeSample] at bytes
  rw [conditionBeat, List.map_map]
  exact bytes

theorem conditionBeat_zeroUnlessStrobed : ∀ lane ∈ (conditionBeat w beat).beat, ZeroUnlessStrobed lane := by
  intro lane member
  rw [conditionBeat_beat w whole] at member
  obtain ⟨p, -, rfl⟩ := List.mem_map.1 member
  exact (shapedLane_zeroUnlessStrobed w _ _).clampLane w.clamp _

theorem conditionBeat_clamped_le : (conditionBeat w beat).clamped ≤ 8 := by
  rw [conditionBeat_clamped w whole]
  exact List.countP_le_length.trans_eq List.length_range

/-- Without CLAMP nothing is counted (R78). -/
theorem conditionBeat_clamped_of_absent (absent : w.clamp = none) : (conditionBeat w beat).clamped = 0 := by
  rw [conditionBeat_clamped w whole, List.countP_eq_zero]
  intro p _
  rw [absent]
  simp [clampLane]

end

/-! ## The beats of a plain write -/

theorem conditionRun_length (t : WindowTable) (e : Entry) (r : Run) : (conditionRun t e r).length = r.count := by
  rw [conditionRun, List.length_map, List.length_range]

/-- Each beat of the run is built by its own claim from its own write data (R69). -/
theorem conditionRun_getElem? {t : WindowTable} {e : Entry} {r : Run} {claims : List Claim} {i : Nat} {c : Claim}
    {beat : WBeat} (hclaims : e.claims = some claims) (hi : i < r.count) (hc : claims[r.first + i]? = some c)
    (hbeat : e.wdata[r.first + i]? = some beat) :
    (conditionRun t e r)[i]? = some (plainBeat (t.treatment c) beat) := by
  rw [conditionRun, List.getElem?_map, List.getElem?_range hi, Option.map_some, Entry.claimList, hclaims,
    Option.getD_some, List.getD_eq_getElem?_getD, hc, Option.getD_some, Entry.wbeat, List.getD_eq_getElem?_getD, hbeat,
    Option.getD_some]

/-- Settles O46: each clause is the rule of its function, and the conditioned beat's are those of its components byte
by byte (R69 to R74, R77 to R79). -/
theorem mapAndClampWorkPerComponent : Obligations.MapAndClampWorkPerComponent := by
  refine ⟨?mapAbsent, ?mapComponent, ?mapConstant, ?clampPresent, fun _ _ => rfl, fun _ _ => rfl, curveLane_some,
    ?beat, ?run⟩
  case mapAbsent =>
    intro sample k lane h
    rw [mapLane_none h]
    exact maskLane_spec lane
  case mapComponent =>
    intro q sample k j lane hq h
    rw [mapLane_comp hq h]
    exact maskLane_spec lane
  case mapConstant =>
    intro q sample k hq
    rw [mapLane_constant hq, constantLane_val]
    exact ⟨constantLane_strobe_iff _ _, fun set => if_pos set, fun clear => if_neg (Bool.eq_false_iff.1 clear)⟩
  case clampPresent =>
    intro q k lane
    refine ⟨clampLane_strobe _ k lane, clampLane_of_unstrobed _ k, fun set => ?_⟩
    rw [clampLane_of_strobed q k set, clampValue]
  case beat =>
    intro w beat whole
    dsimp only
    rw [← format_size_eq]
    exact ⟨conditionBeat_beat w whole, conditionBeat_clamped w whole, conditionBeat_zeroUnlessStrobed w whole,
      conditionBeat_clamped_le w whole, conditionBeat_clamped_of_absent w whole⟩
  case run =>
    intro t e r claims i c beat hclaims hi hc hbeat
    rw [conditionRun_getElem? hclaims hi hc hbeat]
    refine ⟨conditionRun_length t e r, ?_, fun w hw => by rw [hw, plainBeat]⟩
    rintro rfl
    rfl

end Sys2Proof.Machine
end

section
/-!
CERTIFICATE. The Merge Engine's combination: the alpha of a sample (R92, R93), one blended component (R94, R95), the
blended beat as its components each at its own byte (R91, R96), and the beats of a merged write (R90).
-/

namespace Sys2Proof.Machine

/-! ## Alpha -/

/-- The sample alpha is derived from the alpha component's value, which counts as 255 where it is unstrobed (R92). -/
theorem sampleAlpha_eq (lane : Lane) :
    sampleAlpha lane = ((if lane.strobe = true then lane.val.toNat else 255) + 2) / 4 := rfl

theorem sampleAlpha_le (lane : Lane) : sampleAlpha lane ≤ 64 := by
  have bound := lane.val.isLt
  rw [sampleAlpha_eq]
  split <;> omega

theorem sampleAlpha_of_unstrobed {lane : Lane} (clear : lane.strobe = false) : sampleAlpha lane = 64 := by
  rw [sampleAlpha_eq, clear, if_neg Bool.false_ne_true]

section
variable {b : Blend} (lane : Lane)

theorem effectiveAlpha_sample (h : b.source = .sample) : effectiveAlpha b lane = sampleAlpha lane := by
  rw [effectiveAlpha, h]

theorem effectiveAlpha_plane (h : b.source = .plane) : effectiveAlpha b lane = b.plane.toNat := by
  rw [effectiveAlpha, h]

theorem effectiveAlpha_product (h : b.source = .product) :
    effectiveAlpha b lane = (sampleAlpha lane * b.plane.toNat + 32) / 64 := by
  rw [effectiveAlpha, h]

/-- Under PRODUCT an opaque sample gives exactly the plane alpha (R93). -/
theorem effectiveAlpha_product_of_opaque (h : b.source = .product) (full : sampleAlpha lane = 64) :
    effectiveAlpha b lane = b.plane.toNat := by
  rw [effectiveAlpha_product lane h, full]
  omega

/-- The effective alpha is an alpha, whatever its source, when the plane alpha is one (R10, R93). -/
theorem effectiveAlpha_le (plane : b.plane.toNat ≤ 64) : effectiveAlpha b lane ≤ 64 := by
  have own := sampleAlpha_le lane
  cases source : b.source with
  | sample => rwa [effectiveAlpha_sample lane source]
  | plane => rwa [effectiveAlpha_plane lane source]
  | product =>
    rw [effectiveAlpha_product lane source]
    have product : sampleAlpha lane * b.plane.toNat ≤ 64 * 64 := Nat.mul_le_mul own plane
    omega

end

/-! ## One blended component -/

/-- A sum weighted by `a` and `64 - a` lies between 64 times the smaller and 64 times the larger value. -/
theorem weighted_between {a : Nat} (ha : a ≤ 64) (n o : Nat) :
    64 * min n o ≤ a * n + (64 - a) * o ∧ a * n + (64 - a) * o ≤ 64 * max n o := by
  have split (m : Nat) : 64 * m = a * m + (64 - a) * m := by rw [← Nat.add_mul, Nat.add_sub_cancel' ha]
  rw [split, split]
  exact ⟨Nat.add_le_add (Nat.mul_le_mul_left a (min_le_left n o)) (Nat.mul_le_mul_left _ (min_le_right n o)),
    Nat.add_le_add (Nat.mul_le_mul_left a (le_max_left n o)) (Nat.mul_le_mul_left _ (le_max_right n o))⟩

section
variable {a : Nat} (ha : a ≤ 64) (new old : Byte)
include ha

/-- A mix needs no truncation to be stored in a byte (R94). -/
theorem mix_toNat : (mix a new old).toNat = (a * new.toNat + (64 - a) * old.toNat + 32) / 64 := by
  obtain ⟨-, high⟩ := weighted_between ha new.toNat old.toNat
  have hn := new.isLt
  have ho := old.isLt
  rw [mix, BitVec.toNat_ofNat, Nat.mod_eq_of_lt]
  omega

/-- A mix lies between the new and the old value inclusive (R94). -/
theorem mix_between :
    min new.toNat old.toNat ≤ (mix a new old).toNat ∧ (mix a new old).toNat ≤ max new.toNat old.toNat := by
  obtain ⟨low, high⟩ := weighted_between ha new.toNat old.toNat
  rw [mix_toNat ha]
  omega

end

/-- An alpha of 64 takes the new value (R94). -/
theorem mix_opaque (new old : Byte) : mix 64 new old = new := by
  apply BitVec.eq_of_toNat_eq
  rw [mix_toNat le_rfl]
  omega

/-- An alpha of 0 keeps the old value (R94). -/
theorem mix_transparent (new old : Byte) : mix 0 new old = old := by
  apply BitVec.eq_of_toNat_eq
  rw [mix_toNat (Nat.zero_le _)]
  omega

section
variable (b : Blend) (a : Nat) {k : Nat} {new : Lane} (old : Byte)

theorem blendLane_of_unstrobed (clear : new.strobe = false) : blendLane b a k new old = clearLane := by
  simp [blendLane, clear]

theorem blendLane_of_color (set : new.strobe = true) (color : k ≠ b.component.val) :
    blendLane b a k new old = { new with val := mix a new.val old } := by
  simp [blendLane, set, color]

theorem blendLane_keepOld {b : Blend} (set : new.strobe = true) (policy : b.policy = .keepOld) :
    blendLane b a b.component.val new old = { new with val := old } := by
  simp [blendLane, set, policy]

theorem blendLane_takeNew {b : Blend} (set : new.strobe = true) (policy : b.policy = .takeNew) :
    blendLane b a b.component.val new old = new := by
  simp [blendLane, set, policy]

end

/-! ## One blended sample -/

theorem blendSample_length (b : Blend) (sample : List Lane) (old : RBeat) :
    (blendSample b sample old).length = sample.length := by
  rw [blendSample, List.length_map, List.length_zipIdx]

/-- Each component of a sample is blended with its old byte by the alpha read at the alpha component (R91, R92). -/
theorem blendSample_getElem? {b : Blend} {sample : List Lane} {old : RBeat} {alpha new : Lane} {k : Nat} {o : Byte}
    (halpha : sample[b.component.val]? = some alpha) (hnew : sample[k]? = some new) (hold : old[k]? = some o) :
    (blendSample b sample old)[k]? = some (blendLane b (effectiveAlpha b alpha) k new o) := by
  simp [blendSample, List.getD_eq_getElem?_getD, List.getElem?_zipIdx, halpha, hnew, hold]

/-- Output component `k` of a blended sample, before the clamp: new and old component mixed by the alpha that the
sample has after map and curve (R91 to R95). -/
def blendedLane (w : Window) (b : Blend) (sample : List Lane) (old : RBeat) (k : Nat) : Lane :=
  blendLane b (effectiveAlpha b (shapedLane w sample b.component.val)) k (shapedLane w sample k) (old.getD k 0)

theorem blendSample_shapeSample (w : Window) {b : Blend} {sample : List Lane} (old : RBeat)
    (inside : b.component.val < sample.length) :
    blendSample b (shapeSample w sample) old = (List.range sample.length).map (blendedLane w b sample old) := by
  have alpha : (shapeSample w sample).getD b.component.val clearLane = shapedLane w sample b.component.val := by
    rw [shapeSample_eq, List.getD_eq_getElem?_getD, List.getElem?_map, List.getElem?_range inside]; rfl
  rw [blendSample, alpha, shapeSample_eq, zipIdx_map_range, List.map_map]; rfl

/-! ## The clamp of a sample given by its components -/

theorem clampSample_map_range (q : Option (Quad Bounds)) (n : Nat) (f : Nat → Lane) :
    clampSample q ((List.range n).map f) = (List.range n).map fun k => clampLane q k (f k) := by
  rw [clampSample, zipIdx_map_range, List.map_map]; rfl

theorem clampedIn_map_range (q : Option (Quad Bounds)) (n : Nat) (f : Nat → Lane) :
    clampedIn q ((List.range n).map f) =
      ((List.range n).map fun k => decide (clampLane q k (f k) ≠ f k)).countP id := by
  rw [clampedIn, zipIdx_map_range, List.countP_map, List.countP_map]; rfl

/-! ## New and old beat together -/

theorem samplesOf_map {α β : Type} (g : α → β) (size n : Nat) (l : List α) :
    samplesOf size n (l.map g) = (samplesOf size n l).map (List.map g) := by
  induction n generalizing l with
  | zero => rfl
  | succ n ih => rw [samplesOf, samplesOf, List.map_cons, ← ih, List.map_take, List.map_drop]

theorem sampleAround_map {α β : Type} (g : α → β) (size : Nat) (l : List α) (p : Nat) :
    sampleAround size (l.map g) p = (sampleAround size l p).map g := by
  rw [sampleAround, sampleAround, List.map_take, List.map_drop]

/-- Byte `p` of a beat stands at its position in the sample around it. -/
theorem sampleAround_getD {α : Type} {size : Nat} (pos : 0 < size) (l : List α) (p : Nat) (d : α) :
    (sampleAround size l p).getD (p % size) d = l.getD p d := by
  rw [sampleAround, List.getD_eq_getElem?_getD, List.getD_eq_getElem?_getD,
    List.getElem?_take_of_lt (Nat.mod_lt p pos), List.getElem?_drop, Nat.sub_add_cancel (Nat.mod_le p size)]

/-- Two lists made of one, put together again by index, are one pass over it. -/
theorem map_zipIdx_getD {α β γ δ : Type} (f : α → β) (g : α → γ) (h : β → γ → δ) (d : γ) (l : List α) :
    (l.map f).zipIdx.map (fun p => h p.1 ((l.map g).getD p.2 d)) = l.map fun s => h (f s) (g s) := by
  apply List.ext_getElem
  · simp
  · intro i hi _
    have inside : i < l.length := by simpa using hi
    simp [List.getD_eq_getElem?_getD, inside]

theorem format_size_pos (f : Format) : 0 < f.size := by cases f <;> decide

section
variable (w : Window) {b : Blend} {beat : WBeat} {old : RBeat} (whole : beat.length = 8) (wholeOld : old.length = 8)
include whole wholeOld

/-- What is made of new and old samples together, component by component, is made byte by byte (R91). -/
theorem beatSamples_zip_flatMap {β : Type} (fmt : Format) (f : List Lane → RBeat → Nat → β) :
    (beatSamples fmt (beat.zip old)).flatMap
        (fun s => (List.range fmt.size).map (f (s.map Prod.fst) (s.map Prod.snd))) =
      (List.range 8).map fun p => f (sampleAround fmt.size beat p) (sampleAround fmt.size old p) (p % fmt.size) := by
  have bytes := samplesOf_flatMap fmt.size (8 / fmt.size) (beat.zip old) fun s => f (s.map Prod.fst) (s.map Prod.snd)
  have news := List.map_fst_zip (l₁ := beat) (l₂ := old) (by omega)
  have olds := List.map_snd_zip (l₁ := beat) (l₂ := old) (by omega)
  simp only [← sampleAround_map, news, olds, format_size_mul] at bytes
  exact bytes

variable (inside : b.component.val < w.place.format.size)
include inside

/-- The samples of a blended beat before the clamp, each as its components. -/
theorem blendedSamples_eq :
    ((beatSamples w.place.format beat).map (shapeSample w)).zipIdx.map
        (fun p => blendSample b p.1 ((beatSamples w.place.format old).getD p.2 [])) =
      (beatSamples w.place.format (beat.zip old)).map fun s =>
        (List.range w.place.format.size).map (blendedLane w b (s.map Prod.fst) (s.map Prod.snd)) := by
  have news : beatSamples w.place.format beat = (beatSamples w.place.format (beat.zip old)).map (List.map Prod.fst) := by
    rw [beatSamples, beatSamples, ← samplesOf_map, List.map_fst_zip (by omega)]
  have olds : beatSamples w.place.format old = (beatSamples w.place.format (beat.zip old)).map (List.map Prod.snd) := by
    rw [beatSamples, beatSamples, ← samplesOf_map, List.map_snd_zip (by omega)]
  have long : w.place.format.size * (8 / w.place.format.size) ≤ (beat.zip old).length := by
    rw [format_size_mul, List.length_zip]; omega
  rw [news, olds, List.map_map, map_zipIdx_getD _ _ (blendSample b)]
  refine List.map_congr_left fun s hs => ?_
  have length : (s.map Prod.fst).length = w.place.format.size := by
    rw [List.length_map, length_of_mem_samplesOf long hs]
  rw [Function.comp_apply, blendSample_shapeSample w _ (length ▸ inside), length]

/-- The blended beat carries at each byte the clamped blended component of that position (R91, R96). -/
theorem blendBeat_beat :
    (blendBeat w b beat old).beat = (List.range 8).map fun p =>
      clampLane w.clamp (p % w.place.format.size)
        (blendedLane w b (sampleAround w.place.format.size beat p) (sampleAround w.place.format.size old p)
          (p % w.place.format.size)) := by
  rw [← beatSamples_zip_flatMap whole wholeOld w.place.format fun s o k => clampLane w.clamp k (blendedLane w b s o k),
    blendBeat]
  simp only [blendedSamples_eq w whole wholeOld inside, List.flatMap_map, clampSample_map_range]

/-- The clamped count of a blended beat is the number of bytes whose blended component the clamp changed (R96). -/
theorem blendBeat_clamped :
    (blendBeat w b beat old).clamped = (List.range 8).countP fun p =>
      let blended := blendedLane w b (sampleAround w.place.format.size beat p)
        (sampleAround w.place.format.size old p) (p % w.place.format.size)
      decide (clampLane w.clamp (p % w.place.format.size) blended ≠ blended) := by
  have bytes := congrArg (List.countP id) (beatSamples_zip_flatMap whole wholeOld w.place.format fun s o k =>
    decide (clampLane w.clamp k (blendedLane w b s o k) ≠ blendedLane w b s o k))
  rw [List.countP_flatMap, List.countP_map] at bytes
  rw [blendBeat]
  simp only [blendedSamples_eq w whole wholeOld inside, List.map_map, Function.comp_def, clampedIn_map_range]
  exact bytes

end

/-- The old byte that a blended component takes is the old beat's at the same position (R91). -/
theorem blendedLane_sampleAround (w : Window) (b : Blend) (beat : WBeat) (old : RBeat) {size : Nat} (pos : 0 < size)
    (p : Nat) :
    blendedLane w b (sampleAround size beat p) (sampleAround size old p) (p % size) =
      blendLane b (effectiveAlpha b (shapedLane w (sampleAround size beat p) b.component.val)) (p % size)
        (shapedLane w (sampleAround size beat p) (p % size)) (old.getD p 0) := by
  rw [blendedLane, sampleAround_getD pos]

/-! ## The beats of a merged write -/

theorem mergeRun_length (t : WindowTable) (e : Entry) (r : Run) (old : List RBeat) :
    (mergeRun t e r old).length = r.count := by
  rw [mergeRun, List.length_map, List.length_range]

/-- Each beat of the merged write is built by its own claim from its own write data and its own old beat (R90). -/
theorem mergeRun_getElem? {t : WindowTable} {e : Entry} {r : Run} {claims : List Claim} {i : Nat} {c : Claim}
    {beat : WBeat} {old : List RBeat} {o : RBeat} (hclaims : e.claims = some claims) (hi : i < r.count)
    (hc : claims[r.first + i]? = some c) (hbeat : e.wdata[r.first + i]? = some beat) (hold : old[i]? = some o) :
    (mergeRun t e r old)[i]? = some (mergedBeat (t.treatment c) beat o) := by
  rw [mergeRun, List.getElem?_map, List.getElem?_range hi, Option.map_some, Entry.claimList, hclaims,
    Option.getD_some, List.getD_eq_getElem?_getD, hc, Option.getD_some, Entry.wbeat, List.getD_eq_getElem?_getD, hbeat,
    Option.getD_some, List.getD_eq_getElem?_getD, hold, Option.getD_some]

theorem mergedBeat_blend {w : Window} {b : Blend} (h : w.blend = some b) (beat : WBeat) (o : RBeat) :
    mergedBeat (.blend w) beat o = blendBeat w b beat o := by
  simp only [mergedBeat, h]

/-- Settles O47: each clause is the rule of its function, the blended beat's are those of its components byte by byte,
and a merged write's those of its beats (R90 to R96). -/
theorem blendingMixesByAlpha : Obligations.BlendingMixesByAlpha := by
  refine ⟨fun lane => ⟨sampleAlpha_eq lane, sampleAlpha_le lane, sampleAlpha_of_unstrobed⟩, ?effective, ?mixed, ?policy,
    fun b a _ _ old => blendLane_of_unstrobed b a old, ?sample, ?beat, ?run⟩
  case effective =>
    intro b lane plane
    exact ⟨effectiveAlpha_le lane plane, effectiveAlpha_sample lane, effectiveAlpha_plane lane,
      fun h => ⟨effectiveAlpha_product lane h, effectiveAlpha_product_of_opaque lane h⟩⟩
  case mixed =>
    intro b a k new old ha set color
    rw [blendLane_of_color b a old set color]
    obtain ⟨low, high⟩ := mix_between ha new.val old
    refine ⟨set, mix_toNat ha new.val old, low, high, ?_, ?_⟩
    · rintro rfl
      exact mix_opaque new.val old
    · rintro rfl
      exact mix_transparent new.val old
  case policy =>
    intro b a new old set
    refine ⟨fun keep => ?_, blendLane_takeNew a old set⟩
    rw [blendLane_keepOld a old set keep, set]
  case sample =>
    intro b sample old alpha new k o halpha hnew hold
    exact ⟨blendSample_length b sample old, blendSample_getElem? halpha hnew hold⟩
  case beat =>
    intro w b beat old whole wholeOld
    dsimp only
    rw [← format_size_eq]
    intro inside
    have bytes := blendBeat_beat w whole wholeOld inside
    have count := blendBeat_clamped w whole wholeOld inside
    simp only [blendedLane_sampleAround w b beat old (format_size_pos w.place.format)] at bytes count
    exact ⟨bytes, count⟩
  case run =>
    intro t e r claims i c beat old o hclaims hi hc hbeat hold
    rw [mergeRun_getElem? hclaims hi hc hbeat hold]
    refine ⟨mergeRun_length t e r old, ?_, fun w hw => by rw [hw, mergedBeat],
      fun w b hw hb => by rw [hw, mergedBeat_blend hb]⟩
    rintro rfl
    rfl

end Sys2Proof.Machine
end

section
/-!
CERTIFICATE. The request arbiter (R121, R124): its choice by which sides wait, the side that each take leaves as
served last, and that side after a soft reset (R139).
-/

namespace Sys2Proof.Machine

/-! ## The choice on a free channel -/

section
variable {s : State} {f e : Entry} {m : MergeNo} {w : MergeWork} (free : s.port.channel = none)
include free

theorem arbitrate_forward (hf : s.forwardCandidate = some f) (hm : s.mergeCandidate = none) :
    arbitrate s = takePlain s f := by
  simp only [arbitrate, free, hf, hm]

theorem arbitrate_merge (hf : s.forwardCandidate = none) (hm : s.mergeCandidate = some (e, m, w)) :
    arbitrate s = takeMerge s e m w := by
  simp only [arbitrate, free, hf, hm]

/-- Where both sides wait, the side not served last is taken (R124). -/
theorem arbitrate_both (hf : s.forwardCandidate = some f) (hm : s.mergeCandidate = some (e, m, w)) :
    arbitrate s = if s.port.lastServed = .merge then takePlain s f else takeMerge s e m w := by
  cases served : s.port.lastServed with
  | forward => simp only [arbitrate, free, hf, hm, served, reduceCtorEq, if_false]
  | merge => simp only [arbitrate, free, hf, hm, served, if_true]

end

/-! ## The side served last -/

section
variable (s : State) {e : Entry} {k : Tag} {r : Run} (hk : e.tag = some k) (hr : e.run = some r)
include hk hr

theorem takePlain_lastServed : (takePlain s e).port.lastServed = .forward := by
  cases hd : e.dir with
  | read => rw [takePlain_read s e k r hk hr hd, State.setEntry_port, State.present_port_lastServed]
  | write =>
    rw [takePlain_write s e k r hk hr hd, State.countIssued_port, State.setEntry_port, State.present_port_lastServed]

/-- Either take of a merge slot, of its old-data read and of its merged write, serves the merge side. -/
theorem takeMerge_lastServed (m : MergeNo) {w : MergeWork} (waits : w.phase.waits = true) :
    (takeMerge s e m w).port.lastServed = .merge := by
  cases hp : w.phase with
  | readWait => rw [takeMerge_read s e k r m w hk hr hp, State.setMerge_port, State.present_port_lastServed]
  | writeWait =>
    rw [takeMerge_write s e k r m w hk hr hp, State.countIssued_port, State.setMerge_port,
      State.present_port_lastServed]
  | readOut | writeOut => simp [hp, MergePhase.waits] at waits

end

theorem offerNext_port (s : State) : (offerNext s).port = s.port := by
  unfold offerNext
  split <;> rfl

/-- A soft reset leaves MERGE as the side served last: the next offer and the response do not touch the port. -/
theorem softReset_lastServed (s : State) : s.softReset.port.lastServed = .merge := by
  rw [State.softReset, State.refreshAlert_port, State.respond_port, offerNext_port, State.softResetBlocks]

/-- A taken frame of a command that has no arguments, and brings none, is carried out. -/
theorem takeFrame_noArguments (s : State) (f : State → State) (h : s.TakesFrames) :
    s.takeFrame 0 (noArguments [] f) = f (s.setMiso (List.replicate 3 0xFF)) := by
  rw [s.takeFrame_taken 0 _ h (Nat.zero_le _), noArguments_nil]

theorem exec_softReset (s : State) (h : s.TakesFrames) :
    exec (.softReset []) s = .next (s.setMiso (List.replicate 3 0xFF)).softReset :=
  congrArg Host.Outcome.next (takeFrame_noArguments s State.softReset h)

/-- Settles O17: the choice is by which sides wait, each take serves its own side, a reset of either kind leaves
MERGE, and the candidates are the oldest waiting entries (R122 to R124). -/
theorem arbiterAlternatesBetweenItsSides : Obligations.ArbiterAlternatesBetweenItsSides := by
  refine ⟨arbitrate_busy, fun s _ => arbitrate_idle s, fun _ _ => arbitrate_forward, fun _ _ _ _ => arbitrate_merge,
    fun _ _ _ _ _ => arbitrate_both, fun s _ _ _ => takePlain_lastServed s,
    fun s _ _ _ m _ hk hr => takeMerge_lastServed s hk hr m, rfl, ?softReset,
    fun s => ⟨s.forwardCandidate_iff, s.mergeCandidate_iff⟩⟩
  case softReset =>
    intro s takes t step
    obtain rfl : _ = t := Host.Outcome.next.inj ((exec_softReset s takes).symm.trans step)
    exact softReset_lastServed _

end Sys2Proof.Machine
end

section
/-!
CERTIFICATE. PURGE (R135, R182): the record that each tag gives, the state when every ORPHANED tag is freed, and
the number of tags freed as the number of those records.
-/

namespace Sys2Proof.Machine

/-- The record a tag gives at a PURGE: PURGED with its orphan's fields, or none where it is not ORPHANED. -/
def purgedRecord? (k : Tag) : TagState → Option FaultRecord
  | .free => none
  | .bound _ _ => none
  | .orphaned o => some (orphanRecord .purged o k)

/-- The records of a PURGE, in ascending tag order. -/
def State.purgedRecords (s : State) : List FaultRecord :=
  Config.sixteen.filterMap fun k => purgedRecord? k s.port.tags[k]

theorem purgedRecord?_isSome (k : Tag) (ts : TagState) : (purgedRecord? k ts).isSome = ts.isOrphaned := by
  cases ts <;> rfl

/-- The sixteen tags in ascending order name every place of a store of sixteen, in its order. -/
theorem toList_eq_map_sixteen {α : Type} (v : Vector α 16) : v.toList = Config.sixteen.map fun k => v[k] := by
  have tags : Config.sixteen = List.finRange 16 := by decide
  have places : Vector.ofFn (fun k : Fin 16 => v[k]) = v := store_ext fun k => Vector.getElem_ofFn k.isLt
  rw [tags, ← List.ofFn_eq_map, ← Vector.toList_ofFn, places]

/-- There are as many records as ORPHANED tags. -/
theorem purgedRecords_length (s : State) : s.purgedRecords.length = s.orphanCount := by
  rw [State.purgedRecords, List.length_filterMap_eq_countP, State.orphanCount, toList_eq_map_sixteen,
    List.countP_map]
  simp only [purgedRecord?_isSome, Function.comp_def]

/-- All ORPHANED tags freed: no other tag changes, and the Fault Queue takes the records one after the other. -/
theorem purge_all (s : State) :
    ∃ tags : Vector TagState 16,
      (∀ k : Tag, tags[k] = if (s.port.tags[k]).isOrphaned = true then .free else s.port.tags[k]) ∧
        Config.sixteen.foldl purgeTag s =
          { s with
            port := { s.port with tags := tags }
            faults := s.purgedRecords.foldl postRecord s.faults } := by
  obtain ⟨tags, freed, fold⟩ := purge_fold Config.sixteen (sixteen_rise.imp ne_of_lt) s
  simp only [sixteen_all, true_and] at freed
  exact ⟨tags, freed, fold⟩

theorem exec_purge (s : State) (h : s.TakesFrames) :
    exec (.purge []) s = .next (s.setMiso (List.replicate 3 0xFF)).purge :=
  congrArg Host.Outcome.next (takeFrame_noArguments s State.purge h)

/-- Settles O27: the frame's bytes leave the tags as they were, so the PURGE frees their orphans, posts their records
and answers with the number of those (R135, R182). -/
theorem purgeFreesEveryOrphan : Obligations.PurgeFreesEveryOrphan := by
  intro s takes records
  obtain ⟨tags, freed, all⟩ := purge_all (s.setMiso (List.replicate 3 0xFF))
  have same : records = s.purgedRecords :=
    List.filterMap_congr fun k _ => by cases s.port.tags[k] <;> rfl
  refine ⟨tags, fun k => ?_, ?_⟩
  · rw [freed, State.setMiso_port]
    cases s.port.tags[k] <;> rfl
  · dsimp only
    rw [exec_purge s takes, State.purge, all, ← purgedRecords_length, same]
    rfl

end Sys2Proof.Machine
end

section
/-!
CERTIFICATE. A response of the memory side by the state of its tag, where no transaction awaits it: discarded in
reset (R140), stray (R133), or the late response of an orphan (R132).
-/

namespace Sys2Proof.Machine

theorem exec_downReadReturn (s : State) (k : Tag) (status : DownStatus) (data : List RBeat) :
    exec (.downReadReturn k status data) s = .next (s.respondDown .read k status data) :=
  rfl

theorem exec_downWriteReturn (s : State) (k : Tag) (status : DownStatus) :
    exec (.downWriteReturn k status) s = .next (s.respondDown .write k status []) :=
  rfl

section
variable {s : State} {k : Tag} (kind : Dir) (status : DownStatus) (data : List RBeat)

theorem respondDown_in_reset (h : s.resetAsserted = true) : s.respondDown kind k status data = s := if_pos h

variable (released : s.resetAsserted = false)
include released

theorem respondDown_of_free (h : s.port.tags[k] = .free) : s.respondDown kind k status data = s.stray kind k := by
  simp [State.respondDown, released, h]

theorem respondDown_of_idle {n : EntryNo} (h : s.port.tags[k] = .bound n none) :
    s.respondDown kind k status data = s.stray kind k := by
  simp [State.respondDown, released, h]

theorem respondDown_of_other_kind {n : EntryNo} {fl : Flight} (h : s.port.tags[k] = .bound n (some fl))
    (other : fl.kind ≠ kind) : s.respondDown kind k status data = s.stray kind k := by
  simp [State.respondDown, released, h, other]

theorem respondDown_of_orphaned {o : Orphan} (h : s.port.tags[k] = .orphaned o) :
    s.respondDown kind k status data =
      (settle ((s.setTag k .free).post (orphanRecord .orphanLate o k))).refreshAlert := by
  simp [State.respondDown, released, h]

/-- A response is stray on a FREE tag, on a tag with nothing in flight, and where it is of the other kind (R133). -/
theorem respondDown_stray
    (h : s.port.tags[k] = .free ∨ (∃ n, s.port.tags[k] = .bound n none) ∨
      ∃ n other deadline, other ≠ kind ∧
        s.port.tags[k] = .bound n (some { kind := other, deadline := deadline })) :
    s.respondDown kind k status data = s.stray kind k := by
  obtain free | ⟨n, idle⟩ | ⟨n, other, deadline, differs, flying⟩ := h
  · exact respondDown_of_free kind status data released free
  · exact respondDown_of_idle kind status data released idle
  · exact respondDown_of_other_kind kind status data released flying differs

end

/-- Settles O24: on such a tag a response of either kind is stray, and a stray response posts its record (R133). -/
theorem strayResponseOnlyPostsARecord : Obligations.StrayResponseOnlyPostsARecord := by
  intro s k kind status data released unawaited
  cases kind with
  | read =>
    dsimp only
    rw [exec_downReadReturn, respondDown_stray .read status data released unawaited]
    rfl
  | write =>
    dsimp only
    rw [exec_downWriteReturn, respondDown_stray .write status [] released unawaited]
    rfl

/-- Settles O25: in reset a response is discarded, and on an ORPHANED tag it frees the tag whatever its kind, status
and data (R132, R140). -/
theorem lateResponseFreesTheOrphan : Obligations.LateResponseFreesTheOrphan := by
  intro s k status data
  constructor
  · intro reset
    rw [exec_downReadReturn, exec_downWriteReturn, respondDown_in_reset .read status data reset,
      respondDown_in_reset .write status [] reset]
    exact ⟨rfl, rfl⟩
  · intro o released orphaned
    rw [exec_downReadReturn, exec_downWriteReturn, respondDown_of_orphaned .read status data released orphaned,
      respondDown_of_orphaned .write status [] released orphaned]
    exact ⟨rfl, rfl⟩

end Sys2Proof.Machine
end

section
/-!
CERTIFICATE. The Fault Queue and the summary queue (R147, R155, R156): where a new record goes below capacity, and
what a full queue gives up for it. A full Fault Queue keeps its records and marks the tail; a full summary queue
loses its head.
-/

namespace Sys2Proof.Machine

/-! ## The Fault Queue -/

/-- The record that `markNewest` flags is the one at the tail. -/
@[simp] theorem markNewest_append_singleton (queue : List FaultRecord) (newest : FaultRecord) :
    markNewest (queue ++ [newest]) = queue ++ [{ newest with lost := true }] := by
  induction queue with
  | nil => rfl
  | cons head queue ih =>
    have behind : queue ++ [newest] ≠ [] := List.concat_ne_nil newest queue
    rw [List.cons_append, markNewest.eq_3 _ _ behind, ih, List.cons_append]

/-- Below capacity a record joins the tail with its flag clear (R155). -/
theorem postRecord_of_room {queue : List FaultRecord} (r : FaultRecord) (room : queue.length < Config.faultCapacity) :
    postRecord queue r = queue ++ [{ r with lost := false }] := if_pos room

/-- At capacity a record is dropped, and only the newest stored one is marked (R156). -/
theorem postRecord_of_full {queue : List FaultRecord} (r : FaultRecord) (full : Config.faultCapacity ≤ queue.length) :
    postRecord queue r = markNewest queue := if_neg full.not_gt

/-! ## The summary queue -/

/-- Below capacity a summary joins the tail (R147). -/
theorem fileSummary_of_room {queue : List StatsRecord} (r : StatsRecord)
    (room : queue.length < Config.summaryCapacity) : fileSummary queue r = queue ++ [r] := if_pos room

/-- At capacity the head is lost before the summary joins the tail (R147). -/
theorem fileSummary_of_full {queue : List StatsRecord} (r : StatsRecord)
    (full : Config.summaryCapacity ≤ queue.length) : fileSummary queue r = queue.tail ++ [r] := if_neg full.not_gt

/-- Settles O51: below capacity each queue grows at its tail; with 8 records the tail of the Fault Queue is marked
instead (R156), and with 4 summaries the head makes room (R147). -/
theorem queuesKeepTheirOrder : Obligations.QueuesKeepTheirOrder := by
  refine ⟨fun queue r room => postRecord_of_room r room, ?_, fun queue r room => fileSummary_of_room r room, ?_⟩
  · intro queue newest r seven
    have full : Config.faultCapacity ≤ (queue ++ [newest]).length := by simp [seven, Config.faultCapacity]
    rw [postRecord_of_full r full, markNewest_append_singleton]
  · intro head r queue three
    have full : Config.summaryCapacity ≤ (head :: queue).length := by simp [three, Config.summaryCapacity]
    rw [fileSummary_of_full r full, List.tail_cons]

end Sys2Proof.Machine
end

section
/-!
SUPPORT. A taken command frame by its argument count (R166, check 4), and bytes put together from flag bits (R185).
-/

namespace Sys2Proof.Machine

/-! ## Taken frames -/

section
variable (s : State) (takes : s.TakesFrames)
include takes

/-- A taken frame of a command that has no arguments, and brings some, answers BAD_ARGUMENT (R166, check 4). -/
theorem takeFrame_noArguments_refused (f : State → State) {args : List Byte} (brings : args ≠ [])
    (short : args.length ≤ 60) :
    s.takeFrame args.length (noArguments args f) = s.afterFrame (3 + args.length) .badArgument [] := by
  rw [s.takeFrame_taken _ _ takes short, noArguments_some f _ brings, State.respond_setMiso]

/-- A taken frame of a command that has one argument byte, and brings it, is carried out. -/
theorem takeFrame_oneArgument (f : Byte → State → State) (b : Byte) :
    s.takeFrame 1 (oneArgument [b] f) = f b (s.setMiso (List.replicate 4 0xFF)) := by
  rw [s.takeFrame_taken 1 _ takes (by decide), oneArgument_one]

/-- A taken frame of a command that has one argument byte, and brings none or more, answers BAD_ARGUMENT (R166,
check 4). -/
theorem takeFrame_oneArgument_refused (f : Byte → State → State) {args : List Byte} (other : args.length ≠ 1)
    (short : args.length ≤ 60) :
    s.takeFrame args.length (oneArgument args f) = s.afterFrame (3 + args.length) .badArgument [] := by
  rw [s.takeFrame_taken _ _ takes short, oneArgument_other f _ other, State.respond_setMiso]

end

/-! ## Flag bits -/

/-- A flag bit above a number adds its value to it. -/
theorem ofNat_or_bitByte {n : Nat} (b : Bool) (k v : Nat) (value : 2 ^ k = v) (below : n < v) :
    BitVec.ofNat 8 n ||| bitByte b k = BitVec.ofNat 8 (n + if b then v else 0) := by
  subst value
  cases b with
  | false => exact BitVec.or_zero
  | true =>
    have disjoint : n ||| 2 ^ k = n + 2 ^ k := by
      have := Nat.two_pow_add_eq_or_of_lt below 1
      rw [Nat.or_comm, ← Nat.mul_one (2 ^ k), ← this, Nat.add_comm]
    exact BitVec.ofNat_or.symm.trans (congrArg (BitVec.ofNat 8) disjoint)

/-- The lowest flag bit. -/
theorem bitByte_zero (b : Bool) : bitByte b 0 = BitVec.ofNat 8 (if b then 1 else 0) := by cases b <;> rfl

/-- The value of a flag bit is at most the bit's own. -/
theorem flagValue_le (b : Bool) (v : Nat) : (if b then v else 0) ≤ v := by cases b <;> simp

end Sys2Proof.Machine
end

section
/-!
CERTIFICATE. STAGE_CLEAR (R27, R175) by what its argument names, and STAGE_COPY (R28, R176).
-/

namespace Sys2Proof.Machine

section
variable (s : State) {b : Byte}

/-- A slot's number empties that slot of STAGING. -/
theorem stageClear_slot {n : SlotNo} (h : b.toNat = n.val) :
    State.stageClear b s = (s.setStaging (s.gens.staging.setSlot n none)).respond .ok [] := by
  simp only [State.stageClear, if_neg (slotOf_ne_all h), slotOf_some h]

/-- ALL makes STAGING the empty table. -/
theorem stageClear_all : State.stageClear 0xFF s = (s.setStaging .empty).respond .ok [] := rfl

/-- A byte that names neither answers BAD_ARGUMENT. -/
theorem stageClear_refused (high : 8 ≤ b.toNat) (other : b ≠ 0xFF) :
    State.stageClear b s = s.respond .badArgument [] := by
  simp only [State.stageClear, if_neg (toNat_ne_all other), slotOf_none high]

end

theorem exec_stageClear (s : State) (b : Byte) (takes : s.TakesFrames) :
    exec (.stageClear [b]) s = .next (State.stageClear b (s.setMiso (List.replicate 4 0xFF))) :=
  congrArg Host.Outcome.next (takeFrame_oneArgument s takes State.stageClear b)

theorem exec_stageCopy (s : State) (takes : s.TakesFrames) :
    exec (.stageCopy []) s = .next (s.setMiso (List.replicate 3 0xFF)).stageCopy :=
  congrArg Host.Outcome.next (takeFrame_noArguments s State.stageCopy takes)

/-- Settles O33: a frame of the right form is carried out on STAGING as its argument says, and one of another form
is refused before the command is looked at (R175, R176). -/
theorem stageClearAndCopyReplaceStaging : Obligations.StageClearAndCopyReplaceStaging := by
  intro s takes
  refine ⟨?slot, ?all, ?refused, ?clearForm, ?copy, ?copyForm⟩
  case slot =>
    intro b n h
    rw [exec_stageClear s b takes, stageClear_slot _ h]
    rfl
  case all =>
    rw [exec_stageClear s 0xFF takes, stageClear_all]
    rfl
  case refused =>
    intro b high other
    rw [exec_stageClear s b takes, stageClear_refused _ high other, State.respond_setMiso]
  case clearForm =>
    intro args other short
    exact congrArg Host.Outcome.next (takeFrame_oneArgument_refused s takes State.stageClear other short)
  case copy =>
    rw [exec_stageCopy s takes, State.stageCopy]
    rfl
  case copyForm =>
    intro args brings short
    exact congrArg Host.Outcome.next (takeFrame_noArguments_refused s takes State.stageCopy brings short)

end Sys2Proof.Machine
end

section
/-!
CERTIFICATE. QUERY (R172): the bytes of the alert mask and of the link flags as numbers, and the snapshot (R185).
-/

namespace Sys2Proof.Machine

/-- The mask byte is the sum of its bits' values. -/
theorem mask_byte_eq (m : AlertMask) :
    m.byte =
      BitVec.ofNat 8 ((if m.fault then 1 else 0) + (if m.summary then 2 else 0) + if m.orphan then 4 else 0) := by
  have low := flagValue_le m.fault 1
  have middle := flagValue_le m.summary 2
  rw [AlertMask.byte, bitByte_zero, ofNat_or_bitByte m.summary 1 2 rfl (by omega),
    ofNat_or_bitByte m.orphan 2 4 rfl (by omega)]

/-- The link-flags byte is the sum of its bits' values. -/
theorem flagsByte_eq (l : Link) :
    l.flagsByte = BitVec.ofNat 8 ((if l.frameError then 1 else 0) + if l.discarded then 2 else 0) := by
  have low := flagValue_le l.frameError 1
  rw [Link.flagsByte, bitByte_zero, ofNat_or_bitByte l.discarded 1 2 rfl (by omega)]

/-- A number in two bytes. -/
theorem bytesBE_two_eq (n : Nat) : bytesBE 2 n = [BitVec.ofNat 8 (n / 256), BitVec.ofNat 8 n] := by
  simp [bytesBE]

theorem exec_query (s : State) (takes : s.TakesFrames) :
    exec (.query []) s =
      .next
        (let answered := s.afterFrame 3 .ok s.snapshot
         { answered with link := { answered.link with frameError := false, discarded := false } }) :=
  congrArg Host.Outcome.next (takeFrame_noArguments s State.query takes)

/-- Settles O35: the answer is the snapshot of the state before the frame, whose bytes are those listed whether a
generation is RETIRING or not (R172, R185). -/
theorem queryReportsTheSnapshot : Obligations.QueryReportsTheSnapshot := by
  intro s takes bit snapshot answered
  have bytes : s.snapshot = snapshot := by
    rw [State.snapshot, mask_byte_eq, flagsByte_eq, bytesBE_two_eq]
    dsimp only [snapshot, bit]
    cases s.gens.retiring with
    | none => rfl
    | some b => rfl
  rw [exec_query s takes, bytes]

end Sys2Proof.Machine
end

section
/-!
CERTIFICATE. The statistics that the link reads: STATS_READ by what its argument names (R178), and SUMMARY_POP by
the state of the summary queue (R150, R179).
-/

namespace Sys2Proof.Machine

/-! ## STATS_READ -/

section
variable (s : State) {b : Byte} {n : SlotNo}

/-- A listed slot answers with its part of the ACTIVE generation's record. -/
theorem statsRead_listed (h : b.toNat = n.val) {p : SlotPart}
    (found : s.stats.active.parts.find? (fun x => decide (x.slot = n)) = some p) :
    State.statsRead b s = s.respond .ok (s.gens.active.number :: p.bytes) := by
  simp only [State.statsRead, if_neg (slotOf_ne_all h), slotOf_some h, found]

/-- A slot that is not listed has no part. -/
theorem statsRead_notListed (h : b.toNat = n.val)
    (missing : s.stats.active.parts.find? (fun x => decide (x.slot = n)) = none) :
    State.statsRead b s = s.respond .notListed [s.gens.active.number] := by
  simp only [State.statsRead, if_neg (slotOf_ne_all h), slotOf_some h, missing]

/-- ALL answers with the background figures. -/
theorem statsRead_all : State.statsRead 0xFF s = s.respond .ok s.stats.active.backgroundBytes := rfl

/-- A byte that names neither answers BAD_ARGUMENT. -/
theorem statsRead_refused (high : 8 ≤ b.toNat) (other : b ≠ 0xFF) :
    State.statsRead b s = s.respond .badArgument [] := by
  simp only [State.statsRead, if_neg (toNat_ne_all other), slotOf_none high]

end

theorem exec_statsRead (s : State) (b : Byte) (takes : s.TakesFrames) :
    exec (.statsRead [b]) s = .next (State.statsRead b (s.setMiso (List.replicate 4 0xFF))) :=
  congrArg Host.Outcome.next (takeFrame_oneArgument s takes State.statsRead b)

/-- The first part of a slot is the one found for it. -/
theorem find?_part {parts before after : List SlotPart} {p : SlotPart} {n : SlotNo}
    (split : parts = before ++ p :: after) (slot : p.slot = n) (first : ∀ x ∈ before, x.slot ≠ n) :
    parts.find? (fun x => decide (x.slot = n)) = some p :=
  List.find?_eq_some_iff_append.2
    ⟨decide_eq_true slot, before, after, split, fun x hx => by simpa using first x hx⟩

/-- Where no part is of the slot, none is found for it. -/
theorem find?_part_none {parts : List SlotPart} {n : SlotNo} (other : ∀ p ∈ parts, p.slot ≠ n) :
    parts.find? (fun x => decide (x.slot = n)) = none :=
  List.find?_eq_none.2 fun x hx => by simpa using other x hx

/-- Settles O36: the frame leaves the record as it was, and the argument picks a part of it, its background figures,
or nothing (R178). -/
theorem statsReadShowsTheLiveFigures : Obligations.StatsReadShowsTheLiveFigures := by
  unfold Obligations.StatsReadShowsTheLiveFigures
  intro be four two s takes g r
  refine ⟨fun b n h => ⟨?listed, ?notListed⟩, ?all, ?refused⟩
  case listed =>
    intro before p after split slot first
    subst slot
    rw [exec_statsRead s b takes, statsRead_listed _ h (find?_part (by rwa [State.setMiso_stats]) rfl first)]
    rfl
  case notListed =>
    intro other
    rw [exec_statsRead s b takes, statsRead_notListed _ h (find?_part_none (by rwa [State.setMiso_stats]))]
    rfl
  case all =>
    intro same
    rw [exec_statsRead s 0xFF takes, statsRead_all, State.respond_setMiso, ← same]
    rfl
  case refused =>
    intro b high other
    rw [exec_statsRead s b takes, statsRead_refused _ high other, State.respond_setMiso]

/-! ## SUMMARY_POP -/

section
variable (s : State)

theorem summaryPop_empty (h : s.stats.queue = []) : s.summaryPop = s.respond .empty [] := by
  simp only [State.summaryPop, h]

/-- The head leaves the queue and is the response (R150). -/
theorem summaryPop_head {r : StatsRecord} {rest : List StatsRecord} (h : s.stats.queue = r :: rest) :
    s.summaryPop =
      ((s.setStats { s.stats with queue := rest }).respond .ok r.summaryBytes).refreshAlert := by
  simp only [State.summaryPop, h]

end

theorem exec_summaryPop (s : State) (takes : s.TakesFrames) :
    exec (.summaryPop []) s = .next (s.setMiso (List.replicate 3 0xFF)).summaryPop :=
  congrArg Host.Outcome.next (takeFrame_noArguments s State.summaryPop takes)

/-- Settles O37: the frame leaves the queue as it was, and the command takes its head, whose bytes are its figures in
the order of R185 (R150, R179). -/
theorem summaryPopTakesTheOldest : Obligations.SummaryPopTakesTheOldest := by
  unfold Obligations.SummaryPopTakesTheOldest
  intro be four two s takes
  constructor
  · intro empty
    rw [exec_summaryPop s takes, summaryPop_empty _ (by rwa [State.setMiso_stats]), State.respond_setMiso]
  · intro r rest queue
    rw [exec_summaryPop s takes, summaryPop_head _ (by rwa [State.setMiso_stats])]
    rfl

end Sys2Proof.Machine
end

section
/-!
CERTIFICATE. FAULT_POP (R157, R180): the Fault Queue's head, and its record's bytes with the presence bits (R185).
-/

namespace Sys2Proof.Machine

section
variable (s : State)

theorem faultPop_empty (h : s.faults = []) : s.faultPop = s.respond .empty [] := by
  simp only [State.faultPop, h]

/-- The head leaves the queue and is the response (R157). -/
theorem faultPop_head {r : FaultRecord} {rest : List FaultRecord} (h : s.faults = r :: rest) :
    s.faultPop = (({ s with faults := rest } : State).respond .ok r.bytes).refreshAlert := by
  simp only [State.faultPop, h]

end

theorem exec_faultPop (s : State) (takes : s.TakesFrames) :
    exec (.faultPop []) s = .next (s.setMiso (List.replicate 3 0xFF)).faultPop :=
  congrArg Host.Outcome.next (takeFrame_noArguments s State.faultPop takes)

/-- The flags byte is the sum of its bits' values: presence in bits 0 to 5, records lost in bit 7 (R180). -/
theorem faultFlags_eq (r : FaultRecord) :
    r.flags =
      BitVec.ofNat 8
        ((if r.id.isSome then 1 else 0) + (if r.addr.isSome then 2 else 0) + (if r.gen.isSome then 4 else 0) +
          (if r.slot.isSome then 8 else 0) + (if r.tag.isSome then 16 else 0) +
          (if r.phase.isSome then 32 else 0) + if r.lost then 128 else 0) := by
  have id := flagValue_le r.id.isSome 1
  have addr := flagValue_le r.addr.isSome 2
  have gen := flagValue_le r.gen.isSome 4
  have slot := flagValue_le r.slot.isSome 8
  have tag := flagValue_le r.tag.isSome 16
  have phase := flagValue_le r.phase.isSome 32
  rw [FaultRecord.flags, bitByte_zero, ofNat_or_bitByte r.addr.isSome 1 2 rfl (by omega),
    ofNat_or_bitByte r.gen.isSome 2 4 rfl (by omega), ofNat_or_bitByte r.slot.isSome 3 8 rfl (by omega),
    ofNat_or_bitByte r.tag.isSome 4 16 rfl (by omega), ofNat_or_bitByte r.phase.isSome 5 32 rfl (by omega),
    ofNat_or_bitByte r.lost 7 128 rfl (by omega)]

theorem dirCode_eq (d : Dir) : dirCode d = if d = .read then 0 else 1 := by cases d <;> rfl

/-- An ABSENT address has zero bytes (R180). -/
theorem addressNumber_eq (a : Option Addr) : (a.map BitVec.toNat).getD 0 = (a.getD 0).toNat := by cases a <;> rfl

/-- An ABSENT phase has the byte of OLD_READ, zero (R180). -/
theorem phaseByte_eq (p : Option Phase) :
    (p.map Phase.code).getD 0 = if p = some .mergedWrite then 1 else 0 := by
  rcases p with _ | _ | _ <;> rfl

/-- Settles O38: the frame leaves the queue as it was, and the command takes its head, whose bytes are its fields,
zero where ABSENT (R157, R180). -/
theorem faultPopTakesTheOldest : Obligations.FaultPopTakesTheOldest := by
  unfold Obligations.FaultPopTakesTheOldest
  intro be bit s takes
  constructor
  · intro empty
    rw [exec_faultPop s takes, faultPop_empty _ (by rwa [State.setMiso_faults]), State.respond_setMiso]
  · intro r rest queue address
    rw [exec_faultPop s takes, faultPop_head _ (by rwa [State.setMiso_faults]), FaultRecord.bytes,
      faultFlags_eq, dirCode_eq, addressNumber_eq, phaseByte_eq]
    rfl

end Sys2Proof.Machine
end

section
/-!
CERTIFICATE. FETCH (R169): the bytes of a response (R168), and the buffer after a complete and after a short frame.
-/

namespace Sys2Proof.Machine

/-- Every status code leaves the top bit to PRIOR_DISCARDED (R168). -/
theorem status_code_lt (status : LinkStatus) : status.code.toNat < 2 ^ 7 := by cases status <;> decide

/-- Status with PRIOR_DISCARDED on top, length, payload, and the CRC of them all (R168). -/
theorem response_bytes_eq (r : LinkResponse) :
    let head : List Byte :=
      [ BitVec.ofNat 8 (r.status.code.toNat + if r.priorDiscarded then 128 else 0)
      , BitVec.ofNat 8 r.payload.length ]
    r.bytes = head ++ r.payload ++ [crc8 (head ++ r.payload)] := by
  have status := ofNat_or_bitByte r.priorDiscarded 7 128 rfl (status_code_lt r.status)
  rw [BitVec.ofNat_toNat, BitVec.setWidth_eq] at status
  rw [LinkResponse.bytes, status]
  rfl

/-- With nothing pending FETCH carries NO_RESPONSE, without a payload (R169). -/
theorem noResponse_bytes : noResponse.bytes = [0x0A, 0x00, 0x82] := by decide +kernel

/-- What SPI_MISO carries in a FETCH frame: 0xFF during the code byte, the bytes fetched, and 0xFF behind them. -/
def fetchCarries (clocked : Nat) (bytes : List Byte) : List Byte :=
  0xFF :: (bytes ++ List.replicate clocked 0xFF).take clocked

/-- With nothing pending, emptying the buffer changes nothing. -/
theorem setMiso_of_idle (s : State) (idle : s.link.response = none) (bytes : List Byte) :
    s.setMiso bytes = { s with link := { s.link with response := none, miso := bytes } } := by
  rw [State.setMiso, ← idle]

section
variable (s : State) (clocked : Nat) (takes : s.TakesFrames)
include takes

/-- A FETCH frame of at least the response's bytes and its code byte empties the buffer. -/
theorem exec_fetch_complete
    (complete : 5 + (s.link.response.getD noResponse).payload.length ≤ 1 + clocked) :
    exec (.fetch clocked) s =
      .next
        { s with
          link :=
            { s.link with
              response := none
              miso := fetchCarries clocked (s.link.response.getD noResponse).bytes } } := by
  have taken := Bool.eq_false_iff.1 (s.ignoresFrame_iff.2 takes)
  exact (if_neg taken).trans (if_pos complete)

/-- A shorter one leaves it. -/
theorem exec_fetch_short (short : 1 + clocked < 5 + (s.link.response.getD noResponse).payload.length) :
    exec (.fetch clocked) s =
      .next (s.setMiso (fetchCarries clocked (s.link.response.getD noResponse).bytes)) := by
  have taken := Bool.eq_false_iff.1 (s.ignoresFrame_iff.2 takes)
  exact (if_neg taken).trans (if_neg short.not_ge)

/-- With nothing pending a FETCH frame of any length leaves the buffer empty. -/
theorem exec_fetch_idle (idle : s.link.response = none) :
    exec (.fetch clocked) s = .next (s.setMiso (fetchCarries clocked noResponse.bytes)) := by
  by_cases complete : 5 + (s.link.response.getD noResponse).payload.length ≤ 1 + clocked
  · rw [exec_fetch_complete s clocked takes complete, setMiso_of_idle s idle, idle, Option.getD_none]
  · rw [exec_fetch_short s clocked takes (Nat.lt_of_not_ge complete), idle, Option.getD_none]

end

/-- Settles O40: what is carried is the pending response, or NO_RESPONSE, and the frame's length decides whether the
buffer is emptied (R168, R169). -/
theorem fetchShiftsOutTheResponse : Obligations.FetchShiftsOutTheResponse := by
  intro s clocked takes carry
  constructor
  · intro idle
    rw [exec_fetch_idle s clocked takes idle, noResponse_bytes]
    rfl
  · intro r pending head bytes
    have carried : (s.link.response.getD noResponse).bytes = bytes := by
      rw [pending, Option.getD_some]
      exact response_bytes_eq r
    constructor
    · intro complete
      rw [exec_fetch_complete s clocked takes (by rwa [pending]), carried]
      rfl
    · intro short
      rw [exec_fetch_short s clocked takes (by rwa [pending]), carried]
      rfl

end Sys2Proof.Machine
end

section
/-!
CERTIFICATE. ALERT_N (R160 to R163) and the blocks held at power-on by RESET_N (R24) through every change of state.
-/

namespace Sys2Proof.Machine

open State

/-! ## The alert line -/

/-- The line and its sources as they were: it follows them still. -/
theorem AlertFollows_congr {s t : State} (h : s.AlertFollows) (line : t.alertLow = s.alertLow)
    (reset : t.resetAsserted = s.resetAsserted) (faults : t.faults = s.faults) (queue : t.stats.queue = s.stats.queue)
    (mask : t.link.mask = s.link.mask) (orphan : t.HasOrphan ↔ s.HasOrphan) : t.AlertFollows := by
  rw [AlertFollows, line, reset, faults, queue, mask, orphan]
  exact h

/-- A released line follows its sources in reset (R163). -/
theorem AlertFollows_of_reset {s : State} (line : s.alertLow = false) (reset : s.resetAsserted = true) :
    s.AlertFollows := by
  simp [AlertFollows, line, reset]

/-- A counted edge makes no tag ORPHANED and ends no orphan. -/
theorem elapse_hasOrphan (s : State) (n : Nat) : (s.elapse n).HasOrphan ↔ s.HasOrphan := by
  have tag (k : Tag) (o : Orphan) : (s.elapse n).port.tags[k] = .orphaned o ↔ s.port.tags[k] = .orphaned o := by
    rw [elapse_get]
    split
    case h_1 _ _ flying => rw [flying]; simp
    case h_2 => rfl
  simp only [HasOrphan, tag]

theorem releaseReset_alert (s : State) (midFrame : Bool) (h : s.AlertFollows) :
    (s.releaseReset midFrame).AlertFollows := by
  unfold releaseReset
  split
  case isTrue => exact refreshAlert_follows _
  case isFalse => exact h

/-- Every change of state recomputes the line, or leaves the line, its sources and the mask as they were. -/
theorem move_alert {s t : State} (hm : s.Move t) (h : s.AlertFollows) : t.AlertFollows := by
  cases hm with
  | same => exact h
  | assertReset => exact AlertFollows_of_reset rfl rfl
  | releaseReset midFrame => exact releaseReset_alert s midFrame h
  | pulseReset midFrame => exact releaseReset_alert _ midFrame (AlertFollows_of_reset rfl rfl)
  | link l hl => exact AlertFollows_congr h rfl rfl rfl rfl hl.1 Iff.rfl
  | staging l table released hl => exact AlertFollows_congr h rfl rfl rfl rfl hl.1 Iff.rfl
  | arrive | retire | accepted | stray | late | response | expiry | mask | commit | summaryPop | faultPop | purge
    | softReset => exact refreshAlert_follows _

/-- Settles O53: the queue of commands is no source, a counted edge keeps every source, and so do all changes that do
not recompute the line. -/
theorem stepKeepsTheAlertLine : Obligations.StepKeepsTheAlertLine := by
  intro s t h step
  refine step_keeps AlertFollows (fun s rest h => ?queue) (fun s h => ?edge) (fun _ _ => move_alert) s t h step
  case queue => exact AlertFollows_congr h rfl rfl rfl rfl rfl Iff.rfl
  case edge => exact AlertFollows_congr h rfl rfl rfl rfl rfl (elapse_hasOrphan s 1)

/-! ## The blocks in reset -/

theorem settle_resetAsserted (s : State) : (settle s).resetAsserted = s.resetAsserted := by
  obtain ⟨-, reset, -⟩ := settle_unmoved s
  exact reset

theorem accept_resetAsserted (s : State) (n : EntryNo) (r : Request) :
    (accept s n r).resetAsserted = s.resetAsserted := by
  obtain ⟨q, -, accepted⟩ := accept_eq s n r
  rw [accepted]

theorem drain_resetAsserted (k : Nat) (s : State) : (drainRequests k s).resetAsserted = s.resetAsserted :=
  drain_keeps (fun t => t.resetAsserted = s.resetAsserted)
    (fun u n r rest h _ _ _ => by rw [settle_resetAsserted, accept_resetAsserted]; exact h) k s rfl

theorem endEntry_resetAsserted (s : State) (e : Entry) (k : Tag) (ts : TagState) (st : TxStatus)
    (d : Option (List RBeat)) : (s.endEntry e k ts st d).resetAsserted = s.resetAsserted := by
  rw [endEntry_eq]

theorem mergeOldData_resetAsserted (s : State) (e : Entry) (r : Run) (k : Tag) (d : List RBeat) :
    (s.mergeOldData e r k d).resetAsserted = s.resetAsserted := by
  unfold mergeOldData
  split
  case h_1 => rfl
  case h_2 => split <;> rfl

/-- A response to an entry's transaction does nothing without a run, brings a merge's old data, or ends the
transaction, well or in an error. -/
theorem takeResponse_cases (s : State) (e : Entry) (k : Tag) (kind : Dir) (st : DownStatus) (d : List RBeat) :
    s.takeResponse e k kind st d = s ∨ (∃ r, s.takeResponse e k kind st d = s.mergeOldData e r k d) ∨
      (∃ returned, s.takeResponse e k kind st d = s.endEntry e k .free .done returned) ∨
        ∃ r dir, s.takeResponse e k kind st d = s.endInError e r k dir := by
  cases run : e.run with
  | none => exact .inl (by simp only [takeResponse, run])
  | some r =>
    cases kind with
    | write =>
      cases st with
      | ok => exact .inr (.inr (.inl ⟨none, by simp only [takeResponse, run]⟩))
      | error => exact .inr (.inr (.inr ⟨r, .write, by simp only [takeResponse, run]⟩))
    | read =>
      cases st with
      | error => exact .inr (.inr (.inr ⟨r, .read, by simp only [takeResponse, run]⟩))
      | ok =>
        by_cases whole : d.length = r.count
        · by_cases merge : e.merge = true
          · exact .inr (.inl ⟨r, by simp only [takeResponse, run, whole, merge, if_true]⟩)
          · exact .inr (.inr (.inl ⟨some d, by simp only [takeResponse, run, whole, merge, if_true]; rfl⟩))
        · exact .inr (.inr (.inr ⟨r, .read, by simp only [takeResponse, run, whole, if_false]⟩))

theorem takeResponse_resetAsserted (s : State) (e : Entry) (k : Tag) (kind : Dir) (st : DownStatus) (d : List RBeat) :
    (s.takeResponse e k kind st d).resetAsserted = s.resetAsserted := by
  obtain same | ⟨r, merged⟩ | ⟨returned, ended⟩ | ⟨r, dir, failed⟩ := takeResponse_cases s e k kind st d
  · rw [same]
  · rw [merged, mergeOldData_resetAsserted]
  · rw [ended, endEntry_resetAsserted]
  · rw [failed, endInError, post_resetAsserted, endEntry_resetAsserted]

theorem expire_resetAsserted (s : State) (e : Entry) (r : Run) (k : Tag) (kind : Dir) :
    (s.expire e r k kind).resetAsserted = s.resetAsserted :=
  endEntry_resetAsserted s e k (.orphaned (orphanOf e r kind)) .fault none

theorem retire_resetAsserted (s : State) (e : Entry) : (s.retire e).resetAsserted = s.resetAsserted := by
  obtain ⟨-, -, -, -, -, counted⟩ := countRetired_fields (s.release e.no) e.bound
  rw [retire, refreshAlert_resetAsserted, drain_resetAsserted, settle_resetAsserted, setOffer_resetAsserted, counted,
    release_resetAsserted]

theorem advanceGeneration_resetAsserted (s : State) : s.advanceGeneration.resetAsserted = s.resetAsserted := by
  unfold advanceGeneration
  split <;> rfl

theorem purgeTag_resetAsserted (s : State) (k : Tag) : (purgeTag s k).resetAsserted = s.resetAsserted := by
  unfold purgeTag
  split <;> rfl

theorem purge_resetAsserted (l : List Tag) (s : State) : (l.foldl purgeTag s).resetAsserted = s.resetAsserted := by
  induction l generalizing s with
  | nil => rfl
  | cons k l ih => rw [List.foldl_cons, ih, purgeTag_resetAsserted]

theorem offerNext_resetAsserted (s : State) : (offerNext s).resetAsserted = s.resetAsserted := by
  obtain ⟨-, reset, -⟩ := offerNext_unmoved s
  exact reset

theorem releaseReset_resetAsserted (s : State) (midFrame : Bool) : (s.releaseReset midFrame).resetAsserted = false := by
  unfold releaseReset
  split
  case isTrue => rw [refreshAlert_resetAsserted, drain_resetAsserted]
  case isFalse released => exact Bool.eq_false_iff.2 released

/-- With RESET_N released nothing is said of the blocks. -/
theorem ResetHeld_of_released {s : State} (h : s.resetAsserted = false) : s.ResetHeld :=
  fun asserted => absurd (asserted.symm.trans h) (by decide)

namespace State.ResetHeld

variable {s : State} (h : s.ResetHeld) (asserted : s.resetAsserted = true)
include h asserted

theorem offer_none : s.table.offer = none := by rw [h asserted]; rfl

theorem channel_none : s.port.channel = none := by rw [h asserted]; rfl

theorem tag_free (k : Tag) : s.port.tags[k] = .free := by
  have free : ∀ k : Tag, State.reset.port.tags[k] = .free := by decide
  rw [h asserted]
  exact free k

/-- In reset an edge finds no deadline to count. -/
theorem elapse_eq (n : Nat) : s.elapse n = s := by
  refine eq_of_tags (s := s) (p' := s.port.tags) fun k => ?_
  rw [mapStore_get, h.tag_free asserted k]
  rfl

/-- A request that arrives in reset waits, and nothing else changes (R44). -/
theorem arrive_eq (q : Request) : s.arrive q = { s with requests := s.requests ++ [q] } := by
  rw [arrive, drain_idle 16 { s with requests := s.requests ++ [q] } (.inr (.inl asserted))]
  refine refreshAlert_of_follows _ (AlertFollows_of_reset ?_ asserted)
  rw [h asserted]
  rfl

end State.ResetHeld

/-- The blocks are held when a change that keeps RESET_N as it is touches, in reset, only what may change there. -/
theorem ResetHeld_of_same {s t : State} (h : s.ResetHeld) (same : t.resetAsserted = s.resetAsserted)
    (held : s.resetAsserted = true →
      t = { s with
        pending := t.pending, requests := t.requests
        link := { s.link with cut := t.link.cut, miso := t.link.miso } }) : t.ResetHeld := by
  intro asserted
  have before : s.resetAsserted = true := same ▸ asserted
  have shape := held before
  rw [h before] at shape
  exact shape

/-- A change that RESET_N does not allow says nothing of the blocks in reset. -/
theorem ResetHeld_of_impossible {s t : State} (same : t.resetAsserted = s.resetAsserted)
    (impossible : s.resetAsserted ≠ true) : t.ResetHeld :=
  ResetHeld_of_released (same.trans (Bool.eq_false_iff.2 impossible))

/-- A change happens with RESET_N released, or in reset touches only the link's bytes and mark and the requests. -/
theorem move_reset {s t : State} (hm : s.Move t) (h : s.ResetHeld) : t.ResetHeld := by
  cases hm with
  | same => exact h
  | arrive q =>
    refine ResetHeld_of_same h (by rw [arrive, refreshAlert_resetAsserted, drain_resetAsserted]) fun asserted => ?_
    rw [h.arrive_eq asserted]
  | retire o e offered =>
    refine ResetHeld_of_impossible (retire_resetAsserted s e) fun asserted => ?_
    rw [h.offer_none asserted] at offered
    cases offered
  | accepted d presented =>
    refine ResetHeld_of_impossible (settle_resetAsserted _) fun asserted => ?_
    rw [h.channel_none asserted] at presented
    cases presented
  | stray kind k released => exact ResetHeld_of_released released
  | late k o released => exact ResetHeld_of_released ((settle_resetAsserted _).trans released)
  | response k n fl e status data released =>
    exact ResetHeld_of_released
      ((settle_resetAsserted _).trans ((takeResponse_resetAsserted s e k _ _ _).trans released))
  | expiry k n fl e r flying =>
    refine ResetHeld_of_impossible ((settle_resetAsserted _).trans (expire_resetAsserted s e r k _)) fun asserted => ?_
    rw [h.tag_free asserted] at flying
    cases flying
  | assertReset midFrame => exact fun _ => rfl
  | releaseReset midFrame => exact ResetHeld_of_released (releaseReset_resetAsserted s midFrame)
  | pulseReset midFrame => exact ResetHeld_of_released (releaseReset_resetAsserted _ midFrame)
  | link l hl => exact ResetHeld_of_same h rfl fun asserted => by rw [← hl.2 asserted]
  | staging l table released => exact ResetHeld_of_released released
  | mask l released => exact ResetHeld_of_released released
  | commit l released => exact ResetHeld_of_released ((advanceGeneration_resetAsserted s).trans released)
  | summaryPop l r q released => exact ResetHeld_of_released released
  | faultPop l r q released => exact ResetHeld_of_released released
  | purge b p released =>
    refine ResetHeld_of_released ?_
    rw [refreshAlert_resetAsserted, respond_resetAsserted, settle_resetAsserted, purge_resetAsserted,
      setMiso_resetAsserted, released]
  | softReset b released =>
    refine ResetHeld_of_released ?_
    rw [refreshAlert_resetAsserted, respond_resetAsserted, offerNext_resetAsserted]
    exact released

/-- Settles O54: neither the queue of commands nor a counted edge touches a block in reset, nor does any change. -/
theorem stepKeepsTheReset : Obligations.StepKeepsTheReset := by
  intro s t h step
  refine step_keeps ResetHeld (fun s rest h => ?queue) (fun s h => ?edge) (fun _ _ => move_reset) s t h step
  case queue => exact ResetHeld_of_same h rfl fun _ => rfl
  case edge => exact ResetHeld_of_same h rfl fun asserted => by rw [h.elapse_eq asserted 1]

end Sys2Proof.Machine
end

section
/-!
CERTIFICATE. The banks with their statistics records, and the two queues, through every change of state (R22, R37,
R141, R147, R153): a change leaves the banks and records as they were, closes the RETIRING generation, makes a new
one, takes a summary, or puts all of them back to power-on.
-/

namespace Sys2Proof.Machine

open State

/-! ## What a change does to the banks -/

theorem empty_firstFailure : WindowTable.empty.firstFailure = none := by decide

theorem reset_generations : State.reset.GenerationsSound :=
  ⟨empty_firstFailure, fun _ none => (by cases none), fun _ none => (by cases none), rfl, rfl⟩

/-- After a change the banks and records are as before, those of a close or of a commit, shorter by the oldest
summary, or those of power-on. -/
inductive State.BanksMove (s t : State) : Prop where
  | same (h : SameGens s t)
  | closed (retiring : ∃ b, s.gens.retiring = some b) (h : SameGens s.closeRetiring t)
  | advanced (settled : s.gens.retiring = none) (valid : s.gens.staging.firstFailure = none)
      (h : SameGens s.advanceGeneration t)
  | staged (table : WindowTable) (h : SameGens (s.setStaging table) t)
  | popped (r : StatsRecord) (q : List StatsRecord) (queue : s.stats.queue = r :: q)
      (h : SameGens (s.setStats { s.stats with queue := q }) t)
  | reset (h : SameGens State.reset t)

theorem SameGens.queue {s t : State} (h : SameGens s t) : t.stats.queue = s.stats.queue := by
  obtain ⟨-, -, -, queue⟩ := h
  exact queue

theorem releaseReset_sameGens (s : State) (midFrame : Bool) : SameGens s (s.releaseReset midFrame) := by
  unfold releaseReset
  split
  case isTrue =>
    exact SameGens.trans (t := { s.cutFrame midFrame with resetAsserted := false }) ⟨rfl, rfl, rfl, rfl⟩
      (drain_sameGens 16 _)
  case isFalse => exact .refl s

theorem settle_sameGens (s : State) : SameGens s (settle s) := Unmoved.sameGens (settle_unmoved s)

theorem move_banks {s t : State} (hm : s.Move t) : s.BanksMove t := by
  cases hm with
  | same => exact .same (.refl s)
  | arrive q =>
    exact .same (SameGens.trans (t := { s with requests := s.requests ++ [q] }) ⟨rfl, rfl, rfl, rfl⟩
      (drain_sameGens 16 _))
  | retire o e =>
    rcases retire_gens s e with same | ⟨retiring, closed⟩
    · exact .same same
    · exact .closed retiring closed
  | accepted d => exact .same (settle_sameGens { s with port := { s.port with channel := none } })
  | stray => exact .same ⟨rfl, rfl, rfl, rfl⟩
  | late k o => exact .same (settle_sameGens ((s.setTag k .free).post (orphanRecord .orphanLate o k)))
  | response k n fl e status data =>
    exact .same ((takeResponse_sameGens s e k fl.kind status data).trans (settle_sameGens _))
  | expiry k n fl e r => exact .same ((expire_sameGens s e r k fl.kind).trans (settle_sameGens _))
  | assertReset => exact .reset ⟨rfl, rfl, rfl, rfl⟩
  | releaseReset midFrame => exact .same (releaseReset_sameGens s midFrame)
  | pulseReset midFrame =>
    exact .reset
      (SameGens.trans (t := s.assertReset midFrame) ⟨rfl, rfl, rfl, rfl⟩ (releaseReset_sameGens _ midFrame))
  | link => exact .same ⟨rfl, rfl, rfl, rfl⟩
  | staging l table => exact .staged table ⟨rfl, rfl, rfl, rfl⟩
  | mask => exact .same ⟨rfl, rfl, rfl, rfl⟩
  | commit l released settled valid => exact .advanced settled valid ⟨rfl, rfl, rfl, rfl⟩
  | summaryPop l r q released queue => exact .popped r q queue ⟨rfl, rfl, rfl, rfl⟩
  | faultPop => exact .same ⟨rfl, rfl, rfl, rfl⟩
  | purge b p =>
    exact .same ((purge_sameGens Config.sixteen (s.setMiso b)).trans
      ((settle_sameGens _).trans (answer_sameGens _ .ok p)))
  | softReset b =>
    exact .reset (SameGens.trans (t := (s.setMiso b).softResetBlocks) ⟨rfl, rfl, rfl, rfl⟩
      ((Unmoved.sameGens (offerNext_unmoved _)).trans (answer_sameGens _ .ok [])))

/-! ## Generations -/

theorem advanceGeneration_generations (s : State) (h : s.GenerationsSound)
    (valid : s.gens.staging.firstFailure = none) : s.advanceGeneration.GenerationsSound := by
  unfold advanceGeneration
  split
  case isTrue => exact closeRetiring_gens _ (transferBanks_gens s h valid)
  case isFalse => exact transferBanks_gens s h valid

theorem move_generations {s t : State} (hm : s.Move t) (h : s.GenerationsSound) : t.GenerationsSound := by
  cases move_banks hm with
  | same same => exact GenerationsSound_congr h same
  | closed _ closed => exact GenerationsSound_congr (closeRetiring_gens s h) closed
  | advanced _ valid advanced => exact GenerationsSound_congr (advanceGeneration_generations s h valid) advanced
  | staged table staged =>
    exact GenerationsSound_congr (s := s.setStaging table)
      ⟨h.activeValid, h.retiringValid, h.retiringNumber, h.activeRecord, h.retiringRecord⟩ staged
  | popped r q _ popped =>
    exact GenerationsSound_congr (s := s.setStats { s.stats with queue := q })
      ⟨h.activeValid, h.retiringValid, h.retiringNumber, h.activeRecord, h.retiringRecord⟩ popped
  | reset reset => exact GenerationsSound_congr reset_generations reset

/-- Settles O55: the banks and records do not depend on the queue of commands or the deadlines, and every change leaves
banks and records that belong together. -/
theorem stepKeepsTheGenerations : Obligations.StepKeepsTheGenerations := by
  intro s t h step
  refine
    step_keeps GenerationsSound (fun s rest h => ?queue) (fun s h => ?edge) (fun _ _ => move_generations) s t h step
  case queue => exact GenerationsSound_congr h ⟨rfl, rfl, rfl, rfl⟩
  case edge => exact GenerationsSound_congr h ⟨rfl, rfl, rfl, rfl⟩

/-! ## The summary queue -/

theorem reset_summaries : State.reset.SummariesConsecutive := trivial

theorem advanceGeneration_consecutive (s : State) (generations : s.GenerationsSound) (h : s.SummariesConsecutive)
    (settled : s.gens.retiring = none) (valid : s.gens.staging.firstFailure = none) :
    s.advanceGeneration.SummariesConsecutive := by
  have transferred := transferBanks_consecutive s h settled
  unfold advanceGeneration
  split
  case isTrue => exact closeRetiring_consecutive _ (transferBanks_gens s generations valid) transferred ⟨_, rfl⟩
  case isFalse => exact transferred

theorem move_summaries {s t : State} (hm : s.Move t) (generations : s.GenerationsSound)
    (h : s.SummariesConsecutive) : t.SummariesConsecutive := by
  cases move_banks hm with
  | same same => exact SummariesConsecutive_congr h same
  | closed retiring closed =>
    exact SummariesConsecutive_congr (closeRetiring_consecutive s generations h retiring) closed
  | advanced settled valid advanced =>
    exact SummariesConsecutive_congr (advanceGeneration_consecutive s generations h settled valid) advanced
  | staged table staged => exact SummariesConsecutive_congr (s := s.setStaging table) h staged
  | popped r q queue popped =>
    refine SummariesConsecutive_congr (s := s.setStats { s.stats with queue := q }) ?_ popped
    rw [SummariesConsecutive, queue] at h
    exact consecutive_tail h
  | reset reset => exact SummariesConsecutive_congr reset_summaries reset

theorem advanceGeneration_queue (s : State) (h : s.stats.queue.length ≤ 4) :
    s.advanceGeneration.stats.queue.length ≤ 4 := by
  unfold advanceGeneration
  split
  case isTrue => exact closeRetiring_bounded _ h
  case isFalse => exact h

theorem move_summaryQueue {s t : State} (hm : s.Move t) (h : s.stats.queue.length ≤ 4) :
    t.stats.queue.length ≤ 4 := by
  cases move_banks hm with
  | same same => rwa [same.queue]
  | closed _ closed => exact closed.queue ▸ closeRetiring_bounded s h
  | advanced _ _ advanced => exact advanced.queue ▸ advanceGeneration_queue s h
  | staged table staged => rwa [staged.queue]
  | popped r q queue popped =>
    rw [queue, List.length_cons] at h
    rw [popped.queue]
    exact Nat.le_of_succ_le h
  | reset reset => exact reset.queue ▸ Nat.zero_le 4

/-! ## The Fault Queue -/

theorem settle_faults (s : State) : (settle s).faults = s.faults := by
  obtain ⟨-, -, -, -, faults, -⟩ := settle_unmoved s
  exact faults

theorem countRetired_faults (s : State) (bound : Option Gen) : (s.countRetired bound).faults = s.faults := by
  unfold countRetired
  split
  case h_1 => rfl
  case h_2 =>
    split
    case isTrue => rfl
    case isFalse =>
      split
      case h_1 => rfl
      case h_2 =>
        split
        case isTrue => dsimp only; split <;> rfl
        case isFalse => rfl

theorem releaseReset_faults (s : State) (midFrame : Bool) (h : s.faults.length ≤ 8) :
    (s.releaseReset midFrame).faults.length ≤ 8 := by
  unfold releaseReset
  split
  case isTrue => exact drain_faults 16 { s.cutFrame midFrame with resetAsserted := false } h
  case isFalse => exact h

theorem move_faultQueue {s t : State} (hm : s.Move t) (h : s.faults.length ≤ 8) : t.faults.length ≤ 8 := by
  cases hm with
  | same | link | staging | mask => exact h
  | arrive q => exact drain_faults 16 { s with requests := s.requests ++ [q] } h
  | retire o e =>
    refine drain_faults 16 _ ?_
    rwa [settle_faults, setOffer_faults, countRetired_faults, release_faults]
  | accepted d => rwa [refreshAlert_faults, settle_faults]
  | stray => exact postRecord_bounded _ _ h
  | late k o =>
    rw [refreshAlert_faults, settle_faults]
    exact postRecord_bounded _ _ h
  | response k n fl e status data =>
    rw [refreshAlert_faults, settle_faults]
    exact takeResponse_faults s e k fl.kind status data h
  | expiry k n fl e r =>
    rw [refreshAlert_faults, settle_faults, expire, post_faults, endEntry_faults]
    exact postRecord_bounded _ _ h
  | assertReset => exact Nat.zero_le 8
  | releaseReset midFrame => exact releaseReset_faults s midFrame h
  | pulseReset midFrame => exact releaseReset_faults (s.assertReset midFrame) midFrame (Nat.zero_le 8)
  | commit =>
    rw [refreshAlert_faults]
    unfold advanceGeneration
    split <;> exact h
  | summaryPop => exact h
  | faultPop l r q released queue =>
    rw [queue, List.length_cons] at h
    exact Nat.le_of_succ_le h
  | purge b p =>
    rw [refreshAlert_faults, respond_faults, settle_faults]
    exact purge_faults Config.sixteen (s.setMiso b) h
  | softReset b =>
    obtain ⟨-, -, -, -, faults, -⟩ := offerNext_unmoved (s.setMiso b).softResetBlocks
    rw [refreshAlert_faults, respond_faults, faults]
    exact Nat.zero_le 8

/-- What the two queues keep, with the banks that it takes to keep it. -/
def State.QueuesSound (s : State) : Prop := s.GenerationsSound ∧ s.Bounded ∧ s.SummariesConsecutive

theorem move_queues {s t : State} (hm : s.Move t) (h : s.QueuesSound) : t.QueuesSound := by
  obtain ⟨generations, ⟨faults, queue⟩, summaries⟩ := h
  exact ⟨move_generations hm generations, ⟨move_faultQueue hm faults, move_summaryQueue hm queue⟩,
    move_summaries hm generations summaries⟩

/-- The queues and banks as they were. -/
theorem QueuesSound_congr {s t : State} (h : s.QueuesSound) (same : SameGens s t) (faults : t.faults = s.faults) :
    t.QueuesSound := by
  obtain ⟨generations, ⟨few, queue⟩, summaries⟩ := h
  refine ⟨GenerationsSound_congr generations same, ⟨?_, ?_⟩, SummariesConsecutive_congr summaries same⟩
  · rwa [faults]
  · rwa [same.queue]

theorem step_queues (s t : State) (h : s.QueuesSound) (step : step s = .next t) : t.QueuesSound := by
  refine step_keeps QueuesSound (fun s rest h => ?queue) (fun s h => ?edge) (fun _ _ => move_queues) s t h step
  case queue => exact QueuesSound_congr h ⟨rfl, rfl, rfl, rfl⟩ rfl
  case edge => exact QueuesSound_congr h ⟨rfl, rfl, rfl, rfl⟩ rfl

/-- Settles O56: with the banks numbered one after the other, every change files the summaries in that order, and no
queue grows past its capacity. -/
theorem stepKeepsTheQueues : Obligations.StepKeepsTheQueues := by
  intro s t generations bounded summaries step
  obtain ⟨-, kept⟩ := step_queues s t ⟨generations, bounded, summaries⟩ step
  exact kept

end Sys2Proof.Machine
end

section
/-!
CERTIFICATE. Entries, tags and merge slots, the order of conflicting entries, the offer, the counts, and that nothing
is left open (R44, R47, R52 to R54, R60 to R63, R85, R86, R119, R121, R127), through every change of state.
-/

namespace Sys2Proof.Machine

open State

/-! ## The table after power-on -/

theorem reset_merge (m : MergeNo) : State.reset.merge[m] = none := by
  revert m; decide

theorem reset_tag (k : Tag) : State.reset.port.tags[k] = .free := by
  revert k; decide

/-- No live entry has none before or after it. -/
theorem reset_entries_ne (older younger : List Entry) (e : Entry) :
    State.reset.table.entries ≠ older ++ e :: younger :=
  (List.append_ne_nil_of_right_ne_nil older (List.cons_ne_nil e younger)).symm

theorem reset_path : State.reset.PathSound where
  distinct := List.nodup_nil
  entries := fun _ live => absurd live List.not_mem_nil
  tags := fun k n fl bound => by rw [reset_tag] at bound; cases bound
  holders := fun _ live => absurd live List.not_mem_nil
  slots := fun m w busy => by rw [reset_merge] at busy; cases busy

theorem reset_table : State.reset.TableSound :=
  ⟨reset_path, fun older e younger split => absurd split (reset_entries_ne older younger e),
    fun _ offered => (by cases offered)⟩

theorem assertReset_table (s : State) (midFrame : Bool) : (s.assertReset midFrame).TableSound :=
  TableSound_congr reset_table rfl rfl rfl rfl

/-! ## Entries, tags, merge slots, order and offer -/

theorem releaseReset_table (s : State) (midFrame : Bool) (h : s.TableSound) : (s.releaseReset midFrame).TableSound := by
  unfold releaseReset
  split
  case isTrue =>
    exact refreshAlert_tableSound _ (drain_table 16 _
      (TableSound_congr (t := { s.cutFrame midFrame with resetAsserted := false }) h rfl rfl rfl rfl))
  case isFalse => exact h

theorem advanceGeneration_requests (s : State) : s.advanceGeneration.requests = s.requests := by
  unfold advanceGeneration
  split <;> rfl

/-- The entries, the offer, the merge slots and the port are not touched by a new generation. -/
theorem advanceGeneration_fields (s : State) :
    s.advanceGeneration.table.entries = s.table.entries ∧ s.advanceGeneration.table.offer = s.table.offer ∧
      s.advanceGeneration.merge = s.merge ∧ s.advanceGeneration.port = s.port := by
  unfold advanceGeneration
  split <;> exact ⟨rfl, rfl, rfl, rfl⟩

theorem move_table {s t : State} (hm : s.Move t) (h : s.TableSound) : t.TableSound := by
  cases hm with
  | same => exact h
  | arrive q =>
    exact refreshAlert_tableSound _ (drain_table 16 _
      (TableSound_congr (t := { s with requests := s.requests ++ [q] }) h rfl rfl rfl rfl))
  | retire o e offered live =>
    exact refreshAlert_tableSound _ (drain_table 16 _ (settle_table _ (retire_pre_table s h o e offered live)))
  | accepted d =>
    exact refreshAlert_tableSound _ (settle_table _
      (TableSound_congr (t := { s with port := { s.port with channel := none } }) h rfl rfl rfl rfl))
  | stray => exact TableSound_congr h rfl rfl rfl rfl
  | late k o _ orphaned =>
    exact refreshAlert_tableSound _
      (settle_table _ (TableSound_congr (freeOrphan_table s k o orphaned h) rfl rfl rfl rfl))
  | response k n fl e status data _ flying live =>
    obtain ⟨member, tag⟩ := holder_of_tag s h.1 k n fl e flying live
    exact refreshAlert_tableSound _ (settle_table _ (takeResponse_table s e k fl.kind status data h member tag))
  | expiry k n fl e r flying live =>
    obtain ⟨member, tag⟩ := holder_of_tag s h.1 k n fl e flying live
    exact refreshAlert_tableSound _ (settle_table _ (expire_table s e r k fl.kind h member tag))
  | assertReset midFrame => exact assertReset_table s midFrame
  | releaseReset midFrame => exact releaseReset_table s midFrame h
  | pulseReset midFrame => exact releaseReset_table _ midFrame (assertReset_table s midFrame)
  | link | staging | mask | summaryPop | faultPop => exact TableSound_congr h rfl rfl rfl rfl
  | commit =>
    obtain ⟨entries, offer, merge, port⟩ := advanceGeneration_fields s
    exact TableSound_congr h entries offer merge (congrArg MemoryPort.tags port)
  | purge b p =>
    exact answer_tableSound _ .ok p (settle_table _ (purge_table Config.sixteen _
      (TableSound_congr (t := s.setMiso b) h rfl rfl rfl rfl)))
  | softReset b =>
    exact answer_tableSound _ .ok [] (offerNext_table _ (softReset_table _
      (TableSound_congr (t := s.setMiso b) h rfl rfl rfl rfl)))

theorem step_table (s t : State) (h : s.TableSound) (step : step s = .next t) : t.TableSound :=
  step_keeps TableSound (fun _ _ h => TableSound_congr h rfl rfl rfl rfl) (fun s => elapse_table s 1)
    (fun _ _ => move_table) s t h step

/-- A sound part has a sound table. -/
theorem State.Sound.table {s : State} (h : s.Sound) : s.TableSound := ⟨h.path, h.order, h.offer⟩

/-- Settles O58: the agreement is kept together with the order and the offer, by every change. -/
theorem stepKeepsThePath : Obligations.StepKeepsThePath := by
  intro s t sound step
  obtain ⟨path, -, -⟩ := step_table s t sound.table step
  exact path

/-- An entry outside HELD has no blockers, so where the order is kept it conflicts with no older entry. -/
theorem conflicts_of_not_held {s : State} (path : s.PathSound) (order : s.OrderKept) {older younger : List Entry}
    {e : Entry} (split : s.table.entries = older ++ e :: younger) (state : e.state ≠ .held) {x : Entry}
    (hx : x ∈ older) : Entry.conflicts e x = false := by
  have member : e ∈ s.table.entries := split ▸ List.mem_append_right older List.mem_cons_self
  have unblocked : e.blockers = [] := by
    by_contra blocked
    exact state ((path.entries e member).held.2 blocked)
  rw [order older e younger split, List.map_eq_nil_iff, List.filter_eq_nil_iff] at unblocked
  exact Bool.eq_false_iff.2 (unblocked x hx)

/-- Settles O59: every change keeps the order, and an entry that does not wait has nothing to wait for. -/
theorem stepKeepsTheOrder : Obligations.StepKeepsTheOrder := by
  intro s t sound step
  obtain ⟨path, order, -⟩ := step_table s t sound.table step
  exact ⟨order, fun older e younger split state x hx => conflicts_of_not_held path order split state hx⟩

/-! ## Counts -/

/-- What the counts keep, with the table and the banks that it takes to keep it. -/
def State.CountsKept (s : State) : Prop := s.TableSound ∧ s.GenerationsSound ∧ s.CountsSound

theorem CountsKept_congr {s t : State} (h : s.CountsKept) (table : t.table = s.table) (gens : SameGens s t)
    (merge : t.merge = s.merge) (tags : t.port.tags = s.port.tags) : t.CountsKept := by
  obtain ⟨sound, generations, counts⟩ := h
  exact ⟨TableSound_congr sound (by rw [table]) (by rw [table]) merge tags, GenerationsSound_congr generations gens,
    same_counts s t counts table gens.1⟩

theorem releaseReset_counts (s : State) (midFrame : Bool) (h : s.CountsKept) :
    (s.releaseReset midFrame).CountsSound := by
  obtain ⟨⟨path, -, -⟩, generations, counts⟩ :=
    CountsKept_congr (t := { s.cutFrame midFrame with resetAsserted := false }) h rfl ⟨rfl, rfl, rfl, rfl⟩ rfl rfl
  unfold releaseReset
  split
  case isTrue => exact refreshAlert_counts _ (drain_counts 16 _ path counts generations)
  case isFalse =>
    obtain ⟨-, -, kept⟩ := h
    exact kept

theorem assertReset_countsKept (s : State) (midFrame : Bool) : (s.assertReset midFrame).CountsKept :=
  ⟨assertReset_table s midFrame, GenerationsSound_congr reset_generations ⟨rfl, rfl, rfl, rfl⟩,
    same_counts _ _ reset_counts rfl rfl⟩

theorem softReset_counts (s : State) : s.softResetBlocks.CountsSound := by
  refine answered_counts _ rfl rfl rfl fun e live => ?_
  obtain ⟨x, -, rfl⟩ := List.mem_map.1 live
  exact ⟨rfl, rfl⟩

theorem offerNext_counts (s : State) (h : s.CountsSound) : (offerNext s).CountsSound := by
  unfold offerNext
  split
  case h_1 => exact h
  case h_2 => exact CountsSound_congr h rfl rfl rfl rfl (stays_same _)

theorem move_counts {s t : State} (hm : s.Move t) (h : s.CountsKept) : t.CountsSound := by
  have before := h
  obtain ⟨table, generations, counts⟩ := before
  have path : s.PathSound := table.1
  cases hm with
  | same => exact counts
  | arrive q =>
    obtain ⟨⟨path, -, -⟩, generations, counts⟩ :=
      CountsKept_congr (t := { s with requests := s.requests ++ [q] }) h rfl ⟨rfl, rfl, rfl, rfl⟩ rfl rfl
    exact refreshAlert_counts _ (drain_counts 16 _ path counts generations)
  | retire o e offered live =>
    obtain ⟨member, -⟩ := offered_entry s table o e offered live
    have retired := retired_counts s e counts generations path member
    obtain ⟨path, -, -⟩ := retire_pre_table s table o e offered live
    have gens : (((s.release e.no).countRetired e.bound).setOffer none).GenerationsSound :=
      GenerationsSound_congr
        (countRetired_gs _ e.bound (GenerationsSound_congr (t := s.release e.no) generations ⟨rfl, rfl, rfl, rfl⟩))
        ⟨rfl, rfl, rfl, rfl⟩
    exact refreshAlert_counts _
      (drain_counts 16 _ (settle_path _ path) (settle_counts _ path retired) (settle_gs _ gens))
  | accepted d =>
    obtain ⟨⟨path, -, -⟩, -, counts⟩ :=
      CountsKept_congr (t := { s with port := { s.port with channel := none } }) h rfl ⟨rfl, rfl, rfl, rfl⟩ rfl rfl
    exact refreshAlert_counts _ (settle_counts _ path counts)
  | stray => exact same_counts s _ counts rfl rfl
  | late k o _ orphaned =>
    obtain ⟨path, -, -⟩ := freeOrphan_table s k o orphaned table
    exact refreshAlert_counts _ (settle_counts _ (path.congr rfl rfl rfl) (same_counts s _ counts rfl rfl))
  | response k n fl e status data _ flying live =>
    obtain ⟨member, tag⟩ := holder_of_tag s path k n fl e flying live
    obtain ⟨after, -, -⟩ := takeResponse_table s e k fl.kind status data table member tag
    exact refreshAlert_counts _ (settle_counts _ after (takeResponse_counts s e k _ status data counts path member))
  | expiry k n fl e r flying live =>
    obtain ⟨member, tag⟩ := holder_of_tag s path k n fl e flying live
    obtain ⟨after, -, -⟩ := expire_table s e r k fl.kind table member tag
    have ended := endEntry_counts s e k (.orphaned (orphanOf e r fl.kind)) .fault none counts path member
    exact refreshAlert_counts _ (settle_counts _ after (same_counts _ _ ended rfl rfl))
  | assertReset midFrame =>
    obtain ⟨-, -, counts⟩ := assertReset_countsKept s midFrame
    exact counts
  | releaseReset midFrame => exact releaseReset_counts s midFrame h
  | pulseReset midFrame => exact releaseReset_counts _ midFrame (assertReset_countsKept s midFrame)
  | link | staging | mask | summaryPop | faultPop => exact CountsSound_congr counts rfl rfl rfl rfl (stays_same _)
  | commit l _ settled => exact same_counts _ _ (commit_counts s counts settled) rfl rfl
  | purge b p =>
    obtain ⟨after, -, -⟩ := purge_table Config.sixteen (s.setMiso b) (TableSound_congr table rfl rfl rfl rfl)
    exact answer_counts _ .ok p
      (settle_counts _ after (purge_counts _ (s.setMiso b) (same_counts s _ counts rfl rfl)))
  | softReset b => exact answer_counts _ .ok [] (offerNext_counts _ (softReset_counts (s.setMiso b)))

/-- Settles O57: the table and the banks are kept along with the counts, which every change counts by. -/
theorem stepKeepsTheCounts : Obligations.StepKeepsTheCounts := by
  intro s t sound step
  have kept := step_keeps CountsKept (fun s rest h => ?queue) (fun s h => ?edge) (fun s t hm h => ?move) s t
    ⟨sound.table, sound.generations, sound.counts⟩ step
  case queue => exact CountsKept_congr h rfl ⟨rfl, rfl, rfl, rfl⟩ rfl rfl
  case edge =>
    obtain ⟨table, generations, counts⟩ := h
    exact ⟨elapse_table s 1 table, GenerationsSound_congr generations ⟨rfl, rfl, rfl, rfl⟩,
      same_counts s _ counts rfl rfl⟩
  case move =>
    obtain ⟨table, generations, -⟩ := id h
    exact ⟨move_table hm table, move_generations hm generations, move_counts hm h⟩
  obtain ⟨-, -, counts⟩ := kept
  exact counts

/-! ## Nothing left open -/

/-- A counted edge leaves the FREE tags as they are. -/
theorem elapse_free (s : State) (n : Nat) (k : Tag) : (s.elapse n).port.tags[k] = .free ↔ s.port.tags[k] = .free := by
  rw [elapse_get]
  split
  case h_1 _ _ flying => rw [flying]; simp
  case h_2 => rfl

/-- What the part has done by itself, with the table that it takes to keep it done. -/
def State.NothingOpen (s : State) : Prop := s.TableSound ∧ s.Quiet ∧ AcceptDone s

/-- Nothing is open after the acceptances of a step, whatever requests waited before. -/
theorem drain_nothingOpen (s : State) (table : s.TableSound) (quiet : s.Quiet) :
    (drainRequests 16 s).refreshAlert.NothingOpen :=
  ⟨refreshAlert_tableSound _ (drain_table 16 s table),
    Quiet_congr (drain_quiet 16 s table.1 quiet) rfl rfl rfl rfl fun _ free => free,
    AcceptDone_congr (drain_accept s table.1) rfl rfl rfl⟩

/-- Nothing is open after `settle` where no request could be accepted. -/
theorem settle_nothingOpen (s : State) (table : s.TableSound) (accepted : AcceptDone s) : (settle s).NothingOpen :=
  ⟨settle_table s table, settle_quiet s table.1, settle_acc s table.1 accepted⟩

/-- A change of nothing that could be left open. -/
theorem NothingOpen_congr {s t : State} (h : s.NothingOpen) (entries : t.table.entries = s.table.entries)
    (offer : t.table.offer = s.table.offer) (merge : t.merge = s.merge) (port : t.port = s.port)
    (requests : t.requests = s.requests) (reset : t.resetAsserted = s.resetAsserted) : t.NothingOpen := by
  obtain ⟨table, quiet, accepted⟩ := h
  refine ⟨TableSound_congr table entries offer merge (by rw [port]), ?_,
    AcceptDone_congr accepted requests reset (by rw [entries])⟩
  exact Quiet_congr quiet entries offer merge (by rw [port]) fun k free => by rwa [port] at free

/-- An answered frame opens nothing. -/
theorem answer_nothingOpen {s : State} (h : s.NothingOpen) (status : LinkStatus) (payload : List Byte) :
    (s.respond status payload).refreshAlert.NothingOpen :=
  NothingOpen_congr h rfl rfl rfl rfl rfl rfl

theorem assertReset_nothingOpen (s : State) (midFrame : Bool) : (s.assertReset midFrame).NothingOpen :=
  ⟨assertReset_table s midFrame, Quiet_congr reset_quiet rfl rfl rfl rfl fun _ free => free, fun _ => .inl rfl⟩

theorem releaseReset_nothingOpen (s : State) (midFrame : Bool) (h : s.NothingOpen) :
    (s.releaseReset midFrame).NothingOpen := by
  unfold releaseReset
  split
  case isTrue =>
    obtain ⟨table, quiet, -⟩ := h
    exact drain_nothingOpen { s.cutFrame midFrame with resetAsserted := false }
      (TableSound_congr table rfl rfl rfl rfl) (Quiet_congr quiet rfl rfl rfl rfl fun _ free => free)
  case isFalse => exact h

/-- A return channel left free has nothing to offer. -/
theorem offerNext_done (s : State) (h : (offerNext s).table.offer = none) :
    oldestDeliverable [] (offerNext s).table.entries = none := by
  by_cases free : s.table.offer = none
  · rw [offerNext_free s free] at h ⊢
    exact Option.map_eq_none_iff.1 h
  · rw [offerNext_busy s free] at h
    exact absurd h free

/-- After a soft reset nothing waits for a grant or a take, and the offer is made at once. -/
theorem offerNext_softReset_quiet (s : State) : (offerNext s.softResetBlocks).Quiet := by
  obtain ⟨entries, merge, -, -⟩ := offerNext_fields s.softResetBlocks
  have complete : ∀ e ∈ (offerNext s.softResetBlocks).table.entries, e.state = .complete := by
    intro e live
    rw [entries] at live
    obtain ⟨x, -, rfl⟩ := List.mem_map.1 live
    rfl
  refine ⟨fun _ e live waiting => ?grant, fun _ => ⟨fun e live issuing => ?forward, fun m w busy => ?merge⟩,
    fun none older e younger split _ => ?offer⟩
  case grant => rw [complete e live] at waiting; cases waiting
  case forward => rw [complete e live] at issuing; cases issuing
  case merge =>
    rw [merge] at busy
    have free : s.softResetBlocks.merge[m] = Option.none := reset_merge m
    rw [free] at busy
    cases busy
  case offer =>
    have nothing := (oldestDeliverable_none _).1 (offerNext_done _ none) older e younger split
    by_contra unseen
    exact nothing ⟨complete e (split ▸ List.mem_append_right older List.mem_cons_self),
      fun x hx same => unseen ⟨x, hx, same⟩⟩

theorem softReset_nothingOpen (s : State) (h : s.NothingOpen) : (offerNext s.softResetBlocks).NothingOpen := by
  obtain ⟨table, -, accepted⟩ := h
  obtain ⟨entries, -, -, -⟩ := offerNext_fields s.softResetBlocks
  obtain ⟨-, reset, requests, -⟩ := offerNext_unmoved s.softResetBlocks
  refine ⟨offerNext_table _ (softReset_table s table), offerNext_softReset_quiet s,
    AcceptDone_congr accepted requests reset ?_⟩
  rw [entries]
  exact List.map_map

theorem move_nothingOpen {s t : State} (hm : s.Move t) (h : s.NothingOpen) : t.NothingOpen := by
  have before := h
  obtain ⟨table, quiet, accepted⟩ := before
  cases hm with
  | same => exact h
  | arrive q =>
    exact drain_nothingOpen { s with requests := s.requests ++ [q] } (TableSound_congr table rfl rfl rfl rfl)
      (Quiet_congr quiet rfl rfl rfl rfl fun _ free => free)
  | retire o e offered live =>
    have released := retire_pre_table s table o e offered live
    exact drain_nothingOpen _ (settle_table _ released) (settle_quiet _ released.1)
  | accepted d =>
    exact NothingOpen_congr (settle_nothingOpen { s with port := { s.port with channel := none } }
      (TableSound_congr table rfl rfl rfl rfl) (AcceptDone_congr accepted rfl rfl rfl)) rfl rfl rfl rfl rfl rfl
  | stray => exact NothingOpen_congr h rfl rfl rfl rfl rfl rfl
  | late k o _ orphaned =>
    exact NothingOpen_congr (settle_nothingOpen ((s.setTag k .free).post (orphanRecord .orphanLate o k))
      (TableSound_congr (freeOrphan_table s k o orphaned table) rfl rfl rfl rfl)
      (AcceptDone_congr accepted rfl rfl rfl)) rfl rfl rfl rfl rfl rfl
  | response k n fl e status data _ flying live =>
    obtain ⟨member, tag⟩ := holder_of_tag s table.1 k n fl e flying live
    exact NothingOpen_congr (settle_nothingOpen _ (takeResponse_table s e k fl.kind status data table member tag)
      (takeResponse_acc s e k _ status data accepted)) rfl rfl rfl rfl rfl rfl
  | expiry k n fl e r flying live =>
    obtain ⟨member, tag⟩ := holder_of_tag s table.1 k n fl e flying live
    exact NothingOpen_congr (settle_nothingOpen _ (expire_table s e r k fl.kind table member tag)
      (expire_acc s e r k _ accepted)) rfl rfl rfl rfl rfl rfl
  | assertReset midFrame => exact assertReset_nothingOpen s midFrame
  | releaseReset midFrame => exact releaseReset_nothingOpen s midFrame h
  | pulseReset midFrame => exact releaseReset_nothingOpen _ midFrame (assertReset_nothingOpen s midFrame)
  | link | staging | mask | summaryPop | faultPop => exact NothingOpen_congr h rfl rfl rfl rfl rfl rfl
  | commit l =>
    obtain ⟨entries, offer, merge, port⟩ := advanceGeneration_fields s
    exact NothingOpen_congr h entries offer merge port
      (advanceGeneration_requests s) (advanceGeneration_resetAsserted s)
  | purge b p =>
    have purged := purge_table Config.sixteen (s.setMiso b) (TableSound_congr table rfl rfl rfl rfl)
    have opened := settle_nothingOpen _ purged
      (purge_acc Config.sixteen (s.setMiso b) (AcceptDone_congr accepted rfl rfl rfl))
    exact answer_nothingOpen opened .ok p
  | softReset b =>
    exact answer_nothingOpen (softReset_nothingOpen (s.setMiso b) (NothingOpen_congr h rfl rfl rfl rfl rfl rfl)) .ok []

/-- Settles O60: every change leaves nothing open where nothing was, a counted edge opens nothing, and no step leaves a
deadline due. -/
theorem stepLeavesNothingOpen : Obligations.StepLeavesNothingOpen := by
  intro s t sound step
  have nothingOpen := step_keeps NothingOpen (fun s rest h => ?queue) (fun s h => ?edge)
    (fun _ _ => move_nothingOpen) s t ⟨sound.table, Settled.quiet sound.settled, sound.settled.accept⟩ step
  case queue => exact NothingOpen_congr h rfl rfl rfl rfl rfl rfl
  case edge =>
    obtain ⟨table, quiet, accepted⟩ := h
    refine
      ⟨elapse_table s 1 table, Quiet_congr quiet rfl rfl rfl rfl fun k => ?_, AcceptDone_congr accepted rfl rfl rfl⟩
    exact (elapse_free s 1 k).1
  obtain ⟨⟨-, -, offer⟩, quiet, accepted⟩ := nothingOpen
  have deadlines := step_noneDue s t sound.table (fun k => sound.settled.expiry k) step
  exact ⟨Settled_of quiet accepted deadlines, offer⟩

end Sys2Proof.Machine
end

section
/-!
CERTIFICATE. SOFT_RESET (R25, R64, R65, R102, R138, R139, R148, R159, R183): the state it leaves with its next offer, an
answered entry, the offer by whether one stood before, and each tag by its state.
-/

namespace Sys2Proof.Machine

open State

/-! ## The state after a soft reset -/

/-- An offer changes nothing but the return channel (R61). -/
theorem offerNext_eq_setOffer (s : State) : offerNext s = s.setOffer (offerNext s).table.offer := by
  unfold offerNext
  split <;> rfl

/-- The blocks reset, the next offer made, and the OK placed after them (R183). -/
theorem softReset_eq (s : State) :
    s.softReset =
      ((s.softResetBlocks.setOffer (offerNext s.softResetBlocks).table.offer).respond .ok []).refreshAlert := by
  rw [← offerNext_eq_setOffer, State.softReset]

/-! ## Answered entries and the offer -/

/-- An answered entry is COMPLETE and FAULT, holds and blocks nothing, and answers zeros (R64). -/
theorem answered_eq (e : Entry) :
    e.answered =
      { e with
        status := .fault
        bound := none
        run := none
        span := none
        blockers := []
        tag := none
        slot := none
        state := .complete
        rdata :=
          if e.dir = .read ∧ 1 ≤ e.beats ∧ e.beats ≤ 16 then List.replicate e.beats (List.replicate 8 0)
          else [] } := by
  rw [Entry.answered, zeroData_eq]

/-- The response of an answered entry (R45, R64). -/
theorem answered_response (e : Entry) :
    e.answered.response =
      { dir := e.dir
        id := e.id
        status := .fault
        data :=
          if e.dir = .read ∧ 1 ≤ e.beats ∧ e.beats ≤ 16 then List.replicate e.beats (List.replicate 8 0)
          else [] } := by
  cases dir : e.dir <;> simp [Entry.response, answered_eq, dir]

/-- Where every entry is COMPLETE the oldest is deliverable (R60, R61). -/
theorem oldestDeliverable_of_complete (l : List Entry) (h : ∀ e ∈ l, e.state = .complete) :
    oldestDeliverable [] l = l.head? := by
  cases l with
  | nil => rfl
  | cons e l =>
    have first : deliverable [] e = true := (deliverable_iff [] e).2 ⟨h e List.mem_cons_self, by simp⟩
    rw [oldestDeliverable, if_pos first, List.head?_cons]

/-- A standing offer is replaced by the same entry's response as the reset leaves it (R65). -/
theorem softReset_offer_kept {s : State} {o : Offer} {e : Entry} (offered : s.table.offer = some o)
    (live : s.entry? o.entry = some e) :
    (offerNext s.softResetBlocks).table.offer = some { entry := o.entry, response := e.answered.response } := by
  have kept : s.softResetBlocks.table.offer = some { entry := o.entry, response := e.answered.response } := by
    simp only [softResetBlocks, offered, Option.map_some, answeredOffer, live]
  rw [offerNext_busy _ (by rw [kept]; exact Option.some_ne_none _), kept]

/-- A free return channel offers the oldest answered entry's response (R61). -/
theorem softReset_offer_new {s : State} (free : s.table.offer = none) :
    (offerNext s.softResetBlocks).table.offer =
      (s.table.entries.map Entry.answered).head?.map fun e => { entry := e.no, response := e.response } := by
  have still : s.softResetBlocks.table.offer = none := by simp only [softResetBlocks, free, Option.map_none]
  have complete : ∀ e ∈ s.table.entries.map Entry.answered, e.state = .complete := by
    intro e he
    obtain ⟨x, -, rfl⟩ := List.mem_map.1 he
    rfl
  rw [offerNext_free _ still, setOffer_table_offer, ← oldestDeliverable_of_complete _ complete]
  rfl

/-- Settles O6: the frame's bytes do not reach the blocks, so the state is that of the reset blocks with their next
offer and the response, and each field is read off it. -/
theorem softResetAnswersEveryEntry : Obligations.SoftResetAnswersEveryEntry := by
  intro s takes
  refine ⟨_, exec_softReset s takes, ?entries, ?active, ?retiring, ?offerKept, ?offerNew, ?gens, ?stats, ?merge,
    ?faults,
    ?requests, ?released, ?pending, ?link, ?alert⟩
  all_goals rw [softReset_eq]
  case entries => exact List.map_congr_left fun e _ => answered_eq e
  case offerKept =>
    intro o e offered live
    rw [← answered_response]
    exact softReset_offer_kept (s := s.setMiso (List.replicate 3 0xFF)) offered live
  case offerNew => exact softReset_offer_new (s := s.setMiso (List.replicate 3 0xFF))
  case merge => exact reset_merge
  case released => exact takes.1
  case alert => exact refreshAlert_follows _
  case active | retiring | gens | stats | faults | requests | pending | link => rfl

/-! ## Tags -/

/-- The phase that a record of an entry's transaction carries (R101). -/
theorem phaseOf_eq (e : Entry) (kind : Dir) :
    e.phaseOf kind =
      if e.merge then (if kind = .read then some .oldRead else some .mergedWrite) else none := by
  cases kind <;> rfl

/-- Settles O7: the tags are mapped one by one, and the entry of a transaction in flight is the tag's holder (R138,
R139). -/
theorem softResetTagsByState : Obligations.SoftResetTagsByState := by
  intro s takes path
  refine ⟨_, exec_softReset s takes, ?_⟩
  rw [softReset_eq]
  refine ⟨rfl, rfl, rfl, fun e live => ?entries, reset_merge, rfl, fun k => ?tag⟩
  case entries =>
    obtain ⟨x, -, rfl⟩ := List.mem_map.1 live
    exact ⟨rfl, rfl, rfl⟩
  case tag =>
    have after := mapStore_get (s.setMiso (List.replicate 3 0xFF)).resetTag s.port.tags k
    cases before : s.port.tags[k] with
    | free => exact after.trans (by rw [before]; rfl)
    | orphaned o => exact after.trans (by rw [before]; rfl)
    | bound n fl =>
      cases fl with
      | none => exact after.trans (by rw [before]; rfl)
      | some fl =>
        obtain ⟨e, live, -, -, -, -, r, run⟩ := path.holder before
        have live' : (s.setMiso (List.replicate 3 0xFF)).entry? n = some e := live
        refine ⟨e, r, live, run, after.trans ?_⟩
        rw [before, ← phaseOf_eq]
        simp only [resetTag, live', run]
        rfl

end Sys2Proof.Machine
end

section
/-!
CERTIFICATE. Takes, grants and offers (R54, R60, R61, R86, R121, R125): what each does, and what all that follows inside
a step leaves as it is.
-/

namespace Sys2Proof.Machine

open State

/-! ## Takes -/

/-- Settles O18: the four takes have their equations, and a deadline starts under the timeout in force (R125, R126). -/
theorem takePresentsTheRequest : Obligations.TakePresentsTheRequest := by
  intro s e k r tag run
  dsimp only
  rw [← newDeadline_eq]
  refine ⟨fun read => ?_, fun write => ?_, fun m w phase => ?_, fun m w phase => ?_⟩
  · rw [takePlain_read s e k r tag run read]
    rfl
  · rw [takePlain_write s e k r tag run write]
    rfl
  · rw [takeMerge_read s e k r m w tag run phase]
    rfl
  · rw [takeMerge_write s e k r m w tag run phase]
    rfl

/-! ## Grants -/

theorem canProceed_eq_false_iff (s : State) (e : Entry) :
    s.canProceed e = false ↔ ¬ (e.state = .waiting ∧ (e.merge = true → ∃ m : MergeNo, s.merge[m] = none)) := by
  rw [← Bool.not_eq_true, canProceed_iff]

/-- A merge entry that can proceed finds a FREE merge slot, and the lowest of them (R54). -/
theorem freeMergeSlot_of_canProceed {s : State} {e : Entry} (can : s.canProceed e = true) (merge : e.merge = true) :
    ∃ m, s.freeMergeSlot = some m := by
  obtain ⟨-, slot⟩ := (canProceed_iff s e).1 can
  obtain ⟨m, free⟩ := slot merge
  exact Option.ne_none_iff_exists'.1 fun busy => s.freeMergeSlot_eq_none.1 busy m free

/-- Settles O19: no grant is made only where no tag is FREE or no entry can proceed, and one that is made takes the
lowest tag and merge slot for the oldest that can (R54, R86). -/
theorem grantGoesToTheOldestThatCanProceed : Obligations.GrantGoesToTheOldestThatCanProceed := by
  intro s
  dsimp only
  refine ⟨?none, fun t granted => ?some⟩
  case none => simp only [grantOne_none, freeTag_eq_none, canProceed_eq_false_iff]
  case some =>
    obtain ⟨k, older, e, younger, lowest, split, can, others, rfl⟩ := (grantOne_iff s t).1 granted
    obtain ⟨free, below⟩ := (s.freeTag_eq_some k).1 lowest
    refine ⟨older, e, younger, k, split, (canProceed_iff s e).1 can,
      fun x hx => (canProceed_eq_false_iff s x).1 (others x hx), free, below, fun plain => ?plain,
      fun merge => ?merge⟩
    case plain =>
      rw [grantTo_plain s e k plain]
      rfl
    case merge =>
      obtain ⟨m, slot⟩ := freeMergeSlot_of_canProceed can merge
      obtain ⟨vacant, first⟩ := (s.freeMergeSlot_eq_some m).1 slot
      refine ⟨m, vacant, first, ?_⟩
      rw [grantTo_merge s e k m merge slot]
      rfl

/-! ## What follows inside a step -/

theorem grants_of_none {s : State} (h : grantOne s = none) (n : Nat) : grants n s = s := by
  cases n with
  | zero => rfl
  | succ n => rw [grants, h]

theorem grants_of_some {s u : State} (h : grantOne s = some u) (n : Nat) :
    grants (n + 1) s = grants n (arbitrate u) := by
  rw [grants, h]

/-- A free return channel offers the oldest deliverable response (R61). -/
theorem offerNext_oldest {s : State} (free : s.table.offer = none) {older younger : List Entry} {e : Entry}
    (split : s.table.entries = older ++ e :: younger)
    (deliverable : e.state = .complete ∧ ∀ x ∈ older, x.id ≠ e.id)
    (first : ∀ as x bs, older = as ++ x :: bs → ¬ (x.state = .complete ∧ ∀ y ∈ as, y.id ≠ x.id)) :
    offerNext s = s.setOffer (some { entry := e.no, response := e.response }) := by
  have oldest := (oldestDeliverable_iff s.table.entries e).2 ⟨older, younger, split, deliverable, first⟩
  rw [offerNext_free s free, oldest, Option.map_some]

/-- With nothing to deliver a free return channel stays free. -/
theorem offerNext_nothing {s : State} (free : s.table.offer = none)
    (nothing : ∀ older e younger, s.table.entries = older ++ e :: younger →
      ¬ (e.state = .complete ∧ ∀ x ∈ older, x.id ≠ e.id)) : offerNext s = s := by
  rw [offerNext_free s free, (oldestDeliverable_none s.table.entries).2 nothing, Option.map_none, ← free]
  rfl

/-- A presented request and a standing offer stay through what follows inside a step. -/
def State.ChannelsKept (s t : State) : Prop :=
  (s.port.channel ≠ none → t.port.channel = s.port.channel) ∧
    (s.table.offer ≠ none → t.table.offer = s.table.offer)

theorem State.ChannelsKept.trans {s t u : State} (h : s.ChannelsKept t) (h' : t.ChannelsKept u) : s.ChannelsKept u := by
  obtain ⟨channel, offer⟩ := h
  obtain ⟨channel', offer'⟩ := h'
  refine ⟨fun busy => ?_, fun busy => ?_⟩
  · rw [channel' (by rwa [channel busy]), channel busy]
  · rw [offer' (by rwa [offer busy]), offer busy]

theorem takePlain_offer (s : State) (e : Entry) : (takePlain s e).table.offer = s.table.offer := by
  unfold takePlain
  split
  case h_1 => split <;> rfl
  case h_2 | h_3 => rfl

theorem takeMerge_offer (s : State) (e : Entry) (m : MergeNo) (w : MergeWork) :
    (takeMerge s e m w).table.offer = s.table.offer := by
  unfold takeMerge
  split
  case h_1 => split <;> rfl
  case h_2 | h_3 => rfl

/-- A grant touches neither channel. -/
theorem grantTo_channels (s : State) (e : Entry) (k : Tag) :
    (grantTo s e k).port.channel = s.port.channel ∧ (grantTo s e k).table.offer = s.table.offer := by
  unfold grantTo
  split
  case isTrue => split <;> exact ⟨rfl, rfl⟩
  case isFalse => exact ⟨rfl, rfl⟩

theorem settle_channels (s : State) : s.ChannelsKept (settle s) := by
  refine settle_keeps_of s.ChannelsKept (fun u e h free _ => ?plain) (fun u e m w h free _ => ?merge)
    (fun u t h granted => ?grant) (fun u h => ?offer) s ⟨fun _ => rfl, fun _ => rfl⟩
  case plain => exact h.trans ⟨fun busy => absurd free busy, fun _ => takePlain_offer u e⟩
  case merge => exact h.trans ⟨fun busy => absurd free busy, fun _ => takeMerge_offer u e m w⟩
  case grant =>
    obtain ⟨k, -, e, -, -, -, -, -, rfl⟩ := (grantOne_iff u t).1 granted
    obtain ⟨channel, offer⟩ := grantTo_channels u e k
    exact h.trans ⟨fun _ => channel, fun _ => offer⟩
  case offer =>
    obtain ⟨-, -, port, -⟩ := offerNext_fields u
    exact h.trans ⟨fun _ => congrArg MemoryPort.channel port, fun busy => by rw [offerNext_busy u busy]⟩

/-- Settles O20: the order is that of the definition, the offer goes to the oldest deliverable entry, and every take,
grant and offer keeps what is listed (R54, R61, R121). -/
theorem settlingLeavesTheRest : Obligations.SettlingLeavesTheRest := by
  refine ⟨fun s => ⟨rfl, fun n h => grants_of_none h n, fun n u h => grants_of_some h n, fun path => ?done,
    offerNext_busy s, ?offer⟩, fun s => ?rest⟩
  case done =>
    obtain ⟨nothing, -, -⟩ := settle_done s path
    exact nothing
  case offer =>
    intro deliverable free
    exact ⟨fun older e younger split can first => offerNext_oldest free split can first, offerNext_nothing free⟩
  case rest =>
    intro t
    obtain
      ⟨pending, reset, requests, gens, faults, link, line, queue, active, retiring, activeCount, retiringCount⟩ :=
      settle_unmoved s
    obtain ⟨channel, offer⟩ := settle_channels s
    refine ⟨pending, reset, requests, gens, faults, link, line, queue, active, retiring, activeCount, retiringCount,
      channel, offer, fun path => ?_⟩
    have kept := settle_kept s path
    exact ⟨kept.tags, kept.entries.imp fun x y advanced => ⟨advanced.1, advanced.2.1⟩⟩

/-! ## The request accepted by the memory side -/

/-- Settles O21: the channel is freed and the arbiter chooses at once; with nothing to take, to grant or to offer
that is all (R121). -/
theorem acceptedDownRequestFreesTheChannel : Obligations.AcceptedDownRequestFreesTheChannel := by
  refine ⟨fun s free => ?idle, ?presented⟩
  case idle => simp only [exec, execDownRequestAccepted, free]
  case presented =>
    intro s d presented freed
    have accepted : exec .downRequestAccepted s = .next (settle freed).refreshAlert := by
      simp only [exec, execDownRequestAccepted, presented, freed]
    refine ⟨accepted, fun forward merge grant offered => ?_⟩
    rw [accepted, settle_idle freed forward merge grant, offerNext_busy freed offered]

end Sys2Proof.Machine
end

section
/-!
CERTIFICATE. RETIREMENT (R53, R62, R63): the counts by the bound generation, the close with the last entry bound to it
(R41), and the acceptance of the request that waits (R44).
-/

namespace Sys2Proof.Machine

open State

/-! ## The counts -/

section
variable (s : State)

theorem countRetired_none : s.countRetired none = s := rfl

theorem countRetired_active :
    s.countRetired (some s.gens.active.number) =
      { s with table := { s.table with activeCount := s.table.activeCount - 1 } } := if_pos rfl

variable {s} {b : Bank} (retiring : s.gens.retiring = some b) (other : b.number ≠ s.gens.active.number)
include retiring other

/-- While others are bound to it the RETIRING generation only counts one entry less (R40). -/
theorem countRetired_counted (more : 2 ≤ s.table.retiringCount) :
    s.countRetired (some b.number) =
      { s with table := { s.table with retiringCount := s.table.retiringCount - 1 } } := by
  have left : ¬ s.table.retiringCount - 1 = 0 := by omega
  simp only [countRetired, retiring, if_neg other, if_true, if_neg left]

/-- With the last entry bound to it the RETIRING generation closes (R41). -/
theorem countRetired_closed (last : s.table.retiringCount = 1) :
    s.countRetired (some b.number) =
      State.closeRetiring { s with table := { s.table with retiringCount := 0 } } := by
  simp only [countRetired, retiring, if_neg other, last, if_true, Nat.sub_self]

end

/-! ## The retirement of the entry on offer -/

section
variable {s : State} {o : Offer} {e : Entry} (offered : s.table.offer = some o) (live : s.entry? o.entry = some e)
include offered live

theorem exec_retirement : exec .retirement s = .next (s.retire e) := by
  simp only [exec, execRetirement, offered, live]

/-- With no request waiting the entry is released and counted, and the part settles. -/
theorem exec_retirement_alone (quiet : s.requests = []) :
    exec .retirement s =
      .next (settle (((s.release e.no).countRetired e.bound).setOffer none)).refreshAlert := by
  obtain ⟨-, -, -, -, waiting, -⟩ := countRetired_fields (s.release e.no) e.bound
  obtain ⟨-, -, requests, -⟩ := settle_unmoved (((s.release e.no).countRetired e.bound).setOffer none)
  rw [exec_retirement offered live, retire, drain_idle 16 _ (.inl ?_)]
  rw [requests, setOffer_requests, waiting, release_requests, quiet]

end

/-- Settles O14: the count that falls is that of the generation the entry is bound to (R63). -/
theorem retirementFreesTheEntry : Obligations.RetirementFreesTheEntry := by
  refine ⟨fun s free => by simp only [exec, execRetirement, free], fun s o e offered live quiet bound => ?_⟩
  dsimp only
  rw [exec_retirement_alone offered live quiet]
  by_cases active : e.bound = some s.gens.active.number
  · simp only [active, true_or, if_true]
    rw [← release_gens s e.no, countRetired_active]
    rfl
  · rcases bound with bound | bound | ⟨⟨b, retiring, bound⟩, more⟩
    · exact absurd bound active
    · rw [bound, countRetired_none]
      simp only [reduceCtorEq, false_or, if_true, if_false]
      rfl
    · have other : b.number ≠ s.gens.active.number := fun same => active (by rw [bound, same])
      rw [bound, countRetired_counted (s := s.release e.no) retiring other more]
      rw [bound] at active
      simp only [active, reduceCtorEq, or_self, if_false]
      rfl

/-- Settles O15: the last entry's retirement closes the generation before the part settles (R41, R62). -/
theorem lastRetirementClosesTheGeneration : Obligations.LastRetirementClosesTheGeneration := by
  intro s o e b record offered live quiet retiring bound other last open'
  dsimp only
  rw [exec_retirement_alone offered live quiet, bound, countRetired_closed (s := s.release e.no) retiring other last]
  simp only [closeRetiring, release_stats, open']
  rfl

/-! ## The request that waits -/

/-- The youngest entry before takes and grants is the youngest after them. -/
theorem Advanced_concat {l l' : List Entry} {x : Entry} (h : List.Forall₂ Entry.Advanced (l ++ [x]) l') :
    ∃ older y, l' = older ++ [y] ∧ x.Advanced y ∧ List.Forall₂ Entry.Advanced l older := by
  obtain ⟨older, y, younger, rfl, advanced, olders⟩ := Advanced_join h rfl
  have whole := h.length_eq
  have front := olders.length_eq
  have none : younger = [] := by
    rw [List.length_append, List.length_append, List.length_singleton, List.length_cons, front] at whole
    exact List.length_eq_zero_iff.1 (by omega)
  exact ⟨older, y, by rw [none], advanced, olders⟩

/-- A retirement frees one number. -/
theorem release_nos (s : State) (n : EntryNo) :
    (s.release n).table.entries.map Entry.no =
      (s.table.entries.filter (fun x => decide (x.no ≠ n))).map Entry.no := by
  rw [release_table_entries, List.map_map]
  rfl

theorem countRetired_gens_active (s : State) (bound : Option Gen) :
    (s.countRetired bound).gens.active = s.gens.active := by
  rcases countRetired_gens s bound with same | ⟨-, closed⟩
  · rw [same.1]
  · rw [closed.1, closeRetiring_gens_active]

/-- Where all sixteen numbers were live but one, that one is free. -/
theorem freeEntry_of_nos {s : State} {n : EntryNo} (h : ∀ k, (∃ e ∈ s.table.entries, e.no = k) ↔ k ≠ n) :
    s.freeEntry = some n :=
  (s.freeEntry_eq_some n).2 ⟨fun e live same => (h n).1 ⟨e, live, same⟩ rfl, fun k below => (h k).2 below.ne⟩

/-- The acceptance of the one request that the last free entry takes ends the acceptances of a step. -/
theorem drain_last {s : State} {n : EntryNo} {q : Request} {rest : List Request} (path : s.PathSound)
    (released : s.resetAsserted = false) (waiting : s.requests = q :: rest)
    (h : ∀ k, (∃ e ∈ s.table.entries, e.no = k) ↔ k ≠ n) :
    drainRequests 16 s = settle (accept { s with requests := rest } n q) := by
  have free := freeEntry_of_nos h
  obtain ⟨-, -, -, nos⟩ := drain_step s n q rest path free
  have full : (settle (accept { s with requests := rest } n q)).freeEntry = none := by
    rw [freeEntry_eq_none]
    intro k
    rw [← List.mem_map, nos, List.mem_append, List.mem_map, List.mem_singleton, h]
    exact (em (k = n)).symm
  have first : drainRequests 16 s = drainRequests 15 (settle (accept { s with requests := rest } n q)) := by
    rw [drainRequests]
    simp only [waiting, released, free, Bool.false_eq_true, if_false]
  rw [first, drain_idle 15 _ (.inr (.inr full))]

/-- Settles O16: in a sound part a request waits only while all entries are live, so the retired entry's number is the
only free one and the request takes it (R44, R62). -/
theorem retirementAcceptsTheWaitingRequest : Obligations.RetirementAcceptsTheWaitingRequest := by
  intro s o e q rest sound offered live waiting
  have released : s.resetAsserted = false := by
    by_contra asserted
    rw [sound.reset.offer_none (Bool.eq_true_of_not_eq_false asserted)] at offered
    cases offered
  have all : ∀ n, ∃ x ∈ s.table.entries, x.no = n :=
    (sound.settled.accept (by rw [waiting]; exact List.cons_ne_nil q rest)).resolve_left (by rw [released]; decide)
  let freed := ((s.release e.no).countRetired e.bound).setOffer none
  obtain ⟨path, -, -⟩ : freed.TableSound := retire_pre_table s sound.table o e offered live
  obtain ⟨entries, -, -, -, requests, reset⟩ := countRetired_fields (s.release e.no) e.bound
  obtain ⟨-, reset', requests', gens, -⟩ := settle_unmoved freed
  have nos : (settle freed).table.entries.map Entry.no =
      (s.table.entries.filter (fun x => decide (x.no ≠ e.no))).map Entry.no := by
    rw [Advanced_nos (settle_kept freed path).entries, setOffer_table_entries, entries, release_nos]
  have active : (settle freed).gens.active = s.gens.active := by
    rw [gens, setOffer_gens, countRetired_gens_active, release_gens]
  have others : ∀ k, (∃ x ∈ (settle freed).table.entries, x.no = k) ↔ k ≠ e.no := by
    intro k
    rw [← List.mem_map, nos, List.mem_map]
    simp only [List.mem_filter, decide_eq_true_eq]
    constructor
    · rintro ⟨x, ⟨-, other⟩, rfl⟩
      exact other
    · intro other
      obtain ⟨x, member, rfl⟩ := all k
      exact ⟨x, ⟨member, other⟩, rfl⟩
  have drained := drain_last (settle_path freed path) (reset'.trans (reset.trans released))
    (requests'.trans (requests.trans waiting)) others
  let before : State := { settle freed with requests := rest }
  obtain ⟨faults, -, accepted⟩ := accept_eq before e.no q
  have acceptedPath : (accept before e.no q).PathSound :=
    accept_path before e.no q ((settle_path freed path).congr rfl rfl rfl) (freeEntry_of_nos others)
  have settled := (settle_kept _ acceptedPath).entries
  rw [accepted] at settled
  obtain ⟨older, entry, split, ⟨advanced, -⟩, olders⟩ := Advanced_concat settled
  obtain ⟨no, id, dir, addr, beats, bound, -⟩ := acceptedEntry_fields before e.no q
  obtain ⟨-, -, requests'', gens', -⟩ := settle_unmoved (accept before e.no q)
  refine ⟨s.retire e, older, entry, exec_retirement offered live, ?_⟩
  rw [retire, drained, refreshAlert_requests, refreshAlert_table, refreshAlert_gens, requests'', gens', accepted, split,
    advanced]
  refine ⟨rfl, rfl, no, id, dir, addr, beats, bound.trans ?_, active, ?_⟩
  · rw [active]
  · rw [Advanced_nos olders, nos]

end Sys2Proof.Machine
end

section
/-!
CERTIFICATE. The end of a transaction at the memory port (R56 to R58, R88, R89, R98 to R101, R128 to R134): by its
response, of a plain entry and of a merge, and by the expiry of its deadline.
-/

namespace Sys2Proof.Machine

open State

/-! ## Records and data -/

/-- A run has a first beat, so its first claim is the claim of that beat (R17). -/
theorem runClaims_head? (e : Entry) (r : Run) : (e.runClaims r).head? = (e.claims.getD [])[r.first]? := by
  rw [Entry.runClaims, List.head?_take, if_neg (by simp [Run.count]), List.head?_drop, Entry.claimList]

/-- The slot of a record is the first BLEND beat's for a merge entry, and the run's first beat's else (R101, R134). -/
theorem recordSlot_eq (t : WindowTable) (e : Entry) (r : Run) :
    e.recordSlot t r =
      if e.merge = true then
        (e.runClaims r).findSome? (fun c => if (t.treatment c).isBlend = true then c.slot? else none)
      else ((e.claims.getD [])[r.first]?).bind Claim.slot? := by
  rw [Entry.recordSlot, runClaims_head?]

/-- A READ's buffer is filled when it completes, a WRITE has none (R59). -/
theorem completionData_eq (t : WindowTable) (e : Entry) (returned : Option (List RBeat)) :
    completionData t e returned = if e.dir = .read then readBuffer t e returned else e.rdata := by
  cases dir : e.dir <;> simp [completionData, dir]

theorem completionData_read {e : Entry} (read : e.dir = .read) (t : WindowTable) (returned : Option (List RBeat)) :
    completionData t e returned = readBuffer t e returned := by
  rw [completionData_eq, if_pos read]

theorem completionData_write {e : Entry} (write : e.dir = .write) (t : WindowTable) (returned : Option (List RBeat)) :
    completionData t e returned = e.rdata := by
  rw [completionData_eq, if_neg (by rw [write]; decide)]

/-! ## The response that a transaction awaits -/

section
variable {s : State} {e : Entry} {r : Run} (run : e.run = some r) (k : Tag)
include run

theorem takeResponse_read_plain {data : List RBeat} (whole : data.length = r.count) (plain : e.merge = false) :
    s.takeResponse e k .read .ok data = s.endEntry e k .free .done (some data) := by
  simp only [takeResponse, run, whole, plain, if_true, Bool.false_eq_true, if_false]

theorem takeResponse_read_merge {data : List RBeat} (whole : data.length = r.count) (merge : e.merge = true) :
    s.takeResponse e k .read .ok data = s.mergeOldData e r k data := by
  simp only [takeResponse, run, whole, merge, if_true]

/-- An OK read of the wrong beat count counts as an ERROR (R130). -/
theorem takeResponse_read_wrong {data : List RBeat} (wrong : data.length ≠ r.count) :
    s.takeResponse e k .read .ok data = s.endInError e r k .read := by
  simp only [takeResponse, run, wrong, if_false]

theorem takeResponse_read_error (data : List RBeat) :
    s.takeResponse e k .read .error data = s.endInError e r k .read := by
  simp only [takeResponse, run]

theorem takeResponse_write_ok (data : List RBeat) :
    s.takeResponse e k .write .ok data = s.endEntry e k .free .done none := by
  simp only [takeResponse, run]

theorem takeResponse_write_error (data : List RBeat) :
    s.takeResponse e k .write .error data = s.endInError e r k .write := by
  simp only [takeResponse, run]

end

/-- A response of the kind in flight is taken by the tag's entry (R128). -/
theorem respondDown_awaited {s : State} {k : Tag} {n : EntryNo} {fl : Flight} {e : Entry} {kind : Dir}
    (released : s.resetAsserted = false) (flying : s.port.tags[k] = .bound n (some fl)) (same : fl.kind = kind)
    (live : s.entry? n = some e) (status : DownStatus) (data : List RBeat) :
    s.respondDown kind k status data = (settle (s.takeResponse e k kind status data)).refreshAlert := by
  simp [respondDown, released, flying, same, live]

/-- Settles O22: the five responses of a plain entry each end its transaction, whole or in an error (R56, R57, R130). -/
theorem responseCompletesAPlainEntry : Obligations.ResponseCompletesAPlainEntry := by
  intro s k n deadline e r data released flying live run plain slot table ended record failed
  have ends (st : TxStatus) (d : Option (List RBeat)) :
      s.endEntry e k .free st d = ended (e.status.raise st) (completionData table e d) := by
    rw [endEntry_eq, slot]
    rfl
  have fails (kind : Dir) : s.endInError e r k kind = failed (ended .fault (completionData table e none)) := by
    rw [endInError, ends, raise_fault, transactionRecord, recordSlot_eq, phaseOf_eq, plain]
    rfl
  have answered (kind : Dir) (same : e.dir = kind) (status : DownStatus) (d : List RBeat) :=
    respondDown_awaited (kind := kind) released flying same live status d
  refine ⟨fun read => ⟨fun whole => ?ok, fun wrong => ?wrong, ?error⟩, fun write => ⟨?done, ?failed⟩⟩
  case ok =>
    rw [exec_downReadReturn, answered .read read, takeResponse_read_plain run k whole plain, ends, raise_done,
      completionData_read read]
  case wrong =>
    rw [exec_downReadReturn, answered .read read, takeResponse_read_wrong run k wrong, fails,
      completionData_read read]
  case error =>
    rw [exec_downReadReturn, answered .read read, takeResponse_read_error run k, fails, completionData_read read]
  case done =>
    rw [exec_downWriteReturn, answered .write write, takeResponse_write_ok run k, ends, raise_done,
      completionData_write write]
  case failed =>
    rw [exec_downWriteReturn, answered .write write, takeResponse_write_error run k, fails, completionData_write write]

/-- Settles O23: the whole old data builds the merged write, and each of the four other responses ends the merge, in
the phase of the transaction that it answers (R88, R89, R98, R101). -/
theorem responseMovesAMergeOn : Obligations.ResponseMovesAMergeOn := by
  intro s k n deadline e r m w data released live run merge write slot work table inFlight built ended failed
  have ends (st : TxStatus) (d : Option (List RBeat)) : s.endEntry e k .free st d = ended (e.status.raise st) := by
    rw [endEntry_eq, slot, completionData_write write]
    rfl
  have fails (kind : Dir) :
      s.endInError e r k kind = failed (if kind = .read then .oldRead else .mergedWrite) := by
    rw [endInError, ends, raise_fault, transactionRecord, recordSlot_eq, phaseOf_eq, merge, write]
    cases kind <;> rfl
  have moves : s.mergeOldData e r k data = built := by
    simp only [mergeOldData, slot, work]
    rfl
  have answered (kind : Dir) (flying : inFlight kind) (status : DownStatus) (d : List RBeat) :=
    respondDown_awaited released flying rfl live status d
  refine ⟨fun flying => ⟨fun whole => ?built, fun wrong => ?wrong, ?error⟩, fun flying => ⟨?done, ?failed⟩⟩
  case built =>
    rw [exec_downReadReturn, answered .read flying, takeResponse_read_merge run k whole merge, moves]
  case wrong =>
    rw [exec_downReadReturn, answered .read flying, takeResponse_read_wrong run k wrong, fails, if_pos rfl]
  case error =>
    rw [exec_downReadReturn, answered .read flying, takeResponse_read_error run k, fails, if_pos rfl]
  case done =>
    rw [exec_downWriteReturn, answered .write flying, takeResponse_write_ok run k, ends, raise_done]
  case failed =>
    rw [exec_downWriteReturn, answered .write flying, takeResponse_write_error run k, fails, if_neg (by decide)]

/-! ## The expiry of a deadline -/

/-- The deadlines that are due, by the tags' states (R127). -/
theorem dueTags_eq (s : State) :
    s.dueTags =
      Config.sixteen.filter (fun k =>
        match s.port.tags[k] with
        | .bound _ (some fl) => decide (fl.deadline = some 0)
        | .bound _ none => false
        | .orphaned _ => false
        | .free => false) := by
  refine List.filter_congr fun k _ => ?_
  cases s.port.tags[k] with
  | free | orphaned => rfl
  | bound n fl => cases fl <;> rfl

/-- The expiry of a transaction in flight gives its entry up (R129). -/
theorem expireTag_expires {s : State} {k : Tag} {n : EntryNo} {fl : Flight} {e : Entry} {r : Run}
    (flying : s.port.tags[k] = .bound n (some fl)) (live : s.entry? n = some e) (run : e.run = some r) :
    s.expireTag k = (settle (s.expire e r k fl.kind)).refreshAlert := by
  simp only [expireTag, flying, live, run]

/-- An expiry changes nothing, or leaves its tag with no deadline due. -/
theorem expireTag_idle_or_notDue (s : State) (k : Tag) : s.expireTag k = s ∨ (s.expireTag k).NotDue k := by
  cases state : s.port.tags[k] with
  | free | orphaned => exact .inl (by simp only [expireTag, state])
  | bound n fl =>
    cases fl with
    | none => exact .inl (by simp only [expireTag, state])
    | some fl =>
      cases live : s.entry? n with
      | none => exact .inl (by simp only [expireTag, state, live])
      | some e =>
        cases run : e.run with
        | none => exact .inl (by simp only [expireTag, state, live, run])
        | some r =>
          have orphaned : (s.expire e r k fl.kind).NotDue k := by
            intro m other tag
            have set : (s.expire e r k fl.kind).port.tags = s.port.tags.set k (.orphaned (orphanOf e r fl.kind)) :=
              endEntry_tag s e k _ .fault none
            rw [set, store_set_get, if_pos rfl] at tag
            cases tag
          right
          rw [expireTag_expires state live run]
          exact (settle_notDue _ orphaned).congr rfl

/-- Expiries that change nothing one by one change nothing together. -/
theorem expiries_idle {s : State} (l : List Tag) (h : ∀ k ∈ l, s.expireTag k = s) : l.foldl expireTag s = s := by
  induction l with
  | nil => rfl
  | cons k l ih =>
    rw [List.foldl_cons, h k List.mem_cons_self]
    exact ih fun j hj => h j (List.mem_cons_of_mem k hj)

/-- Where no other deadline is due, one expiry leaves none to take. -/
theorem expireDue_of_lone {s : State} {k : Tag} (others : ∀ j, j ≠ k → s.NotDue j) :
    (s.expireTag k).expireDue = s.expireTag k := by
  have after (j : Tag) (other : j ≠ k) : (s.expireTag k).NotDue j := expireTag_notDue s k (others j other)
  rcases expireTag_idle_or_notDue s k with idle | taken
  · refine expiries_idle _ fun j due => ?_
    obtain rfl : j = k := by_contra fun other => mem_dueTags.1 due (after j other)
    rw [idle, idle]
  · exact expireDue_none _ fun j => if same : j = k then same ▸ taken else after j same

/-- The command lets the edges of a running deadline go by, then takes its expiry and every other that is due (log
entry 3). -/
theorem takeExpiry_running {s : State} {k : Tag} {n : EntryNo} {kind : Dir} {edges : Nat}
    (flying : s.port.tags[k] = .bound n (some { kind := kind, deadline := some edges })) :
    s.takeExpiry k = (((State.tick^[edges - 1] s).elapse 1).expireTag k).expireDue := by
  simp only [takeExpiry, flying]

/-- Where every other deadline is further off, the edges only count and this expiry is the only one. -/
theorem takeExpiry_lone {s : State} {k : Tag} {n : EntryNo} {kind : Dir} {edges : Nat} (some_edges : 1 ≤ edges)
    (flying : s.port.tags[k] = .bound n (some { kind := kind, deadline := some edges }))
    (others : ∀ (j : Tag) m fl d,
      j ≠ k → s.port.tags[j] = .bound m (some fl) → fl.deadline = some d → edges < d) :
    s.takeExpiry k = (s.elapse edges).expireTag k := by
  have counted : State.tick^[edges - 1] s = s.elapse (edges - 1) := by
    refine ticks_count (edges - 1) s fun j m fl d tag deadline => ?_
    by_cases same : j = k
    · subst same
      rw [flying] at tag
      obtain ⟨-, rfl⟩ : n = m ∧ { kind := kind, deadline := some edges } = fl := by simpa using tag
      obtain rfl : edges = d := by simpa using deadline
      omega
    · have := others j m fl d same tag deadline
      omega
  have further (j : Tag) (other : j ≠ k) : (s.elapse edges).NotDue j := by
    intro m fl tag due
    rw [elapse_get] at tag
    split at tag
    case h_1 m' fl' before =>
      obtain ⟨-, rfl⟩ : m' = m ∧ { fl' with deadline := fl'.deadline.map (· - edges) } = fl := by simpa using tag
      obtain ⟨d, deadline, zero⟩ := Option.map_eq_some_iff.1 due
      have := others j m' fl' d other before deadline
      omega
    case h_2 not_flying => exact not_flying m fl tag
  rw [takeExpiry_running flying, counted, elapse_elapse, Nat.sub_add_cancel some_edges, expireDue_of_lone further]

/-- Settles O26: what one expiry does is the end of its entry in a timeout; the command is the edges before it and the
expiries beside it (R127, R129, R131). -/
theorem expiryOrphansTheTag : Obligations.ExpiryOrphansTheTag := by
  refine ⟨fun s k idle => ?idle, ?expired, fun s k n kind edges flying => ?running,
    fun s k n kind edges some_edges flying others => ?lone, fun s edges => ⟨rfl, elapse_get s edges⟩⟩
  case idle =>
    have same : s.takeExpiry k = s := by
      unfold takeExpiry
      split
      case h_4 n fl flying =>
        split
        case h_1 => rfl
        case h_2 edges running =>
          obtain ⟨kind, deadline⟩ := fl
          obtain rfl : deadline = some edges := running
          exact absurd flying (idle n kind edges)
      all_goals rfl
    rw [exec, execDeadlineExpiry, same]
  case expired =>
    intro s k n fl e r flying live run table phase expired
    have ended : s.expire e r k fl.kind = expired := by
      rw [expire, endEntry_eq, transactionRecord, recordSlot_eq, orphanOf, phaseOf_eq, Entry.completed, raise_fault,
        completionData_eq]
      rfl
    rw [expireTag_expires flying live run, ended]
  case running =>
    intro lastEdge due taken
    rw [exec, execDeadlineExpiry, takeExpiry_running flying, expireDue, dueTags_eq] <;> rfl
  case lone => rw [exec, execDeadlineExpiry, takeExpiry_lone some_edges flying others]

/-! ## The idle step -/

/-- Settles O3: an idle step counts one edge and takes the expiries it brings; those are the deadlines with at most one
edge left (R127). -/
theorem idleStepCountsOneReferenceEdge : Obligations.IdleStepCountsOneReferenceEdge := by
  intro s empty
  refine ⟨s.elapse 1, rfl, elapse_get s 1, ?_⟩
  intro due
  have same : (s.elapse 1).dueTags = due := by
    refine List.filter_congr fun k _ => ?_
    rw [elapse_port_tags, mapStore_get]
    cases s.port.tags[k] with
    | free | orphaned => rfl
    | bound n fl =>
      cases fl with
      | none => rfl
      | some fl =>
        rcases fl with ⟨kind, _ | deadline⟩
        · simp [TagState.elapse, TagState.due]
        · simp only [TagState.elapse, TagState.due, Option.map_some, Option.some.injEq, decide_eq_decide]
          omega
  have ticked : s.tick = due.foldl expireTag (s.elapse 1) := by rw [← same]; rfl
  have stepped : step s = .next s.tick := by rw [step, empty]
  exact ⟨ticked, stepped, fun none => by rw [stepped, ticked, none, List.foldl_nil]⟩

end Sys2Proof.Machine
end

section
/-!
CERTIFICATE. Command frames that are refused or discarded (R166, R184): wrong argument forms, frames in a reset, and
a COMMIT that is not carried out (R30, R31).
-/

namespace Sys2Proof.Machine

/-! ## COMMIT -/

theorem exec_commit (s : State) (takes : s.TakesFrames) :
    exec (.commit []) s = .next (s.setMiso (List.replicate 3 0xFF)).commit :=
  congrArg Host.Outcome.next (takeFrame_noArguments s State.commit takes)

section
variable {s : State} {bytes : List Byte}

theorem commit_busy (draining : s.gens.retiring ≠ none) :
    (s.setMiso bytes).commit = (s.setMiso bytes).respond .busy [] := by
  obtain ⟨b, retiring⟩ := Option.ne_none_iff_exists'.1 draining
  simp only [State.commit, State.setMiso_gens, retiring]

theorem commit_invalid {place : Option SlotNo} {reason : Reason} (settled : s.gens.retiring = none)
    (fails : s.gens.staging.firstFailure = some (place, reason)) :
    (s.setMiso bytes).commit = (s.setMiso bytes).respond .invalid [locationByte place, reason.code] := by
  simp only [State.commit, State.setMiso_gens, settled, fails]

theorem commit_accepted (settled : s.gens.retiring = none) (valid : s.gens.staging.firstFailure = none) :
    (s.setMiso bytes).commit =
      ((s.setMiso bytes).advanceGeneration.respond .accepted [s.gens.active.number + 1]).refreshAlert := by
  simp only [State.commit, State.setMiso_gens, settled, valid]

theorem advanceGeneration_draining (bound : s.table.activeCount ≠ 0) :
    (s.setMiso bytes).advanceGeneration = (s.setMiso bytes).transferBanks := if_neg bound

theorem advanceGeneration_closed (none_bound : s.table.activeCount = 0) :
    (s.setMiso bytes).advanceGeneration =
      { (s.setMiso bytes).transferBanks.closeRetiring with
        table := { s.table with activeCount := 0, retiringCount := 0 } } := by
  have counts : (s.setMiso bytes).transferBanks.closeRetiring.table =
      { s.table with activeCount := 0, retiringCount := 0 } :=
    congrArg (fun count => { s.table with activeCount := 0, retiringCount := count }) none_bound
  rw [← counts]
  exact if_pos none_bound

end

/-- Settles O28: neither answer touches a bank. -/
theorem commitIsRefusedUnchanged : Obligations.CommitIsRefusedUnchanged := by
  intro s takes
  refine ⟨fun draining => ?busy, fun settled => ⟨fun reason fails => ?global, fun n reason fails => ?slot⟩⟩
  case busy => rw [exec_commit s takes, commit_busy draining, State.respond_setMiso]
  case global => rw [exec_commit s takes, commit_invalid settled fails, State.respond_setMiso, locationByte]
  case slot => rw [exec_commit s takes, commit_invalid settled fails, State.respond_setMiso, locationByte]

theorem openEntry_of_window {t : WindowTable} {e : Fin 16} {n : SlotNo} {w : Window} (names : n.val = e.val)
    (window : t.slots[n] = some w) : t.openEntry e = some (openPart n w.place.mode) := by
  have low : e.val < 8 := names ▸ n.isLt
  obtain rfl : n = ⟨e.val, low⟩ := Fin.ext names
  have found : t.window ⟨e.val, low⟩ = some w := window
  rw [WindowTable.openEntry, dif_pos low, found, Option.map_some]

/-- Settles O29: the transfer of the banks is one step, and with no live entry bound to the old generation it closes
in that step too (R35, R36). -/
theorem commitMakesANewGeneration : Obligations.CommitMakesANewGeneration := by
  intro s takes settled valid
  refine ⟨fun bound => ?draining, fun none_bound => ?closed, fun e n w names window => ?opened⟩
  case draining =>
    rw [exec_commit s takes, commit_accepted settled valid, advanceGeneration_draining bound]
    rfl
  case closed =>
    rw [exec_commit s takes, commit_accepted settled valid, advanceGeneration_closed none_bound]

    rfl
  case opened => exact openEntry_of_window names window

/-! ## Frames of a wrong form -/

/-- Settles O42: check 4 fails before the command is looked at, and check 1 before its arguments are counted. -/
theorem wrongArgumentFormsChangeNothing : Obligations.WrongArgumentFormsChangeNothing := by
  intro s args takes
  refine ⟨fun short => ⟨fun brings => ?none, fun other => ?one⟩, fun long => ?long⟩
  case none =>
    have refused (f : State → State) := congrArg Host.Outcome.next (β := Host.Outcome State Fault Refusal)
      (takeFrame_noArguments_refused s takes f brings short)
    exact ⟨refused _, refused _, refused _, refused _, refused _, refused _, refused _⟩
  case one =>
    have refused (f : Byte → State → State) := congrArg Host.Outcome.next (β := Host.Outcome State Fault Refusal)
      (takeFrame_oneArgument_refused s takes f other short)
    exact ⟨refused _, refused _, refused _, refused _⟩
  case long =>
    have framing (f : State → State) := congrArg Host.Outcome.next (β := Host.Outcome State Fault Refusal)
      (s.takeFrame_long args.length f takes long)
    exact ⟨framing _, framing _, framing _, framing _, framing _, framing _, framing _, framing _, framing _,
      framing _, framing _, framing _⟩

end Sys2Proof.Machine
end

section
/-!
CERTIFICATE. The banks and the link's parameters over the link: read-back (R29, R174), STAGE_WRITE (R2, R26, R173) and
SET_PARAM (R162, R171, R181).
-/

namespace Sys2Proof.Machine

/-! ## Read-back -/

section
variable (t : WindowTable) {b : Byte}

theorem readBack_slot {n : SlotNo} (names : b.toNat = n.val) : readBack t b = some (slotBytes t.slots[n]) := by
  rw [readBack, if_neg (slotOf_ne_all names), slotOf_some names, Option.map_some]

theorem readBack_all : readBack t 0xFF = some t.globalBytes := rfl

theorem readBack_refused (high : 8 ≤ b.toNat) (other : b ≠ 0xFF) : readBack t b = none := by
  rw [readBack, if_neg (toNat_ne_all other), slotOf_none high, Option.map_none]

end

theorem exec_stageRead (s : State) (b : Byte) (takes : s.TakesFrames) :
    exec (.stageRead [b]) s = .next (State.stageRead b (s.setMiso (List.replicate 4 0xFF))) :=
  congrArg Host.Outcome.next (takeFrame_oneArgument s takes State.stageRead b)

theorem exec_activeRead (s : State) (b : Byte) (takes : s.TakesFrames) :
    exec (.activeRead [b]) s = .next (State.activeRead b (s.setMiso (List.replicate 4 0xFF))) :=
  congrArg Host.Outcome.next (takeFrame_oneArgument s takes State.activeRead b)

section
variable {s : State} {b : Byte} {content bytes : List Byte}

theorem stageRead_content (found : readBack s.gens.staging b = some content) :
    State.stageRead b (s.setMiso bytes) = (s.setMiso bytes).respond .ok content := by
  simp only [State.stageRead, State.setMiso_gens, found]

theorem stageRead_refused (missing : readBack s.gens.staging b = none) :
    State.stageRead b (s.setMiso bytes) = (s.setMiso bytes).respond .badArgument [] := by
  simp only [State.stageRead, State.setMiso_gens, missing]

theorem activeRead_content (found : readBack s.gens.active.table b = some content) :
    State.activeRead b (s.setMiso bytes) = (s.setMiso bytes).respond .ok (s.gens.active.number :: content) := by
  simp only [State.activeRead, State.setMiso_gens, found]

theorem activeRead_refused (missing : readBack s.gens.active.table b = none) :
    State.activeRead b (s.setMiso bytes) = (s.setMiso bytes).respond .badArgument [] := by
  simp only [State.activeRead, State.setMiso_gens, missing]

end

/-- Settles O34: the content read back is the slot's groups, each behind its presence byte. -/
theorem readBackReturnsTheBank : Obligations.ReadBackReturnsTheBank := by
  unfold Obligations.ReadBackReturnsTheBank
  intro group content s takes
  have group_eq {α : Type} (bytes : α → List Byte) (v : Option α) :
      presentBytes bytes v = group (v.map bytes) := by
    cases v <;> rfl
  have content_eq (slot : Option Window) : slotBytes slot = content slot := by
    cases slot with
    | none => rfl
    | some w => rw [slotBytes, group_eq, group_eq, group_eq, group_eq, group_eq, group_eq]; rfl
  refine ⟨fun b n names => ⟨?stageSlot, ?activeSlot⟩, ?stageAll, ?activeAll, fun b high other =>
    ⟨?stageRefused, ?activeRefused⟩⟩
  case stageSlot =>
    rw [exec_stageRead s b takes, stageRead_content (readBack_slot _ names), content_eq, State.respond_setMiso]
  case activeSlot =>
    rw [exec_activeRead s b takes, activeRead_content (readBack_slot _ names), content_eq, State.respond_setMiso]
  case stageAll => rw [exec_stageRead s _ takes, stageRead_content (readBack_all _), State.respond_setMiso]
  case activeAll => rw [exec_activeRead s _ takes, activeRead_content (readBack_all _), State.respond_setMiso]
  case stageRefused =>
    rw [exec_stageRead s b takes, stageRead_refused (readBack_refused _ high other), State.respond_setMiso]
  case activeRefused =>
    rw [exec_activeRead s b takes, activeRead_refused (readBack_refused _ high other), State.respond_setMiso]

/-! ## STAGE_WRITE -/

theorem exec_stageWrite (s : State) {args : List Byte} (takes : s.TakesFrames) (short : args.length ≤ 60) :
    exec (.stageWrite args) s = .next ((s.setMiso (List.replicate (3 + args.length) 0xFF)).stageWrite args) :=
  congrArg Host.Outcome.next (s.takeFrame_taken args.length _ takes short)

section
variable {s : State} {args bytes : List Byte}

theorem stageWrite_refused (none_spelled : (parseStageWrite args).bind s.gens.staging.edit = none) :
    (s.setMiso bytes).stageWrite args = (s.setMiso bytes).respond .badArgument [] := by
  simp only [State.stageWrite, State.setMiso_gens, none_spelled]

theorem stageWrite_edited {t : WindowTable} (edited : (parseStageWrite args).bind s.gens.staging.edit = some t) :
    (s.setMiso bytes).stageWrite args = ((s.setMiso bytes).setStaging t).respond .ok [] := by
  simp only [State.stageWrite, State.setMiso_gens, edited]

end

/-- An edit of one slot is the slot's own edit (R2). -/
theorem edit_slot (t : WindowTable) (n : SlotNo) (g : GroupEdit) :
    t.edit (.slot n g) = (editSlot g t.slots[n]).map (t.setSlot n) := rfl

/-- Settles O31: `editSlot` is R2's table, and STAGE_WRITE applies it to one slot of STAGING or replaces the global
record. -/
theorem stageWriteEditsStagingAlone : Obligations.StageWriteEditsStagingAlone := by
  refine ⟨fun _ => rfl, fun _ _ => rfl, rfl, fun _ => rfl, fun _ => ⟨rfl, fun _ => rfl⟩,
    fun _ => ⟨rfl, fun _ => rfl⟩, fun _ => ⟨rfl, fun _ => rfl⟩, fun _ => ⟨rfl, fun _ => rfl⟩,
    fun _ => ⟨rfl, fun _ => rfl⟩, fun s args takes short => ?_⟩
  rw [exec_stageWrite s takes short]
  refine ⟨fun unspelled => ?unspelled, fun n g spelled => ⟨fun refused => ?refused, fun w edited => ?slot⟩,
    fun background layers spelled => ?global⟩
  case unspelled => rw [stageWrite_refused (by rw [unspelled, Option.bind_none]), State.respond_setMiso]
  case refused =>
    rw [stageWrite_refused (by rw [spelled, Option.bind_some, edit_slot, refused, Option.map_none]),
      State.respond_setMiso]
  case slot =>
    rw [stageWrite_edited (by rw [spelled, Option.bind_some, edit_slot, edited, Option.map_some])]
    rfl
  case global =>
    rw [stageWrite_edited (by rw [spelled, Option.bind_some]; rfl)]
    rfl

/-! ## SET_PARAM -/

theorem exec_setParamTimeout (s : State) {value : List Byte} (takes : s.TakesFrames) (short : value.length ≤ 59) :
    exec (.setParamTimeout value) s =
      .next (State.setTimeout value (s.setMiso (List.replicate (4 + value.length) 0xFF))) := by
  have taken := s.takeFrame_taken (value.length + 1) (State.setTimeout value) takes (by omega)
  rw [show 3 + (value.length + 1) = 4 + value.length by omega] at taken
  exact congrArg Host.Outcome.next taken

theorem exec_setParamAlertMask (s : State) {value : List Byte} (takes : s.TakesFrames) (short : value.length ≤ 59) :
    exec (.setParamAlertMask value) s =
      .next (oneArgument value State.setMask (s.setMiso (List.replicate (4 + value.length) 0xFF))) := by
  have taken := s.takeFrame_taken (value.length + 1) (oneArgument value State.setMask) takes (by omega)
  rw [show 3 + (value.length + 1) = 4 + value.length by omega] at taken
  exact congrArg Host.Outcome.next taken

theorem setTimeout_other {value : List Byte} (other : value.length ≠ 2) (s : State) :
    State.setTimeout value s = s.respond .badArgument [] := by
  match value, other with
  | [], _ => rfl
  | [_], _ => rfl
  | _ :: _ :: _ :: _, _ => rfl

/-- Two bytes as a number, the high one first. -/
theorem append_toNat (hi lo : Byte) : (hi ++ lo).toNat = 256 * hi.toNat + lo.toNat := by
  rw [BitVec.toNat_append, ← Nat.shiftLeft_add_eq_or_of_lt lo.isLt, Nat.shiftLeft_eq]
  omega

theorem maskOf_byte (m : AlertMask) : maskOf m.byte = m ∧ m.byte.toNat < 8 := by
  obtain ⟨fault, summary, orphan⟩ := m
  revert fault summary orphan
  decide

theorem setMask_byte (m : AlertMask) (s : State) :
    State.setMask m.byte s = (({ s with link := { s.link with mask := m } } : State).respond .ok []).refreshAlert := by
  obtain ⟨same, low⟩ := maskOf_byte m
  rw [State.setMask, if_pos low, same]

theorem setMask_refused {b : Byte} (high : 8 ≤ b.toNat) (s : State) :
    State.setMask b s = s.respond .badArgument [] := if_neg high.not_gt

/-- Settles O39: the value bytes are judged on their number and, for the mask, on the bits above bit 2. -/
theorem setParamWritesOneParameter : Obligations.SetParamWritesOneParameter := by
  intro s takes
  refine ⟨fun hi lo => ⟨hi ++ lo, append_toNat hi lo, ?timeout⟩, fun value other short => ?timeoutForm,
    fun fault summary orphan => ?mask, fun b high => ?maskBits, fun value other short => ?maskForm⟩
  case timeout =>
    rw [exec_setParamTimeout s takes (Nat.le_of_ble_eq_true rfl)]
    rfl
  case timeoutForm => rw [exec_setParamTimeout s takes short, setTimeout_other other, State.respond_setMiso]
  case mask =>
    rw [exec_setParamAlertMask s takes (Nat.le_of_ble_eq_true rfl), oneArgument_one,
      ← mask_byte_eq { fault := fault, summary := summary, orphan := orphan }, setMask_byte]
    rfl
  case maskBits =>
    rw [exec_setParamAlertMask s takes (Nat.le_of_ble_eq_true rfl), oneArgument_one, setMask_refused high,
      State.respond_setMiso]
    rfl
  case maskForm => rw [exec_setParamAlertMask s takes short, oneArgument_other _ _ other, State.respond_setMiso]

end Sys2Proof.Machine
end

section
/-!
CERTIFICATE. Raw frames of the management link (R164 to R166, R184): which command a frame is, what a rejected one
answers, and what is discarded in a reset.
-/

namespace Sys2Proof.Machine

/-! ## The commands that are command frames -/

/-- The commands that a frame with these argument bytes can be (R185). -/
inductive SpelledBy (args : List Byte) : Instr → Prop
  | query : SpelledBy args (.query args)
  | stageWrite : SpelledBy args (.stageWrite args)
  | stageRead : SpelledBy args (.stageRead args)
  | activeRead : SpelledBy args (.activeRead args)
  | stageClear : SpelledBy args (.stageClear args)
  | stageCopy : SpelledBy args (.stageCopy args)
  | commit : SpelledBy args (.commit args)
  | statsRead : SpelledBy args (.statsRead args)
  | summaryPop : SpelledBy args (.summaryPop args)
  | faultPop : SpelledBy args (.faultPop args)
  | setParamTimeout (value : List Byte) (spelled : args = 0x00 :: value) : SpelledBy args (.setParamTimeout value)
  | setParamAlertMask (value : List Byte) (spelled : args = 0x01 :: value) : SpelledBy args (.setParamAlertMask value)
  | purge : SpelledBy args (.purge args)
  | softReset : SpelledBy args (.softReset args)

theorem spelledBy_of_commandOf {code : Byte} {args : List Byte} {c : Instr} (h : commandOf code args = some c) :
    SpelledBy args c := by
  unfold commandOf at h
  split at h
  case h_11 =>
    match args, h with
    | p :: value, h =>
      dsimp only at h
      split at h
      case h_1 zero =>
        obtain rfl := Option.some.inj h
        exact .setParamTimeout value (congrArg (· :: value) (BitVec.eq_of_toNat_eq zero))
      case h_2 one =>
        obtain rfl := Option.some.inj h
        exact .setParamAlertMask value (congrArg (· :: value) (BitVec.eq_of_toNat_eq one))
      case h_3 => exact absurd h (by simp)
  case h_14 => exact absurd h (by simp)
  all_goals
    obtain rfl := Option.some.inj h
    constructor

/-- A well-formed command that is a frame, and neither FETCH nor a raw frame, is a command frame of a defined code
with at most 60 argument bytes. -/
theorem encodeFrame_command {c : Instr} {bits : List Bool} (wellFormed : c.wellFormed = true)
    (encoded : encodeFrame c = some bits) (fetch : ∀ clocked, c ≠ .fetch clocked)
    (raw : ∀ raw, c ≠ .rejectedFrame raw) :
    ∃ code args, bits = frameBits (commandFrame code args) ∧ knownCode code = true ∧ args.length ≤ 60 ∧
      commandOf code args = some c := by
  cases c with
  | readRequest | writeRequest | retirement | downRequestAccepted | downReadReturn | downWriteReturn | deadlineExpiry
  | powerOnReset => exact absurd encoded (by simp [encodeFrame])
  | fetch clocked => exact absurd rfl (fetch clocked)
  | rejectedFrame frame => exact absurd rfl (raw frame)
  | _ => exact ⟨_, _, (Option.some.inj encoded).symm, rfl, of_decide_eq_true wellFormed, rfl⟩

/-- The frame of a command is read back as that command, whatever bits of an incomplete last byte follow. -/
theorem decodeFrame_encodeFrame {c : Instr} {bits incomplete : List Bool} (wellFormed : c.wellFormed = true)
    (encoded : encodeFrame c = some bits) (raw : ∀ raw, c ≠ .rejectedFrame raw) (short : incomplete.length < 8) :
    decodeFrame (bits ++ incomplete) = some c := by
  by_cases fetch : ∃ clocked, c = .fetch clocked
  · obtain ⟨clocked, rfl⟩ := fetch
    obtain rfl := Option.some.inj encoded
    rw [decodeFrame, wholeBytes_frameBits _ short]
    simp only [if_true, List.length_replicate]
  · obtain ⟨code, args, rfl, known, few, picks⟩ :=
      encodeFrame_command wellFormed encoded (fun clocked same => fetch ⟨clocked, same⟩) raw
    exact decodeFrame_commandFrame code args incomplete c known few short picks

/-! ## Frames that are not carried out -/

/-- A frame that a check rejects stays a raw frame. -/
theorem decodeFrame_of_error {bits : List Bool} {code : Byte} {rest : List Byte} {err : FrameError}
    (whole : wholeBytes bits = code :: rest) (command : code ≠ fetchCode)
    (fails : frameError (code :: rest) = some err) : decodeFrame bits = some (.rejectedFrame bits) := by
  simp only [decodeFrame, whole, if_neg command, fails]

/-- A frame that passes the checks and picks no command stays a raw frame (log entry 9). -/
theorem decodeFrame_of_no_command {bits : List Bool} {code : Byte} {rest : List Byte}
    (whole : wholeBytes bits = code :: rest) (command : code ≠ fetchCode)
    (passes : frameError (code :: rest) = none) (picks : commandOf code rest.tail.dropLast = none) :
    decodeFrame bits = some (.rejectedFrame bits) := by
  simp only [decodeFrame, whole, if_neg command, passes, picks]

theorem exec_rejectedFrame_raw {bits raw : List Bool} (h : decodeFrame bits = some (.rejectedFrame raw)) (s : State) :
    exec (.rejectedFrame bits) s = .next (s.rejectRaw (wholeBytes bits)) := by
  simp only [exec, execRejectedFrame, h]

/-- Bits that spell a command frame are that command. -/
theorem exec_rejectedFrame_command {bits : List Bool} {args : List Byte} {c : Instr} (h : decodeFrame bits = some c)
    (spelled : SpelledBy args c) (s : State) : exec (.rejectedFrame bits) s = exec c s := by
  cases spelled <;> simp only [exec, execRejectedFrame, h]

theorem exec_rejectedFrame_fetch {bits : List Bool} {clocked : Nat} (h : decodeFrame bits = some (.fetch clocked))
    (s : State) : exec (.rejectedFrame bits) s = exec (.fetch clocked) s := by
  simp only [exec, execRejectedFrame, h]

/-- The bits of no whole byte are ignored (R164). -/
theorem exec_rejectedFrame_empty {bits : List Bool} (h : wholeBytes bits = []) (s : State) :
    exec (.rejectedFrame bits) s = .next s.endCut := by
  have undecoded : decodeFrame bits = none := by simp only [decodeFrame, h]
  simp only [exec, execRejectedFrame, undecoded]

/-! ## The first failed check -/

section
variable {frame : List Byte}

theorem frameError_framing (short : frameLengthOk frame = false) : frameError frame = some .framing := by
  simp only [frameError, short, Bool.not_false, if_true]

variable (whole : frameLengthOk frame = true)
include whole

theorem frameError_badCrc (crc : ¬ frame.getLastD 0 = crc8 frame.dropLast) : frameError frame = some .badCrc := by
  simp only [frameError, whole, Bool.not_true, Bool.false_eq_true, if_false, if_pos crc]

variable (crc : frame.getLastD 0 = crc8 frame.dropLast)
include crc

theorem frameError_of_crc :
    frameError frame = if knownCode (frame.headD 0) = true then none else some .unknownCommand := by
  simp only [frameError, whole, Bool.not_true, Bool.false_eq_true, if_false, crc, ne_eq, not_true_eq_false]
  cases knownCode (frame.headD 0) <;> rfl

end

theorem rejectRaw_error {s : State} (takes : s.TakesFrames) {frame : List Byte} {err : FrameError}
    (fails : frameError frame = some err) :
    s.rejectRaw frame = (s.setMiso (List.replicate frame.length 0xFF)).rejectFrame (FrameError.status err) := by
  simp only [State.rejectRaw, (State.ignoresFrame_iff s).2 takes, Bool.false_eq_true, if_false, fails]

theorem rejectRaw_passes {s : State} (takes : s.TakesFrames) {frame : List Byte} (passes : frameError frame = none) :
    s.rejectRaw frame = s.afterFrame frame.length .badArgument [] := by
  simp only [State.rejectRaw, (State.ignoresFrame_iff s).2 takes, Bool.false_eq_true, if_false, passes,
    State.respond_setMiso]

/-- Settles O41: the bits are judged by their whole bytes, and by the first of the checks that they fail. -/
theorem rejectedFrameAnswersItsFirstFailedCheck : Obligations.RejectedFrameAnswersItsFirstFailedCheck := by
  unfold Obligations.RejectedFrameAnswersItsFirstFailedCheck
  intro lengthOk codes shifted s incomplete short
  refine ⟨fun takes => ?empty, fun c bits wellFormed encoded raw => ?command,
    fun code rest takes command => ?checks⟩
  case empty =>
    rw [exec_rejectedFrame_empty (wholeBytes_short short)]
    obtain ⟨-, uncut⟩ := takes
    rw [State.endCut, ← uncut]
  case command =>
    have decoded := decodeFrame_encodeFrame wellFormed encoded raw short
    by_cases fetch : ∃ clocked, c = .fetch clocked
    · obtain ⟨clocked, rfl⟩ := fetch
      exact exec_rejectedFrame_fetch decoded s
    · obtain ⟨code, args, -, -, -, picks⟩ :=
        encodeFrame_command wellFormed encoded (fun clocked same => fetch ⟨clocked, same⟩) raw
      exact exec_rejectedFrame_command decoded (spelledBy_of_commandOf picks) s
  case checks =>
    intro frame crcOk taken rejected
    have whole : wholeBytes (shifted frame incomplete) = frame := wholeBytes_frameBits frame short
    have length : frameLengthOk frame = true ↔ lengthOk frame := frameLengthOk_iff frame
    have rejected_of {err : FrameError} (fails : frameError frame = some err) :
        taken = rejected (FrameError.status err) := by
      refine (exec_rejectedFrame_raw (decodeFrame_of_error whole command fails) s).trans ?_
      rw [whole, rejectRaw_error takes fails]
      rfl
    refine ⟨fun wrong => ?framing, fun right crc => ?crc, fun right crc unknown => ?code,
      fun right crc param undefined => ?param⟩
    case framing =>
      exact rejected_of (frameError_framing (Bool.eq_false_iff.2 fun ok => wrong (length.1 ok)))
    case crc => exact rejected_of (frameError_badCrc (length.2 right) crc)
    case code =>
      refine rejected_of ((frameError_of_crc (length.2 right) crc).trans (if_neg fun known => unknown ?_))
      exact List.contains_iff_mem.1 known
    case param =>
      have passes : frameError frame = none := by
        rw [frameError_of_crc (length.2 right) crc]
        exact if_pos (by rw [List.headD_cons, param]; rfl)
      have picks : commandOf code rest.tail.dropLast = none := (commandOf_none _ _).2 (.inr ⟨param, undefined⟩)
      refine (exec_rejectedFrame_raw (decodeFrame_of_no_command whole command passes picks) s).trans ?_
      rw [whole, rejectRaw_passes takes passes]

/-! ## Frames in a reset -/

section
variable {s : State} (held : s.resetAsserted = true ∨ s.link.cut = true)
include held

theorem ignoresFrame_of_held : s.ignoresFrame = true := by
  rw [State.ignoresFrame, Bool.or_eq_true]
  exact held

theorem exec_spelled_discarded {args : List Byte} {c : Instr} (spelled : SpelledBy args c) :
    exec c s = .next (s.discardFrame (3 + args.length)) := by
  cases spelled with
  | setParamTimeout value spelled | setParamAlertMask value spelled =>
    subst spelled
    exact congrArg Host.Outcome.next (s.takeFrame_discarded _ _ held)
  | _ => exact congrArg Host.Outcome.next (s.takeFrame_discarded _ _ held)

theorem exec_fetch_discarded (clocked : Nat) : exec (.fetch clocked) s = .next (s.discardFrame (1 + clocked)) :=
  if_pos (ignoresFrame_of_held held)

theorem rejectRaw_discarded (frame : List Byte) : s.rejectRaw frame = s.discardFrame frame.length :=
  if_pos (ignoresFrame_of_held held)

end

/-- The argument bytes of a frame that passes check 1. -/
theorem length_of_passes {code : Byte} {rest : List Byte} (passes : frameError (code :: rest) = none) :
    3 + rest.tail.dropLast.length = (code :: rest).length := by
  have whole : frameLengthOk (code :: rest) = true := by
    by_contra wrong
    rw [frameError_framing (Bool.eq_false_iff.2 wrong)] at passes
    cases passes
  obtain ⟨_, n, args, split, some_args, -, -⟩ := (frameLengthOk_iff _).1 whole
  obtain ⟨rfl, rfl⟩ := List.cons.inj split
  have pos : 0 < args.length := List.length_pos_of_ne_nil some_args
  simp only [List.tail_cons, List.length_dropLast, List.length_cons]
  omega

/-- A raw frame of some whole bytes is discarded as the frame it is. -/
theorem exec_rejectedFrame_discarded {s : State} (held : s.resetAsserted = true ∨ s.link.cut = true)
    {bits : List Bool} (some_bytes : wholeBytes bits ≠ []) :
    exec (.rejectedFrame bits) s = .next (s.discardFrame (wholeBytes bits).length) := by
  obtain ⟨code, rest, whole⟩ := List.exists_cons_of_ne_nil some_bytes
  by_cases fetch : code = fetchCode
  · have decoded : decodeFrame bits = some (.fetch rest.length) := by
      simp only [decodeFrame, whole, if_pos fetch]
    rw [exec_rejectedFrame_fetch decoded, exec_fetch_discarded held, whole, List.length_cons, Nat.add_comm]
  · cases checked : frameError (code :: rest) with
    | some err =>
      rw [exec_rejectedFrame_raw (decodeFrame_of_error whole fetch checked), rejectRaw_discarded held]
    | none =>
      cases picks : commandOf code rest.tail.dropLast with
      | none =>
        rw [exec_rejectedFrame_raw (decodeFrame_of_no_command whole fetch checked picks), rejectRaw_discarded held]
      | some c =>
        have decoded : decodeFrame bits = some c := by simp only [decodeFrame, whole, if_neg fetch, checked, picks]
        rw [exec_rejectedFrame_command decoded (spelledBy_of_commandOf picks),
          exec_spelled_discarded held (spelledBy_of_commandOf picks), whole, length_of_passes checked]

/-- Settles O43: every frame command is discarded whole, a raw frame as whichever frame its bits are. -/
theorem noFrameIsTakenInReset : Obligations.NoFrameIsTakenInReset := by
  intro s args clocked bits held
  have discarded {c : Instr} (spelled : SpelledBy args c) := exec_spelled_discarded held spelled
  refine ⟨discarded .query, discarded .stageWrite, discarded .stageRead, discarded .activeRead, discarded .stageClear,
    discarded .stageCopy, discarded .commit, discarded .statsRead, discarded .summaryPop, discarded .faultPop,
    discarded .purge, discarded .softReset, ?timeout, ?mask, exec_fetch_discarded held clocked,
    exec_rejectedFrame_discarded held, fun empty => exec_rejectedFrame_empty empty s⟩
  case timeout =>
    rw [exec_spelled_discarded held (.setParamTimeout args rfl), List.length_cons, ← Nat.add_assoc,
      Nat.add_right_comm]
    rfl
  case mask =>
    rw [exec_spelled_discarded held (.setParamAlertMask args rfl), List.length_cons, ← Nat.add_assoc,
      Nat.add_right_comm]
    rfl

/-! ## Frames read back -/

/-- Settles O44: a command frame passes the checks, and its code and arguments pick the command again. -/
theorem framesReadBackAsTheirCommands : Obligations.FramesReadBackAsTheirCommands := by
  refine ⟨fun frame incomplete short => wholeBytes_frameBits frame short,
    fun c bits incomplete wellFormed encoded short => ?_⟩
  have whole (frame : List Byte) : wholeBytes (frameBits frame) = frame := by
    simpa using wholeBytes_frameBits frame (rest := []) (by decide)
  cases c with
  | fetch clocked =>
    obtain rfl := Option.some.inj encoded
    rw [whole]
    refine ⟨rfl, by rw [List.length_cons, List.length_replicate, Nat.add_comm], fun filler length => ?_⟩
    rw [decodeFrame, wholeBytes_frameBits _ short, ← length]
    exact if_pos rfl
  | rejectedFrame raw =>
    obtain rfl := Option.some.inj encoded
    exact ⟨rfl, of_decide_eq_true wellFormed⟩
  | _ =>
    obtain ⟨code, args, rfl, known, few, -⟩ := encodeFrame_command wellFormed encoded (by simp) (by simp)
    exact ⟨decodeFrame_encodeFrame wellFormed encoded (by simp) short, by
      rw [whole]; exact commandFrame_passes code args known few⟩

end Sys2Proof.Machine
end

section
/-!
CERTIFICATE. The value bytes of the field groups, read and written (R4, R7 to R12, R173, R185), and the edits that the
arguments of STAGE_WRITE spell.
-/

namespace Sys2Proof.Machine

/-! ## PLACE -/

theorem bytesBE_numberBE_of_length {k : Nat} {v : List Byte} (length : v.length = k) : bytesBE k (numberBE v) = v := by
  subst length
  exact bytesBE_numberBE v

theorem numberBE_lt_of_length {k : Nat} {v : List Byte} (length : v.length = k) : numberBE v < 256 ^ k := by
  subst length
  exact numberBE_lt v

/-- The bytes of a PLACE whose numbers fit spell it. -/
theorem parsePlace_bytes (p : Place) (fits : p.length ≤ 2 ^ 32) : parsePlace p.bytes = some p := by
  have base : numberBE (bytesBE 5 p.base.toNat) = p.base.toNat :=
    numberBE_bytesBE 5 _ (p.base.isLt.trans (by norm_num))
  have length : numberBE (bytesBE 5 p.length) = p.length :=
    numberBE_bytesBE 5 _ (fits.trans_lt (by norm_num))
  have room : p.base.toNat < Config.addressSpace ∧ p.length ≤ Config.maxLength := ⟨p.base.isLt, fits⟩
  have first : (bytesBE 5 p.base.toNat ++ bytesBE 5 p.length).take 5 = bytesBE 5 p.base.toNat :=
    List.take_left' (bytesBE_length 5 _)
  have second : (bytesBE 5 p.base.toNat ++ bytesBE 5 p.length).drop 5 = bytesBE 5 p.length :=
    List.drop_left' (bytesBE_length 5 _)
  have ten : (bytesBE 5 p.base.toNat ++ bytesBE 5 p.length).length = 10 := by
    rw [List.length_append, bytesBE_length, bytesBE_length]
  have shape : p.bytes = p.mode.code :: p.format.code :: yesNoCode p.checksum ::
      (bytesBE 5 p.base.toNat ++ bytesBE 5 p.length) := rfl
  simp only [shape, parsePlace, if_pos ten, (modeOf_iff _ _).2 rfl, (formatOf_iff _ _).2 rfl, (yesNoOf_iff _ _).2 rfl,
    first, second, base, length, if_pos room, BitVec.ofNat_toNat, BitVec.setWidth_eq]

theorem parsePlace_iff (v : List Byte) (p : Place) : parsePlace v = some p ↔ v = p.bytes ∧ p.length ≤ 2 ^ 32 := by
  constructor
  case mpr =>
    rintro ⟨rfl, fits⟩
    exact parsePlace_bytes p fits
  case mp =>
    intro h
    match v, h with
    | m :: f :: c :: rest, h =>
      unfold parsePlace at h
      dsimp only at h
      split at h
      case isFalse => cases h
      case isTrue ten =>
        split at h
        case h_2 => cases h
        case h_1 mode format checksum hm hf hc =>
          split at h
          case isFalse => cases h
          case isTrue room =>
            obtain rfl := Option.some.inj h
            obtain ⟨low, fits⟩ := room
            refine ⟨?_, fits⟩
            have first : (rest.take 5).length = 5 := by rw [List.length_take]; omega
            have second : (rest.drop 5).length = 5 := by rw [List.length_drop]; omega
            have base : (BitVec.ofNat 36 (numberBE (rest.take 5))).toNat = numberBE (rest.take 5) := by
              rw [BitVec.toNat_ofNat]
              exact Nat.mod_eq_of_lt low
            rw [(modeOf_iff m mode).1 hm, (formatOf_iff f format).1 hf, (yesNoOf_iff c checksum).1 hc]
            simp only [Place.bytes, base, bytesBE_numberBE_of_length first, bytesBE_numberBE_of_length second,
              List.cons_append, List.nil_append, List.take_append_drop]

/-! ## MAP, CURVE, CLAMP, BLEND, PATTERN -/

theorem parseMap_iff (v : List Byte) (q : Quad Source) : parseMap v = some q ↔ v = mapBytes q := by
  constructor
  case mpr =>
    rintro rfl
    simp only [parseMap, mapBytes, (sourceOf_iff _ _).2 rfl]
  case mp =>
    intro h
    match v, h with
    | [a, b, c, d], h =>
      unfold parseMap at h
      dsimp only at h
      split at h
      case h_2 => cases h
      case h_1 sa sb sc sd ha hb hc hd =>
        obtain rfl := Option.some.inj h
        rw [(sourceOf_iff a sa).1 ha, (sourceOf_iff b sb).1 hb, (sourceOf_iff c sc).1 hc, (sourceOf_iff d sd).1 hd]
        rfl

/-- A mask byte of four bits is put together from them. -/
theorem curveMask_of_low (b : Byte) (low : b.toNat < 16) :
    bitByte (b.getLsbD 0) 0 ||| bitByte (b.getLsbD 1) 1 ||| bitByte (b.getLsbD 2) 2 |||
      bitByte (b.getLsbD 3) 3 = b := by
  revert b
  decide +kernel

/-- The bits of a mask byte that is put together from four of them. -/
theorem curveMask_bits (m0 m1 m2 m3 : Bool) :
    let b : Byte := bitByte m0 0 ||| bitByte m1 1 ||| bitByte m2 2 ||| bitByte m3 3
    b.toNat < 16 ∧ b.getLsbD 0 = m0 ∧ b.getLsbD 1 = m1 ∧ b.getLsbD 2 = m2 ∧ b.getLsbD 3 = m3 := by
  revert m0 m1 m2 m3
  decide

/-- The bytes of a knot list. -/
def knotBytes (knots : List Knot) : List Byte := knots.flatMap fun k => [k.input, k.output]

theorem knotBytes_length (knots : List Knot) : (knotBytes knots).length = 2 * knots.length := by
  induction knots with
  | nil => rfl
  | cons k rest ih =>
    have step : knotBytes (k :: rest) = k.input :: k.output :: knotBytes rest := rfl
    rw [step, List.length_cons, List.length_cons, ih, List.length_cons]
    omega

theorem parseKnots_knotBytes (knots : List Knot) : parseKnots (knotBytes knots) = knots := by
  induction knots with
  | nil => rfl
  | cons k rest ih => exact congrArg (k :: ·) ih

/-- Pairs of bytes are the bytes of their knots. -/
theorem knotBytes_parseKnots (n : Nat) (v : List Byte) (pairs : v.length = 2 * n) : knotBytes (parseKnots v) = v := by
  induction n generalizing v with
  | zero =>
    obtain rfl := List.length_eq_zero_iff.1 pairs
    rfl
  | succ n ih =>
    match v, pairs with
    | x :: y :: rest, pairs =>
      have fewer : rest.length = 2 * n := by
        simp only [List.length_cons] at pairs
        omega
      exact congrArg (fun l => x :: y :: l) (ih rest fewer)

theorem parseCurve_iff (v : List Byte) (c : Curve) :
    parseCurve v = some c ↔ v = c.bytes ∧ 2 ≤ c.knots.length ∧ c.knots.length ≤ 8 := by
  constructor
  case mpr =>
    rintro ⟨rfl, few, many⟩
    obtain ⟨low, bit0, bit1, bit2, bit3⟩ := curveMask_bits c.mask.c0 c.mask.c1 c.mask.c2 c.mask.c3
    have count : (BitVec.ofNat 8 c.knots.length).toNat = c.knots.length := by
      rw [BitVec.toNat_ofNat]
      omega
    have form := And.intro low (And.intro few (And.intro many (knotBytes_length c.knots)))
    have spelled : parseCurve c.bytes = some { mask := c.mask, knots := parseKnots (knotBytes c.knots) } := by
      have shape : c.bytes =
          (bitByte c.mask.c0 0 ||| bitByte c.mask.c1 1 ||| bitByte c.mask.c2 2 ||| bitByte c.mask.c3 3) ::
            BitVec.ofNat 8 c.knots.length :: knotBytes c.knots := rfl
      simp only [shape, parseCurve, count, if_pos form, bit0, bit1, bit2, bit3]
    rw [spelled, parseKnots_knotBytes]
  case mp =>
    intro h
    match v, h with
    | mask :: k :: rest, h =>
      unfold parseCurve at h
      dsimp only at h
      split at h
      case isFalse => cases h
      case isTrue form =>
        obtain ⟨low, few, many, pairs⟩ := form
        obtain rfl := Option.some.inj h
        have back := knotBytes_parseKnots k.toNat rest pairs
        have count : (parseKnots rest).length = k.toNat := by
          have := congrArg List.length back
          rw [knotBytes_length] at this
          omega
        dsimp only
        rw [count]
        refine ⟨?_, few, many⟩
        have shape : Curve.bytes
            { mask := ⟨mask.getLsbD 0, mask.getLsbD 1, mask.getLsbD 2, mask.getLsbD 3⟩, knots := parseKnots rest } =
              (bitByte (mask.getLsbD 0) 0 ||| bitByte (mask.getLsbD 1) 1 ||| bitByte (mask.getLsbD 2) 2 |||
                bitByte (mask.getLsbD 3) 3) :: BitVec.ofNat 8 (parseKnots rest).length ::
                  knotBytes (parseKnots rest) := rfl
        rw [shape, curveMask_of_low mask low, count, back, BitVec.ofNat_toNat, BitVec.setWidth_eq]

theorem parseClamp_iff (v : List Byte) (q : Quad Bounds) : parseClamp v = some q ↔ v = clampBytes q := by
  constructor
  case mpr =>
    rintro rfl
    rfl
  case mp =>
    intro h
    match v, h with
    | [_, _, _, _, _, _, _, _], h =>
      obtain rfl := Option.some.inj h
      rfl

theorem parseBlend_iff (v : List Byte) (b : Blend) : parseBlend v = some b ↔ v = b.bytes := by
  constructor
  case mpr =>
    rintro rfl
    simp only [parseBlend, Blend.bytes, (alphaSourceOf_iff _ _).2 rfl, (componentOf_iff _ _).2 rfl,
      (alphaPolicyOf_iff _ _).2 rfl]
  case mp =>
    intro h
    match v, h with
    | [a, p, c, w], h =>
      unfold parseBlend at h
      dsimp only at h
      split at h
      case h_2 => cases h
      case h_1 source component policy hs hc hp =>
        obtain rfl := Option.some.inj h
        rw [(alphaSourceOf_iff a source).1 hs, (componentOf_iff c component).1 hc, (alphaPolicyOf_iff w policy).1 hp]
        rfl

theorem parsePattern_iff (v : List Byte) (g : Pattern) : parsePattern v = some g ↔ v = g.bytes := by
  constructor
  case mpr =>
    rintro rfl
    obtain ⟨kind, row, border, seed, solid⟩ := g
    obtain ⟨r1, r0, hr⟩ : ∃ r1 r0 : Byte, bytesBE 2 row.toNat = [r1, r0] := ⟨_, _, bytesBE_two_eq _⟩
    obtain ⟨s1, s0, hs⟩ : ∃ s1 s0 : Byte, bytesBE 2 seed.toNat = [s1, s0] := ⟨_, _, bytesBE_two_eq _⟩
    obtain rfl := (bytesBE_two row r1 r0).1 hr
    obtain rfl := (bytesBE_two seed s1 s0).1 hs
    simp only [Pattern.bytes, hr, hs, List.cons_append, List.nil_append, parsePattern, (patternKindOf_iff _ _).2 rfl]
  case mp =>
    intro h
    match v, h with
    | [k, r1, r0, b, s1, s0, v0, v1, v2, v3], h =>
      unfold parsePattern at h
      dsimp only at h
      split at h
      case h_2 => cases h
      case h_1 kind hk =>
        obtain rfl := Option.some.inj h
        rw [(patternKindOf_iff k kind).1 hk]
        simp only [Pattern.bytes, (bytesBE_two (r1 ++ r0) r1 r0).2 rfl, (bytesBE_two (s1 ++ s0) s1 s0).2 rfl,
          List.cons_append, List.nil_append]

/-! ## GLOBAL -/

theorem parseLayers_iff (v : List Byte) (layers : List (Fin 16)) :
    parseLayers v = some layers ↔ v = layers.map fun e => BitVec.ofNat 8 e.val := by
  induction v generalizing layers with
  | nil => cases layers <;> simp [parseLayers]
  | cons b rest ih =>
    cases layers with
    | nil =>
      unfold parseLayers
      split <;> simp
    | cons e layers =>
      have number : (BitVec.ofNat 8 e.val).toNat = e.val := by
        rw [BitVec.toNat_ofNat]
        omega
      rw [List.map_cons, List.cons.injEq, ← ih layers, parseLayers]
      constructor
      · intro h
        split at h
        case isFalse => cases h
        case isTrue low =>
          obtain ⟨l, parsed, same⟩ := Option.map_eq_some_iff.1 h
          obtain ⟨rfl, rfl⟩ := List.cons.inj same
          exact ⟨by rw [BitVec.ofNat_toNat, BitVec.setWidth_eq], parsed⟩
      · rintro ⟨rfl, parsed⟩
        rw [dif_pos (number.trans_lt e.isLt), parsed]
        simp only [Option.map_some, number]

theorem parseGlobal_iff (v : List Byte) (t : WindowTable) :
    parseGlobal v = some (t.background, t.layers) ↔ v = t.globalBytes ∧ t.layers.length ≤ 8 := by
  have number (short : t.layers.length ≤ 8) : (BitVec.ofNat 8 t.layers.length).toNat = t.layers.length := by
    rw [BitVec.toNat_ofNat]
    omega
  constructor
  case mpr =>
    rintro ⟨rfl, short⟩
    have form : t.layers.length ≤ 8 ∧ (t.layers.map fun e => BitVec.ofNat 8 e.val).length = t.layers.length :=
      ⟨short, List.length_map _⟩
    simp only [WindowTable.globalBytes, parseGlobal, number short, if_pos form, (backgroundOf_iff _ _).2 rfl,
      (parseLayers_iff _ _).2 rfl]
  case mp =>
    intro h
    match v, h with
    | bg :: len :: rest, h =>
      unfold parseGlobal at h
      dsimp only at h
      split at h
      case isFalse => cases h
      case isTrue form =>
        split at h
        case h_2 => cases h
        case h_1 action layers hb hl =>
          obtain ⟨short, length⟩ := form
          obtain ⟨rfl, rfl⟩ := Prod.mk.inj (Option.some.inj h)
          have spelled := (parseLayers_iff rest t.layers).1 hl
          have count : t.layers.length = len.toNat := by rw [← length, spelled, List.length_map]
          refine ⟨?_, count ▸ short⟩
          rw [WindowTable.globalBytes, count, ← spelled, (backgroundOf_iff bg t.background).1 hb, BitVec.ofNat_toNat,
            BitVec.setWidth_eq]

/-! ## The arguments of STAGE_WRITE -/

theorem parseValues_some {α : Type} (parse : List Byte → Option α) {v : List Byte} (values : v ≠ []) :
    parseValues parse v = (parse v).map some :=
  if_neg (by simpa using values)

section
variable {target : Byte}

theorem parseStageWrite_slot {n : SlotNo} (names : target.toNat = n.val) (group : Byte) (v : List Byte) :
    parseStageWrite (target :: group :: v) = (parseGroup group v).map (.slot n) := by
  simp only [parseStageWrite, if_neg (slotOf_ne_all names), slotOf_some names]

theorem parseStageWrite_all (group : Byte) (v : List Byte) :
    parseStageWrite (0xFF :: group :: v) =
      if group.toNat = 6 then (parseGlobal v).map (fun p => .global p.1 p.2) else none := rfl

theorem parseStageWrite_noSlot (high : 8 ≤ target.toNat) (other : target ≠ 0xFF) (group : Byte) (v : List Byte) :
    parseStageWrite (target :: group :: v) = none := by
  simp only [parseStageWrite, if_neg (toNat_ne_all other), slotOf_none high]

theorem parseGroup_high {group : Byte} (high : 6 ≤ group.toNat) (v : List Byte) : parseGroup group v = none := by
  unfold parseGroup
  split
  case h_7 => rfl
  all_goals omega

theorem parseStageWrite_noGroup {group : Byte} (other : target ≠ 0xFF) (high : 6 ≤ group.toNat) (v : List Byte) :
    parseStageWrite (target :: group :: v) = none := by
  by_cases slot : target.toNat < 8
  · rw [parseStageWrite_slot (n := ⟨target.toNat, slot⟩) rfl, parseGroup_high high, Option.map_none]
  · exact parseStageWrite_noSlot (Nat.le_of_not_lt slot) other group v

end

/-- Settles O32: each group's parser accepts exactly the bytes that the group is written as, and the target and group
code choose the parser. -/
theorem groupBytesReadBackAsWritten : Obligations.GroupBytesReadBackAsWritten := by
  refine ⟨parsePlace_iff, parseMap_iff, parseCurve_iff, parseClamp_iff, parseBlend_iff, parsePattern_iff,
    parseGlobal_iff, fun target n names => ⟨?absent, fun v values => ?values⟩, fun v => rfl,
    fun target group v => ⟨fun high other => parseStageWrite_noSlot high other group v,
      fun other high => parseStageWrite_noGroup other high v, fun other => if_neg other, ?global, rfl, rfl⟩⟩
  case absent =>
    simp only [parseStageWrite_slot names]
    exact ⟨rfl, rfl, rfl, rfl, rfl, rfl⟩
  case values =>
    have spelled {α : Type} (parse : List Byte → Option α) (edit : Option α → GroupEdit) :
        ((parseValues parse v).map edit).map (StageEdit.slot n) =
          (parse v).map fun x => .slot n (edit (some x)) := by
      rw [parseValues_some parse values, Option.map_map, Option.map_map]
      rfl
    simp only [parseStageWrite_slot names]
    exact ⟨spelled _ _, spelled _ _, spelled _ _, spelled _ _, spelled _ _, spelled _ _⟩
  case global =>
    rw [parseStageWrite_all]
    split <;> rfl

end Sys2Proof.Machine
end

section
/-!
CERTIFICATE. Validation (R31 to R33): the checks of a window as an ordered list, the first failure of a table, and that
a table without a failure is a valid one.
-/

namespace Sys2Proof.Machine

/-! ## Ordered checks -/

/-- A report names the first check of a list that fails, or none when none does. -/
def Reports : List (Reason × Prop) → Option Reason → Prop
  | [], report => report = none
  | check :: rest, report => (check.2 ∧ report = some check.1) ∨ (¬ check.2 ∧ Reports rest report)

namespace Reports

/-- One check put before others. -/
theorem cons {p : Prop} {reason : Reason} {rest : List (Reason × Prop)} {cond : Prop} [Decidable cond]
    {report : Option Reason} (same : p ↔ cond) (h : Reports rest report) :
    Reports ((reason, p) :: rest) (if cond then some reason else report) := by
  by_cases holds : cond
  · exact .inl ⟨same.2 holds, if_pos holds⟩
  · exact .inr ⟨fun hp => holds (same.1 hp), by rwa [if_neg holds]⟩

/-- One check alone. -/
theorem single {p : Prop} {reason : Reason} {cond : Prop} [Decidable cond] (same : p ↔ cond) :
    Reports [(reason, p)] (if cond then some reason else none) := cons same rfl

/-- The checks of one list and then those of another. -/
theorem or {first second : List (Reason × Prop)} {a b : Option Reason} (ha : Reports first a) (hb : Reports second b) :
    Reports (first ++ second) (a.or b) := by
  induction first with
  | nil =>
    obtain rfl : a = none := ha
    exact hb
  | cons check rest ih =>
    rcases ha with ⟨fails, rfl⟩ | ⟨passes, h⟩
    · exact .inl ⟨fails, rfl⟩
    · exact .inr ⟨passes, ih h⟩

theorem eq_none_iff {checks : List (Reason × Prop)} {report : Option Reason} (h : Reports checks report) :
    report = none ↔ ∀ check ∈ checks, ¬ check.2 := by
  induction checks with
  | nil => exact iff_of_true h (List.forall_mem_nil _)
  | cons check rest ih =>
    rw [List.forall_mem_cons]
    rcases h with ⟨fails, rfl⟩ | ⟨passes, h⟩
    · exact iff_of_false (Option.some_ne_none _) fun none => none.1 fails
    · rw [ih h, and_iff_right passes]

/-- What is reported is the first failure. -/
theorem first {checks : List (Reason × Prop)} {reason : Reason} (h : Reports checks (some reason)) :
    ∃ before failing after, checks = before ++ (reason, failing) :: after ∧ failing ∧
      ∀ check ∈ before, ¬ check.2 := by
  induction checks with
  | nil => cases h
  | cons check rest ih =>
    rcases h with ⟨fails, same⟩ | ⟨passes, h⟩
    · obtain rfl := Option.some.inj same
      exact ⟨[], check.2, rest, rfl, fails, List.forall_mem_nil _⟩
    · obtain ⟨before, failing, after, rfl, fails, none_before⟩ := ih h
      exact ⟨check :: before, failing, after, rfl, fails, List.forall_mem_cons.2 ⟨passes, none_before⟩⟩

theorem mem {checks : List (Reason × Prop)} {reason : Reason} (h : Reports checks (some reason)) :
    reason ∈ checks.map Prod.fst := by
  obtain ⟨before, failing, after, rfl, -, -⟩ := h.first
  exact List.mem_map_of_mem (f := Prod.fst) (List.mem_append_right before List.mem_cons_self)

end Reports

/-! ## The checks of a window -/

theorem checkPlace_reports (p : Place) :
    Reports [(.placeAlign, p.base.toNat % 256 ≠ 0 ∨ p.length % 256 ≠ 0),
      (.placeRange, p.length = 0 ∨ 2 ^ 36 < p.base.toNat + p.length)] (checkPlace p) :=
  .cons Iff.rfl (.single Iff.rfl)

/-- MAP, CURVE and CLAMP against the mode (R5). -/
theorem checkTransform_reports {α : Type} (m : Mode) (group : Option α) :
    Reports [(.groupNotUsed, group ≠ none ∧ (m = .pattern ∨ m = .fence))]
      (checkNeed (needTransform m) group.isSome) := by
  cases m <;> cases group <;> simp [Reports, checkNeed, needTransform]

theorem checkBlendNeed_reports (m : Mode) (group : Option Blend) :
    Reports [(.groupNotUsed, group ≠ none ∧ m ≠ .blend), (.groupMissing, group = none ∧ m = .blend)]
      (checkNeed (needBlend m) group.isSome) := by
  cases m <;> cases group <;> simp [Reports, checkNeed, needBlend]

theorem checkPatternNeed_reports (m : Mode) (group : Option Pattern) :
    Reports [(.groupNotUsed, group ≠ none ∧ m ≠ .pattern), (.groupMissing, group = none ∧ m = .pattern)]
      (checkNeed (needPattern m) group.isSome) := by
  cases m <;> cases group <;> simp [Reports, checkNeed, needPattern]

theorem beyondS16_iff (x : Source) : x.beyondS16 = true ↔ x.High := by
  unfold Source.High
  cases x with
  | comp j => revert j; decide
  | zero => decide
  | full => decide

theorem checkMap_reports (f : Format) (group : Option (Quad Source)) :
    Reports [(.mapComponent, ∃ q, group = some q ∧ f = .s16 ∧ (q.c0.High ∨ q.c1.High))]
      (group.bind (checkMap f)) := by
  cases group with
  | none => exact .inr ⟨by simp, rfl⟩
  | some q =>
    cases f with
    | s16 => exact .single (by simp [beyondS16_iff])
    | s32 => exact .inr ⟨by simp, rfl⟩

/-- Each knot's input is above the one before exactly where it is above every one before. -/
theorem knotsRise_iff (knots : List Knot) :
    knotsRise knots = true ↔ knots.Pairwise fun a b => a.input.toNat < b.input.toNat := by
  induction knots with
  | nil => exact iff_of_true rfl .nil
  | cons a rest ih =>
    cases rest with
    | nil => exact iff_of_true rfl (List.pairwise_singleton _ _)
    | cons b rest =>
      rw [knotsRise, Bool.and_eq_true, ih, decide_eq_true_eq, List.pairwise_cons (a := a)]
      refine and_congr_left fun rises => ⟨fun first x hx => ?_, fun all => all b List.mem_cons_self⟩
      rcases List.mem_cons.1 hx with rfl | later
      · exact first
      · exact first.trans ((List.pairwise_cons.1 rises).1 x later)

theorem knotEndsOk_iff (knots : List Knot) :
    knotEndsOk knots = true ↔
      knots.head?.map Knot.input = some 0 ∧ knots.getLast?.map Knot.input = some 255 := by
  unfold knotEndsOk
  cases knots.head? <;> cases knots.getLast? <;> simp

theorem maskOk_eq_false_iff (f : Format) (m : Quad Bool) :
    maskOk f m = false ↔
      (m.c0 = false ∧ m.c1 = false ∧ m.c2 = false ∧ m.c3 = false) ∨
        (f = .s16 ∧ (m.c2 = true ∨ m.c3 = true)) := by
  obtain ⟨c0, c1, c2, c3⟩ := m
  cases f <;> revert c0 c1 c2 c3 <;> decide

theorem checkCurve_reports (f : Format) (group : Option Curve) :
    Reports
      [ (.curveEnds, ∃ c, group = some c ∧
          ¬ (c.knots.head?.map Knot.input = some 0 ∧ c.knots.getLast?.map Knot.input = some 255))
      , (.curveOrder, ∃ c, group = some c ∧ ¬ c.knots.Pairwise (fun a b => a.input.toNat < b.input.toNat))
      , (.curveMask, ∃ c, group = some c ∧
          ((c.mask.c0 = false ∧ c.mask.c1 = false ∧ c.mask.c2 = false ∧ c.mask.c3 = false) ∨
            (f = .s16 ∧ (c.mask.c2 = true ∨ c.mask.c3 = true)))) ]
      (group.bind (checkCurve f)) := by
  cases group with
  | none => exact .inr ⟨by simp, .inr ⟨by simp, .inr ⟨by simp, rfl⟩⟩⟩
  | some c =>
    refine .cons ?ends (.cons ?order (.single ?mask))
    case ends => simp only [Option.some.injEq, exists_eq_left', ← knotEndsOk_iff, Bool.not_eq_true']; simp
    case order => simp only [Option.some.injEq, exists_eq_left', ← knotsRise_iff, Bool.not_eq_true']; simp
    case mask => simp only [Option.some.injEq, exists_eq_left', ← maskOk_eq_false_iff, Bool.not_eq_true']

theorem checkClamp_eq (f : Format) (q : Quad Bounds) :
    checkClamp f q =
      if q.c0.upper.toNat < q.c0.lower.toNat ∨ q.c1.upper.toNat < q.c1.lower.toNat ∨
          (f = .s32 ∧ (q.c2.upper.toNat < q.c2.lower.toNat ∨ q.c3.upper.toNat < q.c3.lower.toNat)) then
        some .clampOrder
      else none := by
  unfold checkClamp Bounds.ordered
  dsimp only
  rw [← ite_not]
  refine if_congr ?_ rfl rfl
  cases f with
  | s16 => simp only [Bool.and_eq_true, decide_eq_true_eq, reduceCtorEq, false_and, or_false]; omega
  | s32 => simp only [Bool.and_eq_true, decide_eq_true_eq, true_and]; omega

theorem checkClamp_reports (f : Format) (group : Option (Quad Bounds)) :
    Reports
      [(.clampOrder, ∃ q, group = some q ∧
        (q.c0.upper.toNat < q.c0.lower.toNat ∨ q.c1.upper.toNat < q.c1.lower.toNat ∨
          (f = .s32 ∧ (q.c2.upper.toNat < q.c2.lower.toNat ∨ q.c3.upper.toNat < q.c3.lower.toNat))))]
      (group.bind (checkClamp f)) := by
  cases group with
  | none => exact .inr ⟨by simp, rfl⟩
  | some q =>
    rw [Option.bind_some, checkClamp_eq]
    exact .single (by simp)

theorem checkBlend_reports (f : Format) (group : Option Blend) :
    Reports
      [ (.blendComponent, ∃ b, group = some b ∧ f = .s16 ∧ 2 ≤ b.component.val)
      , (.blendPlane, ∃ b, group = some b ∧ 64 < b.plane.toNat) ]
      (group.bind (checkBlend f)) := by
  cases group with
  | none => exact .inr ⟨by simp, .inr ⟨by simp, rfl⟩⟩
  | some b => exact .cons (by simp) (.single (by simp))

theorem checkPattern_reports (p : Place) (group : Option Pattern) :
    Reports
      [ (.patternRow, ∃ g, group = some g ∧
          (g.row.toNat = 0 ∨ 8192 < g.row.toNat ∨ p.length < g.row.toNat * p.format.size))
      , (.patternBorder, ∃ g, group = some g ∧ (g.border.toNat = 0 ∨ 64 < g.border.toNat)) ]
      (group.bind (checkPattern p)) := by
  cases group with
  | none => exact .inr ⟨by simp, .inr ⟨by simp, rfl⟩⟩
  | some g => exact .cons (by simp) (.single (by simp))

/-- The check of a window reports the first of its ordered checks that fails (R32, R33). -/
theorem checkWindow_reports (w : Window) : Reports w.checksInOrder (checkWindow w) :=
  (checkPlace_reports w.place).or <|
  ((checkTransform_reports w.place.mode w.map).or <|
    (checkTransform_reports w.place.mode w.curve).or <|
    (checkTransform_reports w.place.mode w.clamp).or <|
    (checkBlendNeed_reports w.place.mode w.blend).or <|
    checkPatternNeed_reports w.place.mode w.pattern).or <|
  (checkMap_reports w.place.format w.map).or <|
  (checkCurve_reports w.place.format w.curve).or <|
  (checkClamp_reports w.place.format w.clamp).or <|
  (checkBlend_reports w.place.format w.blend).or <|
  checkPattern_reports w.place w.pattern

/-! ## Valid windows and tables -/

/-- The groups fit the mode exactly where no group check fails (R5). -/
theorem fits_iff (w : Window) :
    w.Fits ↔
      ¬ (w.map ≠ none ∧ (w.place.mode = .pattern ∨ w.place.mode = .fence)) ∧
      ¬ (w.curve ≠ none ∧ (w.place.mode = .pattern ∨ w.place.mode = .fence)) ∧
      ¬ (w.clamp ≠ none ∧ (w.place.mode = .pattern ∨ w.place.mode = .fence)) ∧
      ¬ (w.blend ≠ none ∧ w.place.mode ≠ .blend) ∧ ¬ (w.blend = none ∧ w.place.mode = .blend) ∧
      ¬ (w.pattern ≠ none ∧ w.place.mode ≠ .pattern) ∧ ¬ (w.pattern = none ∧ w.place.mode = .pattern) := by
  unfold Window.Fits
  cases w.place.mode <;> simp

/-- The mask selects a component the format has exactly where the mask check passes (R8). -/
theorem curveMask_iff (f : Format) (m : Quad Bool) :
    ¬ ((m.c0 = false ∧ m.c1 = false ∧ m.c2 = false ∧ m.c3 = false) ∨
        (f = .s16 ∧ (m.c2 = true ∨ m.c3 = true))) ↔
      (m.c0 = true ∨ m.c1 = true ∨ m.c2 = true ∨ m.c3 = true) ∧ (f = .s16 → m.c2 = false ∧ m.c3 = false) := by
  simp only [not_or, not_and, Bool.not_eq_true, Bool.not_eq_false]
  refine and_congr_left fun _ => ?_
  cases m.c0 <;> cases m.c1 <;> cases m.c2 <;> simp

/-- A window is valid exactly where none of its checks fails. -/
theorem valid_iff (w : Window) : w.Valid ↔ ∀ check ∈ w.checksInOrder, ¬ check.2 := by
  simp only [Window.checksInOrder, List.forall_mem_cons, List.not_mem_nil, false_imp_iff, implies_true, and_true]
  constructor
  · intro v
    obtain ⟨map, curve, clamp, blend, blend', pattern, pattern'⟩ := (fits_iff w).1 v.fits
    have base := v.base
    have inside := v.inside
    obtain ⟨aligned, nonempty⟩ := v.length
    refine ⟨by omega, by omega, map, curve, clamp, blend, blend', pattern, pattern',
      ?_, ?_, ?_, ?_, ?_, ?_, ?_, ?_, ?_⟩
    · rintro ⟨q, hq, hf, high⟩
      obtain ⟨low0, low1⟩ := v.map q hq hf
      exact high.elim low0 low1
    · exact fun ⟨c, hc, bad⟩ => bad (v.curveEnds c hc)
    · exact fun ⟨c, hc, bad⟩ => bad (v.curveOrder c hc)
    · exact fun ⟨c, hc, bad⟩ => (curveMask_iff _ _).2 (v.curveMask c hc) bad
    · rintro ⟨q, hq, bad⟩
      obtain ⟨h0, h1, h23⟩ := v.clamp q hq
      rcases bad with bad | bad | ⟨hf, bad⟩
      · omega
      · omega
      · have := h23 hf
        omega
    · rintro ⟨b, hb, hf, bad⟩
      have := v.blendComponent b hb hf
      omega
    · rintro ⟨b, hb, bad⟩
      have := v.blendPlane b hb
      omega
    · rintro ⟨g, hg, bad⟩
      have := v.patternRow g hg
      omega
    · rintro ⟨g, hg, bad⟩
      have := v.patternBorder g hg
      omega
  · rintro ⟨align, range, map, curve, clamp, blend, blend', pattern, pattern', mapLow, ends, order, mask, clampOrder,
      component, plane, row, border⟩
    exact {
      base := by omega
      length := by omega
      inside := by omega
      fits := (fits_iff w).2 ⟨map, curve, clamp, blend, blend', pattern, pattern'⟩
      map := fun q hq hf => not_or.1 fun high => mapLow ⟨q, hq, hf, high⟩
      curveEnds := fun c hc => by_contra fun bad => ends ⟨c, hc, bad⟩
      curveOrder := fun c hc => by_contra fun bad => order ⟨c, hc, bad⟩
      curveMask := fun c hc => (curveMask_iff _ _).1 fun bad => mask ⟨c, hc, bad⟩
      clamp := fun q hq =>
        ⟨Nat.le_of_not_lt fun bad => clampOrder ⟨q, hq, .inl bad⟩,
          Nat.le_of_not_lt fun bad => clampOrder ⟨q, hq, .inr (.inl bad)⟩, fun hf =>
          ⟨Nat.le_of_not_lt fun bad => clampOrder ⟨q, hq, .inr (.inr ⟨hf, .inl bad⟩)⟩,
            Nat.le_of_not_lt fun bad => clampOrder ⟨q, hq, .inr (.inr ⟨hf, .inr bad⟩)⟩⟩⟩
      blendComponent := fun b hb hf => Nat.le_of_not_lt fun bad => component ⟨b, hb, hf, bad⟩
      blendPlane := fun b hb => Nat.le_of_not_lt fun bad => plane ⟨b, hb, bad⟩
      patternRow := fun g hg => by
        have passes := not_or.1 fun bad => row ⟨g, hg, bad⟩
        omega
      patternBorder := fun g hg => by
        have passes := not_or.1 fun bad => border ⟨g, hg, bad⟩
        omega }

theorem checkWindow_eq_none_iff (w : Window) : checkWindow w = none ↔ w.Valid :=
  (checkWindow_reports w).eq_none_iff.trans (valid_iff w).symm

/-! ## The first failure of a table -/

/-- What is wrong with an entry of a layer list, behind the entries `before` of the list and those `seen` before it
(R12). -/
def WindowTable.BadEntry (t : WindowTable) (seen before : List (Fin 16)) (e : Fin 16) (reason : Reason) : Prop :=
  (reason = .listRange ∧ 7 < e.val) ∨ (reason = .listDuplicate ∧ e.val ≤ 7 ∧ (e ∈ before ∨ e ∈ seen)) ∨
    (reason = .listEmptySlot ∧ e.val ≤ 7 ∧ e ∉ before ∧ e ∉ seen ∧ ¬ t.Names e)

theorem BadEntry_cons {t : WindowTable} {seen before : List (Fin 16)} {x e : Fin 16} {reason : Reason}
    (h : t.BadEntry (x :: seen) before e reason) : t.BadEntry seen (x :: before) e reason := by
  unfold WindowTable.BadEntry at *
  simp only [List.mem_cons] at *
  tauto

/-- The head of a layer list is bad, or the failure is that of the rest. -/
theorem checkLayers_cons {t : WindowTable} {reason : Reason} {seen rest : List (Fin 16)} {e : Fin 16}
    (h : checkLayers t seen (e :: rest) = some reason) :
    t.BadEntry seen [] e reason ∨ (t.Names e ∧ e ∉ seen ∧ checkLayers t (e :: seen) rest = some reason) := by
  rw [checkLayers] at h
  split_ifs at h with high again empty
  · exact .inl (.inl ⟨(Option.some.inj h).symm, high⟩)
  · exact .inl (.inr (.inl ⟨(Option.some.inj h).symm, Nat.le_of_not_lt high,
      .inr (List.contains_iff_mem.1 again)⟩))
  · have unnamed : ¬ t.Names e := fun names => by
      rw [(names_iff.1 names).2] at empty
      cases empty
    exact .inl (.inr (.inr ⟨(Option.some.inj h).symm, Nat.le_of_not_lt high, List.not_mem_nil,
      fun seen => again (List.contains_iff_mem.2 seen), unnamed⟩))
  · exact .inr ⟨names_iff.2 ⟨Nat.le_of_not_lt high, Bool.eq_false_iff.2 empty⟩,
      fun seen => again (List.contains_iff_mem.2 seen), h⟩

/-- The first bad entry of a layer list. -/
theorem checkLayers_eq_some {t : WindowTable} {reason : Reason} {seen l : List (Fin 16)}
    (h : checkLayers t seen l = some reason) :
    ∃ before e after, l = before ++ e :: after ∧ (∀ x ∈ before, t.Names x ∧ x ∉ seen) ∧ before.Nodup ∧
      t.BadEntry seen before e reason := by
  induction l generalizing seen with
  | nil => cases h
  | cons x rest ih =>
    rcases checkLayers_cons h with bad | ⟨names, fresh, h⟩
    · exact ⟨[], x, rest, rfl, List.forall_mem_nil _, .nil, bad⟩
    · obtain ⟨before, e, after, rfl, good, nodup, bad⟩ := ih h
      refine ⟨x :: before, e, after, rfl, List.forall_mem_cons.2 ⟨⟨names, fresh⟩, fun y hy => ?_⟩,
        List.nodup_cons.2 ⟨fun again => ?_, nodup⟩, BadEntry_cons bad⟩
      · obtain ⟨named, unseen⟩ := good y hy
        exact ⟨named, fun seen => unseen (List.mem_cons_of_mem x seen)⟩
      · obtain ⟨-, unseen⟩ := good x again
        exact unseen List.mem_cons_self

/-- The failure of one slot, if it has one. -/
def WindowTable.slotFailure (t : WindowTable) (n : SlotNo) : Option (Option SlotNo × Reason) :=
  ((t.window n).bind checkWindow).map fun reason => (some n, reason)

theorem slotFailure_eq_none_iff (t : WindowTable) (n : SlotNo) :
    t.slotFailure n = none ↔ ∀ w, t.slots[n] = some w → checkWindow w = none := by
  rw [WindowTable.slotFailure, Option.map_eq_none_iff, Option.bind_eq_none_iff]
  exact Iff.rfl

theorem slotFailure_eq_some_iff (t : WindowTable) (m : SlotNo) (place : Option SlotNo) (reason : Reason) :
    t.slotFailure m = some (place, reason) ↔
      place = some m ∧ ∃ w, t.slots[m] = some w ∧ checkWindow w = some reason := by
  simp only [WindowTable.slotFailure, Option.map_eq_some_iff, Option.bind_eq_some_iff, Prod.mk.injEq]
  constructor
  · rintro ⟨reason, ⟨w, window, fails⟩, rfl, rfl⟩
    exact ⟨rfl, w, window, fails⟩
  · rintro ⟨rfl, w, window, fails⟩
    exact ⟨reason, ⟨w, window, fails⟩, rfl, rfl⟩

theorem firstFailure_of_layers {t : WindowTable} {reason : Reason} (h : checkLayers t [] t.layers = some reason) :
    t.firstFailure = some (none, reason) := by
  simp only [WindowTable.firstFailure, h]

theorem firstFailure_of_slots {t : WindowTable} (h : checkLayers t [] t.layers = none) :
    t.firstFailure = Config.eightSlots.findSome? t.slotFailure := by
  simp only [WindowTable.firstFailure, h]
  rfl

/-- A table without a failure is one whose layer list passes and whose windows are valid. -/
theorem firstFailure_eq_none_iff (t : WindowTable) :
    t.firstFailure = none ↔
      checkLayers t [] t.layers = none ∧ ∀ (n : SlotNo) (w : Window), t.slots[n] = some w → checkWindow w = none := by
  cases layers : checkLayers t [] t.layers with
  | some reason => simp [firstFailure_of_layers layers]
  | none =>
    rw [firstFailure_of_slots layers, List.findSome?_eq_none_iff, and_iff_right rfl]
    exact ⟨fun h n => (slotFailure_eq_none_iff t n).1 (h n (eightSlots_all n)),
      fun h n _ => (slotFailure_eq_none_iff t n).2 (h n)⟩

theorem firstFailure_global {t : WindowTable} {reason : Reason} (h : t.firstFailure = some (none, reason)) :
    checkLayers t [] t.layers = some reason := by
  cases layers : checkLayers t [] t.layers with
  | some first =>
    rw [firstFailure_of_layers layers] at h
    exact congrArg some (Prod.mk.inj (Option.some.inj h)).2
  | none =>
    rw [firstFailure_of_slots layers] at h
    obtain ⟨m, -, found⟩ := List.exists_of_findSome?_eq_some h
    obtain ⟨impossible, -⟩ := (slotFailure_eq_some_iff t m none reason).1 found
    cases impossible

/-- A slot's failure is reported when the layer list passes and every lower slot is valid (R32). -/
theorem firstFailure_slot {t : WindowTable} {n : SlotNo} {reason : Reason}
    (h : t.firstFailure = some (some n, reason)) :
    checkLayers t [] t.layers = none ∧ (∃ w, t.slots[n] = some w ∧ checkWindow w = some reason) ∧
      ∀ (m : SlotNo) (w : Window), m < n → t.slots[m] = some w → checkWindow w = none := by
  cases layers : checkLayers t [] t.layers with
  | some first =>
    rw [firstFailure_of_layers layers] at h
    cases (Prod.mk.inj (Option.some.inj h)).1
  | none =>
    rw [firstFailure_of_slots layers] at h
    obtain ⟨below, k, above, slots, found, passes⟩ := List.findSome?_eq_some_iff.1 h
    obtain ⟨same, fails⟩ := (slotFailure_eq_some_iff t k _ reason).1 found
    obtain rfl := Option.some.inj same
    refine ⟨rfl, fails, fun m w lower window => (slotFailure_eq_none_iff t m).1 (passes m ?_) w window⟩
    have listed : m ∈ below ++ n :: above := slots ▸ eightSlots_all m
    have rises : (below ++ n :: above).Pairwise (· < ·) := slots ▸ eightSlots_rise
    obtain ⟨-, rises, -⟩ := List.pairwise_append.1 rises
    rcases List.mem_append.1 listed with before | after
    · exact before
    · rcases List.mem_cons.1 after with rfl | after
      · exact absurd lower (lt_irrefl m)
      · exact absurd lower ((List.pairwise_cons.1 rises).1 m after).not_gt

/-! ## What the reason of a bad PLACE says -/

/-- The checks behind those of PLACE report other reasons. -/
theorem later_reasons (w : Window) :
    ∃ later, w.checksInOrder = (.placeAlign, w.place.base.toNat % 256 ≠ 0 ∨ w.place.length % 256 ≠ 0) ::
        (.placeRange, w.place.length = 0 ∨ 2 ^ 36 < w.place.base.toNat + w.place.length) :: later ∧
      Reason.placeAlign ∉ later.map Prod.fst ∧ Reason.placeRange ∉ later.map Prod.fst := by
  refine ⟨_, rfl, ?_, ?_⟩ <;> simp only [List.map_cons, List.map_nil] <;> decide

theorem place_reasons {w : Window} {reason : Reason} (h : checkWindow w = some reason) :
    (reason = .placeAlign ↔ w.place.base.toNat % 256 ≠ 0 ∨ w.place.length % 256 ≠ 0) ∧
      (reason = .placeRange ↔
        w.place.base.toNat % 256 = 0 ∧ w.place.length % 256 = 0 ∧
          (w.place.length = 0 ∨ 2 ^ 36 < w.place.base.toNat + w.place.length)) := by
  obtain ⟨later, checks, align, range⟩ := later_reasons w
  have reports : Reports w.checksInOrder (some reason) := h ▸ checkWindow_reports w
  rw [checks] at reports
  rcases reports with ⟨unaligned, same⟩ | ⟨aligned, ⟨outside, same⟩ | ⟨inside, reports⟩⟩
  · obtain rfl := Option.some.inj same
    dsimp only at unaligned
    refine ⟨iff_of_true rfl unaligned, iff_of_false (by simp) fun ⟨base, length, _⟩ => ?_⟩
    exact unaligned.elim (· base) (· length)
  · obtain rfl := Option.some.inj same
    obtain ⟨base, length⟩ := not_or.1 aligned
    exact ⟨iff_of_false (by simp) aligned, iff_of_true rfl ⟨of_not_not base, of_not_not length, outside⟩⟩
  · have mem := reports.mem
    exact ⟨iff_of_false (fun same => align (same ▸ mem)) aligned,
      iff_of_false (fun same => range (same ▸ mem)) fun ⟨_, _, outside⟩ => inside outside⟩

/-! ## The obligation -/

theorem firstFailure_none_iff_valid (t : WindowTable) : t.firstFailure = none ↔ t.Valid := by
  simp only [firstFailure_eq_none_iff, checkLayers_eq_none, checkWindow_eq_none_iff]
  constructor
  · rintro ⟨⟨listed, distinct, -⟩, windows⟩
    exact ⟨listed, distinct, windows⟩
  · rintro ⟨listed, distinct, windows⟩
    exact ⟨⟨listed, distinct, fun _ _ => List.not_mem_nil⟩, windows⟩

/-- Settles O30: the layer list is checked before the slots, the slots in their order, and each slot's checks in
theirs. -/
theorem validationFindsTheFirstFailure : Obligations.ValidationFindsTheFirstFailure := by
  intro t
  refine ⟨firstFailure_none_iff_valid t, fun reason fails => ?layers, fun n reason fails => ?slots⟩
  case layers =>
    obtain ⟨before, e, after, split, good, nodup, bad⟩ := checkLayers_eq_some (firstFailure_global fails)
    refine ⟨before, e, after, split, fun x hx => (good x hx).1, nodup, ?_⟩
    unfold WindowTable.BadEntry at bad
    simpa only [List.not_mem_nil, or_false, not_false_eq_true, true_and] using bad
  case slots =>
    obtain ⟨layers, ⟨w, window, first⟩, lower⟩ := firstFailure_slot fails
    obtain ⟨listed, distinct, -⟩ := (checkLayers_eq_none [] t.layers).1 layers
    have invalid : ¬ w.Valid := fun valid => by
      rw [(checkWindow_eq_none_iff w).2 valid] at first
      cases first
    have reports : Reports w.checksInOrder (some reason) := first ▸ checkWindow_reports w
    exact ⟨listed, distinct, fun m v below used => (checkWindow_eq_none_iff v).1 (lower m v below used),
      w, window, invalid, reports.first, place_reasons first⟩

end Sys2Proof.Machine
end

section
/-!
CERTIFICATE. The memory run of a claim list (R17), and the claims of a request under a valid table: they change at most
once (note after R19), since windows begin and end at multiples of 256 bytes (R4).
-/

namespace Sys2Proof.Machine

/-! ## The run of a claim list -/

section
variable {t : WindowTable} {claims : List Claim}

theorem runOf_eq_none_iff : t.runOf claims = none ↔ ∀ c ∈ claims, (t.treatment c).toMemory = false := by
  have found : t.runOf claims = none ↔ (claims.map fun c => (t.treatment c).toMemory).findIdx? id = none := by
    unfold WindowTable.runOf
    dsimp only
    split <;> simp_all
  rw [found, List.findIdx?_eq_none_iff, List.forall_mem_map]
  rfl

/-- A beat number goes to memory. -/
def WindowTable.GoesAt (t : WindowTable) (claims : List Claim) (i : Nat) : Prop :=
  ∃ c, claims[i]? = some c ∧ (t.treatment c).toMemory = true

theorem goesAt_iff (i : Nat) :
    t.GoesAt claims i ↔
      ∃ h : i < (claims.map fun c => (t.treatment c).toMemory).length,
        (claims.map fun c => (t.treatment c).toMemory)[i] = true := by
  simp only [WindowTable.GoesAt, List.getElem?_eq_some_iff, List.length_map, List.getElem_map]
  constructor
  · rintro ⟨c, ⟨h, rfl⟩, goes⟩
    exact ⟨h, goes⟩
  · rintro ⟨h, goes⟩
    exact ⟨_, ⟨h, rfl⟩, goes⟩

/-- The run reaches from the first beat that goes to memory to the last. -/
theorem runOf_bounds {r : Run} (h : t.runOf claims = some r) :
    t.GoesAt claims r.first ∧ t.GoesAt claims r.last ∧ ∀ i, t.GoesAt claims i → r.first ≤ i ∧ i ≤ r.last := by
  simp only [goesAt_iff]
  unfold WindowTable.runOf at h
  dsimp only at h
  generalize (claims.map fun c => (t.treatment c).toMemory) = goes at h ⊢
  split at h
  case h_1 => cases h
  case h_2 first found =>
    obtain rfl := Option.some.inj h
    obtain ⟨inside, goes_first, before⟩ := List.findIdx?_eq_some_iff_getElem.1 found
    have hit : goes.reverse.findIdx id < goes.reverse.length :=
      List.findIdx_lt_length.2 ⟨_, List.mem_reverse.2 (List.getElem_mem inside), goes_first⟩
    have length : goes.reverse.length = goes.length := List.length_reverse
    have goes_last := List.findIdx_getElem (w := hit)
    rw [List.getElem_reverse] at goes_last
    refine ⟨⟨inside, goes_first⟩, ⟨by dsimp only; omega, goes_last⟩, fun i ⟨hi, goes_i⟩ => ⟨?_, ?_⟩⟩
    · by_contra lower
      exact before i (Nat.lt_of_not_le lower) goes_i
    · by_contra higher
      dsimp only at higher
      have early : goes.length - 1 - i < goes.reverse.findIdx id := by omega
      have miss := List.not_of_lt_findIdx early
      rw [List.getElem_reverse] at miss
      have same : goes.length - 1 - (goes.length - 1 - i) = i := by omega
      simp only [same, id_eq, goes_i] at miss
      cases miss

end

/-! ## Claims under a valid table -/

section
variable {t : WindowTable}

/-- Addresses in the same windows have the same claim. -/
theorem claimAt_congr {a b : Nat} (same : ∀ (n : SlotNo) w, t.slots[n] = some w → w.contains a = w.contains b) :
    t.claimAt a = t.claimAt b := by
  have entries : t.claimOfEntry a = t.claimOfEntry b := funext fun e => by
    unfold WindowTable.claimOfEntry
    split
    case isTrue low =>
      split
      case h_1 => rfl
      case h_2 w window => rw [same ⟨e.val, low⟩ w window]
    case isFalse => rfl
  rw [WindowTable.claimAt, WindowTable.claimAt, entries]

/-- Under a valid table all addresses of a 256-byte block have one claim. -/
theorem claimAt_of_block (valid : t.Valid) {a b : Nat} (block : a / 256 = b / 256) : t.claimAt a = t.claimAt b := by
  refine claimAt_congr fun n w window => Bool.eq_iff_iff.2 ?_
  have base := (valid.windows n w window).base
  have length := (valid.windows n w window).length
  rw [window_contains_iff, window_contains_iff]
  omega

/-- The number of beats from an address that lie in its 256-byte block. -/
def beatsInBlock (addr : Nat) : Nat := (256 - addr % 256) / 8

theorem claimAt_in_block (valid : t.Valid) {addr i : Nat} (aligned : addr % 8 = 0) (early : i < beatsInBlock addr) :
    t.claimAt (addr + 8 * i) = t.claimAt addr := by
  unfold beatsInBlock at early
  exact claimAt_of_block valid (by omega)

theorem claimAt_past_block (valid : t.Valid) {addr i j : Nat} (aligned : addr % 8 = 0) (hi : beatsInBlock addr ≤ i)
    (hj : beatsInBlock addr ≤ j) (short : i < 16 ∧ j < 16) : t.claimAt (addr + 8 * i) = t.claimAt (addr + 8 * j) := by
  unfold beatsInBlock at hi hj
  exact claimAt_of_block valid (by omega)

/-- The claims of a request change at most once, where its beats leave a 256-byte block. -/
theorem claimsOf_eq_replicate (valid : t.Valid) {q : Request} (form : q.InForm) :
    ∃ i a b, t.claimsOf q = List.replicate i a ++ List.replicate (q.beats - i) b := by
  obtain ⟨some_beats, few, aligned, -⟩ := form
  refine ⟨min (beatsInBlock q.addr.toNat) q.beats, t.claimAt q.addr.toNat,
    t.claimAt (q.addr.toNat + 8 * (q.beats - 1)), List.ext_getElem ?_ fun i hi _ => ?_⟩
  · simp only [WindowTable.claimsOf, List.length_map, List.length_range, List.length_append, List.length_replicate]
    omega
  · have inside : i < q.beats := by simpa [WindowTable.claimsOf] using hi
    rw [List.getElem_append]
    simp only [WindowTable.claimsOf, List.getElem_map, List.getElem_range, List.length_replicate,
      List.getElem_replicate]
    split
    case isTrue early => exact claimAt_in_block valid aligned (by omega)
    case isFalse late => exact claimAt_past_block valid aligned (by omega) (by omega) (by omega)

/-- In a list that changes once from one value to another, a value between two places is that of one of them. -/
theorem getElem?_between {α : Type} {n m : Nat} {a b : α} {l : List α}
    (once : l = List.replicate n a ++ List.replicate m b) {i j k : Nat} (left : i ≤ j) (right : j ≤ k)
    (inside : k < l.length) : l[j]? = l[i]? ∨ l[j]? = l[k]? := by
  subst once
  rw [List.length_append, List.length_replicate, List.length_replicate] at inside
  simp only [List.getElem?_append, List.length_replicate, List.getElem?_replicate]
  by_cases early : j < n
  · left
    rw [if_pos early, if_pos early, if_pos (left.trans_lt early), if_pos (left.trans_lt early)]
  · right
    rw [if_neg early, if_pos (by omega), if_neg (by omega), if_pos (by omega)]

end

/-- Settles O13: the first and the last beat that goes to memory bound the run, and with at most one change of claim
every beat between them has the claim of one of the two. -/
theorem memoryRunSpansTheMemoryBeats : Obligations.MemoryRunSpansTheMemoryBeats := by
  refine ⟨fun t claims => ⟨runOf_eq_none_iff, fun r run => ?bounds⟩, fun t q valid form => ?valid⟩
  case bounds =>
    obtain ⟨first, last, between⟩ := runOf_bounds run
    exact ⟨(between r.last last).1, first, last, fun i c found goes => between i ⟨c, found, goes⟩, rfl⟩
  case valid =>
    obtain ⟨i, a, b, once⟩ := claimsOf_eq_replicate ((firstFailure_none_iff_valid t).1 valid) form
    refine ⟨⟨i, a, b, once⟩, fun r run => ?_⟩
    obtain ⟨⟨c, first, goes⟩, ⟨d, last, goes'⟩, between⟩ := runOf_bounds run
    obtain ⟨inside, -⟩ := List.getElem?_eq_some_iff.1 last
    refine ⟨fun j x left right found => ?_, rfl, rfl, ?lines⟩
    · rcases getElem?_between once left right inside with same | same
      · obtain rfl : x = c := Option.some.inj ((found.symm.trans same).trans first)
        exact goes
      · obtain rfl : x = d := Option.some.inj ((found.symm.trans same).trans last)
        exact goes'
    case lines =>
      obtain ⟨-, few, aligned, -⟩ := form
      rw [WindowTable.claimsOf, List.length_map, List.length_range] at inside
      have ordered := (between r.last ⟨d, last, goes'⟩).1
      simp only [spanOf]
      omega

end Sys2Proof.Machine
end

section
/-!
CERTIFICATE. What the treatments of a claim let out of and into the part (R59, R69, R90, R104 to R109, R115): the read
buffer beat by beat, and the beats that stay inside.
-/

namespace Sys2Proof.Machine

/-! ## One beat by its treatment -/

section
variable {tr : Treatment}

theorem plainBeat_of_protected (inside : tr.toMemory = false) (beat : WBeat) : plainBeat tr beat = gapBeat := by
  cases tr with
  | forward | condition | blend => cases inside
  | pattern | fenced => rfl

theorem mergedBeat_of_protected (inside : tr.toMemory = false) (beat : WBeat) (old : RBeat) :
    mergedBeat tr beat old = gapBeat := by
  cases tr with
  | forward | condition | blend => cases inside
  | pattern | fenced => rfl

theorem readBeat_of_protected (inside : tr.toMemory = false) (a : Nat) (d d' : Option RBeat) :
    readBeat tr a d = readBeat tr a d' := by
  cases tr with
  | forward | condition | blend => cases inside
  | pattern | fenced => rfl

theorem readBeat_of_memory (goes : tr.toMemory = true) (a : Nat) (d : Option RBeat) :
    readBeat tr a d = d.getD zeroBeat := by
  cases tr with
  | forward | condition | blend => rfl
  | pattern | fenced => cases goes

theorem readBeat_of_fenced (fenced : tr.isFenced = true) (a : Nat) (d : Option RBeat) : readBeat tr a d = zeroBeat := by
  cases tr with
  | forward | condition | blend | pattern => cases fenced
  | fenced => rfl

theorem readBeat_pattern {w : Window} {g : Pattern} (group : w.pattern = some g) (a : Nat) (d : Option RBeat) :
    readBeat (.pattern w) a d = patternBeat w.place g a := by
  simp only [readBeat, group]

end

/-! ## Beats by their claim -/

theorem claimList_getD {e : Entry} {claims : List Claim} {i : Nat} {c : Claim} (resolved : e.claims = some claims)
    (claimed : claims[i]? = some c) : e.claimList.getD i .backgroundFence = c := by
  rw [Entry.claimList, resolved, Option.getD_some, List.getD_eq_getElem?_getD, claimed, Option.getD_some]

theorem readBuffer_length (t : WindowTable) (e : Entry) (returned : Option (List RBeat)) :
    (readBuffer t e returned).length = e.beats := by
  rw [readBuffer, List.length_map, List.length_range]

/-- A beat of the read buffer is its claim's (R59). -/
theorem readBuffer_getElem? {t : WindowTable} {e : Entry} {claims : List Claim} {i : Nat} {c : Claim}
    (resolved : e.claims = some claims) (inside : i < e.beats) (claimed : claims[i]? = some c)
    (returned : Option (List RBeat)) :
    (readBuffer t e returned)[i]? =
      some (readBeat (t.treatment c) (e.addr.toNat + 8 * i)
        (returned.map fun d => d.getD (i - (e.run.map Run.first).getD 0) zeroBeat)) := by
  simp only [readBuffer, List.getElem?_map, List.getElem?_range inside, Option.map_some,
    claimList_getD resolved claimed]

section
variable {t : WindowTable} {e : Entry} {r : Run} {claims : List Claim} {i : Nat} {c : Claim} {b : BuiltBeat}
  (resolved : e.claims = some claims) (claimed : claims[r.first + i]? = some c)
  (inside : (t.treatment c).toMemory = false)
include resolved claimed inside

theorem conditionRun_of_protected (built : (conditionRun t e r)[i]? = some b) : b = gapBeat := by
  simp only [conditionRun, List.getElem?_eq_some_iff, List.getElem_map, List.getElem_range] at built
  obtain ⟨-, rfl⟩ := built
  rw [claimList_getD resolved claimed, plainBeat_of_protected inside]

theorem mergeRun_of_protected {old : List RBeat} (built : (mergeRun t e r old)[i]? = some b) : b = gapBeat := by
  simp only [mergeRun, List.getElem?_eq_some_iff, List.getElem_map, List.getElem_range] at built
  obtain ⟨-, rfl⟩ := built
  rw [claimList_getD resolved claimed, mergedBeat_of_protected inside]

theorem readBuffer_of_protected (d d' : Option (List RBeat)) :
    (readBuffer t e d)[r.first + i]? = (readBuffer t e d')[r.first + i]? := by
  by_cases short : r.first + i < e.beats
  · rw [readBuffer_getElem? resolved short claimed, readBuffer_getElem? resolved short claimed,
      readBeat_of_protected inside]
  · rw [List.getElem?_eq_none (by rw [readBuffer_length]; omega),
      List.getElem?_eq_none (by rw [readBuffer_length]; omega)]

end

/-- Settles O49: a protected beat is a gap in either write, and what is read for it does not depend on the memory. -/
theorem protectedBeatsStayInside : Obligations.ProtectedBeatsStayInside := by
  intro t e r claims i c resolved claimed inside
  have gap {b : BuiltBeat} (same : b = gapBeat) :
      b.beat = List.replicate 8 { val := 0, strobe := false } ∧ b.clamped = 0 := by
    subst same
    exact ⟨rfl, rfl⟩
  exact ⟨fun b built => gap (conditionRun_of_protected resolved claimed inside built),
    fun old b built => gap (mergeRun_of_protected resolved claimed inside built),
    readBuffer_of_protected resolved claimed inside⟩

/-! ## The patterns -/

section
variable (p : Place) (g : Pattern) (s : Nat)

theorem barOf_le {row column : Nat} (some_row : 1 ≤ row) : barOf row (column % row) ≤ 7 := by
  have inside := Nat.mod_lt column some_row
  exact Nat.le_of_lt_succ (Nat.div_lt_of_lt_mul (by omega))

theorem barsComponent_eq {j : Nat} (component : j < 4) :
    barsComponent g s j =
      if j = 3 ∨ (7 - barOf g.row.toNat (s % g.row.toNat)).testBit j = true then 255 else 0 := by
  unfold barsComponent
  by_cases alpha : j = 3
  · rw [if_neg (by omega), if_pos (.inl alpha)]
  · rw [if_pos (by omega)]
    simp only [alpha, false_or]

/-- A border sample lies in the first or last `b` columns or rows, counted as integers (R108). -/
theorem isBorder_iff :
    isBorder p g s = true ↔
      ((s % g.row.toNat : Nat) : Int) < g.border.toNat ∨
        (g.row.toNat : Int) - g.border.toNat ≤ (s % g.row.toNat : Nat) ∨
        ((s / g.row.toNat : Nat) : Int) < g.border.toNat ∨
        ((p.length / (g.row.toNat * p.format.size) : Nat) : Int) - g.border.toNat ≤ (s / g.row.toNat : Nat) := by
  rw [show p.length / (g.row.toNat * p.format.size) = wholeRows p g from rfl]
  simp only [isBorder, Bool.or_eq_true, decide_eq_true_eq]
  generalize s % g.row.toNat = column
  generalize s / g.row.toNat = row
  generalize wholeRows p g = rows
  omega

theorem noiseComponent_toNat (j : Nat) :
    (noiseComponent g s j).toNat =
      ((s % 65536 * 40503 + g.seed.toNat * 7 + j * 97) % 65536) *
        ((s % 65536 * 40503 + g.seed.toNat * 7 + j * 97) % 65536) % 65536 / 256 := by
  unfold noiseComponent
  dsimp only
  generalize (s % 65536 * 40503 + g.seed.toNat * 7 + j * 97) % 65536 = x
  rw [BitVec.toNat_ofNat]
  have := Nat.mod_lt (x * x) (show 0 < 65536 by decide)
  exact Nat.mod_eq_of_lt (by omega)

end

/-- Settles O48: each pattern's component, and each beat of the buffer by its claim. -/
theorem readBufferIsFilledByClaim : Obligations.ReadBufferIsFilledByClaim := by
  refine ⟨fun p g s j some_row component => ?patterns, fun t e returned claims i c resolved inside claimed => ?buffer⟩
  case patterns =>
    intro column row rows border
    have border_iff : isBorder p g s = true ↔ border := isBorder_iff p g s
    refine ⟨fun kind => ?solid, fun kind => ⟨barOf_le some_row, ?bars⟩,
      fun kind => ⟨fun on => ?on, fun off => ?off⟩, fun kind => ?noise⟩
    case solid => simp only [patternComponent, kind]
    case bars =>
      simp only [patternComponent, kind]
      exact barsComponent_eq g s component
    case on => simp only [patternComponent, kind, if_pos (border_iff.2 on)]
    case off => simp only [patternComponent, kind, if_neg (mt border_iff.1 off)]
    case noise =>
      simp only [patternComponent, kind]
      exact noiseComponent_toNat g s j
  case buffer =>
    intro a zero
    have beat := readBuffer_getElem? (t := t) resolved inside claimed
    refine ⟨readBuffer_length t e returned, fun goes => ⟨fun r data run answered from_run within => ?memory,
      fun unanswered => ?nothing⟩, fun fenced => ?fenced, fun w g treated group => ⟨?pattern, fun s32 => ?s32,
      fun s16 => ?s16⟩⟩
    case memory =>
      rw [beat, readBeat_of_memory goes, answered, run]
      simp only [Option.map_some, Option.getD_some, List.getD_eq_getElem?_getD, List.getElem?_eq_getElem within]
    case nothing => rw [beat, readBeat_of_memory goes, unanswered, Option.map_none, Option.getD_none]; rfl
    case fenced => rw [beat, readBeat_of_fenced fenced]; rfl
    case pattern => rw [beat, treated, readBeat_pattern group]
    case s32 => simp only [patternBeat, sampleIndex, s32, Format.size]
    case s16 => simp only [patternBeat, sampleIndex, s16, Format.size]

end Sys2Proof.Machine
end

section
/-!
CERTIFICATE. The additions to a statistics record (R80 to R83, R111, R113, R142, R143), beat by beat and all together.
-/

namespace Sys2Proof.Machine

/-! ## Saturating counters -/

theorem saturatingAdd_toNat (c : BitVec 32) (n : Nat) :
    (saturatingAdd c n).toNat = min (c.toNat + n) 4294967295 := by
  rw [saturatingAdd, BitVec.toNat_ofNat, Config.counterMax]
  exact Nat.mod_eq_of_lt (by omega)

theorem saturatingAdd_zero (c : BitVec 32) : saturatingAdd c 0 = c := by
  apply BitVec.eq_of_toNat_eq
  rw [saturatingAdd_toNat]
  have := c.isLt
  omega

/-- Two additions are one of their sum. -/
theorem saturatingAdd_add (c : BitVec 32) (m n : Nat) :
    saturatingAdd (saturatingAdd c m) n = saturatingAdd c (m + n) := by
  apply BitVec.eq_of_toNat_eq
  simp only [saturatingAdd_toNat]
  omega

/-! ## The record of the bound generation -/

section
variable {u : SummaryUnit} {g : Gen} {f : StatsRecord → StatsRecord}

theorem addTo_active (active : u.active.gen = g) : u.addTo (some g) f = { u with active := f u.active } := by
  rw [SummaryUnit.addTo, if_pos (by rw [active])]

theorem addTo_other (other : u.active.gen ≠ g) :
    u.addTo (some g) f = { u with retiring := u.retiring.map fun r => if some g = some r.gen then f r else r } :=
  if_neg fun same => other (Option.some.inj same).symm

theorem addTo_retiring {r : StatsRecord} (retiring : u.retiring = some r) (bound : r.gen = g)
    (other : u.active.gen ≠ g) : u.addTo (some g) f = { u with retiring := some (f r) } := by
  rw [addTo_other other, retiring, Option.map_some, if_pos (by rw [bound])]

theorem addTo_neither (other : u.active.gen ≠ g) (neither : ∀ r, u.retiring = some r → r.gen ≠ g) :
    u.addTo (some g) f = u := by
  rw [addTo_other other]
  cases retiring : u.retiring with
  | none => rw [Option.map_none, ← retiring]
  | some r =>
    rw [Option.map_some, if_neg fun same => neither r retiring (Option.some.inj same).symm, ← retiring]

theorem addTo_none : u.addTo none f = u := by
  obtain ⟨active, _ | r, queue⟩ := u <;> rfl

end

/-! ## The additions at acceptance -/

/-- What acceptances add to one slot's part. -/
def SlotPart.addAccepted (p : SlotPart) (fenced absorbed : Nat) : SlotPart :=
  { p with fenced := saturatingAdd p.fenced fenced, absorbed := saturatingAdd p.absorbed absorbed }

/-- What acceptances add to a record: fenced background beats, and fenced and absorbed beats by slot. -/
def StatsRecord.addAccepted (r : StatsRecord) (background : Nat) (fenced absorbed : SlotNo → Nat) : StatsRecord :=
  { r with
    background := { r.background with fenced := saturatingAdd r.background.fenced background }
    parts := r.parts.map fun p => p.addAccepted (fenced p.slot) (absorbed p.slot) }

theorem SlotPart.addAccepted_zero (p : SlotPart) : p.addAccepted 0 0 = p := by
  rw [SlotPart.addAccepted, saturatingAdd_zero, saturatingAdd_zero]

theorem StatsRecord.addAccepted_zero (r : StatsRecord) : r.addAccepted 0 (fun _ => 0) (fun _ => 0) = r := by
  simp only [StatsRecord.addAccepted, saturatingAdd_zero, SlotPart.addAccepted_zero, List.map_id']

theorem StatsRecord.addAccepted_add (r : StatsRecord) (b b' : Nat) (f f' a a' : SlotNo → Nat) :
    (r.addAccepted b f a).addAccepted b' f' a' =
      r.addAccepted (b + b') (fun n => f n + f' n) (fun n => a n + a' n) := by
  simp only [StatsRecord.addAccepted, SlotPart.addAccepted, saturatingAdd_add, List.map_map, Function.comp_def]

/-- One slot's part changed alone. -/
theorem onSlot_addAccepted (r : StatsRecord) (n : SlotNo) (fenced absorbed : Nat) :
    r.onSlot n (fun p => p.addAccepted fenced absorbed) =
      r.addAccepted 0 (fun m => if m = n then fenced else 0) (fun m => if m = n then absorbed else 0) := by
  have parts (p : SlotPart) : (if p.slot = n then p.addAccepted fenced absorbed else p) =
      p.addAccepted (if p.slot = n then fenced else 0) (if p.slot = n then absorbed else 0) := by
    split
    · rfl
    · rw [SlotPart.addAccepted_zero]
  simp only [StatsRecord.onSlot, StatsRecord.addAccepted, parts, saturatingAdd_zero]

/-- A beat is fenced for a slot. -/
def WindowTable.fencesFor (t : WindowTable) (n : SlotNo) (c : Claim) : Bool := c == .slot n && (t.treatment c).isFenced

/-- A beat of a WRITE is absorbed by a slot. -/
def WindowTable.absorbsFor (t : WindowTable) (dir : Dir) (n : SlotNo) (c : Claim) : Bool :=
  decide (dir = .write) && (c == .slot n && (t.treatment c).isPattern)

theorem fencesFor_slot (t : WindowTable) (m n : SlotNo) :
    t.fencesFor m (.slot n) = (decide (m = n) && (t.treatment (.slot n)).isFenced) := by
  by_cases same : m = n
  · subst same
    simp [WindowTable.fencesFor]
  · simp [WindowTable.fencesFor, same, Ne.symm same]

theorem absorbsFor_slot (t : WindowTable) (dir : Dir) (m n : SlotNo) :
    t.absorbsFor dir m (.slot n) =
      (decide (m = n) && (decide (dir = .write) && (t.treatment (.slot n)).isPattern)) := by
  by_cases same : m = n
  · subst same
    simp [WindowTable.absorbsFor]
  · simp [WindowTable.absorbsFor, same, Ne.symm same]

/-- A beat claimed by a slot adds to that slot's part by the slot's treatment. -/
theorem acceptBeat_slot (t : WindowTable) (dir : Dir) (r : StatsRecord) (n : SlotNo) :
    acceptBeat t dir r (.slot n) =
      r.onSlot n (fun p => p.addAccepted (if (t.treatment (.slot n)).isFenced = true then 1 else 0)
        (if (decide (dir = .write) && (t.treatment (.slot n)).isPattern) = true then 1 else 0)) := by
  cases treated : t.treatment (.slot n) with
  | forward | condition | blend =>
    simp [acceptBeat, treated, Treatment.isFenced, Treatment.isPattern, SlotPart.addAccepted_zero, StatsRecord.onSlot]
  | fenced =>
    simp [acceptBeat, treated, Treatment.isFenced, Treatment.isPattern, SlotPart.addAccepted, saturatingAdd_zero]
  | pattern w =>
    cases dir <;>
      simp [acceptBeat, treated, Treatment.isFenced, Treatment.isPattern, SlotPart.addAccepted, saturatingAdd_zero,
        StatsRecord.onSlot]

/-- The additions for one accepted beat, counted. -/
theorem acceptBeat_eq (t : WindowTable) (dir : Dir) (r : StatsRecord) (c : Claim) :
    acceptBeat t dir r c =
      r.addAccepted (if c = .backgroundFence then 1 else 0) (fun n => if t.fencesFor n c = true then 1 else 0)
        (fun n => if t.absorbsFor dir n c = true then 1 else 0) := by
  cases c with
  | backgroundPass =>
    simp [acceptBeat, WindowTable.fencesFor, WindowTable.absorbsFor, StatsRecord.addAccepted_zero]
  | backgroundFence =>
    simp [acceptBeat, WindowTable.fencesFor, WindowTable.absorbsFor, StatsRecord.addAccepted, StatsRecord.onBackground,
      SlotPart.addAccepted_zero]
  | slot n =>
    rw [acceptBeat_slot, onSlot_addAccepted]
    simp only [fencesFor_slot, absorbsFor_slot, Bool.and_eq_true, decide_eq_true_eq, reduceCtorEq, if_false, ite_and]

/-- The additions of one acceptance, counted (R51, R111, R113). -/
theorem acceptBeats_eq (t : WindowTable) (dir : Dir) (claims : List Claim) (r : StatsRecord) :
    acceptBeats t dir claims r =
      r.addAccepted (claims.count .backgroundFence) (fun n => claims.countP (t.fencesFor n))
        (fun n => claims.countP (t.absorbsFor dir n)) := by
  induction claims generalizing r with
  | nil => exact r.addAccepted_zero.symm
  | cons c rest ih =>
    have step : acceptBeats t dir (c :: rest) r = acceptBeats t dir rest (acceptBeat t dir r c) := rfl
    rw [step, ih, acceptBeat_eq, StatsRecord.addAccepted_add]
    simp only [List.countP_cons, List.count_cons, beq_iff_eq, Nat.add_comm]

/-! ## The additions at the take of a write -/

/-- The taken beats that are a slot's. -/
def WindowTable.sentFor (t : WindowTable) (taken : List (Claim × BuiltBeat)) (n : SlotNo) : List (Claim × BuiltBeat) :=
  taken.filter fun p => p.1 == .slot n && (t.treatment p.1).toMemory

/-- The taken beats that are the background's. -/
def passedBeats (taken : List (Claim × BuiltBeat)) : List (Claim × BuiltBeat) :=
  taken.filter fun p => p.1 == .backgroundPass

/-- The checksum of a slot is enabled (R80). -/
def WindowTable.sums (t : WindowTable) (n : SlotNo) : Bool :=
  ((t.window n).map fun w => w.place.checksum).getD false

theorem sums_iff (t : WindowTable) (n : SlotNo) :
    t.sums n = true ↔ ∃ w, t.slots[n] = some w ∧ w.place.checksum = true := by
  have window : t.window n = t.slots[n] := rfl
  rw [WindowTable.sums, window]
  cases t.slots[n] <;> simp

/-- What taken beats add to one slot's part. -/
def SlotPart.addIssued (p : SlotPart) (summed : Bool) (sent : List (Claim × BuiltBeat)) : SlotPart :=
  { p with
    issued := saturatingAdd p.issued sent.length
    clamped := saturatingAdd p.clamped (sent.map fun x => x.2.clamped).sum
    checksum := if summed then p.checksum + (sent.map fun x => beatChecksum x.2.beat).sum else p.checksum }

/-- What taken beats add to the background's part. -/
def BackgroundPart.addIssued (p : BackgroundPart) (passed : List (Claim × BuiltBeat)) : BackgroundPart :=
  { p with
    issued := saturatingAdd p.issued passed.length
    checksum := p.checksum + (passed.map fun x => beatChecksum x.2.beat).sum }

/-- What taken beats add to a record. -/
def StatsRecord.addIssued (r : StatsRecord) (t : WindowTable) (taken : List (Claim × BuiltBeat)) : StatsRecord :=
  { r with
    background := r.background.addIssued (passedBeats taken)
    parts := r.parts.map fun p => p.addIssued (t.sums p.slot) (t.sentFor taken p.slot) }

theorem SlotPart.addIssued_nil (p : SlotPart) (summed : Bool) : p.addIssued summed [] = p := by
  simp [SlotPart.addIssued, saturatingAdd_zero]

theorem SlotPart.issue_addIssued (p : SlotPart) (summed : Bool) (cb : Claim × BuiltBeat)
    (sent : List (Claim × BuiltBeat)) :
    (p.issue summed cb.2).addIssued summed sent = p.addIssued summed (cb :: sent) := by
  cases summed <;>
    simp [SlotPart.addIssued, SlotPart.issue, saturatingAdd_add, Nat.add_comm, BitVec.add_assoc]

theorem BackgroundPart.addIssued_nil (p : BackgroundPart) : p.addIssued [] = p := by
  simp [BackgroundPart.addIssued, saturatingAdd_zero]

theorem BackgroundPart.issue_addIssued (p : BackgroundPart) (cb : Claim × BuiltBeat)
    (passed : List (Claim × BuiltBeat)) : (p.issue cb.2).addIssued passed = p.addIssued (cb :: passed) := by
  simp [BackgroundPart.addIssued, BackgroundPart.issue, saturatingAdd_add, Nat.add_comm, BitVec.add_assoc]

theorem StatsRecord.addIssued_nil (r : StatsRecord) (t : WindowTable) : r.addIssued t [] = r := by
  have sent (n : SlotNo) : t.sentFor [] n = [] := rfl
  have passed : passedBeats [] = [] := rfl
  simp only [StatsRecord.addIssued, sent, passed, SlotPart.addIssued_nil, BackgroundPart.addIssued_nil, List.map_id']

theorem sentFor_cons (t : WindowTable) (cb : Claim × BuiltBeat) (rest : List (Claim × BuiltBeat)) (n : SlotNo) :
    t.sentFor (cb :: rest) n =
      if cb.1 = .slot n ∧ (t.treatment cb.1).toMemory = true then cb :: t.sentFor rest n else t.sentFor rest n := by
  simp only [WindowTable.sentFor, List.filter_cons, Bool.and_eq_true, beq_iff_eq]

theorem passedBeats_cons (cb : Claim × BuiltBeat) (rest : List (Claim × BuiltBeat)) :
    passedBeats (cb :: rest) = if cb.1 = .backgroundPass then cb :: passedBeats rest else passedBeats rest := by
  simp only [passedBeats, List.filter_cons, beq_iff_eq]

/-- A beat of no slot and not of the background's PASS adds nothing. -/
theorem addIssued_cons_of_neither (r : StatsRecord) (t : WindowTable) {cb : Claim × BuiltBeat}
    (rest : List (Claim × BuiltBeat)) (passes : cb.1 ≠ .backgroundPass)
    (stays : ∀ n, ¬ (cb.1 = .slot n ∧ (t.treatment cb.1).toMemory = true)) :
    r.addIssued t (cb :: rest) = r.addIssued t rest := by
  simp only [StatsRecord.addIssued, passedBeats_cons, if_neg passes, sentFor_cons, if_neg (stays _)]

/-- One taken beat and then the others. -/
theorem issueBeat_addIssued (t : WindowTable) (r : StatsRecord) (cb : Claim × BuiltBeat)
    (rest : List (Claim × BuiltBeat)) : (issueBeat t r cb).addIssued t rest = r.addIssued t (cb :: rest) := by
  obtain ⟨c, b⟩ := cb
  cases c with
  | backgroundPass =>
    have step : issueBeat t r (.backgroundPass, b) = r.onBackground fun p => p.issue b := rfl
    rw [step]
    simp only [StatsRecord.addIssued, StatsRecord.onBackground, passedBeats_cons, sentFor_cons, if_true, reduceCtorEq,
      false_and, if_false]
    rw [← BackgroundPart.issue_addIssued]
  | backgroundFence =>
    rw [addIssued_cons_of_neither r t rest (by simp) (by simp)]
    rfl
  | slot n =>
    by_cases goes : (t.treatment (.slot n)).toMemory = true
    · have step : issueBeat t r (.slot n, b) = r.onSlot n fun p => p.issue (t.sums n) b := if_pos goes
      rw [step]
      simp only [StatsRecord.addIssued, StatsRecord.onSlot, passedBeats_cons, sentFor_cons, goes, and_true, reduceCtorEq,
        if_false, List.map_map, StatsRecord.mk.injEq, true_and]
      refine List.map_congr_left fun p _ => ?_
      by_cases claimed : p.slot = n
      · subst claimed
        simp only [Function.comp_apply, if_true]
        exact SlotPart.issue_addIssued p _ (.slot p.slot, b) _
      · simp only [Function.comp_apply, if_neg claimed, Claim.slot.injEq, if_neg (Ne.symm claimed)]
    · have step : issueBeat t r (.slot n, b) = r := if_neg goes
      rw [step, addIssued_cons_of_neither r t rest (by simp) (by simp [goes])]

/-- The additions of one taken write (R80 to R83, R97). -/
theorem issueBeats_eq (t : WindowTable) (claims : List Claim) (beats : List BuiltBeat) (r : StatsRecord) :
    issueBeats t claims beats r = r.addIssued t (claims.zip beats) := by
  unfold issueBeats
  induction claims.zip beats generalizing r with
  | nil => exact (r.addIssued_nil t).symm
  | cons cb rest ih => rw [List.foldl_cons, ih, issueBeat_addIssued]

/-- The checksum of a beat is the sum of its little-endian halves (R81). -/
theorem beatChecksum_toNat (l0 l1 l2 l3 l4 l5 l6 l7 : Lane) :
    (beatChecksum [l0, l1, l2, l3, l4, l5, l6, l7]).toNat =
      ((summedByte l0 + 256 * summedByte l1) + (summedByte l2 + 256 * summedByte l3) +
        (summedByte l4 + 256 * summedByte l5) + (summedByte l6 + 256 * summedByte l7)) % 65536 := by
  rw [beatChecksum, BitVec.toNat_ofNat]
  simp only [halvesSum]
  congr 1
  omega

/-- Settles O50: the fold of an acceptance and that of a taken write add up, beat by beat, to the counts of their
beats. -/
theorem statisticsGoToTheClaimant : Obligations.StatisticsGoToTheClaimant := by
  refine ⟨fun c n => ?counter, beatChecksum_toNat, fun u g f => ⟨addTo_active, fun r retiring bound other =>
    addTo_retiring retiring bound other, addTo_neither, addTo_none⟩, fun t dir claims r => ?accepted,
    fun t claims beats r => ?issued⟩
  case counter =>
    rw [saturatingAdd_toNat]
    split <;> omega
  case accepted =>
    intro fenced absorbed
    have absorbed_eq (n : SlotNo) : claims.countP (t.absorbsFor dir n) = absorbed n := by
      cases dir with
      | write => rfl
      | read => exact congrFun List.countP_false claims
    rw [acceptBeats_eq]
    simp only [absorbed_eq]
    rfl
  case issued =>
    intro sent passed summed issued
    have total : issued = r.addIssued t (claims.zip beats) := issueBeats_eq t claims beats r
    rw [total]
    refine ⟨rfl, rfl, rfl, rfl, rfl, List.forall₂_map_right_iff.2 (List.forall₂_same.2 fun p _ => ?_)⟩
    exact ⟨rfl, rfl, rfl, rfl, rfl, rfl, fun on => if_pos ((sums_iff t p.slot).2 on),
      fun off => if_neg fun on => off ((sums_iff t p.slot).1 on)⟩

end Sys2Proof.Machine
end

section
/-!
CERTIFICATE. The step and the resets: what runs, that every command completes and leaves the queue of commands alone,
the power-on state (R24) and POWER_ON_RESET (R44, R66, R184).
-/

namespace Sys2Proof.Machine

open State

/-- Settles O1. -/
theorem stepRunsFrontCommand : Obligations.StepRunsFrontCommand := fun _ _ _ => rfl

/-! ## The queue of commands -/

theorem settle_pending (s : State) : (settle s).pending = s.pending := by
  obtain ⟨pending, -⟩ := settle_unmoved s
  exact pending

theorem offerNext_pending (s : State) : (offerNext s).pending = s.pending := by
  obtain ⟨pending, -⟩ := offerNext_unmoved s
  exact pending

theorem accept_pending (s : State) (n : EntryNo) (r : Request) : (accept s n r).pending = s.pending := by
  obtain ⟨q, -, accepted⟩ := accept_eq s n r
  rw [accepted]

theorem drain_pending (k : Nat) (s : State) : (drainRequests k s).pending = s.pending :=
  drain_keeps (fun t => t.pending = s.pending)
    (fun u n r rest h _ _ _ => by rw [settle_pending, accept_pending]; exact h) k s rfl

theorem endEntry_pending (s : State) (e : Entry) (k : Tag) (ts : TagState) (st : TxStatus) (d : Option (List RBeat)) :
    (s.endEntry e k ts st d).pending = s.pending := by
  rw [endEntry_eq]

theorem mergeOldData_pending (s : State) (e : Entry) (r : Run) (k : Tag) (d : List RBeat) :
    (s.mergeOldData e r k d).pending = s.pending := by
  unfold mergeOldData
  split
  case h_1 => rfl
  case h_2 => split <;> rfl

theorem takeResponse_pending (s : State) (e : Entry) (k : Tag) (kind : Dir) (st : DownStatus) (d : List RBeat) :
    (s.takeResponse e k kind st d).pending = s.pending := by
  obtain same | ⟨r, merged⟩ | ⟨returned, ended⟩ | ⟨r, dir, failed⟩ := takeResponse_cases s e k kind st d
  · rw [same]
  · rw [merged, mergeOldData_pending]
  · rw [ended, endEntry_pending]
  · rw [failed, endInError, post_pending, endEntry_pending]

theorem countRetired_pending (s : State) (bound : Option Gen) : (s.countRetired bound).pending = s.pending := by
  unfold countRetired
  split
  case h_1 => rfl
  case h_2 =>
    split
    case isTrue => rfl
    case isFalse =>
      split
      case h_1 => rfl
      case h_2 =>
        split
        case isTrue => dsimp only; split <;> rfl
        case isFalse => rfl

theorem retire_pending (s : State) (e : Entry) : (s.retire e).pending = s.pending := by
  rw [retire, refreshAlert_pending, drain_pending, settle_pending, setOffer_pending, countRetired_pending,
    release_pending]

theorem releaseReset_pending (s : State) (midFrame : Bool) : (s.releaseReset midFrame).pending = s.pending := by
  unfold releaseReset
  split
  case isTrue => rw [refreshAlert_pending, drain_pending, cutFrame_pending]
  case isFalse => rfl

theorem advanceGeneration_pending (s : State) : s.advanceGeneration.pending = s.pending := by
  unfold advanceGeneration
  split <;> rfl

theorem purge_pending (l : List Tag) (s : State) : (l.foldl purgeTag s).pending = s.pending := by
  induction l generalizing s with
  | nil => rfl
  | cons k l ih =>
    have one : (purgeTag s k).pending = s.pending := by
      unfold purgeTag
      split <;> rfl
    rw [List.foldl_cons, ih, one]

theorem move_pending {s t : State} (hm : s.Move t) : t.pending = s.pending := by
  cases hm with
  | arrive q => rw [arrive, refreshAlert_pending, drain_pending]
  | retire o e => exact retire_pending s e
  | accepted d => exact settle_pending _
  | late k o => exact settle_pending _
  | response k n fl e status data => exact (settle_pending _).trans (takeResponse_pending s e k _ _ _)
  | expiry k n fl e r => exact (settle_pending _).trans (endEntry_pending s e k _ _ _)
  | releaseReset midFrame => exact releaseReset_pending s midFrame
  | pulseReset midFrame => exact releaseReset_pending (s.assertReset midFrame) midFrame
  | commit => exact advanceGeneration_pending s
  | purge b p =>
    rw [refreshAlert_pending, respond_pending, settle_pending, purge_pending, setMiso_pending]
  | softReset b => exact offerNext_pending _
  | same | stray | assertReset | link | staging | mask | summaryPop | faultPop => rfl

/-- The expiry of a deadline is a run of changes and of counted edges. -/
theorem takeExpiry_pending (s : State) (k : Tag) : (s.takeExpiry k).pending = s.pending := by
  have kept {u v : State} (h : Relation.ReflTransGen State.Change u v) : v.pending = u.pending := by
    induction h with
    | refl => rfl
    | tail _ change ih =>
      rcases change with moved | rfl
      · rw [move_pending moved, ih]
      · rw [elapse_pending, ih]
  exact kept (takeExpiry_changes s k)

/-- Settles O2: a command makes one of the listed changes or is the expiry of a deadline. -/
theorem everyCommandCompletes : Obligations.EveryCommandCompletes := by
  intro c s
  obtain ⟨t, ran, moved | ⟨k, -, rfl⟩⟩ := exec_cases c s
  · exact ⟨t, ran, move_pending moved⟩
  · exact ⟨s.takeExpiry k, ran, takeExpiry_pending s k⟩

/-! ## The power-on state -/

/-- Settles O4. -/
theorem resetStateHoldsPowerOnValues : Obligations.ResetStateHoldsPowerOnValues :=
  ⟨rfl, rfl, rfl, rfl, rfl, rfl, rfl, rfl, rfl, rfl, rfl, reset_merge, reset_tag, rfl, rfl, rfl, rfl, rfl, rfl, rfl,
    rfl, rfl, rfl⟩

theorem reset_alert : State.reset.AlertFollows :=
  have same : State.reset.refreshAlert = State.reset := by decide +kernel
  same ▸ refreshAlert_follows State.reset

theorem reset_settled : State.reset.Settled where
  grant := fun _ _ live => absurd live List.not_mem_nil
  take := fun _ =>
    ⟨fun _ live => absurd live List.not_mem_nil, fun m w busy => by rw [reset_merge] at busy; cases busy⟩
  offer := fun _ older e younger split => absurd split (reset_entries_ne older younger e)
  accept := fun waits => absurd rfl waits
  expiry := fun k n fl flying => by rw [reset_tag] at flying; cases flying

/-- Settles O52. -/
theorem resetIsSound : Obligations.ResetIsSound where
  bounded := ⟨Nat.zero_le 8, Nat.zero_le 4⟩
  alert := reset_alert
  reset := ResetHeld_of_released rfl
  generations := reset_generations
  summaries := reset_summaries
  counts := reset_counts
  path := reset_path
  order := reset_table.2.1
  offer := reset_table.2.2
  settled := reset_settled

/-! ## POWER_ON_RESET -/

/-- The state right after the pin is released, before the requests that wait are accepted. -/
def State.released (s : State) (midFrame : Bool) : State := { s.cutFrame midFrame with resetAsserted := false }

theorem releaseReset_of_asserted {s : State} (asserted : s.resetAsserted = true) (midFrame : Bool) :
    s.releaseReset midFrame = (drainRequests 16 (s.released midFrame)).refreshAlert := if_pos asserted

/-- Both edges of a pulse cut the same frame. -/
theorem assertReset_released (s : State) (midFrame : Bool) :
    (s.assertReset midFrame).released midFrame =
      { State.reset with
        pending := s.pending
        requests := s.requests
        link := { State.reset.link with cut := s.link.cut || midFrame } } := by
  have once : (s.link.cut || midFrame || midFrame) = (s.link.cut || midFrame) := by
    rw [Bool.or_assoc, Bool.or_self]
  exact congrArg
    (fun cut =>
      { State.reset with pending := s.pending, requests := s.requests, link := { State.reset.link with cut := cut } })
    once

theorem exec_pulse (s : State) (midFrame : Bool) :
    exec (.powerOnReset ⟨.pulse, midFrame⟩) s =
      .next (drainRequests 16
        { State.reset with
          pending := s.pending
          requests := s.requests
          link := { State.reset.link with cut := s.link.cut || midFrame } }).refreshAlert := by
  rw [← assertReset_released, ← releaseReset_of_asserted rfl]
  rfl

/-- From an empty table the requests that wait are accepted in arrival order, as many as there are entries (R44). -/
theorem drain_from_reset {u : State} (path : u.PathSound) (released : u.resetAsserted = false)
    (empty : u.table.entries = []) (gens : u.gens = State.reset.gens) :
    let t := (drainRequests 16 u).refreshAlert
    t.pending = u.pending ∧ t.resetAsserted = false ∧ t.link.cut = u.link.cut ∧ t.gens = State.reset.gens ∧
      t.requests = u.requests.drop 16 ∧
      t.table.entries.map (fun e => (e.dir, e.id, e.addr, e.beats, e.bound)) =
        (u.requests.take 16).map (fun q => (q.dir, q.id, q.addr, q.beats, some 0)) := by
  obtain ⟨pending, reset, banks, link, requests, entries⟩ := drain_inOrder 16 u path released (by rw [empty]; rfl)
  rw [empty, List.map_nil, List.nil_append, gens] at entries
  exact ⟨pending, reset, congrArg Link.cut link, banks.trans gens, requests, entries⟩

/-- Settles O5: both edges put every block back or find it there, and a release accepts what waits. -/
theorem powerOnResetPutsEveryBlockBack : Obligations.PowerOnResetPutsEveryBlockBack := by
  intro s midFrame linkAfter
  refine ⟨rfl, fun released => ?twice, fun asserted idle => ?released, fun idle => ?pulse, fun q alone form => ?one,
    ⟨_, exec_pulse s midFrame, ?pulseOrder⟩, fun asserted held => ⟨_, rfl, ?releaseOrder⟩⟩
  case twice => exact congrArg Host.Outcome.next (if_neg (by rw [released]; decide))
  case released =>
    have drained : drainRequests 16 (s.released midFrame) = s.released midFrame := drain_idle 16 _ (.inl idle)
    refine congrArg Host.Outcome.next ((releaseReset_of_asserted asserted midFrame).trans ?_)
    rw [drained]
    rfl
  case pulse =>
    rw [exec_pulse, idle, drain_idle 16 _ (.inl rfl)]
    exact congrArg Host.Outcome.next
      (refreshAlert_of_follows _ (AlertFollows_congr reset_alert rfl rfl rfl rfl rfl Iff.rfl))
  case one =>
    rw [exec_pulse, alone, exec_command q _ form]
    rfl
  case pulseOrder => exact drain_from_reset (reset_path.congr rfl rfl rfl) rfl rfl rfl
  case releaseOrder =>
    have shape := held asserted
    have path : (s.released midFrame).PathSound := by
      rw [shape]
      exact reset_path.congr rfl rfl rfl
    have entries : (s.released midFrame).table.entries = [] := by rw [shape]; rfl
    have gens : (s.released midFrame).gens = State.reset.gens := by rw [shape]; rfl
    rw [releaseReset_of_asserted asserted]
    exact drain_from_reset path rfl entries gens

/-! ## Requests that wait -/

/-- Settles O8: a request that joins the channel changes nothing else while none can be accepted. -/
theorem requestWaitsOnTheChannel : Obligations.RequestWaitsOnTheChannel := by
  intro s q follows form waits
  have idle : ({ s with requests := s.requests ++ [q] } : State).resetAsserted = true ∨
      ({ s with requests := s.requests ++ [q] } : State).freeEntry = none :=
    waits.imp id fun full => (freeEntry_eq_none _).2 full
  rw [exec_command q s form, arrive, drain_idle 16 _ (.inr idle), refreshAlert_of_follows]
  exact AlertFollows_congr follows rfl rfl rfl rfl rfl Iff.rfl

end Sys2Proof.Machine
end

section
/-!
CERTIFICATE. The acceptance of a well-formed request (R49 to R54): the entry it takes, and its way to the downstream
channel on a quiet path.
-/

namespace Sys2Proof.Machine

open State

/-! ## The entry of a well-formed request -/

theorem resolvedEntry_eq (n : EntryNo) (q : Request) (g : Gen) (t : WindowTable) :
    resolvedEntry n q g t =
      { no := n, id := q.id, dir := q.dir, addr := q.addr, beats := q.beats, wdata := q.data
        bound := some g, claims := some (t.claimsOf q)
        merge := decide (q.dir = .write ∧ ∃ c ∈ t.claimsOf q, (t.treatment c).isBlend = true)
        run := t.runOf (t.claimsOf q), span := (t.runOf (t.claimsOf q)).map (spanOf q.addr), blockers := []
        state := .waiting, tag := none, slot := none
        status := if ∃ c ∈ t.claimsOf q, (t.treatment c).isFenced = true then .refused else .done, rdata := [] } := by
  have merge : (decide (q.dir = .write) && (t.claimsOf q).any fun c => (t.treatment c).isBlend) =
      decide (q.dir = .write ∧ ∃ c ∈ t.claimsOf q, (t.treatment c).isBlend = true) := by
    rw [Bool.eq_iff_iff, Bool.and_eq_true, decide_eq_true_eq, decide_eq_true_eq, List.any_eq_true]
  rw [resolvedEntry, merge]
  simp only [List.any_eq_true]

theorem placedEntry_eq (t : WindowTable) (live : List Entry) (e : Entry) :
    placedEntry t live e =
      if e.run = none then
        { e with state := .complete, rdata := if e.dir = .read then readBuffer t e none else e.rdata }
      else
        { e with
          blockers := (live.filter (Entry.conflicts e)).map Entry.no
          state := if (live.filter (Entry.conflicts e)).map Entry.no = [] then .waiting else .held } := by
  unfold placedEntry
  cases run : e.run with
  | none => rw [if_pos rfl, completionData_eq]
  | some r =>
    rw [if_neg (by simp)]
    simp only [List.isEmpty_iff]

/-- The slot of the record of a fenced beat (R114). -/
theorem slot_getD (claims : List Claim) (i : Nat) :
    (claims.getD i .backgroundFence).slot? = (claims[i]?).bind Claim.slot? := by
  rw [List.getD_eq_getElem?_getD]
  cases claims[i]? <;> rfl

/-- The Fault Queue after the FENCED record of a request's claims, if it has one (R51, R114). -/
def State.fencedFaults (s : State) (q : Request) (t : WindowTable) (claims : List Claim) : List FaultRecord :=
  match claims.findIdx? fun c => (t.treatment c).isFenced with
  | none => s.faults
  | some i =>
    postRecord s.faults
      { kind := .fenced, dir := q.dir, lost := false, id := some q.id, addr := some (q.addr + BitVec.ofNat 36 (8 * i))
        gen := some s.gens.active.number, slot := (claims[i]?).bind Claim.slot?, tag := none, phase := none }

theorem postFenced_eq (s : State) (q : Request) (t : WindowTable) (claims : List Claim) :
    s.postFenced q t claims = { s with faults := s.fencedFaults q t claims } := by
  unfold postFenced fencedFaults
  cases claims.findIdx? fun c => (t.treatment c).isFenced with
  | none => rfl
  | some i =>
    dsimp only
    rw [fencedRecord, slot_getD]
    rfl

/-- The acceptance of a well-formed request (R51). -/
theorem accept_wellFormed {s : State} {q : Request} (inForm : q.InForm) (n : EntryNo) :
    accept s n q =
      { s with
        table :=
          { s.table with
            entries := s.table.entries ++ [acceptedEntry s n q]
            activeCount := s.table.activeCount + 1 }
        stats := acceptedStats s q
        faults := s.fencedFaults q s.gens.active.table (s.gens.active.table.claimsOf q) } := by
  have wellFormed := (wellFormed_iff q).2 inForm
  simp only [accept, acceptedEntry, acceptedStats, if_pos wellFormed, postFenced_eq]
  rfl

theorem acceptedEntry_wellFormed {s : State} {q : Request} (inForm : q.InForm) (n : EntryNo) :
    acceptedEntry s n q =
      placedEntry s.gens.active.table s.table.entries
        (resolvedEntry n q s.gens.active.number s.gens.active.table) :=
  if_pos ((wellFormed_iff q).2 inForm)

theorem acceptedStats_wellFormed {s : State} {q : Request} (inForm : q.InForm) :
    acceptedStats s q =
      s.stats.addTo (some s.gens.active.number)
        (acceptBeats s.gens.active.table q.dir (s.gens.active.table.claimsOf q)) :=
  if_pos ((wellFormed_iff q).2 inForm)

/-- Settles O10: the acceptance in one piece, then the settling of what it starts. -/
theorem wellFormedRequestTakesItsFirstState : Obligations.WellFormedRequestTakesItsFirstState := by
  intro s q n released quiet free form inForm table claims fenced run plain blockers entry accepted
  have resolved : resolvedEntry n q s.gens.active.number table = plain :=
    resolvedEntry_eq n q s.gens.active.number table
  have placed : placedEntry table s.table.entries plain = entry := placedEntry_eq table s.table.entries plain
  have taken : acceptedEntry s n q = entry := by rw [acceptedEntry_wellFormed inForm, resolved, placed]
  have posted : accept s n q = accepted := by
    rw [accept_wellFormed inForm, taken, acceptedStats_wellFormed inForm]
    rfl
  rw [exec_request s n q released quiet free form, posted]

end Sys2Proof.Machine
end

section
/-!
CERTIFICATE. A request accepted on a quiet path (R54, R66, R86, R121, R125): its grant and its take in the step of its
acceptance.
-/

namespace Sys2Proof.Machine

open State

/-! ## The youngest entry alone can proceed -/

/-- An entry in a state, with the tag it is granted. -/
def Entry.holding (e : Entry) (st : EntryState) (k : Tag) : Entry := { e with state := st, tag := some k }

/-- A merge entry with the tag and the merge slot it is granted. -/
def Entry.mergingOn (e : Entry) (k : Tag) (m : MergeNo) : Entry :=
  { e with state := .merging, tag := some k, slot := some m }

/-- A path on which nothing waits but the youngest entry: the channel is free, no older entry and no merge slot
waits, and a tag and a merge slot are FREE. -/
structure State.QuietBefore (s : State) (older : List Entry) (e : Entry) (r : Run) (k : Tag) (m : MergeNo) : Prop where
  entries : s.table.entries = older ++ [e]
  waiting : e.state = .waiting
  run : e.run = some r
  fresh : ∀ x ∈ older, x.no ≠ e.no
  calm : ∀ x ∈ older, x.state ≠ .waiting ∧ x.state ≠ .issuing
  channel : s.port.channel = none
  merges : ∀ (j : MergeNo) w, s.merge[j] = some w → w.phase.waits = false
  tag : s.freeTag = some k
  slot : s.freeMergeSlot = some m
  unheld : ∀ x ∈ older, x.slot ≠ some m

/-- The youngest entry replaced. -/
theorem setEntry_youngest {u : State} {older : List Entry} {x y : Entry} (entries : u.table.entries = older ++ [x])
    (fresh : ∀ z ∈ older, z.no ≠ y.no) (same : x.no = y.no) : (u.setEntry y).table.entries = older ++ [y] := by
  rw [setEntry_table_entries, entries]
  exact youngest_replaced older x y fresh same

/-- The port after the grant of a tag to a plain entry and the take on it. -/
theorem grantTo_plain_port (s : State) {e : Entry} (plain : e.merge = false) (r : Run) (k : Tag) (kind : Dir)
    (data : List WBeat) (side : Side) :
    ((grantTo s e k).present (e.holding .issuing k) r k kind data side).port =
      { tags := s.port.tags.set k (.bound e.no (some { kind := kind, deadline := s.newDeadline }))
        channel := some { kind := kind, tag := k, addr := e.runAddr r, beats := r.count, data := data }
        lastServed := side } := by
  rw [grantTo_plain s e k plain, ← Vector.set_set (.bound e.no none)]
  rfl

/-- The port after the grant of a tag to a merge entry and the take on it. -/
theorem grantTo_merge_port (s : State) {e : Entry} {m : MergeNo} (merge : e.merge = true)
    (slot : s.freeMergeSlot = some m) (r : Run) (k : Tag) (kind : Dir) (data : List WBeat) (side : Side) :
    ((grantTo s e k).present (e.mergingOn k m) r k kind data side).port =
      { tags := s.port.tags.set k (.bound e.no (some { kind := kind, deadline := s.newDeadline }))
        channel := some { kind := kind, tag := k, addr := e.runAddr r, beats := r.count, data := data }
        lastServed := side } := by
  rw [grantTo_merge s e k m merge slot, ← Vector.set_set (.bound e.no none)]
  rfl

namespace State.QuietBefore

variable {s : State} {older : List Entry} {e : Entry} {r : Run} {k : Tag} {m : MergeNo}
  (h : s.QuietBefore older e r k m)
include h

theorem arbitrate_eq : arbitrate s = s := by
  refine arbitrate_idle s (s.forwardCandidate_none.2 fun x live => ?_)
    (s.mergeCandidate_none.2 fun x _ j w _ busy => h.merges j w busy)
  rw [h.entries, List.mem_append, List.mem_singleton] at live
  rcases live with live | rfl
  · exact (h.calm x live).2
  · rw [h.waiting]
    decide

theorem grantOne_eq : grantOne s = some (grantTo s e k) := by
  obtain ⟨vacant, -⟩ := (s.freeMergeSlot_eq_some m).1 h.slot
  refine (grantOne_iff s _).2 ⟨k, older, e, [], h.tag, h.entries,
    (canProceed_iff s e).2 ⟨h.waiting, fun _ => ⟨m, vacant⟩⟩, fun x live => Bool.eq_false_iff.2 fun can => ?_, rfl⟩
  exact (h.calm x live).1 ((canProceed_iff s x).1 can).1

/-- Settling is the grant to the youngest entry and the take that it allows. -/
theorem settle_eq {t : State} {e' : Entry} (taken : arbitrate (grantTo s e k) = t)
    (entries : t.table.entries = older ++ [e']) (moved : e'.state ≠ .waiting) : settle s = offerNext t := by
  refine settle_one s _ t h.arbitrate_eq h.grantOne_eq taken fun x live => ?_
  rw [entries, List.mem_append, List.mem_singleton] at live
  rcases live with live | rfl
  · exact (h.calm x live).1
  · exact moved

/-! ## A plain entry -/

section
variable (plain : e.merge = false)
include plain

theorem grantTo_plain_entries : (grantTo s e k).table.entries = older ++ [e.holding .issuing k] := by
  rw [grantTo_plain s e k plain]
  exact setEntry_youngest (y := e.holding .issuing k) h.entries h.fresh rfl

theorem arbitrate_grantTo_plain :
    arbitrate (grantTo s e k) = takePlain (grantTo s e k) (e.holding .issuing k) := by
  have candidate : (grantTo s e k).forwardCandidate = some (e.holding .issuing k) :=
    (forwardCandidate_iff _ _).2 ⟨older, [], h.grantTo_plain_entries plain, rfl, fun x live => (h.calm x live).2⟩
  rw [grantTo_plain s e k plain] at candidate ⊢
  exact arbitrate_forward h.channel candidate
    ((mergeCandidate_none _).2 fun x _ j w _ busy => h.merges j w busy)

/-- A READ is taken at once. -/
theorem settle_read (read : e.dir = .read) :
    (settle s).table.entries = older ++ [e.holding .outstanding k] ∧ (settle s).merge = s.merge ∧
      (settle s).port =
        { tags := s.port.tags.set k (.bound e.no (some { kind := .read, deadline := s.newDeadline }))
          channel := some { kind := .read, tag := k, addr := e.runAddr r, beats := r.count, data := [] }
          lastServed := .forward } := by
  have taken := h.arbitrate_grantTo_plain plain
  rw [takePlain_read _ (e.holding .issuing k) k r rfl h.run read] at taken
  have entries := setEntry_youngest (y := e.holding .outstanding k)
    (u := (grantTo s e k).present (e.holding .issuing k) r k .read [] .forward)
    (h.grantTo_plain_entries plain) h.fresh rfl
  rw [h.settle_eq taken entries (by simp [Entry.holding])]
  obtain ⟨offered, merge, port, -⟩ := offerNext_fields
    (((grantTo s e k).present (e.holding .issuing k) r k .read [] .forward).setEntry (e.holding .outstanding k))
  refine ⟨offered.trans entries, merge.trans ?_, port.trans (grantTo_plain_port s plain r k .read [] .forward)⟩
  rw [grantTo_plain s e k plain]
  rfl

/-- A plain WRITE is taken at once, with its conditioned beats counted. -/
theorem settle_write (write : e.dir = .write) :
    let beats := conditionRun (s.tableOf e.bound) e r
    (settle s).table.entries = older ++ [e.holding .outstanding k] ∧ (settle s).merge = s.merge ∧
      (settle s).port =
        { tags := s.port.tags.set k (.bound e.no (some { kind := .write, deadline := s.newDeadline }))
          channel :=
            some { kind := .write, tag := k, addr := e.runAddr r, beats := r.count, data := beats.map BuiltBeat.beat }
          lastServed := .forward } ∧
      (settle s).stats = s.stats.addTo e.bound (issueBeats (s.tableOf e.bound) (e.runClaims r) beats) := by
  intro beats
  have table : (grantTo s e k).tableOf e.bound = s.tableOf e.bound := by
    rw [grantTo_plain s e k plain]
    rfl
  have built : conditionRun ((grantTo s e k).tableOf (e.holding .issuing k).bound) (e.holding .issuing k) r = beats :=
    congrArg (fun t => conditionRun t e r) table
  have taken := h.arbitrate_grantTo_plain plain
  rw [takePlain_write _ (e.holding .issuing k) k r rfl h.run write, built] at taken
  have port := grantTo_plain_port s plain r k .write (beats.map BuiltBeat.beat) .forward
  have kept : (grantTo s e k).merge = s.merge ∧ (grantTo s e k).stats = s.stats := by
    rw [grantTo_plain s e k plain]
    exact ⟨rfl, rfl⟩
  obtain ⟨merge, stats⟩ := kept
  have entries := setEntry_youngest (y := e.holding .outstanding k)
    (u := (grantTo s e k).present (e.holding .issuing k) r k .write (beats.map BuiltBeat.beat) .forward)
    (h.grantTo_plain_entries plain) h.fresh rfl
  rw [h.settle_eq taken (e' := e.holding .outstanding k) entries (by simp [Entry.holding])]
  obtain ⟨offered, merged, ported, counted⟩ := offerNext_fields
    ((((grantTo s e k).present (e.holding .issuing k) r k .write (beats.map BuiltBeat.beat) .forward).setEntry
      (e.holding .outstanding k)).countIssued (e.holding .issuing k) r beats)
  refine ⟨offered.trans entries, merged.trans merge, ported.trans port, counted.trans ?_⟩
  rw [← stats, ← table]
  rfl

end

/-! ## A merge entry -/

section
variable (merge : e.merge = true)
include merge

/-- The merge entry with its tag and its merge slot. -/
theorem grantTo_merge_entries :
    (grantTo s e k).table.entries = older ++ [e.mergingOn k m] := by
  rw [grantTo_merge s e k m merge h.slot]
  exact setEntry_youngest (y := (e.mergingOn k m)) h.entries h.fresh rfl

/-- The old-data read of a merge entry is taken at once. -/
theorem settle_merge :
    (settle s).table.entries = older ++ [e.mergingOn k m] ∧
      (settle s).merge = s.merge.set m (some { entry := e.no, phase := .readOut, oldData := [], merged := [] }) ∧
      (settle s).port =
        { tags := s.port.tags.set k (.bound e.no (some { kind := .read, deadline := s.newDeadline }))
          channel := some { kind := .read, tag := k, addr := e.runAddr r, beats := r.count, data := [] }
          lastServed := .merge } := by
  have slots : (grantTo s e k).merge =
      s.merge.set m (some { entry := e.no, phase := .readWait, oldData := [], merged := [] }) := by
    rw [grantTo_merge s e k m merge h.slot]
    rfl
  have channel : (grantTo s e k).port.channel = none := by
    rw [grantTo_merge s e k m merge h.slot]
    exact h.channel
  have idle : (grantTo s e k).forwardCandidate = none := by
    refine (forwardCandidate_none _).2 fun x live => ?_
    rw [h.grantTo_merge_entries merge, List.mem_append, List.mem_singleton] at live
    rcases live with live | rfl
    · exact (h.calm x live).2
    · simp [Entry.mergingOn]
  have candidate : (grantTo s e k).mergeCandidate =
      some ((e.mergingOn k m), m,
        { entry := e.no, phase := .readWait, oldData := [], merged := [] }) := by
    refine (mergeCandidate_iff _ _ _ _).2 ⟨older, [], h.grantTo_merge_entries merge, rfl, ?_, rfl,
      fun x live j w at_j busy => ?_⟩
    · rw [slots, store_set_get, if_pos rfl]
    · have other : m ≠ j := fun same => h.unheld x live (same ▸ at_j)
      rw [slots, store_set_get, if_neg other] at busy
      exact h.merges j w busy
  have taken := arbitrate_merge channel idle candidate
  rw [takeMerge_read _ (e.mergingOn k m) k r m _ rfl h.run rfl] at taken
  have entries := h.grantTo_merge_entries merge
  rw [h.settle_eq taken entries (by simp [Entry.mergingOn])]
  obtain ⟨offered, merged, ported, -⟩ := offerNext_fields
    (((grantTo s e k).present (e.mergingOn k m) r k .read [] .merge).setMerge m
      (some { entry := e.no, phase := .readOut, oldData := [], merged := [] }))
  refine ⟨offered.trans entries, merged.trans ?_, ported.trans (grantTo_merge_port s merge h.slot r k .read [] .merge)⟩
  rw [← Vector.set_set (some { entry := e.no, phase := .readWait, oldData := [], merged := [] }), ← slots]
  rfl

end

end State.QuietBefore

/-! ## The accepted request -/

theorem meets_comm (a b : Span) : a.meets b = b.meets a := by
  rw [Span.meets, Span.meets, Bool.and_comm]

/-- Spans that meet only where both are read do not conflict (R52). -/
theorem conflicts_of_apart {x e : Entry} {own : Span} (span : e.span = some own)
    (apart : ∀ other, x.span = some other → other.meets own = true → x.dir = .read ∧ e.dir = .read) :
    Entry.conflicts e x = false := by
  unfold Entry.conflicts
  rw [span]
  cases held : x.span with
  | none => rfl
  | some other =>
    dsimp only
    rw [meets_comm]
    cases meets : other.meets own with
    | false => rfl
    | true =>
      obtain ⟨older_reads, reads⟩ := apart other held meets
      rw [older_reads, reads]
      rfl

section
variable {s : State} {q : Request} {n : EntryNo} {r : Run} (inForm : q.InForm)
  (run : s.gens.active.table.runOf (s.gens.active.table.claimsOf q) = some r)
  (apart : ∀ x ∈ s.table.entries, ∀ other, x.span = some other →
    other.meets (spanOf q.addr r) = true → x.dir = .read ∧ q.dir = .read)
include inForm run apart

/-- Without a conflict the entry of a request with a memory run is WAITING (R51, R52). -/
theorem acceptedEntry_apart :
    acceptedEntry s n q = resolvedEntry n q s.gens.active.number s.gens.active.table := by
  have blockers : s.table.entries.filter
      (Entry.conflicts (resolvedEntry n q s.gens.active.number s.gens.active.table)) = [] :=
    List.filter_eq_nil_iff.2 fun x live => Bool.eq_false_iff.1
      (conflicts_of_apart (congrArg (Option.map (spanOf q.addr)) run) (apart x live))
  have has_run : (resolvedEntry n q s.gens.active.number s.gens.active.table).run ≠ none := fun none => by
    cases run.symm.trans none
  rw [acceptedEntry_wellFormed inForm, placedEntry_eq, if_neg has_run, blockers]
  rfl

/-- An acceptance on a quiet path leaves it quiet but for the new entry. -/
theorem accept_quietBefore {k : Tag} {m : MergeNo} (path : s.PathSound) (free : s.freeEntry = some n)
    (tag : s.freeTag = some k) (slot : s.freeMergeSlot = some m) (channel : s.port.channel = none)
    (calm : ∀ x ∈ s.table.entries, x.state ≠ .waiting ∧ x.state ≠ .issuing)
    (merges : ∀ (j : MergeNo) w, s.merge[j] = some w → w.phase.waits = false) :
    (accept s n q).QuietBefore s.table.entries (resolvedEntry n q s.gens.active.number s.gens.active.table) r k m := by
  obtain ⟨unused, -⟩ := (s.freeEntry_eq_some n).1 free
  obtain ⟨vacant, -⟩ := (s.freeMergeSlot_eq_some m).1 slot
  rw [accept_wellFormed inForm, acceptedEntry_apart inForm run apart]
  exact {
    entries := rfl
    waiting := rfl
    run := run
    fresh := unused
    calm := calm
    channel := channel
    merges := merges
    tag := tag
    slot := slot
    unheld := fun x live at_m => by
      obtain ⟨w, -, -, busy, -⟩ := path.work live at_m
      cases vacant.symm.trans busy }

end

/-- What an acceptance leaves as it is, and the statistics after it. -/
theorem accept_fields {s : State} {q : Request} (inForm : q.InForm) (n : EntryNo) :
    (accept s n q).port = s.port ∧ (accept s n q).merge = s.merge ∧ (accept s n q).gens = s.gens ∧
      (accept s n q).link = s.link ∧ (accept s n q).stats = acceptedStats s q := by
  rw [accept_wellFormed inForm]
  exact ⟨rfl, rfl, rfl, rfl, rfl⟩

/-- Settles O11: the acceptance leaves the path quiet but for its entry, which is granted and taken as it settles. -/
theorem acceptedRequestIsTakenAtOnce : Obligations.AcceptedRequestIsTakenAtOnce := by
  intro s q n k m run path released quiet free tag slot channel calm merges form inForm table claims blends flight
    presented spans apart
  have ready := accept_quietBefore inForm spans apart path free tag slot channel calm merges
  obtain ⟨port, slots, gens, link, stats⟩ := accept_fields (s := s) inForm n
  have deadline : (accept s n q).newDeadline = if s.link.timeout = 0 then none else some s.link.timeout.toNat := by
    rw [newDeadline_eq, link]
  have bound : (accept s n q).tableOf (resolvedEntry n q s.gens.active.number table).bound = table := by
    rw [State.tableOf, gens]
    exact if_pos rfl
  have merge_iff : (resolvedEntry n q s.gens.active.number table).merge = true ↔ q.dir = .write ∧ blends := by
    rw [resolvedEntry_eq, decide_eq_true_iff]
    rfl
  rw [exec_request s n q released quiet free form]
  by_cases merge : (resolvedEntry n q s.gens.active.number table).merge = true
  · obtain ⟨write, blend⟩ := merge_iff.1 merge
    obtain ⟨entries, merged, ported⟩ := ready.settle_merge merge
    rw [port, deadline] at ported
    refine ⟨_, _, rfl, entries, rfl, rfl, rfl, rfl, rfl, rfl, rfl, fun read => ?_, fun _ plain => absurd blend plain,
      fun _ _ => ⟨rfl, rfl, ?_, ?_, ?_, ?_⟩⟩
    · cases read.symm.trans write
    · exact congrArg MemoryPort.lastServed ported
    · exact merged.trans (by rw [slots]; rfl)
    · exact congrArg MemoryPort.tags ported
    · exact congrArg MemoryPort.channel ported
  · have plain : (resolvedEntry n q s.gens.active.number table).merge = false := Bool.eq_false_iff.2 merge
    cases dir : q.dir with
    | read =>
      obtain ⟨entries, merged, ported⟩ := ready.settle_read plain dir
      rw [port, deadline] at ported
      refine ⟨_, _, rfl, entries, rfl, rfl, rfl, rfl, rfl, rfl, rfl, fun _ => ⟨rfl, merged.trans slots, ?_, ?_, ?_⟩,
        fun write => ?_, fun write => ?_⟩
      · exact congrArg MemoryPort.lastServed ported
      · exact congrArg MemoryPort.tags ported
      · exact congrArg MemoryPort.channel ported
      · cases write
      · cases write
    | write =>
      obtain ⟨entries, merged, ported, counted⟩ := ready.settle_write plain dir
      rw [port, deadline, bound] at ported
      rw [stats, acceptedStats_wellFormed inForm, dir, bound] at counted
      refine ⟨_, _, rfl, entries, rfl, rfl, rfl, rfl, rfl, rfl, rfl, fun read => ?_,
        fun _ _ => ⟨rfl, merged.trans slots, ?_, ?_, ?_, counted⟩,
        fun _ blend => absurd (merge_iff.2 ⟨dir, blend⟩) merge⟩
      · cases read
      · exact congrArg MemoryPort.lastServed ported
      · exact congrArg MemoryPort.tags ported
      · exact congrArg MemoryPort.channel ported

end Sys2Proof.Machine
end
